-- ==== Sys2Proof/Word.lean ====
section
/-! DEFINITION. The word types of the Thigor T48 and their plainest arithmetic (R4, R5, R9). -/

namespace Sys2Proof

/-- A byte of any memory. -/
abbrev Byte := BitVec 8
/-- A slot word, head word or flag word (R159, R319). -/
abbrev Word32 := BitVec 32
/-- A scalar register (R70). -/
abbrev Word := BitVec 64
/-- A vector register of a compute die: 128 lanes of 32 bits, lane 0 lowest (R16, R76). -/
abbrev DieVec := BitVec 4096
/-- A vector register of a cellar context: 16 lanes of 32 bits (R336). -/
abbrev CelVec := BitVec 512

/-- Bits `lo+n-1 : lo` of a value, read as an unsigned number (R5). -/
def field {w : Nat} (v : BitVec w) (lo n : Nat) : Nat := (v.toNat >>> lo) % 2 ^ n

/-- `SignExt(v, n)` of R9: the low `n` bits of a number read as two's complement. -/
def sext (n : Nat) (v : Nat) : Int :=
  if n = 0 then 0
  else if (v % 2 ^ n) / 2 ^ (n - 1) = 1 then (v % 2 ^ n : Nat) - (2 ^ n : Nat) else (v % 2 ^ n : Nat)

/-- `Sat(x, lo, hi)` of R9. -/
def satInt (x lo hi : Int) : Int := if x < lo then lo else if hi < x then hi else x

/-- `RoundNE(n / 2^k)` of R9 for a shift `k`: nearest, ties to even. -/
def roundNEShift (n : Int) (k : Nat) : Int :=
  let q := n / (2 ^ k : Nat)
  let r := n % (2 ^ k : Nat)
  if 2 * r < (2 ^ k : Nat) then q
  else if (2 ^ k : Nat) < 2 * r then q + 1
  else if q % 2 = 0 then q else q + 1

/-- An integer taken modulo `2^w` into a bit vector. -/
def wrap (w : Nat) (x : Int) : BitVec w := BitVec.ofInt w x

end Sys2Proof
end

