-- ==== Sys2Proof/Config.lean ====
section
/-! DEFINITION. What one package fixes and the manual leaves open: free values. None has a body that a proof could
see, so a claim about the model holds whatever they are (log 7). -/

namespace Sys2Proof.Config

/-- A fresh value that the manual does not define, the n-th one drawn (log 7). -/
opaque freeWord : Nat → BitVec 64

/-- ID_SERIAL, set by the configuration image (R28). -/
opaque idSerial : BitVec 64
/-- SPARE_LANES and SPARE_BANKS of a die, from the image (R29). -/
opaque spareLanes : Nat → BitVec 8
opaque spareBanks : Nat → BitVec 8

/-- Physical cellar cores of a stack that the image leaves unassigned: none or one (R22). -/
opaque spareCores : Nat → Bool
/-- The DRAM layer of its stack that holds a physical HBM byte, taken modulo the 16 DRAM dies of R19 (R449; log 7). -/
opaque dramLayer : Nat → Nat

/-- The L2 slice that serves a physical HBM byte (R411; log 43). -/
opaque l2Slice : Nat → BitVec 4
/-- The 8-byte word within a unit (a core for its L1, I-cache and loop buffer, 0 to 2, or an L2 slice, 3) in which the word of an
address stands (R412; log 43). -/
opaque cacheWord : Nat → Nat → BitVec 61
/-- The physical HBM byte that holds a byte of the code heap (R412; log 43). -/
opaque codeByte : Nat → BitVec 40

/-- SEC_VER of a copy (0 or 1) of an image (0 configuration, 1 firmware) in the Rolian store (R443). -/
opaque imageSecVer : Nat → Nat → Nat
/-- Whether the signature and digest of that copy verify (R443). -/
opaque imageVerifies : Nat → Nat → Bool
/-- Whether the store can be read, and whether the repair map of a configuration copy fits the spares (R418, R435). -/
opaque storeReadable : Bool
opaque repairMapFits : Nat → Bool
/-- The highest SEC_VER of an image that the root of trust has accepted before (R444). -/
opaque acceptedSecVer : Nat → Nat
/-- SHA-384 of an image, and the translator's version (R445). -/
opaque imageDigest : Nat → BitVec 384
opaque translatorVersion : BitVec 32
/-- The attestation signature (r, s) over the first 160 bytes of a report (R445). -/
opaque attestSignature : BitVec 1280 → BitVec 768

/-- Heap bytes that the translation of a key takes, as far as its reservation allows (R425, R427). -/
opaque xlateSize : BitVec 384 → BitVec 8 → BitVec 32 → Nat
/-- Translations that the Rolian store's region holds (R426). -/
opaque rolianRoom : Nat

end Sys2Proof.Config
end

