-- ==== Sys2Proof/Syntax.lean ====
section
/-! DEFINITION. The instructions and events of the T48: one constructor of `Instr` for each row of the opcode
table. The operand records follow the slot-word forms of R170 and the fields each instruction's own rule assigns. -/

namespace Sys2Proof

/-- A scalar source field (R166). -/
inductive Src where
  | reg (n : BitVec 6)
  | latch (l : BitVec 3)
  | held
  deriving DecidableEq, Repr

/-- A core context: sequencer context 0-31 (R14) or cellar context 0-767 (R336). -/
inductive CoreId where
  | seq (c : Nat)
  | cel (c : Nat)
  deriving DecidableEq, Repr

/-- A die context: context `k` (0 or 1) of compute die `die` (R46). -/
structure DieId where
  die : Nat
  k : Fin 2
  deriving DecidableEq, Repr

/-- A holder of x registers, circular buffers and copy engines: a cellar context or a die context (R289, R357). -/
inductive UnitId where
  | core (c : CoreId)
  | die (d : DieId)
  deriving DecidableEq, Repr

/-- The slots of a bundle in mask order (R162). -/
inductive Slot where
  | s0 | s1 | m | b | v | x | p | c
  deriving DecidableEq, Repr

/-- The opcode maps of R172 to R180; `cv` is the cellar vector map, `nm` the near-memory map. -/
inductive OpMap where
  | s | m | b | v | x | p | c | cv | nm
  deriving DecidableEq, Repr

/-- The illegal-instruction causes of R181. -/
inductive Illegal where
  | opcode | function | reserved | source | type | slot | hold | headimm | destClash | latchHazard | line
  deriving DecidableEq, Repr

/-! ### S map (R172) -/

/-- RR-form integer operation: width code, signed suffix, destination, nw, sources (R196). -/
structure IntRR where
  w : BitVec 2
  sgn : Bool
  d : BitVec 6
  nw : Bool
  a : Src
  b : Src
  deriving DecidableEq, Repr

/-- RI-form immediate operation (R199). -/
structure IntRI where
  d : BitVec 6
  nw : Bool
  a : Src
  imm : BitVec 12
  deriving DecidableEq, Repr

/-- RI-form shift by an immediate (R199). -/
structure ShiftRI where
  d : BitVec 6
  nw : Bool
  a : Src
  sh : BitVec 6
  deriving DecidableEq, Repr

/-- LIH with the head immediate of its bundle (R200). -/
structure LihOp where
  d : BitVec 6
  nw : Bool
  a : Src
  himm : BitVec 16
  deriving DecidableEq, Repr

/-- CMP (R201). -/
structure CmpRR where
  cond : BitVec 3
  w : BitVec 2
  q : BitVec 4
  nw : Bool
  a : Src
  b : Src
  deriving DecidableEq, Repr

/-- CMPI (R201). -/
structure CmpRI where
  cond : BitVec 3
  q : BitVec 4
  nw : Bool
  a : Src
  imm : BitVec 9
  deriving DecidableEq, Repr

/-- PLOG with its truth table (R202). -/
structure PlogOp where
  tt : BitVec 4
  q : BitVec 4
  nw : Bool
  a : Src
  b : Src
  deriving DecidableEq, Repr

/-- SEL (R203). -/
structure SelOp where
  neg : Bool
  q : BitVec 4
  d : BitVec 6
  nw : Bool
  a : Src
  b : Src
  deriving DecidableEq, Repr

/-- BEXT and BINS: position and width minus one (R204). -/
structure FieldOp where
  pos : BitVec 6
  n1 : BitVec 6
  d : BitVec 6
  nw : Bool
  a : Src
  deriving DecidableEq, Repr

/-- What BCNT counts (R205). -/
inductive CountKind where
  | pop | clz | ctz
  deriving DecidableEq, Repr

structure BcntOp where
  w : BitVec 2
  kind : CountKind
  d : BitVec 6
  nw : Bool
  a : Src
  deriving DecidableEq, Repr

/-- LEA with its scale (R206). -/
structure LeaOp where
  sc : BitVec 2
  d : BitVec 6
  nw : Bool
  a : Src
  b : Src
  deriving DecidableEq, Repr

/-- Two-operand floating point, `dbl` for .f64 (R207, R208). -/
structure FpRR where
  dbl : Bool
  d : BitVec 6
  nw : Bool
  a : Src
  b : Src
  deriving DecidableEq, Repr

/-- FMA with its variant fn[2:1] (R208). -/
structure FmaOp where
  var : BitVec 2
  dbl : Bool
  d : BitVec 6
  nw : Bool
  a : Src
  b : Src
  deriving DecidableEq, Repr

/-- One-operand floating point: FSQRT, FCLASS, CVTFF (R208, R211, R213). -/
structure FpR1 where
  dbl : Bool
  d : BitVec 6
  nw : Bool
  a : Src
  deriving DecidableEq, Repr

/-- Conditions of FCMP (R210). -/
inductive FCond where
  | eq | lt | le | un | ne
  deriving DecidableEq, Repr

structure FcmpOp where
  cond : FCond
  dbl : Bool
  q : BitVec 4
  nw : Bool
  a : Src
  b : Src
  deriving DecidableEq, Repr

/-- Sign rules of FSGN (R212). -/
inductive SgnKind where
  | j | jn | jx
  deriving DecidableEq, Repr

structure FsgnOp where
  kind : SgnKind
  dbl : Bool
  d : BitVec 6
  nw : Bool
  a : Src
  b : Src
  deriving DecidableEq, Repr

/-- CVTIF (R213). -/
structure CvtIfOp where
  sgn : Bool
  w : BitVec 2
  dbl : Bool
  d : BitVec 6
  nw : Bool
  a : Src
  deriving DecidableEq, Repr

/-- CVTFI (R213). -/
structure CvtFiOp where
  rtz : Bool
  sgn : Bool
  w : BitVec 2
  dbl : Bool
  d : BitVec 6
  nw : Bool
  a : Src
  deriving DecidableEq, Repr

/-! ### M map (R173) -/

/-- Width and extension of a load (R171, R214). -/
inductive LdType where
  | z8 | z16 | z32 | z64 | s8 | s16 | s32
  deriving DecidableEq, Repr

structure LoadOp where
  ty : LdType
  d : BitVec 6
  a : Src
  imm : BitVec 9
  deriving DecidableEq, Repr

/-- A store: log2 of the size, data register, address (R214). -/
structure StoreOp where
  z : BitVec 2
  d : BitVec 6
  a : Src
  imm : BitVec 9
  deriving DecidableEq, Repr

/-- Integer atomic: `big` for 64 bits, `sgn` for the signed suffix (R313). -/
structure AtomOp where
  big : Bool
  sgn : Bool
  d : BitVec 6
  a : Src
  b : Src
  deriving DecidableEq, Repr

/-- Floating-point atomic (R313). -/
structure FAtomOp where
  dbl : Bool
  d : BitVec 6
  a : Src
  b : Src
  deriving DecidableEq, Repr

/-- Scopes of R141. -/
inductive Scope where
  | core | die | part | pkg | mem | sys
  deriving DecidableEq, Repr

/-- FSET and FINC: remote form, .rel, offset (R320). -/
structure FlagWOp where
  remote : Bool
  rel : Bool
  off : BitVec 5
  d : BitVec 6
  a : Src
  deriving DecidableEq, Repr

/-- FTEST (R320). -/
structure FTestOp where
  sgn : Bool
  remote : Bool
  acq : Bool
  off : BitVec 5
  d : BitVec 6
  a : Src
  deriving DecidableEq, Repr

/-- FWAIT: `eq` for .eq, else .ge (R320). -/
structure FWaitOp where
  sgn : Bool
  remote : Bool
  acq : Bool
  eq : Bool
  off : BitVec 5
  d : BitVec 6
  a : Src
  deriving DecidableEq, Repr

/-! ### Vector operands (R170, R175) -/

/-- Lane types of R76. -/
inductive VType where
  | i32 | z32 | f32 | bf16x2 | i16x2 | i8x4 | f16x2
  deriving DecidableEq, Repr

/-- V form without variant: destination, sources, lane mask, type. -/
structure VBin where
  vd : BitVec 5
  va : BitVec 5
  vb : BitVec 5
  m : BitVec 3
  t : VType
  deriving DecidableEq, Repr

/-- V form with .sat (R237). -/
structure VSatBin where
  sat : Bool
  o : VBin
  deriving DecidableEq, Repr

/-- V form with the FMA variant (R237). -/
structure VFmaBin where
  var : BitVec 2
  o : VBin
  deriving DecidableEq, Repr

/-- Operations of VUNA (R237). -/
inductive UnaKind where
  | neg | abs | not | mov | popc | clz
  deriving DecidableEq, Repr

structure VUnaOp where
  kind : UnaKind
  vd : BitVec 5
  va : BitVec 5
  m : BitVec 3
  t : VType
  deriving DecidableEq, Repr

/-- VS form without variant: destination, vector source, scalar source, lane mask, type (R238). -/
structure VSBin where
  t : VType
  vd : BitVec 5
  va : BitVec 5
  a : Src
  m : BitVec 3
  deriving DecidableEq, Repr

structure VSatS where
  sat : Bool
  o : VSBin
  deriving DecidableEq, Repr

structure VSubS where
  rev : Bool
  sat : Bool
  o : VSBin
  deriving DecidableEq, Repr

structure VFmaS where
  var : BitVec 2
  o : VSBin
  deriving DecidableEq, Repr

/-- Directions of VSHLS (R238). -/
inductive ShKind where
  | l | r | a
  deriving DecidableEq, Repr

structure VShS where
  kind : ShKind
  o : VSBin
  deriving DecidableEq, Repr

/-- VBCAST and WBCAST: `lane` picks .lane (R245, R345). -/
structure VBcastOp where
  lane : Bool
  vd : BitVec 5
  va : BitVec 5
  a : Src
  m : BitVec 3
  deriving DecidableEq, Repr

/-- Conditions of vector compares (R240). -/
inductive VCond where
  | eq | ne | lt | le | gt | un
  deriving DecidableEq, Repr

structure VCmpOp where
  cond : VCond
  md : BitVec 3
  va : BitVec 5
  vb : BitVec 5
  m : BitVec 3
  t : VType
  deriving DecidableEq, Repr

structure VCmpSOp where
  t : VType
  cond : VCond
  md : BitVec 3
  va : BitVec 5
  a : Src
  m : BitVec 3
  deriving DecidableEq, Repr

structure VSelOp where
  sel : BitVec 3
  vd : BitVec 5
  va : BitVec 5
  vb : BitVec 5
  m : BitVec 3
  t : VType
  deriving DecidableEq, Repr

structure VMlogOp where
  tt : BitVec 4
  md : BitVec 3
  ma : BitVec 3
  mb : BitVec 3
  m : BitVec 3
  deriving DecidableEq, Repr

/-- VCVT and WCVT: destination type, element selector (R243). -/
structure VCvtOp where
  dt : VType
  e : BitVec 2
  vd : BitVec 5
  va : BitVec 5
  vb : BitVec 5
  m : BitVec 3
  t : VType
  deriving DecidableEq, Repr

/-- Functions of VSPEC (R244). -/
inductive SpecKind where
  | sqrt | rcp | rsqrt | exp2 | log2
  deriving DecidableEq, Repr

structure VSpecOp where
  kind : SpecKind
  vd : BitVec 5
  va : BitVec 5
  m : BitVec 3
  deriving DecidableEq, Repr

/-- Reductions of VRED, WRED and RRED (R248, R257, R343). -/
inductive RedKind where
  | add | max | min | and | or | xor
  deriving DecidableEq, Repr

/-- VRED: condition register destination (R248). -/
structure VRedOp where
  kind : RedKind
  kd : BitVec 3
  va : BitVec 5
  m : BitVec 3
  t : VType
  deriving DecidableEq, Repr

/-- WRED: vector destination (R343). -/
structure WRedOp where
  kind : RedKind
  vd : BitVec 5
  va : BitVec 5
  m : BitVec 3
  t : VType
  deriving DecidableEq, Repr

/-- Forms of VKSET (R247). -/
inductive VKsetOp where
  | s (kd : BitVec 3) (a : Src)
  | lo (kd : BitVec 3) (ma : BitVec 3)
  | hi (kd : BitVec 3) (ma : BitVec 3)
  | lane (kd : BitVec 3) (va : BitVec 5) (a : Src)
  | pop (kd : BitVec 3) (ma : BitVec 3) (m : BitVec 3)
  deriving DecidableEq, Repr

/-- VLD, VST, VLDC, VSTC (R249). -/
structure VMemOp where
  vd : BitVec 5
  a : Src
  m : BitVec 3
  deriving DecidableEq, Repr

/-- VLDL, VSTL, VLDF, VSTF: `x` adds the index vector (R249, R251). -/
structure VIdxOp where
  x : Bool
  vd : BitVec 5
  va : BitVec 5
  a : Src
  m : BitVec 3
  deriving DecidableEq, Repr

/-- VGATH, VSCAT with scale (R249). -/
structure VGathOp where
  sc : BitVec 2
  vd : BitVec 5
  va : BitVec 5
  a : Src
  m : BitVec 3
  deriving DecidableEq, Repr

/-- Modes of VARD and VAWR (R252). -/
inductive AccMode where
  | f32 | mlo | mhi | e
  deriving DecidableEq, Repr

structure VAccOp where
  mode : AccMode
  tile : BitVec 3
  vd : BitVec 5
  a : Src
  m : BitVec 3
  deriving DecidableEq, Repr

/-- Block formats (R80, R266). -/
inductive BlkFmt where
  | b8 | b16 | n4x
  deriving DecidableEq, Repr

/-- VQNT and VBSCL (R283). -/
structure VQntOp where
  fmt : BlkFmt
  t32 : Bool
  kd : BitVec 3
  va : BitVec 5
  a : Src
  deriving DecidableEq, Repr

/-- VDQNT: `base` names the condition register with .b (R287). -/
structure VDqntOp where
  base : Option (BitVec 3)
  t32 : Bool
  vd : BitVec 5
  a : Src
  deriving DecidableEq, Repr

/-- Forms of VFLG (R255). -/
inductive VFlgOp where
  | rd (kd : BitVec 3)
  | clr (a : Src)
  | sat (a : Src)
  deriving DecidableEq, Repr

/-- Forms of VSIG (R256). -/
inductive VSigOp where
  | rd (kd : BitVec 3)
  | set (a : Src)
  deriving DecidableEq, Repr

/-- Values of VLANE (R246). -/
inductive LaneKind where
  | lane | rank | count | glob
  deriving DecidableEq, Repr

structure VLaneOp where
  kind : LaneKind
  vd : BitVec 5
  m : BitVec 3
  deriving DecidableEq, Repr

/-- Operations of VAMO (R251). -/
inductive AmoKind where
  | add | and | or | xor | min | max | xch | fadd
  deriving DecidableEq, Repr

structure VAmoOp where
  kind : AmoKind
  sgn : Bool
  o : VIdxOp
  deriving DecidableEq, Repr

/-! ### X map (R176, R262) -/

/-- NTW: whole word from a, or a quarter from the head immediate (R264). -/
inductive NtwOp where
  | word (n : BitVec 2) (w : BitVec 4) (a : Src)
  | imm (n : BitVec 2) (w : BitVec 4) (h : BitVec 2) (himm : BitVec 16)
  deriving DecidableEq, Repr

structure NtrdOp where
  act : Bool
  n : BitVec 2
  w : BitVec 5
  kd : BitVec 3
  deriving DecidableEq, Repr

/-- MPREC: A format, B format, tile side (R266). -/
structure MprecOp where
  n : BitVec 2
  fa : BlkFmt
  fb : BlkFmt
  t32 : Bool
  deriving DecidableEq, Repr

/-- ALOAD (R276): `f32` or .raw. -/
structure AloadOp where
  f32 : Bool
  tile : BitVec 3
  a : Src
  deriving DecidableEq, Repr

/-- Images of ASTORE (R276). -/
inductive AccFmt where
  | raw | f32 | bf16 | f16
  deriving DecidableEq, Repr

structure AstoreOp where
  fmt : AccFmt
  base : Option (BitVec 3)
  tile : BitVec 3
  a : Src
  deriving DecidableEq, Repr

structure AexpOp where
  row : Option (BitVec 5)
  tile : BitVec 3
  a : Src
  deriving DecidableEq, Repr

structure ArenormOp where
  h : Bool
  tile : BitVec 3
  a : Src
  deriving DecidableEq, Repr

/-- AHEAD and AEVT: one row, or the whole tile (R281). -/
structure AccRdOp where
  row : Option (BitVec 5)
  kd : BitVec 3
  tile : BitVec 3
  deriving DecidableEq, Repr

/-- ARES: read into k, or .clr (R282). -/
structure AresOp where
  kd : Option (BitVec 3)
  q : BitVec 2
  deriving DecidableEq, Repr

/-! ### P map (R177) -/

/-- PSHR, PXCH, PBCD (R307). -/
structure PermOp where
  sz : BitVec 2
  a : Src
  b : Src
  deriving DecidableEq, Repr

/-- Type classes of RRED (R257). -/
inductive RedClass where
  | s | z | f
  deriving DecidableEq, Repr

structure RredOp where
  kind : RedKind
  cls : RedClass
  big : Bool
  k : BitVec 3
  rt : BitVec 2
  deriving DecidableEq, Repr

structure SigchkOp where
  t : Bool
  clr : Bool
  rt : BitVec 2
  deriving DecidableEq, Repr

/-! ### C map (R178, R291) -/

structure XlateOp where
  x : BitVec 3
  tid : BitVec 12
  a : Src
  cnt : BitVec 4
  deriving DecidableEq, Repr

/-- TCIN (`planes` for .a) and TCOUT operands (R291). -/
structure TcopyOp where
  x : BitVec 3
  e : Bool
  a : Src
  b : Src
  deriving DecidableEq, Repr

/-- HCOPY and LCOPY (R291). -/
structure FcopyOp where
  out : Bool
  z : BitVec 3
  e : Bool
  a : Src
  b : Src
  deriving DecidableEq, Repr

structure CwaitOp where
  all : Bool
  s : Bool
  e : Bool
  deriving DecidableEq, Repr

structure CbinitOp where
  cb : BitVec 3
  wp : Bool
  rp : Bool
  a : Src
  b : Src
  deriving DecidableEq, Repr

/-- CBWR (`planes` for .a) and CBRD (R291). -/
structure CbEngOp where
  cb : BitVec 3
  x : BitVec 3
  e : Bool
  b : Src
  deriving DecidableEq, Repr

/-- CBTAKE and CBGIVE: `r` for the reader side. -/
structure CbProgOp where
  cb : BitVec 3
  r : Bool
  deriving DecidableEq, Repr

structure BankOp where
  a : Src
  b : Src
  deriving DecidableEq, Repr

/-! ### Cellar maps (R179, R180) -/

/-- WLD and WST: flat or core scratchpad, indexed (R344). -/
structure WMemOp where
  flat : Bool
  x : Bool
  vd : BitVec 5
  va : BitVec 5
  a : Src
  m : BitVec 3
  deriving DecidableEq, Repr

/-- Near-memory command: `v` is the variant bit (.acc, .add) where there is one (R346). -/
structure NmOp where
  v : Bool
  d : BitVec 6
  nw : Bool
  a : Src
  deriving DecidableEq, Repr

structure NqstOp where
  acq : Bool
  d : BitVec 6
  nw : Bool
  deriving DecidableEq, Repr

/-! ### Operands of the event rows -/

/-- A bind record of the slot table (R368), less ACT, which the row names. -/
structure BindRec where
  wid : BitVec 64
  lnch : Nat
  last : Bool
  ctx : Nat
  mask : BitVec 48
  dctx : BitVec 48
  deriving DecidableEq, Repr

/-- A hardware unit of R411 as its 32-bit identifier. -/
abbrev UnitCode := BitVec 32

/-- DRAM layer power states (R449). -/
inductive LayerPower where
  | active | clockGated | retention | powerGated
  deriving DecidableEq, Repr

/-- An exchange of timestamps with one slave (R31): a pod exchange or one of the package, whose slave is base die
0-11 or compute die n at 12 + n; whether it completed, its four times, and the bound that then holds (R32). -/
structure SyncOp where
  pod : Bool
  slave : Nat
  ok : Bool
  t1 : BitVec 64
  t2 : BitVec 64
  t3 : BitVec 64
  t4 : BitVec 64
  bound : BitVec 16
  deriving DecidableEq, Repr

/-- A page of a peer-window table (R441): peer, function and page of the window, the byte of the peer's memory where it
has its home, and whether stores may reach it. -/
structure PeerPage where
  peer : Nat
  func : Nat
  page : Nat
  key : Nat
  writable : Bool
  deriving DecidableEq, Repr

/-- The package that firmware names master of a pod, and the value of its counter (R30, R31). -/
structure PodMaster where
  id : Nat
  time : BitVec 64
  deriving DecidableEq, Repr

/-- A member of a pod: its number, and the Uarus port that firmware's route to it leaves by (R440). -/
structure PodMember where
  id : Nat
  port : Nat
  deriving DecidableEq, Repr

/-- What firmware does with a kiln run (R415): binds a diagnostic program, records the result of a unit, or drains the
run of a context and discards its result. -/
inductive KilnAct where
  | start (c : CoreId) (mask dctx : BitVec 48) (entry : BitVec 64) (unit : UnitCode)
  | finish (u : UnitCode) (pass : Bool)
  | drop (c : CoreId)
  deriving DecidableEq, Repr

/-- The instructions and events of the part, one constructor for each row of the opcode table. -/
inductive Instr where
  -- events of the package (95_what_each_step_holds.md)
  | dieReset (die : Nat)
  | timeSyncExchange (o : SyncOp)
  | podJoin (self : Nat) (master : PodMaster) (extra : BitVec 16) (members : List PodMember) (pages : List PeerPage)
  | launchWindowWrite (func q off size : Nat) (rec : BitVec 512)
  | taskReady (lid : Nat)
  | bind (r : BindRec)
  | resumeBind (r : BindRec)
  | drainBind (r : BindRec)
  | yieldDeadlineExpiry (c : CoreId)
  | switchOut (c : CoreId)
  | contextUnblock (c : CoreId)
  | resultArrival (c : CoreId)
  | currentLimitFreeze (core : Nat)
  | packetExecute (d : DieId)
  | barrierComplete (c : Nat)
  | xlateFill (u : UnitId) (x : Nat)
  | copyStart (u : UnitId) (e : Nat)
  | copyComplete (u : UnitId) (e : Nat)
  | cbEngineStep (u : UnitId) (e : Nat)
  | nestBatch (d : DieId) (n : Nat) (residueBad : Option (BitVec 8))
  | nestComplete (d : DieId) (n : Nat)
  | nmPosition (c : Nat)
  | nmCommandComplete (c : Nat)
  | refreshDue (stack channel : Nat)
  | kilnRun (a : KilnAct)
  | spareBind (u : UnitCode)
  | timer (c : CoreId)
  | streamFreezeComplete (c : Nat)
  | faultService (c : CoreId) (mapped : Bool) (pteAddr : Nat) (pte : BitVec 64)
  | taskCommit (lid : Nat) (wid : BitVec 64)
  | bankReturnFree (die bank : Nat)
  | framesReturn (slot : Nat)
  | hostReadError (base len : Nat) (cpl : BitVec 3)
  | flitCrcRetry (port : Nat)
  | uarusLaneFail (port lane : Nat)
  | peerRouteDown (peer : Nat)
  | clockChange (cluster : Nat) (code : BitVec 2)
  | layerPowerState (stack layer : Nat) (p : LayerPower)
  | dbgStepStop (c : CoreId)
  | dieEnWrite (c : Nat) (v : BitVec 64)
  | fpctlWrite (c : CoreId) (v : BitVec 64)
  | registerWrite (func off size : Nat) (v : BitVec 512)
  -- S map
  | add (o : IntRR) | sub (o : IntRR) | mul (o : IntRR) | mulh (o : IntRR)
  | div (o : IntRR) | rem (o : IntRR) | and (o : IntRR) | or (o : IntRR)
  | xor (o : IntRR) | andn (o : IntRR) | shl (o : IntRR) | shr (o : IntRR)
  | sar (o : IntRR) | ror (o : IntRR) | min (o : IntRR) | max (o : IntRR)
  | addi (o : IntRI) | andi (o : IntRI) | ori (o : IntRI) | xori (o : IntRI)
  | shli (o : ShiftRI) | shri (o : ShiftRI) | sari (o : ShiftRI)
  | lih (o : LihOp)
  | cmp (o : CmpRR) | cmpi (o : CmpRI) | plog (o : PlogOp) | sel (o : SelOp)
  | bext (o : FieldOp) | bins (o : FieldOp) | bcnt (o : BcntOp) | lea (o : LeaOp)
  | fadd (o : FpRR) | fsub (o : FpRR) | fmul (o : FpRR) | fma (o : FmaOp)
  | fdiv (o : FpRR) | fsqrt (o : FpR1) | fmin (o : FpRR) | fmax (o : FpRR)
  | fcmp (o : FcmpOp) | fclass (o : FpR1) | fsgn (o : FsgnOp)
  | cvtif (o : CvtIfOp) | cvtfi (o : CvtFiOp) | cvtff (o : FpR1)
  -- M map
  | ld (o : LoadOp) | st (o : StoreOp) | lds (o : LoadOp) | sts (o : StoreOp)
  | aadd (o : AtomOp) | aand (o : AtomOp) | aor (o : AtomOp) | axor (o : AtomOp)
  | amin (o : AtomOp) | amax (o : AtomOp) | axch (o : AtomOp) | acas (o : AtomOp)
  | afadd (o : FAtomOp) | afmax (o : FAtomOp)
  | fenceSc (sc : Scope) | release (sc : Scope) | acquire (sc : Scope)
  | fset (o : FlagWOp) | ftest (o : FTestOp) | fwait (o : FWaitOp) | finc (o : FlagWOp)
  | csrr (d : BitVec 6) (n : BitVec 9)
  | csrw (n : BitVec 9) (a : Src) | csrs (n : BitVec 9) (a : Src) | csrc (n : BitVec 9) (a : Src)
  | dstchk (d : BitVec 6) (a : Src) (b : Src)
  | drdchk (chk : Bool) (d : BitVec 6) (a : Src)
  | cmpt (big : Bool) (a : Src) (b : Src)
  -- B map
  | br (q : BitVec 4) (n : Bool) (an : Bool) (off : BitVec 20)
  | jmp (off : BitVec 26) | jmpl (off : BitVec 26)
  | jr (a : Src) | jrl (d : BitVec 6) (nw : Bool) (a : Src)
  | jt (len : BitVec 12) (a : Src) (b : Src)
  | callf (sig : BitVec 16) (a : Src)
  | ret (a : Src)
  | loop (lc : BitVec 2) (len : BitVec 6) (st : BitVec 3) (a : Src)
  | loopi (lc : BitVec 2) (len : BitVec 6) (st : BitVec 3) (cnt : BitVec 15)
  | lexit (lc : BitVec 2)
  | rep (a : Src) | repi (cnt : BitVec 12)
  | trap (code : BitVec 12)
  | launch (d : BitVec 6) (nw : Bool) (a : Src)
  | bkpt (code : BitVec 12)
  -- V map
  | vadd (o : VSatBin) | vsub (o : VSatBin) | vmul (o : VSatBin) | vmulh (o : VBin)
  | vfma (o : VFmaBin) | vdiv (o : VBin) | vmin (o : VBin) | vmax (o : VBin)
  | vand (o : VBin) | vor (o : VBin) | vxor (o : VBin)
  | vshl (o : VBin) | vshr (o : VBin) | vsar (o : VBin)
  | vuna (o : VUnaOp) | vqadd (o : VSatBin)
  | vadds (o : VSatS) | vsubs (o : VSubS) | vmuls (o : VSatS) | vfmas (o : VFmaS)
  | vmins (o : VSBin) | vmaxs (o : VSBin) | vshls (o : VShS) | vbcast (o : VBcastOp)
  | vcmp (o : VCmpOp) | vcmps (o : VCmpSOp) | vsel (o : VSelOp) | vmlog (o : VMlogOp)
  | vcvt (o : VCvtOp) | vspec (o : VSpecOp) | vred (o : VRedOp) | vkset (o : VKsetOp)
  | vld (o : VMemOp) | vst (o : VMemOp) | vldl (o : VIdxOp) | vstl (o : VIdxOp)
  | vgath (o : VGathOp) | vscat (o : VGathOp) | vldc (o : VMemOp) | vstc (o : VMemOp)
  | vard (o : VAccOp) | vawr (o : VAccOp)
  | vqnt (o : VQntOp) | vdqnt (o : VDqntOp) | vbscl (o : VQntOp)
  | vflg (o : VFlgOp) | vsig (o : VSigOp) | vlane (o : VLaneOp)
  | vldf (o : VIdxOp) | vstf (o : VIdxOp) | vamo (o : VAmoOp)
  -- X map
  | ntw (o : NtwOp) | ntrd (o : NtrdOp) | mgo (n : BitVec 2) | mwait (n : Option (BitVec 2)) | mprec (o : MprecOp)
  | azero (tile : BitVec 3) | aload (o : AloadOp) | astore (o : AstoreOp) | aexp (o : AexpOp)
  | arenorm (o : ArenormOp) | ahead (o : AccRdOp) | aevt (o : AccRdOp) | ares (o : AresOp)
  -- P map
  | ptld (pt : BitVec 3) (a : Src) | perm (pt : BitVec 3) (sz : BitVec 2) (a : Src)
  | pshr (o : PermOp) | pxch (o : PermOp) | pbcd (o : PermOp)
  | rred (o : RredOp) | rsync (rt : BitVec 2) | sigchk (o : SigchkOp)
  -- C map
  | xlate (o : XlateOp) | tcin (planes : Bool) (o : TcopyOp) | tcout (o : TcopyOp)
  | hcopy (o : FcopyOp) | lcopy (o : FcopyOp) | cwait (o : CwaitOp)
  | townP (a : Src) | townE (a : Src)
  | cbinit (o : CbinitOp) | cbwr (planes : Bool) (o : CbEngOp) | cbrd (o : CbEngOp)
  | cbtake (o : CbProgOp) | cbgive (o : CbProgOp)
  | bankacq (o : BankOp) | bankrel (o : BankOp)
  -- cellar V map
  | wadd (o : VSatBin) | wsub (o : VSatBin) | wmul (o : VSatBin) | wfma (o : VFmaBin)
  | wmin (o : VBin) | wmax (o : VBin) | wand (o : VBin) | wor (o : VBin) | wxor (o : VBin)
  | wcmp (o : VCmpOp) | wsel (o : VSelOp) | wcvt (o : VCvtOp)
  | wld (o : WMemOp) | wst (o : WMemOp) | wred (o : WRedOp) | wbcast (o : VBcastOp)
  -- near-memory map
  | nired (o : NmOp) | ngath (o : NmOp) | nscat (o : NmOp) | nmrow (o : NmOp) | nstrm (o : NmOp)
  | nqst (o : NqstOp) | nwait (o : NmOp)
  -- further events
  | bundleIssue (c : CoreId)
  | translationInvalidation (func : Nat)
  | curLimChange (core : Nat) (lim : BitVec 16)
  -- rows without operands, of every map; they stand last because Lean's runtime numbers at most 245 constructors
  -- that have fields
  | drain | eret | yieldCore | yieldSched | halt
  | packageReset | timeSyncLost | timeSyncRecover | podValidSet
  -- admission takes the queue's head record (R362)
  | launchRecord | patch | resetRecord | tnew | tfree
  | scrub | eccRewrite | codeVersionFree
  -- commands that the host has written to a mailbox (R436, R445, R452)
  | loadRequest | attestRequest
  | dbgStop | dbgResume | dbgReadReg | dbgWriteReg | dbgReadMem | dbgSetDbg
  deriving DecidableEq, Repr

end Sys2Proof
end

