-- ==== Sys2Proof/Machine/State.lean ====
section
/-! DEFINITION. The machine's state as plain data: everything the manual gives the part (INVENTORY.md, State), and the
few fields that are the model's own (the last ones of `State`). -/

namespace Sys2Proof.Machine

/-! ### Outcomes of a step other than a next state -/

/-- Why the machine stops. -/
inductive Fault where
  /-- Raised by an access to a physical HBM byte that the manual says does not exist (R110), reached through a page
  or tile table that names one. Safe: the part never has such a table. -/
  | hbmHole
  deriving DecidableEq, Repr

/-- Why an instruction has no meaning here. -/
inductive Refusal where
  /-- Raised by the dispatcher for an instruction without a meaning. Safe: nothing is claimed of it. -/
  | notModelled (mnemonic : String)
  deriving DecidableEq, Repr

/-! ### Names -/

/-- A sparse table: entries with strictly rising keys. -/
abbrev PMap (α : Type) := List (Nat × α)

/-- A task: the serial number of its launch and its work identifier (R35). -/
structure TaskId where
  lid : Nat
  wid : Nat
  deriving DecidableEq, Repr

/-- Kinds of launch (R34). -/
inductive Kind where
  | partition | scalar | cellar
  deriving DecidableEq, Repr

/-- The causes of R380. -/
inductive Cause where
  | illegal (c : Illegal)
  | noDies | targetAlign | fetchFault | inoOverflow | loopBusy | seqPlace | callRange | callSig
  | addrBad | addrAlign | pageNone | pageWrite | ptBad | bankOwn | ownState | stackWindow
  | coordRange | ttUnmapped | handleStale | stageFull | atomType | atomTarget | priv | csrBad | soft | brk
  | dupMismatch | sigMismatch | nestBad | nestOpnd | tileFmt | xEmpty | cbBad | cbStall | permBad | residue
  | nmDesc | nmTicket | nmFault | ue | timer | double | rollbackLimit
  deriving DecidableEq, Repr

/-- What a bundle, a packet or a context waits for (R59, R454). -/
inductive Wait where
  /-- A die of the partition has no free queue entry, or 256 packets are held (R24, R386). -/
  | send
  /-- The stream is frozen or being replayed, or a fault of it is pending (R387, R389). -/
  | frozen
  /-- rt register n (R260). -/
  | rt (n : Nat)
  /-- Earlier accesses have not performed (R140, R143, R146). -/
  | accesses
  /-- A flag has not the value (R321): its flat key, comparand, .eq, signed. -/
  | flag (key : Nat) (v : BitVec 32) (eq sgn : Bool)
  /-- An x register fills (R122). -/
  | xfill (x : Nat)
  /-- Engine e's queue is full (R290). -/
  | engineFull (e : Nat)
  /-- Copies of engine e, or all, issued so far (R299): the operations still queued with a lower serial. -/
  | copies (e : Option Nat) (before : Nat)
  /-- Copies that touch the scratchpad block (R300). -/
  | block (off : Nat)
  /-- A buffer counter (R302): buffer, reader side. -/
  | counter (cb : Nat) (r : Bool)
  /-- Accesses to the oldest slot a side holds (R302). -/
  | slotUse (cb : Nat) (r : Bool)
  /-- Earlier engine operations of a buffer (R301). -/
  | cbOps (cb : Nat)
  /-- Bank hand-over (R63). -/
  | bank (m : Nat) (tag : BitVec 32)
  /-- A nest holds the tile (R95), the table, an array (R269), or any of them (R272). -/
  | tiles (ts : List Nat)
  | table (n : Nat)
  | arrays (mask : Nat)
  | nests
  /-- An x register in use by a running nest (R270). -/
  | xnest (x : Nat)
  /-- Images of a TCOUT still being written (R297): offset and length. -/
  | images (off len : Nat)
  /-- Earlier engine operations in conflict with a permutation's ranges (R151): source, destination, length. -/
  | perm (src dst len : Nat)
  /-- Events of engine operations not yet folded into SIG (R407). -/
  | fold
  /-- The near-memory queue is full (R349), or commands up to a ticket run (R355). -/
  | nmFull
  | nmTicket (t : Nat)
  /-- Reports of the enabled dies that a CWAIT.s is complete (R299): its instruction number. -/
  | reports (no : Nat)
  /-- The context gave up the core (R329). -/
  | yielded
  /-- A debugger stops the context before its BKPT (R327). -/
  | debug
  /-- The freeze line holds the whole core (R188, R439). -/
  | hold
  deriving DecidableEq, Repr

/-- What the checks of an instruction answer. -/
inductive Verdict where
  | ok
  | trap (c : Cause) (tval tdata : Word)
  /-- UE: the storage bytes that hold the uncorrectable word, and the address used (R381, R412). -/
  | ue (key n : Nat) (tval : Word)
  | wait (w : Wait)
  | stop (f : Fault)
  deriving DecidableEq, Repr

/-! ### Core contexts -/

/-- What a result writes when it is delivered (R169, R186). -/
inductive Deliver where
  | none
  | s (n : BitVec 6) (v : Word)
  | q (n : BitVec 4) (v : Bool)
  | w (n : BitVec 5) (lanes : BitVec 16) (v : CelVec)
  | m (n : BitVec 3) (lanes : BitVec 16) (v : BitVec 16)
  deriving DecidableEq, Repr

/-- A result with an exposed latency, on its way (R186): `due` is the step at whose end it is delivered. -/
structure Flight where
  slot : Slot
  out : Deliver
  lv : Word
  due : Nat
  issued : Nat
  flags : BitVec 5
  vflags : BitVec 5
  arrived : Bool
  deriving DecidableEq, Repr

/-- A hardware loop (R226). -/
structure Loop where
  start : Word
  stop : Word
  st : Nat
  exitPending : Bool
  deriving DecidableEq, Repr

/-- A repeat (R230): issues left and the repeated bundle. -/
structure Rep where
  left : Nat
  addr : Word
  deriving DecidableEq, Repr

/-- The trap record (R384). -/
structure TrapRec where
  tvec : Word
  kind : BitVec 2
  slot : BitVec 4
  code : BitVec 8
  tval : Word
  tdata : Word
  tdies : BitVec 48
  tpd : BitVec 48
  deriving DecidableEq, Repr

/-- The snapshot buffer (R385): latches, the results delivered to them last, pending results with `due` holding r, and
the latch restriction of the bundle before (R61). -/
structure Snap where
  latches : PMap Word
  delivered : PMap Word
  pending : List Flight
  hazard : Nat
  deriving DecidableEq, Repr

/-- A tile captured by XLATE (R294): entry address, slot, V, FRAME, VER. -/
structure Tile where
  entry : Nat
  slot : Nat
  v : Bool
  frame : BitVec 24
  ver : BitVec 16
  deriving DecidableEq, Repr

/-- An x register (R294); `filled` false while its XLATE fills it (R122). -/
structure XReg where
  filled : Bool
  tid : BitVec 12
  handle : BitVec 32
  first : Nat
  tiles : List Tile
  deriving DecidableEq, Repr

/-- A circular buffer (R301): ring positions of the slots to take next, and slots held by each program side. -/
structure Cb where
  base : Nat
  n : Nat
  blocks : Nat
  free : Nat
  filled : Nat
  wpos : Nat
  rpos : Nat
  wheld : Nat
  rheld : Nat
  wp : Bool
  rp : Bool
  deriving DecidableEq, Repr

/-- Copy operations (R290 to R303). -/
inductive CopyKind where
  | tcin (planes : Bool)
  | tcout
  | flatIn
  | flatOut
  | cbwr (planes : Bool)
  | cbrd
  deriving DecidableEq, Repr

/-- An operation in an engine queue: its number (instruction number on a die, serial on a cellar core), range, captured
tiles and tensor entry; flat copies hold the keys of their memory bytes. -/
structure CopyOp where
  no : Nat
  kind : CopyKind
  off : Nat
  len : Nat
  tid : BitVec 12
  entry : BitVec 512
  first : Nat
  tiles : List Tile
  flat : Nat
  addr : Word
  cb : Nat
  host : Bool
  started : Bool
  /-- Its data met an uncorrectable error (R381). -/
  ue : Bool
  task : TaskId
  deriving DecidableEq, Repr

/-- Near-memory commands (R346). -/
inductive NmKind where
  | nired | ngath | nscat | nmrow | nstrm
  deriving DecidableEq, Repr

/-- An accepted near-memory command (R347 to R350): its descriptor, index list, next position and running sum. -/
structure NmCmd where
  kind : NmKind
  v : Bool
  ticket : Nat
  base : Word
  data : Word
  aux : Word
  ctl : Word
  idx : List Nat
  pos : Nat
  sum : Option (BitVec 2048)
  skip : Nat
  deriving DecidableEq, Repr

/-- A die fault delivered to a context as a notice (R388): F, slot, cause, TVAL, ranks, lowest Pd. -/
structure Notice where
  f : Nat
  slot : Nat
  cause : Cause
  tval : Word
  dies : BitVec 48
  pd : Nat
  deriving DecidableEq, Repr

/-- A broadcast packet (R24, R51): words of its slots, head immediate, scalar values, rounding mode, DIE_EN. -/
structure Packet where
  no : Nat
  v : Option Word32
  x : Option Word32
  p : Option Word32
  c : Option Word32
  himm : BitVec 16
  hold : BitVec 4
  va : Word
  xa : Word
  pa : Word
  pb : Word
  ca : Word
  cb : Word
  vrm : BitVec 2
  dieEn : BitVec 48
  /-- The barrier-class operation of its P slot has completed (R62). -/
  barrier : Bool
  deriving DecidableEq, Repr

/-- What a context is doing (R41, R60). -/
inductive Run where
  | idle
  | ready
  | blocked (w : Wait)
  /-- Waiting for firmware to service a fate-S cause (R380). -/
  | service (c : Cause) (slot : BitVec 4) (tval tdata : Word)
  /-- HALT has retired (R330). -/
  | halted
  /-- Drained, waiting for the switch out (R392); `mid`: stopped at a loop boundary whose pipeline resumption refills
  (R229). -/
  | drained (mid : Bool)
  deriving DecidableEq, Repr

/-- Why a drain request stands (R375). -/
inductive DrainBy where
  | record | expiry
  deriving DecidableEq, Repr

/-- A control transfer that the bundle of this step makes (R217). -/
inductive Transfer where
  | none
  | to (target : Word)
  | annul
  /-- The body of a LOOP with count 0 is skipped: the chain is replaced (R226). -/
  | chain (a b c : Word)
  /-- The next bundle is repeated (R230). -/
  | rep (c : Nat)
  /-- Return from the handler to the chain that EPC, EPC1 and EPC2 hold (R328). -/
  | eret (a b c : Word)
  deriving DecidableEq, Repr

/-- A core context: sequencer context or cellar context. -/
structure Ctx where
  task : Option TaskId
  run : Run
  stopped : Bool
  drain : Option DrainBy
  regs : PMap Word
  preds : PMap Bool
  latches : PMap Word
  delivered : PMap Word
  hazard : Nat
  inflight : List Flight
  /-- Results that have landed before their data came: the freeze line is held for them (R188). -/
  late : Nat
  interlocked : List Deliver
  holds : PMap Word
  n0 : Word
  n1 : Word
  n2 : Word
  mark0 : Bool
  mark1 : Bool
  stepNo : Nat
  lc : PMap Word
  loops : PMap Loop
  order : List Nat
  rep : Option Rep
  /-- Delay bundles of a taken transfer still to issue. -/
  delay : Nat
  transfer : Transfer
  fpctl : Word
  ftabLen : BitVec 32
  yieldDl : Word
  handler : Bool
  diag : Bool
  /-- The unit that a kiln run on the context tests (R415). -/
  testUnit : Option (BitVec 32)
  epc : Word
  epc1 : Word
  epc2 : Word
  trap : TrapRec
  snap : Option Snap
  asideLoops : PMap Loop
  asideOrder : List Nat
  asideRep : Option Rep
  asideDelay : Nat
  /-- Hold registers that the bundle in issue captures (R168). -/
  captures : PMap Word
  /-- The broadcast packet of the bundle in issue: it leaves when the bundle's slots have acted (R51, R324). -/
  outgoing : Option Packet
  /-- An ERET has just returned: what stayed pending is taken before the bundle at N0 (R382). -/
  returned : Bool
  dbgEn : BitVec 2
  stepStop : Bool
  /-- The fault of a frozen stream is resolved, and the debugger's stop holds back its replay (R450). -/
  replayDue : Bool
  irq : Bool
  notice : Option Notice
  flagsFile : PMap Word32
  xregs : PMap XReg
  -- sequencer contexts
  dieMask : BitVec 48
  dctx : BitVec 48
  dieEn : BitVec 48
  instNo : Nat
  diePres : BitVec 48
  rt : PMap Word
  rtWait : PMap Nat
  sent : List Packet
  frozenAt : Option Nat
  /-- The freeze is complete: every enabled die has recorded its Pd (R387). -/
  freezeOver : Bool
  /-- The last number that a replay in progress reissues; 0 when none is (R389). -/
  replayTo : Nat
  /-- The number whose reports a CWAIT.s awaits (R299). -/
  awaited : Option Nat
  /-- A store over a peer route that was down has still to be reported (R441). -/
  peerErr : Bool
  -- cellar contexts
  w : PMap CelVec
  m : PMap (BitVec 16)
  nmq : List NmCmd
  ticket : Nat
  skips : PMap Nat
  nmDone : Nat
  cbs : PMap Cb
  engine : List CopyOp
  copySerial : Nat
  deriving DecidableEq, Repr

/-- Round-robin state and freezes of a core (R60, R188, R189). -/
structure Core where
  running : Option Nat
  last : Nat
  curLim : BitVec 16
  curFrz : Word
  /-- Weights issued over the last 64 cycles, newest first. -/
  window : List Nat
  deriving DecidableEq, Repr

/-! ### Compute dies -/

/-- Values an accumulator element can hold besides numbers (R87). -/
structure AccElem where
  m : BitVec 56
  tag : BitVec 2
  deriving DecidableEq, Repr

/-- A row of an accumulator tile (R87). -/
structure AccRow where
  e : BitVec 16
  h : BitVec 6
  c : BitVec 32
  fresh : Bool
  elems : PMap AccElem
  deriving DecidableEq, Repr

/-- A running nest (R267 to R272): instruction number, table, its words, captured tiles of XB from its first
tile number on, and the batch to apply next. -/
structure Nest where
  no : Nat
  table : Nat
  words : PMap Word
  tensor : BitVec 512
  first : Nat
  tiles : List Tile
  t : Nat
  q : Nat
  p : Nat
  i : Nat
  finished : Bool
  deriving DecidableEq, Repr

/-- The fault flag of a die context (R387). -/
structure DieFault where
  no : Nat
  /-- The faulting slot, 15 for an engine's operation (R384). -/
  slot : Nat
  cause : Cause
  tval : Word
  deriving DecidableEq, Repr

/-- A die context (R46). -/
structure DieCtx where
  part : Option Nat
  rank : Nat
  count : Nat
  v : PMap DieVec
  m : PMap (BitVec 128)
  k : PMap Word
  holds : PMap Word
  dflags : Word
  sig : Word
  chk : PMap Word
  slices : PMap Byte
  acc : PMap AccRow
  shadow : PMap Word
  active : PMap Word
  nests : List Nest
  pt : PMap (BitVec 512)
  xregs : PMap XReg
  cbs : PMap Cb
  engines : PMap (List CopyOp)
  flagsFile : PMap Word32
  retired : Nat
  /-- A reset of the die has lost its queue: no packet reaches it before the next bind (R18). -/
  lost : Bool
  atBarrier : Bool
  /-- Every slot of the packet but its C slot has acted, and the C slot waits for one of them (R454). -/
  half : Bool
  fault : Option DieFault
  /-- The lowest fault that an engine operation or a nest of it has raised at its number (R271, R303, R381). -/
  engFault : Option DieFault
  /-- Events that SIG has still to fold behind one of an engine operation (R407): instruction number, words. -/
  folds : List (Nat × Option (List Word))
  /-- Rounding mode and scalars of the packet being executed. -/
  packet : Option Packet
  deriving DecidableEq, Repr

/-- Ownership of a bank (R63); a hand-over keeps its tag and the task that released it (R65). -/
inductive BankState where
  | free
  | owned (t : TaskId) (handOver : Option (BitVec 32 × TaskId))
  | released (t : TaskId) (tag : BitVec 32)
  deriving DecidableEq, Repr

/-- A compute die. -/
structure Die where
  banks : PMap BankState
  /-- Blocks whose owner bit is ENG (R149). -/
  eng : PMap Unit
  /-- The die context that executes next when both can (R46). -/
  turn : Fin 2
  /-- MGOs that wait for arrays, in the order in which they came: context and AMASK (R272). -/
  asks : List (Fin 2 × Nat)
  deriving DecidableEq, Repr

/-! ### Scheduling -/

/-- States of a task (R41). -/
inductive TaskState where
  | waiting | ready | bound | running | preempted | committing | done | faulted
  deriving DecidableEq, Repr

/-- A shadow frame (R124): its frame, the VER recorded, the tiles written, their size, and the tensor's handle. -/
structure Shadow where
  frame : BitVec 24
  ver : BitVec 16
  tiles : PMap Unit
  size : Nat
  block : Bool
  handle : BitVec 32
  deriving DecidableEq, Repr

/-- A saved die context of a preempted task, by rank, with its owned banks, and the tensor-store frames that hold it
(R397). -/
structure SavedDie where
  frames : List (BitVec 24)
  ctx : DieCtx
  banks : PMap BankState
  bytes : PMap Byte
  eng : PMap Unit
  deriving DecidableEq, Repr

/-- What the frames of a preempted task hold (R395 to R397), and the context frame's address. -/
structure Saved where
  frame : Nat
  ctx : Ctx
  dies : PMap SavedDie
  count : Nat
  hwctx : Nat
  stack : Nat
  scratch : PMap Byte
  /-- Tasks saved with it on the same cellar core (R338). -/
  mates : List TaskId
  deriving DecidableEq, Repr

/-- A task that has left its launch's initial state. -/
structure Task where
  state : TaskState
  rb : Nat
  nonidem : Bool
  ctx : Option CoreId
  mask : BitVec 48
  dctx : BitVec 48
  everBound : Bool
  /-- Staged bytes by memory key, granules and shadow frames by tile-table entry (R124, R126). -/
  staged : PMap Byte
  granules : PMap Unit
  shadows : PMap Shadow
  saved : Option Saved
  /-- The cask slot of a cellar task's group, counted over all stacks (R111). -/
  cask : Option Nat
  /-- Units a later bind avoids when they are SUSPECT (R417). -/
  wary : Bool
  /-- LAUNCHes that it has made (R331). -/
  launched : Nat
  /-- A commit of what it staged, by the instruction that ended its idempotence, has consumed an uncorrectable error that
  is still to be reported (R381). -/
  owesUE : Bool
  deriving DecidableEq, Repr

/-- An admitted launch (R361 to R367). -/
structure Launch where
  num : Nat
  queue : Nat
  /-- What names it in every run, whatever the order in which queues are served (R67; log 23). -/
  name : Nat
  /-- Where the private pages of its tasks stand; no open launch shares it (log 23). -/
  place : Nat
  func : Nat
  record : BitVec 512
  args : List Word
  tensors : List (BitVec 512)
  /-- Events of WAITs not yet satisfied. -/
  waits : List Nat
  started : Bool
  failed : Bool
  codeVer : Nat
  entry : Word
  obj : Nat
  twin : Bool
  hasHandler : Word
  leader : Option Nat
  total : Nat
  ended : Nat
  faulted : Nat
  complete : Bool
  /-- The serial number of the next launch when this one completed (R63). -/
  doneAt : Nat
  tasks : PMap Task
  deriving DecidableEq, Repr

/-- A record waiting in a queue: its bytes, arrival from a LAUNCH instruction and then its name, and once it has been admitted the events
of its WAITs not yet satisfied, and whether one of them has FAILED (R362, R366). -/
structure QRec where
  record : BitVec 512
  device : Bool
  name : Nat
  admitted : Bool
  waits : List Nat
  failed : Bool
  deriving DecidableEq, Repr

/-- A hardware queue (R359, R363). -/
structure Queue where
  func : Nat
  ceiling : Nat
  recs : List QRec
  last : BitVec 8
  cookie : BitVec 32
  notAcc : BitVec 32
  forced : BitVec 32
  lastLaunch : Option Nat
  /-- LAUNCHes of the host's admitted so far. -/
  admits : Nat
  faultCount : Nat
  faultLog : PMap (BitVec 256)
  deriving DecidableEq, Repr

/-- An event (R365, R437): state code, interrupt enable, vector. -/
structure Event where
  st : BitVec 2
  ie : Bool
  vec : BitVec 11
  deriving DecidableEq, Repr

/-- An entry of the pending-launch store (R364), with the name that its launch will have. -/
structure PendEntry where
  record : BitVec 512
  task : TaskId
  name : Nat
  eligible : Bool
  deriving DecidableEq, Repr

/-- ACT of a bind record (R368). -/
inductive BindAct where
  | bind | resume | drain
  deriving DecidableEq, Repr

/-! ### Memory side -/

/-- A byte in an L1, with its dirty bit (R104); `task` when a task with NONIDEM 0 stored it (R142). -/
structure CacheByte where
  val : Byte
  dirty : Bool
  deriving DecidableEq, Repr

/-- A version of a line of the code heap (R377): it is in force from a version number on. -/
structure CodeLine where
  addr : Nat
  ver : Nat
  line : BitVec 512
  deriving DecidableEq, Repr

/-- A translation in the code heap (R424 to R428): where it stands, where its Merlet bundles were placed, its kind, the
Merlet bytes that it has the effect of, the version it was made in and the one from which a patch has dropped it (R377), the
heap bytes it takes, and the launch that last used it. -/
structure Xlation where
  base : Nat
  placed : Nat
  code : List Byte
  ver : Nat
  dropped : Option Nat
  size : Nat
  used : Nat
  deriving DecidableEq, Repr

/-- What a translation is a function of (R425): the SHA-384 of the Merlet bytes, the stepping, the translator's version. -/
structure XKey where
  digest : BitVec 384
  stepping : BitVec 8
  version : BitVec 32
  deriving DecidableEq, Repr

/-- A loaded function (R421, R429): a MERLET function also has its relocated bytes, the address of its stub line, and
the address its translation takes. -/
structure Func where
  obj : Nat
  addr : Word
  stub : Word
  xbase : Word
  kind : BitVec 16
  sig : BitVec 16
  ftIdx : BitVec 16
  handler : Word
  portable : Bool
  merlet : List Byte
  cellar : Bool
  deriving DecidableEq, Repr

/-- A loaded object: bases of its function table and data by stack (12 replicas, then the primary copy), sizes (R429). -/
structure Obj where
  func : Nat
  ftBase : List Word
  ftLen : Nat
  dataBase : List Word
  stackSize : Nat
  tlsSize : Nat
  /-- Bytes that its code and stubs take from its base on. -/
  codeSize : Nat
  deriving DecidableEq, Repr

/-- A tensor slot (R121, R123): its generation, whether it holds a tensor or one that is being freed, and its tile table's
stack, address and entries. -/
structure TensorSlot where
  gen : BitVec 12
  used : Bool
  freed : Bool
  stack : Nat
  table : Nat
  size : Nat
  deriving DecidableEq, Repr

/-- States of a unit (R413). -/
inductive Health where
  | good | suspect | retired
  deriving DecidableEq, Repr

/-- A HEALTH entry (R413); `passes` counts consecutive passes, `recent` the times of corrected errors. -/
structure HealthEntry where
  st : Health
  spare : Bool
  kilnPass : Nat
  kilnFail : Nat
  ce : Nat
  lastKiln : Word
  lastChange : Word
  passes : Nat
  recent : List Nat
  deriving DecidableEq, Repr

/-- A record of the error log (R412). -/
structure ErrRec where
  time : Word
  unit : BitVec 32
  ty : BitVec 8
  syn : BitVec 8
  addr : Word
  lnch : BitVec 16
  ctx : BitVec 16
  deriving DecidableEq, Repr

/-- A copy of the time counter (R30, R31): how far it stands from TIME_CNT, the ticks it has still to add or withhold, and
its last consecutive successes and failures. -/
structure TimeCopy where
  off : Int
  slew : Int
  ok : Nat
  fail : Nat
  /-- The interval of its last exchange (R31). -/
  last : Nat
  deriving DecidableEq, Repr

/-- Files, queues and buffers of a context that carry parity (R398). -/
inductive PFile where
  | s | q | latch | hold | rt | vec | mask | k | acc | table | x | pt | flag
  | packets | copies | commands | reissue | snapshot
  deriving DecidableEq, Repr

/-- A piece of storage with a code or a parity bit of its own, besides the words of `State.ecc` (R398): an aligned word of the
L1, the I-cache or the loop buffer of a core (numbered as its scratchpad), of the L2, of the code heap in HBM, or of the slices of
a die context; or register or entry `n` of a context's file. -/
inductive Cell where
  | l1 (core wk : Nat)
  | icache (core wk : Nat)
  | loopBuf (core wk : Nat)
  | l2 (wk : Nat)
  | code (wk : Nat)
  | slice (d : DieId) (wk : Nat)
  | file (u : UnitId) (f : PFile) (n : Nat)
  deriving DecidableEq, Repr

/-- A cached translation of a page: its target, its physical page, and whether it may be written (R113, R115). -/
structure TlbEntry where
  host : Bool
  page : Nat
  w : Bool
  deriving DecidableEq, Repr

/-- How an exec of a slot instruction runs: alone, only its checks, or only its effect. -/
inductive Phase where
  | whole | probe | commit
  deriving DecidableEq, Repr

/-- The whole part. -/
structure State where
  /-- Sequencer contexts 0-31 and cellar contexts 0-767 that differ from an unbound one. -/
  seq : PMap Ctx
  cel : PMap Ctx
  /-- Cores: sequencer cores 0-7 and cellar cores 0-191. -/
  seqCore : PMap Core
  celCore : PMap Core
  /-- Compute dies 0-47 and die contexts 2·die + k. -/
  dies : PMap Die
  dieCtx : PMap DieCtx
  /-- Every byte-addressed memory, by key (Machine/Ops.lean); unlisted bytes read 0. -/
  mem : List Host.Cell
  /-- L1 bytes by core and HBM address; dirty L2 bytes. -/
  l1Seq : PMap (PMap CacheByte)
  l1Cel : PMap (PMap CacheByte)
  l2 : PMap Byte
  /-- Check bytes of 8-byte words whose code is not clean (R399), by word key; rewrites scheduled (R401). -/
  ecc : PMap Byte
  rewrites : List Nat
  /-- Cells in error (R398): of a coded word the p and s that a read finds, as R412 logs them; of a parity bit any value. -/
  flaws : List (Cell × Byte)
  roots : PMap Nat
  /-- Translations that cores (numbered as their scratchpads) and compute dies (256 + die) hold, by function·2^44 + page (R115). -/
  tlb : PMap (PMap TlbEntry)
  slots : PMap TensorSlot
  /-- Frames returned to each stack's pool, frames of it never taken, pages that firmware has handed out, and pages
  returned to it (R123, log 23). -/
  pool : PMap (List (BitVec 24))
  framesOut : PMap Nat
  pagesOut : PMap Nat
  pagesFree : PMap (List Nat)
  /-- Frames that a commit replaced while an x register still counts them (R125). -/
  limbo : List (BitVec 24)
  /-- The code heap: lines with their versions, the version in force, free lines. -/
  code : List CodeLine
  codeVer : Nat
  /-- Objects loaded so far (log 23). -/
  objNext : Nat
  objs : PMap Obj
  funcs : List Func
  xlations : List Xlation
  /-- Translations in the Rolian store, the least recently used first, with the heap bytes of each (R426). -/
  rolian : List (XKey × Nat)
  /-- Scheduling. -/
  queues : PMap Queue
  admitQ : Nat
  events : PMap Event
  pend : PMap PendEntry
  launches : PMap Launch
  nextLid : Nat
  batch : List (BindAct × BindRec)
  rejected : Nat
  /-- The queue of the task of each priority that dispatch bound last (R370). -/
  bindQ : PMap Nat
  /-- DIE_PRES of a sequencer context in an address space, by 32·function + context (R115). -/
  dieSeen : PMap (BitVec 48)
  rbLimit : Nat
  scrubInt : Nat
  scrubPos : Nat
  /-- When firmware's scrub pass began (R403). -/
  scrubAt : Word
  refresh : PMap Unit
  /-- Host and pods. -/
  msix : List (Nat × Nat)
  allot : PMap Nat
  /-- Virtual functions that firmware has enabled, 1 to `vfs` (R433; log 10). -/
  vfs : Nat
  hostErr : PMap Word
  hostErrA : PMap Word
  hostBad : List (Nat × Nat × BitVec 3)
  mailbox : PMap Byte
  loads : List (Nat × BitVec 512)
  bootErr : BitVec 8
  bootStage : BitVec 8
  secVer : PMap Nat
  timeCnt : Word
  timeLost : Bool
  podValid : Bool
  podBound : BitVec 16
  /-- Half the worst difference of directions over the hops to the master, as measured at formation (R442). -/
  podHops : BitVec 16
  pkgBound : BitVec 16
  /-- Copies of the counter: base dies 0-11, compute die n at 12 + n, and at 60 the package itself within its pod. -/
  copies : PMap TimeCopy
  pod : Option Nat
  /-- The package that firmware names master at pod formation (R31). -/
  podMaster : Nat
  peers : PMap Bool
  /-- The port that the route to a peer leaves by, fixed at pod formation (R440). -/
  routes : PMap Nat
  windows : List PeerPage
  ports : PMap Nat
  flitRetries : PMap Nat
  /-- Reliability, power. -/
  errLog : List ErrRec
  errCount : Nat
  health : PMap HealthEntry
  spares : PMap Nat
  /-- Retirements that the repair map records, in their order (R418), and compute dies enabled at boot (R28, R416). -/
  repairs : List Nat
  diesOn : Nat
  clock : PMap (BitVec 2)
  layers : PMap LayerPower
  /-- The model's own fields (log 1, log 7, log 8). -/
  agenda : List Instr
  core : CoreId
  onDie : Option DieId
  slot : Slot
  phase : Phase
  verdict : Verdict
  failSlot : Slot
  emptied : Option Nat
  work : List (Slot × Instr)
  free : Nat
  pace : Nat
  deriving DecidableEq, Repr

/-- An empty trap record: nothing has been delivered (R384). -/
def TrapRec.none : TrapRec :=
  { tvec := 0, kind := 0, slot := 0, code := 0, tval := 0, tdata := 0, tdies := 0, tpd := 0 }

/-- A context that nothing has been bound to: registers 0 (log 3), YIELD_DL all ones. -/
def Ctx.unbound : Ctx :=
  { task := none, run := .idle, stopped := false, drain := none, regs := [], preds := [], latches := [],
    delivered := [], hazard := 0, inflight := [], late := 0, interlocked := [], holds := [], n0 := 0, n1 := 0, n2 := 0,
    mark0 := false, mark1 := false, stepNo := 0, lc := [], loops := [], order := [], rep := none, delay := 0,
    transfer := .none, fpctl := 0, ftabLen := 0, yieldDl := BitVec.allOnes 64, handler := false, diag := false, testUnit := none,
    epc := 0, epc1 := 0, epc2 := 0, trap := TrapRec.none, snap := none, asideLoops := [], asideOrder := [],
    asideRep := none, asideDelay := 0, captures := [], outgoing := none, returned := false, dbgEn := 0, stepStop := false, replayDue := false, irq := false, notice := none, flagsFile := [], xregs := [],
    dieMask := 0, dctx := 0, dieEn := 0, instNo := 1, diePres := 0, rt := [], rtWait := [], sent := [],
    frozenAt := none, freezeOver := false, replayTo := 0, awaited := none, peerErr := false, w := [], m := [], nmq := [], ticket := 0, skips := [], nmDone := 0, cbs := [], engine := [],
    copySerial := 0 }

/-- A core nothing runs on (R447: LIM 1,472, COUNT 0). -/
def Core.idle : Core :=
  { running := none, last := 3, curLim := 1472, curFrz := 0, window := [] }

/-- A die after reset (R18, R63: every bank FREE, no block ENG). -/
def Die.fresh : Die := { banks := [], eng := [], turn := 0, asks := [] }

/-- An accumulator row after AZERO (R87, R275). -/
def AccRow.zero : AccRow := { e := 0, h := 55, c := 0, fresh := true, elems := [] }

/-- A die context that serves no partition, its registers 0 (R18, R430; log 3). -/
def DieCtx.unbound : DieCtx :=
  { part := none, rank := 0, count := 0, v := [], m := [], k := [], holds := [], dflags := 0, sig := 0, chk := [],
    slices := [], acc := [], shadow := [], active := [], nests := [], pt := [], xregs := [], cbs := [], engines := [],
    flagsFile := [], retired := 0, lost := false, atBarrier := false, half := false, fault := none, engFault := none, folds := [], packet := none }

/-- A queue of the physical function with no record (R363; ceiling 0 is the highest, log 3). -/
def Queue.empty : Queue :=
  { func := 0, ceiling := 0, recs := [], last := 0, cookie := 0, notAcc := 0, forced := 0, lastLaunch := none,
    admits := 0, faultCount := 0, faultLog := [] }

/-- A task as its launch creates it (R41): READY once the launch's waits are met. -/
def Task.fresh : Task :=
  { state := .ready, rb := 0, nonidem := false, ctx := none, mask := 0, dctx := 0, everBound := false, staged := [],
    granules := [], shadows := [], saved := none, cask := none, wary := false, launched := 0, owesUE := false }

/-- A unit that no detection has named (R413, R414). -/
def HealthEntry.good : HealthEntry :=
  { st := .good, spare := false, kilnPass := 0, kilnFail := 0, ce := 0, lastKiln := 0, lastChange := 0, passes := 0,
    recent := [] }

/-- A copy that agrees with TIME_CNT. -/
def TimeCopy.same : TimeCopy := { off := 0, slew := 0, ok := 0, fail := 0, last := 0 }

/-- A tensor slot never used (log 3: generation 0). -/
def TensorSlot.unused : TensorSlot :=
  { gen := 0, used := false, freed := false, stack := 0, table := 0, size := 0 }

/-- The part right after package reset, before its root of trust has run: boot stage 0 (R435), TIME_CNT 0 (R30),
bounds 0xFFFF (R32), queues empty (R363), events CLEAR (R365), nothing bound, memory with nothing listed. -/
def State.reset : State :=
  { seq := [], cel := [], seqCore := [], celCore := [], dies := [], dieCtx := [], mem := [], l1Seq := [], l1Cel := [],
    l2 := [], ecc := [], rewrites := [], flaws := [], roots := [], tlb := [], slots := [], pool := [], framesOut := [], pagesOut := [], pagesFree := [],
    limbo := [], code := [], codeVer := 0, objNext := 0, objs := [], funcs := [], xlations := [], rolian := [], queues := [], admitQ := 63, events := [], pend := [],
    launches := [], nextLid := 0, batch := [], rejected := 0, bindQ := [], dieSeen := [], rbLimit := 3, scrubInt := 2 ^ 46, scrubPos := 0, scrubAt := 0,
    refresh := [], msix := [], allot := [], vfs := 15, hostErr := [], hostErrA := [], hostBad := [], mailbox := [], loads := [],
    bootErr := 0, bootStage := 0, secVer := [], timeCnt := 0, timeLost := false, podValid := false,
    podBound := 0xFFFF, podHops := 0, pkgBound := 0xFFFF, copies := [], pod := none, podMaster := 0, peers := [], routes := [], windows := [],
    ports := [], flitRetries := [], errLog := [], errCount := 0, health := [], spares := [], repairs := [], diesOn := 48,
    clock := [], layers := [], agenda := [], core := .seq 0, onDie := none, slot := .s0, phase := .whole,
    verdict := .ok, failSlot := .s0, emptied := none, work := [], free := 0, pace := 1 }

end Sys2Proof.Machine
end

