-- ==== Sys2Proof/Machine/Store.lean ====
section
/-! DEFINITION. Sparse tables and byte memory in canonical form: keys strictly rise, and no entry holds the default. -/

namespace Sys2Proof.Machine

namespace Table

variable {α : Type}

/-- The entry of a key. -/
def find? (m : PMap α) (k : Nat) : Option α :=
  match m with
  | [] => none
  | (j, v) :: rest => if j = k then some v else find? rest k

/-- The entry of a key, or a default. -/
def get (d : α) (m : PMap α) (k : Nat) : α := (find? m k).getD d

/-- The table without a key. -/
def erase (m : PMap α) (k : Nat) : PMap α := m.filter (fun e => e.1 != k)

/-- The table with an entry, put before the first greater key. -/
def insert (m : PMap α) (k : Nat) (v : α) : PMap α :=
  match m with
  | [] => [(k, v)]
  | (j, u) :: rest =>
    if k < j then (k, v) :: (j, u) :: rest
    else if k = j then (k, v) :: rest
    else (j, u) :: insert rest k v

/-- The table with an entry, no entry when it is the default. -/
def set [DecidableEq α] (d : α) (m : PMap α) (k : Nat) (v : α) : PMap α :=
  if v = d then erase m k else insert m k v

/-- Strictly rising keys, all above a bound. -/
def risingFrom (lo : Nat) : PMap α → Bool
  | [] => true
  | (k, _) :: rest => decide (lo ≤ k) && risingFrom (k + 1) rest

/-- The canonical form: strictly rising keys and no default entry. -/
def wf [DecidableEq α] (d : α) (m : PMap α) : Bool :=
  risingFrom 0 m && m.all (fun e => decide (e.2 ≠ d))

/-- The smallest key not in use, at or above `lo`, among the first `fuel` candidates. -/
def freshKey (m : PMap α) (lo : Nat) : Nat → Nat
  | 0 => lo
  | fuel + 1 => if (find? m lo).isSome then freshKey m (lo + 1) fuel else lo

end Table

/-! ### Byte memory -/

namespace Memory

/-- What an unlisted byte reads as (log 2). -/
def blank : Byte := 0

/-- One byte. -/
def readByte (m : List Host.Cell) (key : Nat) : Byte := Table.get blank m key

/-- One byte stored. -/
def writeByte (m : List Host.Cell) (key : Nat) (v : Byte) : List Host.Cell := Table.set blank m key v

/-- `n` bytes, little-endian (R5), as a number. -/
def readNat (m : List Host.Cell) (key : Nat) : Nat → Nat
  | 0 => 0
  | n + 1 => (readByte m key).toNat + 256 * readNat m (key + 1) n

/-- `n` bytes of a number stored little-endian (R5). -/
def writeNat (m : List Host.Cell) (key : Nat) (v : Nat) : Nat → List Host.Cell
  | 0 => m
  | n + 1 => writeNat (writeByte m key (BitVec.ofNat 8 v)) (key + 1) (v / 256) n

/-- A run of bytes. -/
def readBytes (m : List Host.Cell) (key : Nat) (n : Nat) : List Byte :=
  (List.range n).map (fun i => readByte m (key + i))

/-- A run of bytes stored. -/
def writeBytes (m : List Host.Cell) (key : Nat) : List Byte → List Host.Cell
  | [] => m
  | v :: rest => writeBytes (writeByte m key v) (key + 1) rest

/-- The canonical form of a memory. -/
def wf (m : List Host.Cell) : Bool := Table.wf blank m

end Memory

/-- Bytes as a little-endian number. -/
def natOfBytes : List Byte → Nat
  | [] => 0
  | b :: rest => b.toNat + 256 * natOfBytes rest

/-- The low `n` bytes of a number, little-endian. -/
def bytesOfNat (v : Nat) : Nat → List Byte
  | 0 => []
  | n + 1 => BitVec.ofNat 8 v :: bytesOfNat (v / 256) n

end Sys2Proof.Machine
end

