-- ==== Sys2Proof/Machine/Records.lean ====
section
/-! DEFINITION. Reading and updating the records of the state, and the fields of launch records. -/

namespace Sys2Proof

/-- A cellar context (R336). -/
def CoreId.isCellar : CoreId → Bool
  | .seq _ => false
  | .cel _ => true

/-- The number of a context among its kind. -/
def CoreId.num : CoreId → Nat
  | .seq n => n
  | .cel n => n

/-- A context that the part has: 32 of sequencer cores, 768 of cellar cores (R14, R336). -/
def CoreId.real : CoreId → Bool
  | .seq n => n < 32
  | .cel n => n < 768

/-- The core of a context: sequencer core s or cellar core k (R14, R336). -/
def CoreId.coreNo (c : CoreId) : Nat := c.num / 4

/-- The four contexts of a core (R14, R336). -/
def CoreId.mates : CoreId → List CoreId
  | .seq n => (List.range 4).map (fun i => .seq (n / 4 * 4 + i))
  | .cel n => (List.range 4).map (fun i => .cel (n / 4 * 4 + i))

/-- The stack of a cellar context (R20). -/
def CoreId.stack (c : CoreId) : Nat := c.num / 64

/-- The index that names a core's scratchpad: cellar cores 0-191, then sequencer cores. -/
def CoreId.padIdx : CoreId → Nat
  | .seq n => 192 + n / 4
  | .cel n => n / 4

/-- Bytes of the core's scratchpad (R99). -/
def CoreId.padSize : CoreId → Nat
  | .seq _ => 2 ^ 18
  | .cel _ => 2 ^ 19

/-- The key of a die context. -/
def DieId.key (d : DieId) : Nat := 2 * d.die + d.k.val

end Sys2Proof

namespace Sys2Proof.Machine

/-! ### Contexts, cores, dies -/

/-- The record of a core context. -/
def State.ctx (s : State) : CoreId → Ctx
  | .seq n => Table.get Ctx.unbound s.seq n
  | .cel n => Table.get Ctx.unbound s.cel n

/-- A core context replaced. -/
def State.setCtx (s : State) (c : CoreId) (x : Ctx) : State :=
  match c with
  | .seq n => { s with seq := Table.set Ctx.unbound s.seq n x }
  | .cel n => { s with cel := Table.set Ctx.unbound s.cel n x }

/-- A core context changed. -/
def State.updCtx (s : State) (c : CoreId) (f : Ctx → Ctx) : State := s.setCtx c (f (s.ctx c))

/-- The record of the core that holds a context. -/
def State.coreRec (s : State) (c : CoreId) : Core :=
  match c with
  | .seq n => Table.get Core.idle s.seqCore (n / 4)
  | .cel n => Table.get Core.idle s.celCore (n / 4)

def State.setCoreRec (s : State) (c : CoreId) (x : Core) : State :=
  match c with
  | .seq n => { s with seqCore := Table.set Core.idle s.seqCore (n / 4) x }
  | .cel n => { s with celCore := Table.set Core.idle s.celCore (n / 4) x }

/-- The record of a compute die. -/
def State.die (s : State) (d : Nat) : Die := Table.get Die.fresh s.dies d
def State.setDie (s : State) (d : Nat) (x : Die) : State := { s with dies := Table.set Die.fresh s.dies d x }
def State.updDie (s : State) (d : Nat) (f : Die → Die) : State := s.setDie d (f (s.die d))

/-- The record of a die context. -/
def State.dctx (s : State) (d : DieId) : DieCtx := Table.get DieCtx.unbound s.dieCtx d.key
def State.setDctx (s : State) (d : DieId) (x : DieCtx) : State :=
  { s with dieCtx := Table.set DieCtx.unbound s.dieCtx d.key x }
def State.updDctx (s : State) (d : DieId) (f : DieCtx → DieCtx) : State := s.setDctx d (f (s.dctx d))

/-- An MGO of a die context no longer waits for its arrays (R272). -/
def State.dropAsk (s : State) (d : DieId) : State :=
  if (s.die d.die).asks.isEmpty then s
  else s.updDie d.die (fun x => { x with asks := x.asks.filter (fun a => a.1 != d.k) })

/-- The die indices of a mask, ascending (R48). -/
def diesOf (mask : BitVec 48) : List Nat := (List.range 48).filter (fun i => mask.getLsbD i)

/-- The die contexts of a partition: context DCTX[i] of die i (R368). -/
def Ctx.dieIds (x : Ctx) : List DieId :=
  (diesOf x.dieMask).map (fun i => { die := i, k := if x.dctx.getLsbD i then 1 else 0 })

/-- The die contexts whose DIE_EN bit was set in `en` (R54). -/
def Ctx.enabledIds (x : Ctx) (en : BitVec 48) : List DieId := x.dieIds.filter (fun d => en.getLsbD d.die)

/-- Rank of a die in a mask (R48). -/
def rankOf (mask : BitVec 48) (die : Nat) : Nat := ((diesOf mask).filter (· < die)).length

/-- A lane mask: m0 reads all ones (R56). -/
def DieCtx.mask (x : DieCtx) (n : BitVec 3) : BitVec 128 := if n = 0 then BitVec.allOnes 128 else Table.get 0 x.m n.toNat
/-- A lane mask of a cellar context: m0 reads all ones (R56, R340). -/
def Ctx.celLanes (x : Ctx) (i : Nat) : BitVec 16 := if i = 0 then BitVec.allOnes 16 else Table.get 0 x.m i

/-! ### Launches and tasks -/

/-- A launch that was never admitted. -/
def Launch.absent : Launch :=
  { num := 0, queue := 0, name := 0, place := 0, func := 0, record := 0, args := [], tensors := [], waits := [], started := false,
    failed := false, codeVer := 0, entry := 0, obj := 0, twin := false, hasHandler := 0, leader := none, total := 0,
    ended := 0, faulted := 0, complete := true, doneAt := 0, tasks := [] }

def State.launch (s : State) (lid : Nat) : Launch := Table.get Launch.absent s.launches lid
def State.setLaunch (s : State) (lid : Nat) (l : Launch) : State :=
  { s with launches := Table.insert s.launches lid l }
def State.updLaunch (s : State) (lid : Nat) (f : Launch → Launch) : State := s.setLaunch lid (f (s.launch lid))

/-- Fields of a launch record (R360): `size` bytes at `off`. -/
def recField (r : BitVec 512) (off size : Nat) : Nat := (r.toNat >>> (8 * off)) % 2 ^ (8 * size)
def recType (r : BitVec 512) : Nat := recField r 0 1
def recFlags (r : BitVec 512) : Nat := recField r 1 1
def recKind (r : BitVec 512) : Nat := recFlags r % 4
def recPrio (r : BitVec 512) : Nat := recFlags r / 4 % 4
def recNonidem (r : BitVec 512) : Bool := recFlags r / 16 % 2 == 1
def recFollow (r : BitVec 512) : Bool := recFlags r / 32 % 2 == 1
def recQueue (r : BitVec 512) : Nat := recField r 2 1
def recShape (r : BitVec 512) : Nat := recField r 4 2
def recYq (r : BitVec 512) : Nat := recField r 6 2
def recSignal (r : BitVec 512) : Nat := recField r 8 2
/-- The events of WAIT0 to WAIT2 that are not 0. -/
def recWaits (r : BitVec 512) : List Nat :=
  [recField r 10 2, recField r 12 2, recField r 14 2].filter (· != 0)
def recWidf (r : BitVec 512) : Nat := recField r 16 8
def recWidl (r : BitVec 512) : Nat := recField r 24 8
def recEntry (r : BitVec 512) : Nat := recField r 32 8
def recTlist (r : BitVec 512) : Nat := recField r 40 8
def recTcount (r : BitVec 512) : Nat := recField r 48 2
def recCookie (r : BitVec 512) : Nat := recField r 52 4
def recArgs (r : BitVec 512) : Nat := recField r 56 8

/-- The kind of a launch (R34); code 3 is never admitted. -/
def Launch.kind (l : Launch) : Kind :=
  match recKind l.record with
  | 0 => .partition
  | 1 => .scalar
  | _ => .cellar

/-- A task's record. -/
def State.task (s : State) (t : TaskId) : Task := Table.get Task.fresh (s.launch t.lid).tasks t.wid
def State.setTask (s : State) (t : TaskId) (x : Task) : State :=
  s.updLaunch t.lid (fun l => { l with tasks := Table.insert l.tasks t.wid x })
def State.updTask (s : State) (t : TaskId) (f : Task → Task) : State := s.setTask t (f (s.task t))

/-- The task a context runs; a context without one has a task of no launch. -/
def State.taskId (s : State) (c : CoreId) : TaskId := (s.ctx c).task.getD { lid := s.nextLid, wid := 0 }
def State.taskOf (s : State) (c : CoreId) : Task := s.task (s.taskId c)
def State.launchOf (s : State) (c : CoreId) : Launch := s.launch (s.taskId c).lid

/-- NONIDEM of a task: launched so, or marked so since (R44, R65, R127). -/
def State.nonidem (s : State) (t : TaskId) : Bool := (s.task t).nonidem || recNonidem (s.launch t.lid).record

/-- The sequencer context of the partition that a die context serves, and its task. -/
def State.partOf (s : State) (d : DieId) : CoreId := .seq ((s.dctx d).part.getD 0)
def State.dieTask (s : State) (d : DieId) : TaskId := s.taskId (s.partOf d)

/-- The context that a C, X or V operation concerns: the partition of the die it executes on, or the core. -/
def State.actor (s : State) : CoreId :=
  match s.onDie with
  | some d => s.partOf d
  | none => s.core
/-- What a unit does by itself concerns its owner: `f` with the owner as the actor (R412, R415). -/
def State.acting (s : State) (c : CoreId) (d : Option DieId) (f : State → State) : State :=
  { f { s with core := c, onDie := d } with core := s.core, onDie := s.onDie }
def State.asUnit (s : State) (u : UnitId) (f : State → State) : State :=
  match u with
  | .core c => s.acting c none f
  | .die d => s.acting (s.partOf d) (some d) f
/-- Its task. -/
def State.actorTask (s : State) : TaskId := s.taskId s.actor

/-- A fresh free value of Config and the state that has drawn it (log 7). -/
def State.freshWord (s : State) : Word × State := (Config.freeWord s.free, { s with free := s.free + 1 })

/-! ### Queues and events -/

def State.queue (s : State) (q : Nat) : Queue := Table.get Queue.empty s.queues q
def State.setQueue (s : State) (q : Nat) (x : Queue) : State := { s with queues := Table.set Queue.empty s.queues q x }
def State.updQueue (s : State) (q : Nat) (f : Queue → Queue) : State := s.setQueue q (f (s.queue q))

/-- A clear event without interrupt (R365, R437). -/
def Event.clear : Event := { st := 0, ie := false, vec := 0 }
/-- Event `e` of function `f`. -/
def State.event (s : State) (f e : Nat) : Event := Table.get Event.clear s.events (f * 4096 + e)
def State.setEvent (s : State) (f e : Nat) (x : Event) : State :=
  { s with events := Table.set Event.clear s.events (f * 4096 + e) x }

/-- Vectors allotted to a function: the PF holds all until firmware says otherwise (R433). -/
def State.vectors (s : State) (f : Nat) : Nat := Table.get (if f = 0 then 2048 else 0) s.allot f

/-- Whether a function exists: the physical function 0, and the virtual functions that firmware has enabled, at most 15
(R433). -/
def State.hasFunc (s : State) (f : Nat) : Bool := f ≤ min s.vfs 15

/-- Fields that R360 wants zero, or that hold no event number. -/
def recZeroBad (r : BitVec 512) (device : Bool) : Bool :=
  let ty := recType r
  recField r 3 1 ≠ 0 || recField r 50 2 ≠ 0 || recFlags r / 64 ≠ 0 || (!device && recQueue r ≠ 0)
    || 4096 ≤ recSignal r || (recWaits r).any (4096 ≤ ·)
    || (if ty = 1 then recKind r = 1 && recShape r ≠ 0
        else recFlags r ≠ 0 || recShape r ≠ 0 || recTlist r ≠ 0 || recTcount r ≠ 0 || recArgs r ≠ 0
          || (ty ≠ 2 && recEntry r ≠ 0) || (ty = 3 && (recWidf r ≠ 0 || recWidl r ≠ 0))
          || (ty = 5 && (recWidl r ≠ 0 || 2 ^ 32 ≤ recWidf r)))

/-- What an event that becomes SET or FAILED does to a launch's open WAITs (R366). -/
def Launch.noteEvent (l : Launch) (f e : Nat) (st : BitVec 2) : Launch :=
  if l.func ≠ f || l.started || l.complete || !l.waits.contains e then l
  else if st = 2 then { l with failed := true }
  else if st = 1 then { l with waits := l.waits.filter (· != e) }
  else l
/-- The same for a serialised record at the head of a queue (R362, R366). -/
def QRec.noteEvent (r : QRec) (e : Nat) (st : BitVec 2) : QRec :=
  if !r.admitted || !r.waits.contains e then r
  else if st = 2 then { r with failed := true }
  else if st = 1 then { r with waits := r.waits.filter (· != e) }
  else r
/-- Every WAIT of a function that an event's new state satisfies or fails. -/
def State.noteEvent (s : State) (f e : Nat) (st : BitVec 2) : State :=
  { s with
    launches := s.launches.map (fun l => (l.1, l.2.noteEvent f e st)),
    queues := s.queues.map (fun q =>
      (q.1, if q.2.func = f then { q.2 with recs := q.2.recs.map (·.noteEvent e st) } else q.2)) }

/-- A change of an event's state (R365, R366): to SET (1) or FAILED (2) it sends its MSI-X message (R437). -/
def State.changeEvent (s : State) (f e : Nat) (st : BitVec 2) : State :=
  if e = 0 || 4096 ≤ e then s else
  let x := s.event f e
  let s := (s.setEvent f e { x with st }).noteEvent f e st
  if st != 0 && x.st != st && x.ie && x.vec.toNat < s.vectors f then
    { s with msix := s.msix ++ [(f, x.vec.toNat)] }
  else s

/-- A record of a queue that is not accepted (R361, R363): Q_STAT, NOTACC, and its SIGNAL event FAILED. -/
def State.notAccepted (s : State) (q f : Nat) (r : BitVec 512) (status : BitVec 8) : State :=
  let s := s.updQueue q (fun x =>
    { x with last := status, cookie := BitVec.ofNat 32 (recCookie r), notAcc := x.notAcc + 1 })
  s.changeEvent f (recSignal r) 2

end Sys2Proof.Machine
end

