-- ==== Sys2Proof/Machine/Fetch.lean ====
section
/-! DEFINITION. Fetch: lines of the code heap with their versions, bundle heads, the bundles of translations, and the
sequential successor (R159 to R161, R190, R191, R377, R378, R425). -/

namespace Sys2Proof.Machine

/-- The line at an address in a code version: the newest one not newer than it (R377, R378). -/
def newestLine (addr ver : Nat) : List CodeLine → Option CodeLine → Option CodeLine
  | [], best => best
  | l :: rest, best =>
    if l.addr = addr && l.ver ≤ ver && (match best with | some b => b.ver ≤ l.ver | none => true)
    then newestLine addr ver rest (some l)
    else newestLine addr ver rest best

/-- The 512-bit line that holds a byte address, for a launch's code version. -/
def State.lineAt (s : State) (ver a : Nat) : Option (BitVec 512) :=
  (newestLine (a / 64 * 64) ver s.code none).map (fun l => l.line)

/-- Word `w` of a line. -/
def lineWord (l : BitVec 512) (w : Nat) : Word32 := l.extractLsb' (32 * w) 32

/-- The word of the first set START bit above `w`, among words up to 15 (R159). -/
def nextStart (hd : Word32) (w : Nat) : Option Nat :=
  (List.range 16).find? (fun i => w < i && hd.getLsbD i)

/-- Word `w` of the line is the head of a bundle. -/
def isHead (l : BitVec 512) (w : Nat) : Bool :=
  w == 1 || (2 ≤ w && w < 16 && (lineWord l 0).getLsbD w)

/-! ### Translations (R191, R425; log 42): Merlet bundle i of a translation is entered 96·i bytes past its first -/

/-- The translations that launches of a code version execute (R377, R378). -/
def Xlation.live (x : Xlation) (ver : Nat) : Bool :=
  x.ver ≤ ver && (match x.dropped with | some d => ver < d | none => true)
/-- Merlet bundles of a translation. -/
def Xlation.count (x : Xlation) : Nat := x.code.length / 20
/-- The translation that holds an address, in a code version. -/
def State.xlationAt (s : State) (ver a : Nat) : Option Xlation :=
  s.xlations.find? (fun x => x.live ver && x.base + 4 ≤ a && a < x.base + 4 + 96 * x.count)
/-- A number of `n` bytes in a list of bytes. -/
def numAt (b : List Byte) (off n : Nat) : Nat := natOfBytes ((b.drop off).take n)

/-- The map of the engine slot of a Merlet bundle, and the slots that its words stand in (R190). -/
def eClass (h : Word32) : Slot :=
  match (h.extractLsb' 26 2).toNat with
  | 0 => .v
  | 1 => .x
  | 2 => .p
  | _ => .c
def merletSlot (h : Word32) (i : Nat) : Option Slot :=
  match i with
  | 1 => if h.getLsbD 31 then some .s0 else none
  | 2 => if h.getLsbD 30 then some .m else none
  | 3 => if h.getLsbD 29 then some .b else none
  | 4 => if h.getLsbD 28 then some (eClass h) else none
  | _ => none
/-- The slot words of a Merlet bundle. -/
def merletWords (b : List Byte) : List (Slot × Word32) :=
  let h : Word32 := BitVec.ofNat 32 (numAt b 0 4)
  (List.range 5).filterMap (fun i => (merletSlot h i).map (fun sl => (sl, BitVec.ofNat 32 (numAt b (4 * i) 4))))

/-- A code address as a transfer of a bundle at `p` takes it: one among a Merlet function's own bundles as placed names
their translation (R191, R422, R429). -/
def State.codeTarget (s : State) (ver : Nat) (p t : Word) : Word :=
  match s.xlationAt ver p.toNat with
  | some x =>
    let o := t.toNat - x.placed
    if x.placed ≤ t.toNat && o < 20 * x.count && o % 20 = 0 then BitVec.ofNat 64 (x.base + 4 + 96 * (o / 20)) else t
  | none => t
/-- Whether a bundle is a Merlet bundle's: it has no delay bundles, and the next bundle sees its results (R191). -/
def State.portable (s : State) (ver : Nat) (p : Word) : Bool := (s.xlationAt ver p.toNat).isSome

/-- Next(P) of R160 in a code version. -/
def State.nextOf (s : State) (ver : Nat) (p : Word) : Word :=
  let a := p.toNat
  let past := BitVec.ofNat 64 (a / 64 * 64 + 68)
  if s.portable ver p then p + 96 else
  match s.lineAt ver a with
  | none => past
  | some l =>
    match nextStart (lineWord l 0) (max (a % 64 / 4) 1) with
    | some w => BitVec.ofNat 64 (a / 64 * 64 + 4 * w)
    | none => past

/-- Next applied `n` times. -/
def State.nextN (s : State) (ver : Nat) (p : Word) : Nat → Word
  | 0 => p
  | n + 1 => s.nextN ver (s.nextOf ver p) n

/-- Slot words that a head names (R162). -/
def slotCount (hd : Word32) : Nat := ((List.range 8).filter (fun i => hd.getLsbD (24 + i))).length

/-- The breaches of R159 that raise LINE at the bundle at word `w`. -/
def lineBroken (l : BitVec 512) (w : Nat) : Bool :=
  let h := lineWord l 0
  let need := 1 + slotCount (lineWord l w)
  let nxt := nextStart h w
  let span := nxt.getD 16 - w
  h.extractLsb' 16 16 != 0 || h.getLsbD 0 || !h.getLsbD 1 || span < need || (nxt.isSome && need < span)
    || (nxt.isNone && (List.range 16).any (fun i => w + need ≤ i && lineWord l i != 0))

/-- The slots of the mask bits 31 to 24, in order (R162). -/
def slotOrder : List Slot := [.s0, .s1, .m, .b, .v, .x, .p, .c]

/-- Number of a slot in mask order (R384). -/
def slotNum : Slot → Nat
  | .s0 => 0
  | .s1 => 1
  | .m => 2
  | .b => 3
  | .v => 4
  | .x => 5
  | .p => 6
  | .c => 7

/-- The slot words of the bundle whose head is word `w`: each present slot takes the next word. -/
def slotWords (l : BitVec 512) (hd : Word32) (w : Nat) : List Slot → List (Slot × Word32)
  | [] => []
  | sl :: rest =>
    if hd.getLsbD (31 - slotNum sl) then (sl, lineWord l w) :: slotWords l hd (w + 1) rest
    else slotWords l hd w rest

/-- What a fetch at an address finds. -/
inductive Fetched where
  /-- No code there: FETCH_FAULT (R380). -/
  | noLine
  /-- Not the head of a bundle: TARGET_ALIGN (R161, R222). -/
  | misaligned
  | broken
  | bundle (hd : Word32) (words : List (Slot × Word32))
  deriving DecidableEq, Repr

/-- The bundle of a translation that an address enters: the head's slot mask as R162 has it, with the predicate and the
immediate of the Merlet header (R162, R190). -/
def Xlation.fetch (x : Xlation) (a : Nat) : Fetched :=
  let o := a - (x.base + 4)
  if o % 96 ≠ 0 then .misaligned
  else
    let b := (x.code.drop (o / 96 * 20)).take 20
    let ws := merletWords b
    .bundle (BitVec.ofNat 32 ((ws.map (fun e => 2 ^ (31 - slotNum e.1))).foldl (· + ·) (numAt b 0 4 % 2 ^ 20))) ws

/-- Fetch at an address in a code version. Word 0 of a line heads no bundle, whether or not the line is there (R161). -/
def State.fetch (s : State) (ver : Nat) (p : Word) : Fetched :=
  let a := p.toNat
  if 2 ^ 56 ≤ a || a % 4 ≠ 0 || a % 64 < 4 then .misaligned
  else match s.xlationAt ver a, s.lineAt ver a with
    | some x, _ => x.fetch a
    | none, none => .noLine
    | none, some l =>
      let w := a % 64 / 4
      if !isHead l w then .misaligned
      else if lineBroken l w then .broken
      else .bundle (lineWord l w) (slotWords l (lineWord l w) (w + 1) slotOrder)

end Sys2Proof.Machine
end

