-- ==== Sys2Proof/Machine/Mem.lean ====
section
/-! DEFINITION. Memory: the key of every byte, storage codes, page tables, caches, staged writes, and the places a flat
address can name (07_memory.md, 09_ordering.md, 29_reliability.md). -/

namespace Sys2Proof.Machine

/-! ### Keys of bytes -/

/-- A physical HBM byte (R110). -/
def hbmKey (p : Nat) : Nat := p % 2 ^ 40
/-- A landing byte (R106). -/
def landKey (b : Nat) : Nat := 2 ^ 40 + b % 2 ^ 28
/-- A die scratchpad byte (R100). -/
def dieMemKey (die off : Nat) : Nat := 2 ^ 41 + die * 2 ^ 28 + off % 2 ^ 28
/-- A core scratchpad byte (R103). -/
def padKey (idx off : Nat) : Nat := 2 ^ 42 + idx * 2 ^ 20 + off % 2 ^ 20
/-- A byte of host memory, at a PCI Express address (R433). -/
def hostKey (a : Nat) : Nat := 2 ^ 56 + a % 2 ^ 52
/-- A byte of a pod peer's memory (R441). -/
def peerKey (peer a : Nat) : Nat := 2 ^ 60 + peer * 2 ^ 48 + a % 2 ^ 48

/-- Whether a key lies in HBM. -/
def isHbm (key : Nat) : Bool := key < 2 ^ 40

/-- An HBM byte that exists (R19, R110). -/
def hbmExists (p : Nat) : Bool := p / 2 ^ 36 < 12 && p % 2 ^ 36 < 48 * 2 ^ 30

/-- The byte of cluster window `c` at `w` (R101). -/
def windowKey (c w : Nat) : Nat :=
  let chunk := w / 4096
  let die := 4 * c + chunk % 4
  let j := chunk / 4
  let bank := 176 + j % 16
  dieMemKey die (bank * 2 ^ 20 + (j / 16) * 4096 + w % 4096)

/-! ### Storage codes (R398 to R402) -/

/-- Ones among the low `n` bits. -/
def popBits (v : Nat) : Nat → Nat
  | 0 => 0
  | n + 1 => v % 2 + popBits (v / 2) n

/-- The columns of R399: 7-bit values with two or more bits set, ascending. -/
def eccCols : List Nat := (List.range 128).filter (fun v => 2 ≤ popBits v 7)

/-- c[6:0] of data. -/
def eccFold (d : Nat) : List Nat → Nat
  | [] => 0
  | c :: rest => (if d % 2 = 1 then c else 0) ^^^ eccFold (d / 2) rest
def eccLow (d : Nat) : Nat := eccFold d (eccCols.take 64)

/-- The check byte of a data word (R399). -/
def eccByte (d : Nat) : Nat :=
  let lo := eccLow d
  lo + 128 * ((popBits d 64 + popBits lo 7) % 2)

/-- What a read of a stored word finds (R400). -/
inductive EccRead where
  | clean
  | corrected (d : Nat) (syn : Nat)
  | bad (syn : Nat)
  deriving DecidableEq, Repr

/-- Position of a column, if it is one. -/
def colIndex (syn : Nat) : List Nat → Nat → Option Nat
  | [], _ => none
  | c :: rest, i => if c = syn then some i else colIndex syn rest (i + 1)

/-- R400. -/
def eccDecode (d c : Nat) : EccRead :=
  let syn := eccLow d ^^^ (c % 128)
  let p := (popBits d 64 + popBits c 8) % 2
  if p = 0 then if syn = 0 then .clean else .bad syn
  else if syn = 0 || popBits syn 7 = 1 then .corrected d (syn + 128)
  else match colIndex syn (eccCols.take 64) 0 with
    | some i => .corrected (d ^^^ 2 ^ i) (syn + 128)
    | none => .bad (syn + 128)

/-- The state of the aligned word `wk` (key / 8). -/
def State.eccWord (s : State) (wk : Nat) : EccRead :=
  match Table.find? s.ecc wk with
  | none => .clean
  | some c => eccDecode (Memory.readNat s.mem (8 * wk) 8) c.toNat

/-- The words that `n` bytes at a key touch. -/
def wordsOf (key n : Nat) : List Nat :=
  if n = 0 then [] else (List.range ((key + n - 1) / 8 - key / 8 + 1)).map (fun i => key / 8 + i)

/-- Whether a range holds an uncorrectable word. -/
def State.hasUE (s : State) (key n : Nat) : Bool :=
  !s.ecc.isEmpty && (wordsOf key n).any (fun wk => match s.eccWord wk with | .bad _ => true | _ => false)

/-- Whether a store of a range reads an uncorrectable word, one it does not write whole (R402). -/
def State.partialUE (s : State) (key n : Nat) : Bool :=
  !s.ecc.isEmpty && (wordsOf key n).any (fun wk =>
    !(key ≤ 8 * wk && 8 * wk + 8 ≤ key + n) && (match s.eccWord wk with | .bad _ => true | _ => false))

/-- One byte of storage as a read delivers it (R401). -/
def State.memByte (s : State) (key : Nat) : Byte :=
  match s.eccWord (key / 8) with
  | .corrected d _ => BitVec.ofNat 8 (d >>> (8 * (key % 8)))
  | _ => Memory.readByte s.mem key

/-! ### Units and the error log (R411 to R414) -/

def unitCode (cls place idx : Nat) : BitVec 32 := BitVec.ofNat 32 (cls * 2 ^ 24 + place * 2 ^ 16 + idx)

/-- The unit that holds a byte, and its address within the unit (R411, R412). -/
def unitOf (key : Nat) : BitVec 32 × Nat :=
  if key < 2 ^ 40 then (unitCode 0x21 (key / 2 ^ 36) (key / 256 % 256), key)
  else if key < 2 ^ 41 then
    let b := key - 2 ^ 40
    (unitCode 0x12 0 (b / 4096 % 256), 4096 * (b / 2 ^ 20) + b % 4096)
  else if key < 2 ^ 42 then
    let o := key - 2 ^ 41
    (unitCode 0x01 (o / 2 ^ 28) (o % 2 ^ 28 / 2 ^ 20), o % 2 ^ 20)
  else
    let o := key - 2 ^ 42
    let idx := o / 2 ^ 20
    (if idx < 192 then unitCode 0x20 (idx / 16) (idx % 16) else unitCode 0x10 0 (idx - 192), o % 2 ^ 20)

/-- A unit's entry of the HEALTH table. -/
def State.healthOf (s : State) (u : BitVec 32) : HealthEntry := Table.get HealthEntry.good s.health u.toNat
def State.setHealth (s : State) (u : BitVec 32) (h : HealthEntry) : State :=
  { s with health := Table.set HealthEntry.good s.health u.toNat h }

/-- A record of the error log (R412): a ring of 65,536, kept apart from the bytes of stack 0 (log 40). -/
def State.logError (s : State) (r : ErrRec) : State :=
  let l := s.errLog ++ [r]
  { s with errLog := if 65536 < l.length then l.drop 1 else l, errCount := s.errCount + 1 }

/-- A detection that puts a GOOD unit into SUSPECT (R414). -/
def State.suspectUnit (s : State) (u : BitVec 32) : State :=
  let h := s.healthOf u
  if h.st = .good then s.setHealth u { h with st := .suspect, passes := 0, lastChange := s.timeCnt } else s

/-- A corrected error of a unit: counted, and 64 within 2^36 ticks make it SUSPECT (R414). -/
def State.countCorrected (s : State) (u : BitVec 32) : State :=
  let h := s.healthOf u
  let recent := s.timeCnt.toNat :: h.recent.filter (fun t => s.timeCnt.toNat - t < 2 ^ 36)
  let s := s.setHealth u { h with ce := min (h.ce + 1) (2 ^ 32 - 1), recent := recent.take 64 }
  if 64 ≤ recent.length then s.suspectUnit u else s

/-- The unit that an error found by a context names: during a kiln run the unit under test (R415). -/
def State.blame (s : State) (c : CoreId) (u : BitVec 32) : BitVec 32 :=
  if (s.ctx c).diag then (s.ctx c).testUnit.getD u else u

/-- The launch and context fields of a record: those of the actor's task, all ones when no task is concerned. -/
def State.logFields (s : State) (consumer : Bool) : BitVec 16 × BitVec 16 :=
  if consumer && (s.ctx s.actor).task.isSome then
    (BitVec.ofNat 16 (s.launchOf s.actor).num, BitVec.ofNat 16 s.actor.num)
  else (0xFFFF, 0xFFFF)

/-- By whom a word is read: its data consumed by the actor, met without being consumed in what the actor does (a table walk,
bytes on their way down, a source that no die receives), or firmware and the memory side by themselves (R381, R402, R412,
R415). -/
inductive ReadBy where
  | data | walk | idle
  deriving DecidableEq, Repr

/-- The log of one word met by a read: corrected errors also schedule a rewrite (R401). What an actor meets in a kiln run is
its unit's under test (R415). -/
def State.noteWord (s : State) (by_ : ReadBy) (wk : Nat) : State :=
  let (u, a) := unitOf (8 * wk)
  let u := if by_ = .idle then u else s.blame s.actor u
  let (ln, cx) := s.logFields (by_ = .data)
  match s.eccWord wk with
  | .clean => s
  | .corrected _ syn =>
    let s := (s.logError { time := s.timeCnt, unit := u, ty := 1, syn := BitVec.ofNat 8 syn, addr := BitVec.ofNat 64 a,
                           lnch := ln, ctx := cx }).countCorrected u
    if s.rewrites.contains wk then s else { s with rewrites := s.rewrites ++ [wk] }
  | .bad syn =>
    s.logError { time := s.timeCnt, unit := u, ty := if by_ = .data then 3 else 2, syn := BitVec.ofNat 8 syn,
                 addr := BitVec.ofNat 64 a, lnch := ln, ctx := cx }

/-! ### Codes and parity of caches, slices, registers and queues (R398, R411, R412) -/

/-- Whether a cell is a word under the code of R399; the others carry parity. -/
def Cell.coded : Cell → Bool
  | .file _ _ _ => false
  | _ => true
/-- Whether the p and s of a read, p in bit 7, stand for an uncorrectable error (R400). -/
def synBad (v : Nat) : Bool :=
  if v < 128 then v ≠ 0
  else !(v = 128 || popBits (v % 128) 7 = 1 || (colIndex (v % 128) (eccCols.take 64) 0).isSome)
/-- A parity error is an uncorrectable error (R398). -/
def cellBad (e : Cell × Byte) : Bool := !e.1.coded || synBad e.2.toNat
/-- Whether one of some cells is in uncorrectable error. -/
def State.cellUE (s : State) (p : Cell → Bool) : Bool := s.flaws.any (fun e => p e.1 && cellBad e)
/-- Some cells written anew: their codes and parity are clean. -/
def State.mend (s : State) (p : Cell → Bool) : State :=
  if s.flaws.isEmpty then s else { s with flaws := s.flaws.filter (fun e => !p e.1) }

/-- The unit of a core, numbered as its scratchpad. -/
def coreUnit (k : Nat) : BitVec 32 := if k < 192 then unitCode 0x20 (k / 16) (k % 16) else unitCode 0x10 0 (k - 192)
/-- The unit that holds a cell, and the address that a record gives: the byte offset within the unit, the physical address in HBM,
zero for parity (R412; log 43 for where a cache holds a word). -/
def Cell.unit : Cell → BitVec 32 × Nat
  | .l1 k wk => (coreUnit k, 8 * (Config.cacheWord 0 (8 * wk)).toNat)
  | .icache k wk => (coreUnit k, 8 * (Config.cacheWord 1 (8 * wk)).toNat)
  | .loopBuf k wk => (coreUnit k, 8 * (Config.cacheWord 2 (8 * wk)).toNat)
  | .l2 wk => (unitCode 0x11 0 (Config.l2Slice (8 * wk)).toNat, 8 * (Config.cacheWord 3 (8 * wk)).toNat)
  | .code wk => unitOf (Config.codeByte (8 * wk)).toNat
  | .slice d wk => (unitCode 0x02 d.die (wk / 256), 8 * wk % 2048)
  | .file (.core c) _ _ => (coreUnit c.padIdx, 0)
  | .file (.die d) _ _ => (unitCode 0x05 d.die 0, 0)

/-- Every cell of a unit, written anew when a task is bound to it or leaves it, and the cells of a save. -/
def unitCells (u : UnitId) : Cell → Bool
  | .file v _ _ => v == u
  | .slice d _ => u == .die d
  | _ => false
def State.mendUnits (s : State) (c : CoreId) (ds : List DieId) : State :=
  s.mend (fun e => unitCells (.core c) e || ds.any (fun d => unitCells (.die d) e))

/-- The log of one cell met by a read; a corrected word is clean from then on (R401). -/
def State.noteCell (s : State) (by_ : ReadBy) (e : Cell × Byte) : State :=
  let u := if by_ = .idle then e.1.unit.1 else s.blame s.actor e.1.unit.1
  let f := s.logFields (by_ = .data)
  let r : ErrRec := { time := s.timeCnt, unit := u, ty := 4, syn := 0, addr := 0, lnch := f.1, ctx := f.2 }
  if !e.1.coded then (s.logError r).suspectUnit u
  else
    let r : ErrRec := { r with syn := e.2, addr := BitVec.ofNat 64 e.1.unit.2 }
    if cellBad e then s.logError { r with ty := if by_ = .data then 3 else 2 }
    else ((s.logError { r with ty := 1 }).countCorrected u).mend (· == e.1)
def State.noteCells (s : State) (by_ : ReadBy) (p : Cell → Bool) : State :=
  (s.flaws.filter (fun e => p e.1)).foldl (fun (s : State) e => s.noteCell by_ e) s

/-- A DRAM layer of a stack, of the 16 that it has (R19), as a number. -/
def layerKey (stack layer : Nat) : Nat := stack * 16 + layer % 16
def layerOf (key : Nat) : Nat := layerKey (key / 2 ^ 36) (Config.dramLayer key)

/-- The layers that hold some bytes and satisfy `p` become ACTIVE. -/
def State.wakeLayers (s : State) (p : LayerPower → Bool) (key n : Nat) : State :=
  if s.layers.isEmpty || !isHbm key then s
  else { s with layers := s.layers.filter (fun e => !(p e.2 && (List.range n).any (fun i => layerOf (key + i) == e.1))) }
/-- An access raises a gated layer to ACTIVE first; a POWER_GATED one holds nothing that is accessed (R449). -/
def State.raiseLayer (s : State) (key n : Nat) : State := s.wakeLayers (· != .powerGated) key n

/-- Firmware powers on the layers of HBM that it hands out (R449). -/
def State.powerOn (s : State) (p n : Nat) : State := s.wakeLayers (fun _ => true) (hbmKey p) n

/-- The log of every word that a read of a range meets. -/
def State.noteRead (s : State) (by_ : ReadBy) (key n : Nat) : State :=
  let s := s.raiseLayer key n
  if s.ecc.isEmpty then s else (wordsOf key n).foldl (fun s wk => s.noteWord by_ wk) s

/-- Before a store: a word written whole gets clean check bits; a correctable one met in part is read, logged and corrected
first (R401, R402). -/
def State.cleanWord (s : State) (by_ : ReadBy) (whole : Bool) (wk : Nat) : State :=
  match s.eccWord wk with
  | .clean => { s with ecc := Table.erase s.ecc wk, rewrites := s.rewrites.filter (· != wk) }
  | .corrected d _ =>
    let s := if whole then s else s.noteWord by_ wk
    { s with mem := Memory.writeNat s.mem (8 * wk) d 8, ecc := Table.erase s.ecc wk,
             rewrites := s.rewrites.filter (· != wk) }
  | .bad _ => if whole then { s with ecc := Table.erase s.ecc wk } else s

/-- The check byte of a word written in part while it stays uncorrectable: its errors stay as they were (R402). -/
def keepBad (old new : List Host.Cell) (ecc : PMap Byte) (wk : Nat) : PMap Byte :=
  match Table.find? ecc wk with
  | none => ecc
  | some c =>
    let e (m : List Host.Cell) : Nat := eccByte (Memory.readNat m (8 * wk) 8)
    Table.insert ecc wk (BitVec.ofNat 8 (e new ^^^ (c.toNat ^^^ e old)))

/-- A run of bytes stored at a key. -/
def State.storeBytes (s : State) (key : Nat) (bs : List Byte) : State :=
  let s := s.raiseLayer key bs.length
  let s :=
    if s.ecc.isEmpty then { s with rewrites := s.rewrites.filter (fun w => !(wordsOf key bs.length).contains w) }
    else (wordsOf key bs.length).foldl
      (fun s wk => s.cleanWord .data (key ≤ 8 * wk && 8 * wk + 8 ≤ key + bs.length) wk) s
  let m := Memory.writeBytes s.mem key bs
  { s with mem := m,
           ecc := if s.ecc.isEmpty then s.ecc else (wordsOf key bs.length).foldl (keepBad s.mem m) s.ecc }

/-- A run of bytes as a read delivers it. -/
def State.loadBytes (s : State) (key n : Nat) : List Byte :=
  if s.ecc.isEmpty then Memory.readBytes s.mem key n else (List.range n).map (fun i => s.memByte (key + i))

/-- `n` bytes as a number. -/
def State.loadNat (s : State) (key n : Nat) : Nat := natOfBytes (s.loadBytes key n)

/-- Sparse bytes that what the actor does writes to storage: words that the table covers whole get clean check bits. -/
def State.storeSparse (s : State) (m : PMap Byte) : State :=
  m.foldl (fun s e =>
    let wk := e.1 / 8
    let whole := (List.range 8).all (fun i => (Table.find? m (8 * wk + i)).isSome)
    let s := s.raiseLayer e.1 1
    let s := if s.ecc.isEmpty then s else s.cleanWord .walk whole wk
    let m := Memory.writeByte s.mem e.1 e.2
    { s with mem := m, ecc := if s.ecc.isEmpty then s.ecc else keepBad s.mem m s.ecc wk }) s

/-! ### Page tables (R112 to R114) -/

/-- What a walk ends in. -/
inductive Walk where
  | page (host : Bool) (addr : Nat)
  | fault (c : Cause)
  | hole
  deriving DecidableEq, Repr

/-- The index of an address at a level. -/
def ptIndex (level a : Nat) : Nat :=
  match level with
  | 4 => a / 2 ^ 48 % 256
  | l => a / 2 ^ (12 + 9 * l) % 512

/-- The 8-byte entry `i` of the table at `base`, as the walker reads it. -/
def State.pte (s : State) (base i : Nat) : BitVec 64 := BitVec.ofNat 64 (s.loadNat (hbmKey (base + 8 * i)) 8)

/-- A malformed 64 KiB group: its 16 entries must be valid parts of consecutive frames from an aligned base (R112). -/
def State.badGroup (s : State) (base i : Nat) : Bool :=
  let g := i / 16 * 16
  let first := field (s.pte base g) 12 40
  !(first % 16 = 0 && (List.range 16).all (fun j =>
    let e := s.pte base (g + j)
    field e 0 1 = 1 && field e 3 1 = 1 && field e 2 1 = 1 && field e 12 40 = first + j))

/-- Reserved fields of an entry that are not zero (R113). -/
def pteReserved (e : BitVec 64) : Bool := field e 56 8 ≠ 0 || field e 4 8 ≠ 0

/-- The leaf's checks: TARGET, C64 and alignment, then W (R113, R114). -/
def State.leaf (s : State) (level base i a : Nat) (store : Bool) (e : BitVec 64) : Walk :=
  let host := a / 2 ^ 52 % 16 = 8
  let page := 12 + 9 * level
  if pteReserved e || field e 52 4 ≠ (if host then 1 else 0) || (!host && field e 52 0 ≠ 0)
      || (!host && field e 40 12 ≠ 0) || (level = 1 && (field e 3 1 ≠ 0 || field e 12 9 ≠ 0))
      || (level = 0 && field e 3 1 = 1 && s.badGroup base i) then .fault .ptBad
  else if store && field e 1 1 = 0 then .fault .pageWrite
  else
    let p := field e 12 40 * 4096 + a % 2 ^ page
    if host then .page true p else if hbmExists p then .page false p else .hole

/-- The walk from a table at a level. A valid level-0 entry with LEAF 0 is PT_BAD (R113, log 44). -/
def State.walkFrom (s : State) (a : Nat) (store : Bool) : Nat → Nat → Walk
  | level, base =>
    if !hbmExists base then .hole else
    let i := ptIndex level a
    let e := s.pte base i
    if field e 0 1 = 0 then .fault .pageNone
    else
      match level with
      | 0 => if field e 2 1 = 0 then .fault .ptBad else s.leaf 0 base i a store e
      | l + 1 =>
        if field e 2 1 = 1 then
          if l = 0 then s.leaf 1 base i a store e else .fault .ptBad
        else if pteReserved e || field e 52 4 ≠ 0 || field e 3 1 ≠ 0 then .fault .ptBad
        else walkFrom s a store l (field e 12 40 * 4096)

/-- The walk of the address space of a function (R112). -/
def State.walk (s : State) (func a : Nat) (store : Bool) : Walk :=
  match Table.find? s.roots func with
  | some root => s.walkFrom a store 4 root
  | none => .fault .pageNone

/-- The entries that a walk reads, and what reading them logs (R401). -/
def State.walkReads (s : State) (a : Nat) : Nat → Nat → List Nat
  | 0, base => [base + 8 * ptIndex 0 a]
  | l + 1, base =>
    let e := s.pte base (ptIndex (l + 1) a)
    let more := field e 0 1 = 1 && field e 2 1 = 0 && hbmExists (field e 12 40 * 4096)
    (base + 8 * ptIndex (l + 1) a) :: (if more then walkReads s a l (field e 12 40 * 4096) else [])
def State.noteWalkBy (s : State) (by_ : ReadBy) (func a : Nat) : State :=
  if (s.ecc.isEmpty && s.layers.isEmpty) || a / 2 ^ 52 > 8 then s else
  match Table.find? s.roots func with
  | some root => (s.walkReads a 4 root).foldl (fun (s : State) p => s.noteRead by_ (hbmKey p) 8) s
  | none => s

/-! ### Cached translations (R115; log 9 for what each holds) -/

/-- Who holds translations: a core, or a compute die; and who acts now. -/
def tlbOf : UnitId → Nat
  | .core c => c.padIdx
  | .die d => 256 + d.die
def State.target (s : State) : Nat :=
  match s.onDie with
  | some d => tlbOf (.die d)
  | none => tlbOf (.core s.core)
/-- The number of a page of a function's address space, and the entry that a target holds for it. -/
def tlbPage (func a : Nat) : Nat := func * 2 ^ 44 + a / 4096 % 2 ^ 44
def State.tlbEntry (s : State) (k func a : Nat) : Option TlbEntry := Table.find? (Table.get [] s.tlb k) (tlbPage func a)
/-- The translation of an access: by the target's entry where it allows the access, else by a walk. -/
def State.walkOn (s : State) (k func a : Nat) (store : Bool) : Walk :=
  match s.tlbEntry k func a with
  | some e => if store && !e.w then s.walk func a store else .page e.host (e.page + a % 4096)
  | none => s.walk func a store
/-- An entry for a page that a walk finds. -/
def State.fillTlb (s : State) (k func a : Nat) : State :=
  match s.walk func a false with
  | .page host p =>
    let e : TlbEntry := { host, page := p / 4096 * 4096, w := match s.walk func a true with | .page _ _ => true | _ => false }
    { s with tlb := Table.set [] s.tlb k (Table.insert (Table.get [] s.tlb k) (tlbPage func a) e) }
  | _ => s
/-- Entries discarded, of targets and pages that the predicates pick. -/
def State.dropTlb (s : State) (at_ page : Nat → Bool) : State :=
  { s with tlb := (s.tlb.map (fun e => (e.1, if at_ e.1 then e.2.filter (fun x => !page x.1) else e.2))).filter (fun e => !e.2.isEmpty) }
/-- Whether an access of the acting unit finds its translation without a walk; a page that has become writable is walked for
again. -/
def State.tlbHit (s : State) (func a : Nat) : Bool :=
  match s.tlbEntry s.target func a with
  | some e => e.w || (match s.walk func a true with | .page _ _ => false | _ => true)
  | none => false
/-- The translation of an access that performs: a walk where its target holds no entry, which holds one from then on. -/
def State.noteWalk (s : State) (func : Nat) (ea : Word) : State :=
  let a := ea.toNat
  if 8 < a / 2 ^ 52 || s.tlbHit func a then s
  else (s.noteWalkBy .walk func a).fillTlb s.target func a

/-! ### Places -/

/-- The place a flat address names. -/
inductive Place where
  | hbm (p : Nat)
  | host (a : Nat)
  | land (b : Nat)
  | bank (die off : Nat)
  | window (key : Nat)
  | pad (idx off : Nat)
  | flag (k : Nat)
  | peer (key : Nat)
  | csr (n : Nat)
  deriving DecidableEq, Repr

/-- Files of flags: sequencer contexts 0-31, then die contexts; flag `n` of a file (R109, R319). -/
def flagKey (file n : Nat) : Nat := file * 256 + n
def State.flagWord (s : State) (k : Nat) : Word32 :=
  let file := k / 256
  if file < 32 then Table.get 0 (s.ctx (.seq file)).flagsFile (k % 256)
  else Table.get 0 (Table.get DieCtx.unbound s.dieCtx (file - 32)).flagsFile (k % 256)
/-- The parity cell of a flag, and the key under which its errors are reported. -/
def flagCell (k : Nat) : Cell :=
  let file := k / 256
  if file < 32 then .file (.core (.seq file)) .flag (k % 256)
  else .file (.die { die := (file - 32) / 2, k := Fin.ofNat 2 (file - 32) }) .flag (k % 256)
def flagAt (k : Nat) : Nat := 2 ^ 45 + 8 * k
/-- The flags that `n` bytes from flag `k` on lie in. -/
def flagCells (k n : Nat) : Cell → Bool := fun e => (List.range (max 1 (n / 4))).any (fun i => e == flagCell (k + i))
def State.setFlagWord (s : State) (k : Nat) (v : Word32) : State :=
  let s := s.mend (· == flagCell k)
  let file := k / 256
  if file < 32 then s.updCtx (.seq file) (fun x => { x with flagsFile := Table.set 0 x.flagsFile (k % 256) v })
  else s.updDctx { die := (file - 32) / 2, k := Fin.ofNat 2 (file - 32) }
    (fun x => { x with flagsFile := Table.set 0 x.flagsFile (k % 256) v })

/-- Whether a task owns a bank of a die (R63). -/
def State.ownsBank (s : State) (t : TaskId) (die bank : Nat) : Bool :=
  match Table.get .free (s.die die).banks bank with
  | .owned u _ => u == t
  | _ => false

/-- Regions 0xA to 0xC (R109), for an address below 2^56; `none` is ADDR_BAD. -/
def directPlace (a : Nat) : Option Place :=
  let lo := a % 2 ^ 52
  match a / 2 ^ 52 with
  | 0xA =>
    let u := lo / 2 ^ 46
    if u < 48 then
      if lo % 2 ^ 46 / 2 ^ 28 = 0 && lo % 2 ^ 28 < 192 * 2 ^ 20 then some (.bank u (lo % 2 ^ 28)) else none
    else if u < 60 then
      if lo % 2 ^ 46 / 2 ^ 26 = 0 then some (.window (windowKey (u - 48) (lo % 2 ^ 26))) else none
    else none
  | 0xB =>
    let u := lo / 2 ^ 48
    let core := lo / 2 ^ 44 % 16
    if u < 12 then if lo % 2 ^ 44 / 2 ^ 19 = 0 then some (.pad (16 * u + core) (lo % 2 ^ 19)) else none
    else if u = 15 && core < 8 then
      if lo % 2 ^ 44 / 2 ^ 18 = 0 then some (.pad (192 + core) (lo % 2 ^ 18)) else none
    else none
  | 0xC =>
    let u := lo / 2 ^ 46
    let x := lo / 2 ^ 41 % 32
    if lo % 2 ^ 41 / 2 ^ 10 ≠ 0 then none
    else if u < 48 then if x < 2 then some (.flag (flagKey (32 + 2 * u + x) (lo % 2 ^ 10 / 4))) else none
    else if u = 63 then some (.flag (flagKey x (lo % 2 ^ 10 / 4)))
    else none
  | _ => none

/-- Landing bytes that programs reach (R106, R108). -/
def landPlace (a : Nat) : Option Place :=
  let lo := a % 2 ^ 52
  if lo < 2 ^ 27 then some (.land lo) else none

/-- A translated access (regions 0x0 to 0x8), by what a walk gives. -/
def Walk.place (w : Walk) (tval : Word) : Except Verdict Place :=
  match w with
  | .page true p => .ok (.host p)
  | .page false p => .ok (.hbm p)
  | .fault c => .error (.trap c tval 0)
  | .hole => .error (.stop .hbmHole)
/-- Such an access of a core or die. -/
def State.translate (s : State) (u : UnitId) (func : Nat) (a : Nat) (store : Bool) (tval : Word) : Except Verdict Place :=
  (s.walkOn (tlbOf u) func a store).place tval

/-- Failed lanes of a port, and the lanes it runs on: 8, 4 after a failure, none when no lane works (R440). -/
def State.failedLanes (s : State) (port : Nat) : Nat := Table.get 0 s.ports port
def State.portWidth (s : State) (port : Nat) : Nat :=
  if s.failedLanes port = 0 then 8 else if s.failedLanes port = 255 then 0 else 4
/-- Whether the route to a peer is up: it is down from PEER_ROUTE_DOWN on, and while its port has no working lane (R440,
R441). -/
def State.routeUp (s : State) (p : Nat) : Bool :=
  Table.get true s.peers p && (match Table.find? s.routes p with
    | some port => s.portWidth port != 0
    | none => true)

/-- A page of a peer's window (R441): the outcome of a load or store there. -/
def State.peerPlace (s : State) (func a : Nat) (store : Bool) (tval : Word) : Except Verdict Place :=
  let lo := a % 2 ^ 52
  let p := lo / 2 ^ 40
  let o := lo % 2 ^ 40
  if s.pod = none || s.pod = some p || (Table.find? s.peers p).isNone then .error (.trap .addrBad tval 0)
  else match s.windows.find? (fun w => w.peer == p && w.func == func && w.page == o / 2 ^ 21) with
    | none => .error (.trap .pageNone tval 0)
    | some w =>
      if store && !w.writable then .error (.trap .pageWrite tval 0)
      else if !store && !s.routeUp p then .error (.trap .ue tval 0)
      else .ok (.peer (peerKey p (w.key + o % 2 ^ 21)))

/-- How a core reaches a flat address. -/
inductive Access where
  | load | store | atomic | flag
  deriving DecidableEq, Repr

/-- Whether an access writes. -/
def Access.writes : Access → Bool
  | .load => false
  | _ => true

/-- The place that a core context's access of `n` bytes at a flat address reaches, or its fault (R107 to R114, R129,
R147, R439, R441). Alignment is checked first (log 14). A flag instruction's own rule is `flagPlace`. -/
def State.corePlace (s : State) (c : CoreId) (ea : Word) (n : Nat) (acc : Access) : Except Verdict Place :=
  let a := ea.toNat
  let bad : Except Verdict Place := .error (.trap .addrBad ea 0)
  let func := (s.launchOf c).func
  let reg := a / 2 ^ 52 % 16
  if reg = 0xE && acc = .atomic && a < 2 ^ 56 then .error (.trap .atomTarget ea 0)
  else if a % n ≠ 0 then .error (.trap .addrAlign ea 0)
  else if 2 ^ 56 ≤ a then bad
  else if reg < 8 then
    if c.isCellar && acc = .atomic then .error (.trap .atomTarget ea 0) else
    match s.translate (.core c) func a acc.writes ea with
    | .ok (.hbm p) => if c.isCellar && p / 2 ^ 36 ≠ c.stack then .error (.trap .stackWindow ea 0) else .ok (.hbm p)
    | r => r
  else if acc = .atomic && (reg = 0xC || reg = 0xD) then .error (.trap .atomTarget ea 0)
  else if reg = 0xE then
    if a % 2 ^ 52 / 2 ^ 12 ≠ 0 || n ≠ 8 then bad else .ok (.csr (a / 8 % 512))
  else if c.isCellar then
    match directPlace a with
    | some (.pad idx off) => if reg = 0xB && idx / 16 = c.stack && idx < 192 then .ok (.pad idx off) else bad
    | _ => bad
  else if reg = 8 then s.translate (.core c) func a acc.writes ea
  else if reg = 9 then (landPlace a).elim bad .ok
  else if reg = 0xD then s.peerPlace func a acc.writes ea
  else match directPlace a with
    | some (.bank d off) =>
      if s.ownsBank (s.taskId c) d (off / 2 ^ 20) then .ok (.bank d off) else .error (.trap .bankOwn ea 0)
    | some p => .ok p
    | none => bad

/-! ### Bytes of a place -/

/-- The L1 of a context's core. -/
def State.l1 (s : State) (c : CoreId) : PMap CacheByte :=
  match c with
  | .seq n => Table.get [] s.l1Seq (n / 4)
  | .cel n => Table.get [] s.l1Cel (n / 4)
def State.setL1 (s : State) (c : CoreId) (m : PMap CacheByte) : State :=
  let s := s.mend (fun e => match e with
    | .l1 k wk => k == c.padIdx && !m.any (fun b => b.1 / 8 == wk)
    | _ => false)
  match c with
  | .seq n => { s with l1Seq := Table.set [] s.l1Seq (n / 4) m }
  | .cel n => { s with l1Cel := Table.set [] s.l1Cel (n / 4) m }
/-- The L2's dirty bytes replaced. -/
def State.setL2 (s : State) (m : PMap Byte) : State :=
  { s.mend (fun e => match e with | .l2 wk => !m.any (fun b => b.1 / 8 == wk) | _ => false) with l2 := m }

/-- An HBM byte at the L2: its dirty byte, or DRAM's (R105). -/
def State.l2Byte (s : State) (p : Nat) : Byte :=
  match Table.find? s.l2 p with
  | some v => v
  | none => s.memByte (hbmKey p)

/-- The staged byte of a task at a key (R126). -/
def State.stagedByte (s : State) (t : TaskId) (key : Nat) : Option Byte := Table.find? (s.task t).staged key

/-- Whether a task with NONIDEM 0 on another context of the core has dirtied a byte: loads of it go below the L1 (R142). -/
def State.mateStaged (s : State) (c : CoreId) (p : Nat) : Bool :=
  (CoreId.mates c).any (fun m => m != c && (s.ctx m).task.isSome && (s.stagedByte (s.taskId m) (hbmKey p)).isSome)
/-- The L1's copy of an HBM byte that a context's load hits. -/
def State.l1Byte (s : State) (c : CoreId) (p : Nat) : Option Byte :=
  match Table.find? (s.l1 c) p with
  | some b => if b.dirty || !s.mateStaged c p then some b.val else none
  | none => none
/-- Whether a context's load of an HBM byte is served without its store below the L1: staged or in the L1. -/
def State.aboveL2 (s : State) (c : CoreId) (p : Nat) : Bool :=
  (s.stagedByte (s.taskId c) (hbmKey p)).isSome || (s.l1Byte c p).isSome
/-- The cells of cached words that an access of `n` bytes by a core context meets, and by a die or an engine of a task. -/
def State.coreCells (s : State) (c : CoreId) (p n : Nat) : Cell → Bool
  | .l1 k wk => k == c.padIdx && (List.range n).any (fun i => (p + i) / 8 == wk
      && (s.stagedByte (s.taskId c) (hbmKey (p + i))).isNone && (s.l1Byte c (p + i)).isSome)
  | .l2 wk => !c.isCellar && (List.range n).any (fun i => (p + i) / 8 == wk && !s.aboveL2 c (p + i)
      && (Table.find? s.l2 (p + i)).isSome)
  | _ => false
def State.dieCells (s : State) (t : TaskId) (p n : Nat) : Cell → Bool
  | .l2 wk => (List.range n).any (fun i => (p + i) / 8 == wk && (s.stagedByte t (hbmKey (p + i))).isNone
      && (Table.find? s.l2 (p + i)).isSome)
  | _ => false
/-- Words that a store of `n` bytes writes whole, and writes in part. -/
def wholeWords (p n : Nat) : List Nat := (wordsOf p n).filter (fun wk => p ≤ 8 * wk && 8 * wk + 8 ≤ p + n)
def partWords (p n : Nat) : List Nat := (wordsOf p n).filter (fun wk => !(p ≤ 8 * wk && 8 * wk + 8 ≤ p + n))

/-- The cells that an access of the executing unit meets at a key: cached words of HBM, words of lane slices, flags. -/
def State.cellsAt (s : State) (key n : Nat) : Cell → Bool :=
  let p := 8 * (key / 8)
  let k := 8 * (wordsOf key n).length
  if isHbm key then
    match s.onDie with
    | some d => s.dieCells (s.dieTask d) p k
    | none => s.coreCells s.core p k
  else fun e => match e with
    | .slice d wk => 2 ^ 44 + d.key * 2 ^ 18 + 8 * wk == p
    | .file _ .flag _ => flagCells ((key - 2 ^ 45) / 8) n e && 2 ^ 45 ≤ key
    | _ => false
/-- The log of an uncorrectable error that the executing unit consumes. -/
def State.noteUE (s : State) (key n : Nat) : State := (s.noteCells .data (s.cellsAt key n)).noteRead .data key n

/-- An HBM byte as a core context loads it: its staged byte, its L1, then the L2 or, for a cellar core, DRAM. -/
def State.coreHbmByte (s : State) (c : CoreId) (p : Nat) : Byte :=
  match s.stagedByte (s.taskId c) (hbmKey p) with
  | some v => v
  | none =>
    match s.l1Byte c p with
    | some v => v
    | none => if c.isCellar then s.memByte (hbmKey p) else s.l2Byte p

/-- An HBM byte as a die or a copy engine of a task loads it: staged, then the L2 (R105, R126). -/
def State.dieHbmByte (s : State) (t : TaskId) (p : Nat) : Byte :=
  (s.stagedByte t (hbmKey p)).getD (s.l2Byte p)

/-- A byte outside HBM as a task loads it: staged in the landing, else storage. -/
def State.homeByte (s : State) (t : TaskId) (key : Nat) : Byte := (s.stagedByte t key).getD (s.memByte key)

/-- The error status of the first host range that a read touches (R453). -/
def State.hostError (s : State) (a n : Nat) : Option (BitVec 3) :=
  (s.hostBad.find? (fun r => r.1 < a + n && a < r.1 + r.2.1)).map (fun r => r.2.2)

/-- HOST_ERR counts a request and keeps its status and address (R435). -/
def State.hostFailed (s : State) (func a : Nat) (cpl : BitVec 3) : State :=
  let h := (Table.get 0 s.hostErr func : Word)
  let cnt := min (field h 48 16 + 1) 0xFFFF
  { s with hostErr := Table.set 0 s.hostErr func (BitVec.ofNat 64 (cnt * 2 ^ 48 + cpl.toNat)),
           hostErrA := Table.set 0 s.hostErrA func (BitVec.ofNat 64 a) }

/-- The storage key of a place outside HBM and flags. -/
def Place.key : Place → Nat
  | .hbm p => hbmKey p
  | .host a => hostKey a
  | .land b => landKey b
  | .bank d o => dieMemKey d o
  | .window k => k
  | .pad i o => padKey i o
  | .flag k => flagAt k
  | .peer k => k
  | .csr n => n

/-- A byte of the flag words from flag `k` on. -/
def State.flagByte (s : State) (k off : Nat) : Byte :=
  BitVec.ofNat 8 ((s.flagWord (k + off / 4)).toNat >>> (8 * (off % 4)))

/-- The `n` bytes that a core context's load of a place returns; `sub` is the address's offset in its flag word. -/
def State.coreRead (s : State) (c : CoreId) (pl : Place) (sub n : Nat) : Nat :=
  match pl with
  | .hbm p => natOfBytes ((List.range n).map (fun i => s.coreHbmByte c (p + i)))
  | .host a =>
    if (s.hostError a n).isSome then 2 ^ (8 * n) - 1 else s.loadNat (hostKey a) n
  | .flag k => natOfBytes ((List.range n).map (fun i => s.flagByte k (sub + i)))
  | .csr _ => 0
  | pl => natOfBytes ((List.range n).map (fun i => s.homeByte (s.taskId c) (pl.key + i)))

/-- Whether a load of HBM bytes hits: each byte staged or in the L1 (R104, R215). -/
def State.l1Hit (s : State) (c : CoreId) (p n : Nat) : Bool :=
  (List.range n).all (fun i => s.aboveL2 c (p + i))

/-- Whether bytes of DRAM that nothing above holds (`have`) lie in an uncorrectable word: of a read of `n` bytes, and of a
store, for the words that it writes in part (R381, R402). -/
def State.dramUE (s : State) (have_ : Nat → Bool) (p n : Nat) : Bool :=
  !s.ecc.isEmpty && (List.range n).any (fun i => !have_ (p + i) && s.hasUE (hbmKey (p + i)) 1)
def State.dramPartUE (s : State) (have_ : Nat → Bool) (p n : Nat) : Bool :=
  !s.ecc.isEmpty && (wordsOf (hbmKey p) n).any (fun wk =>
    !(hbmKey p ≤ 8 * wk && 8 * wk + 8 ≤ hbmKey p + n) && s.dramUE have_ (8 * wk) 8)
/-- What stands above DRAM for a core context's access: staged bytes, the L1, and the L2 of a sequencer core. -/
def State.heldAbove (s : State) (c : CoreId) (p : Nat) : Bool :=
  s.aboveL2 c p || (!c.isCellar && (Table.find? s.l2 p).isSome)
/-- The same for a die or an engine of a task: staged bytes and the L2. -/
def State.heldForDie (s : State) (t : TaskId) (p : Nat) : Bool :=
  (s.stagedByte t (hbmKey p)).isSome || (Table.find? s.l2 p).isSome

/-- A load's effects besides its value: the L1 fills, and drops a clean copy that the load has passed by for a byte below, so
that no later load reads older bytes (R134); corrected errors are logged, a host error is counted. -/
def State.coreReadEffects (s : State) (c : CoreId) (pl : Place) (n : Nat) : State :=
  match pl with
  | .hbm p =>
    let miss := (List.range n).filter (fun i => !s.aboveL2 c (p + i))
    let l1 := miss.foldl (fun m i =>
      if s.mateStaged c (p + i) then Table.erase m (p + i)
      else Table.insert m (p + i) { val := if c.isCellar then s.memByte (hbmKey (p + i)) else s.l2Byte (p + i), dirty := false })
      (s.l1 c)
    let t := s.noteCells .data (s.coreCells c p n)
    let t := if miss.isEmpty then t else t.setL1 c l1
    if (List.range n).all (fun i => s.heldAbove c (p + i)) then t else t.noteRead .data (hbmKey p) n
  | .host a =>
    match s.hostError a n with
    | some cpl => s.hostFailed (s.launchOf c).func a cpl
    | none => s
  | .flag _ => s
  | .csr _ => s
  | pl => s.noteRead .data pl.key n

/-- Whether a load consumes an uncorrectable error (R381): its bytes come from storage that holds one. -/
def State.readUE (s : State) (c : CoreId) (pl : Place) (n : Nat) : Bool :=
  match pl with
  | .hbm p => s.dramUE (s.heldAbove c) p n || s.cellUE (s.coreCells c p n)
  | .flag k => s.cellUE (flagCells k n)
  | .csr _ => false
  | pl => s.hasUE pl.key n

/-- The granules of R126 that a store of `n` bytes at a key needs. -/
def granulesOf (key n : Nat) : List Nat :=
  if n = 0 then [] else (List.range ((key + n - 1) / 64 - key / 64 + 1)).map (fun i => key / 64 + i)

/-- Whether staging a store would need more than 65,536 granules (R126). -/
def State.stageFull (s : State) (t : TaskId) (keys : List Nat) : Bool :=
  let g := (s.task t).granules
  65536 < g.length + ((keys.filter (fun k => (Table.find? g k).isNone)).eraseDups).length

/-- Bytes staged for a task (R126). They stand in the task's record under the keys of their home, and neither the landing's
upper half nor a stack's reserved area lists them (R106, R110; log 40). -/
def State.stageBytes (s : State) (t : TaskId) (key : Nat) (bs : List Byte) : State :=
  s.updTask t (fun x =>
    { x with
      staged := (bs.zipIdx).foldl (fun m e => Table.insert m (key + e.2) e.1) x.staged,
      granules := (granulesOf key bs.length).foldl (fun m g => Table.insert m g ()) x.granules })

/-- Clean copies of HBM bytes dropped from an L1, so that a context never reads older bytes than it stored (R134). -/
def State.dropClean (s : State) (c : CoreId) (ps : List Nat) : State :=
  s.setL1 c (ps.foldl (fun m p =>
    match Table.find? m p with
    | some b => if b.dirty then m else Table.erase m p
    | none => m) (s.l1 c))

/-- Writes that reach DRAM below the L2 invalidate the L2's bytes (R105). -/
def State.dramWrite (s : State) (p : Nat) (bs : List Byte) : State :=
  let s := s.storeBytes (hbmKey p) bs
  s.setL2 (s.l2.filter (fun e => !(p ≤ e.1 && e.1 < p + bs.length)))
/-- Sparse bytes of HBM written to DRAM, with the same effect on the L2. -/
def State.dramSparse (s : State) (m : PMap Byte) : State :=
  let s := s.storeSparse (m.map (fun e => (hbmKey e.1, e.2)))
  s.setL2 (m.foldl (fun l e => Table.erase l e.1) s.l2)

/-- Cells of cached words written by `n` bytes at `p`: what a word written in part meets is logged and corrected (R401), and
a word written whole is clean. -/
def State.writeCells (s : State) (cell : Nat → Cell) (p n : Nat) : State :=
  if s.flaws.isEmpty then s
  else (s.noteCells .data (fun e => (partWords p n).any (fun wk => e == cell wk))).mend
    (fun e => (wholeWords p n).any (fun wk => e == cell wk))
/-- Bytes written at the L2. -/
def State.l2Write (s : State) (p : Nat) (bs : List Byte) : State :=
  (s.writeCells .l2 p bs.length).setL2 ((bs.zipIdx).foldl (fun m e => Table.insert m (p + e.2) e.1) s.l2)
/-- Words of the L2 that sparse bytes write whole, and in part. -/
def wholeL2 (m : PMap Byte) : Cell → Bool
  | .l2 wk => (List.range 8).all (fun i => (Table.find? m (8 * wk + i)).isSome)
  | _ => false
def partL2 (m : PMap Byte) : Cell → Bool
  | .l2 wk => m.any (fun b => b.1 / 8 == wk) && !wholeL2 m (.l2 wk)
  | _ => false
/-- Sparse bytes written at the L2: what a word written in part meets is logged and corrected (R401), and words written whole
are clean. -/
def State.l2Sparse (s : State) (m : PMap Byte) : State :=
  let s := if s.flaws.isEmpty then s else (s.noteCells .walk (partL2 m)).mend (wholeL2 m)
  s.setL2 (m.foldl (fun l e => Table.insert l e.1 e.2) s.l2)

/-- A word of storage that takes an uncorrectable word from above: its check byte shows the same p and s. -/
def State.spoil (s : State) (key : Nat) (syn : Byte) : State :=
  let wk := key / 8
  let lo := syn.toNat % 128
  let flip := lo + 128 * ((syn.toNat / 128 + popBits lo 7) % 2)
  { s with ecc := Table.insert s.ecc wk (BitVec.ofNat 8 (eccByte (Memory.readNat s.mem (8 * wk) 8) ^^^ flip)) }
/-- Words of some cells on their way down by what the actor does: what is corrected is logged (R401); each that is left is in error below. -/
def State.leaveCells (s : State) (p : Cell → Bool) : State × List (Nat × Byte) :=
  if s.flaws.isEmpty then (s, [])
  else
    let s := s.noteCells .walk p
    let wordOf : Cell → Nat := fun e => match e with | .l1 _ wk | .l2 wk => wk | _ => 0
    (s.mend p, (s.flaws.filter (fun e => p e.1)).map (fun e => (wordOf e.1, e.2)))
/-- Bytes that leave an L1, to DRAM from a cellar core and to the L2 from a sequencer core, with the errors of their words. -/
def State.sendDown (s : State) (c : CoreId) (dirty : PMap Byte) (bad : List (Nat × Byte)) : State :=
  if c.isCellar then bad.foldl (fun (s : State) e => s.spoil (hbmKey (8 * e.1)) e.2) (s.dramSparse dirty)
  else { s.l2Sparse dirty with flaws := (s.l2Sparse dirty).flaws ++ bad.map (fun e => (.l2 e.1, e.2)) }
/-- The L1 words of a context's core that some bytes lie in. -/
def l1Cells (c : CoreId) (m : PMap Byte) : Cell → Bool
  | .l1 k wk => k == c.padIdx && m.any (fun b => b.1 / 8 == wk)
  | _ => false

/-- A core context's store of bytes to a place, staging while NONIDEM is 0 (R126, R215). CSRs are written elsewhere. -/
def State.coreWrite (s : State) (c : CoreId) (pl : Place) (sub : Nat) (bs : List Byte) : State :=
  let t := s.taskId c
  match pl with
  | .hbm p =>
    if s.nonidem t then
      (s.writeCells (.l1 c.padIdx) p bs.length).setL1 c
        ((bs.zipIdx).foldl (fun m e => Table.insert m (p + e.2) { val := e.1, dirty := true }) (s.l1 c))
    else (s.stageBytes t (hbmKey p) bs).dropClean c ((List.range bs.length).map (p + ·))
  | .land b => if s.nonidem t then s.storeBytes (landKey b) bs else s.stageBytes t (landKey b) bs
  | .flag k =>
    (bs.zipIdx).foldl (fun s e =>
      let o := sub + e.2
      let w := s.flagWord (k + o / 4)
      let sh := 8 * (o % 4)
      s.setFlagWord (k + o / 4) ((w &&& ~~~(BitVec.ofNat 32 (255 <<< sh))) ||| BitVec.ofNat 32 (e.1.toNat <<< sh))) s
  | .csr _ => s
  | pl => s.storeBytes pl.key bs

/-- The granules a core's store to a place would stage. -/
def stageKeys (pl : Place) (n : Nat) : List Nat :=
  match pl with
  | .hbm p => granulesOf (hbmKey p) n
  | .land b => granulesOf (landKey b) n
  | _ => []

/-- Stores to these places make a task non-idempotent before they perform (R127). -/
def Place.endsIdem : Place → Bool
  | .host _ | .flag _ | .peer _ | .csr _ | .bank _ _ | .window _ => true
  | _ => false

/-! ### Releases and acquires (R141 to R144) -/

/-- Dirty L1 bytes of a context's core written back, those that `p` picks: to the L2, or to DRAM from a cellar core. -/
def State.cleanSome (s : State) (c : CoreId) (p : Nat → Bool) : State := s.acting c none (fun s =>
  let dirty := ((s.l1 c).filter (fun e => e.2.dirty && p e.1)).map (fun e => (e.1, e.2.val))
  let m := (s.l1 c).map (fun e => (e.1, { e.2 with dirty := e.2.dirty && !p e.1 }))
  let r := s.leaveCells (l1Cells c dirty)
  (r.1.setL1 c m).sendDown c dirty r.2)
/-- All of them. -/
def State.cleanL1 (s : State) (c : CoreId) : State := s.cleanSome c (fun _ => true)

/-- Every dirty L2 byte written to DRAM. -/
def State.cleanL2 (s : State) : State :=
  let r := s.leaveCells (fun e => match e with | .l2 _ => true | _ => false)
  r.2.foldl (fun (s : State) e => s.spoil (hbmKey (8 * e.1)) e.2)
    ((r.1.storeSparse (s.l2.map (fun e => (hbmKey e.1, e.2)))).setL2 [])

/-- The scope as a context's kind takes it (R142). -/
def scopeOn (c : CoreId) (sc : Scope) : Scope :=
  if c.isCellar then
    match sc with
    | .die | .part => .core
    | .pkg => .mem
    | sc => sc
  else sc

/-- What a release writes back (R141, R143): with .mem and .sys every dirty byte of the L2, whichever agent stored it. -/
def State.releaseBytes (s : State) (c : CoreId) (sc : Scope) : State :=
  match scopeOn c sc with
  | .core | .die => s
  | .part | .pkg => s.cleanL1 c
  | .mem | .sys => (s.cleanL1 c).cleanL2

/-- What an acquire discards: the clean bytes of the issuing core's L1 (R141, R144). -/
def State.acquireBytes (s : State) (c : CoreId) (sc : Scope) : State :=
  match scopeOn c sc with
  | .core | .die => s
  | _ => s.setL1 c ((s.l1 c).filter (fun e => e.2.dirty))

/-- The L1's dirty bytes of a range written back and its copies dropped, before an access at the level below (R148). -/
def State.flushRange (s : State) (c : CoreId) (p n : Nat) : State :=
  let here := (s.l1 c).filter (fun e => p ≤ e.1 && e.1 < p + n)
  let dirty := (here.filter (fun e => e.2.dirty)).map (fun e => (e.1, e.2.val))
  let r := s.leaveCells (l1Cells c dirty)
  (r.1.setL1 c ((s.l1 c).filter (fun e => !(p ≤ e.1 && e.1 < p + n)))).sendDown c dirty r.2

/-! ### Ranges saved and restored (R397) -/

/-- Cells of a range of keys, counted from its start, and check bytes of its words. -/
def State.cells (s : State) (lo n : Nat) : PMap Byte :=
  (s.mem.filter (fun e => lo ≤ e.1 && e.1 < lo + n)).map (fun e => (e.1 - lo, e.2))
def State.checks (s : State) (lo n : Nat) : PMap Byte :=
  (s.ecc.filter (fun e => lo ≤ 8 * e.1 && 8 * e.1 < lo + n)).map (fun e => (e.1 - lo / 8, e.2))
/-- A range of keys replaced. -/
def State.putCells (s : State) (lo n : Nat) (m ecc : PMap Byte) : State :=
  { s with
    mem := m.foldl (fun a e => Memory.writeByte a (lo + e.1) e.2) (s.mem.filter (fun e => !(lo ≤ e.1 && e.1 < lo + n))),
    ecc := ecc.foldl (fun a e => Table.insert a (lo / 8 + e.1) e.2)
      (s.ecc.filter (fun e => !(lo ≤ 8 * e.1 && 8 * e.1 < lo + n))) }

end Sys2Proof.Machine
end

