-- ==== Sys2Proof/Machine/Pages.lean ====
section
/-! DEFINITION. The pages that firmware hands out and maps for loaded objects and bound tasks, and the private pages of a
task (R36, R37, R67, R110 to R115, R416, R429; log 23 for the places that firmware chooses). -/

namespace Sys2Proof.Machine

/-! ### Pages (R112, R113; log 23) -/

/-- Pages for flat memory and page tables start above the tensor store's part of a stack, and end below its reserved area
(R110). -/
def firstPage (stack : Nat) : Nat := stack * 2 ^ 24 + 24 * 2 ^ 18
def pagesOfStack : Nat := 24 * 2 ^ 18 - 2 ^ 17

/-- Whether page `n` of a stack's flat part lies in a RETIRED pseudo-channel; firmware hands out no such page (R416). -/
def State.pageBarred (s : State) (stack n : Nat) : Bool :=
  (List.range 16).any (fun i => (s.healthOf (unitCode 0x21 stack (n % 16 * 16 + i))).st == .retired)
/-- The first page from `n` on that may be handed out; channels recur every 16 pages (R110). -/
def State.goodPage (s : State) (stack n : Nat) : Option Nat :=
  ((List.range 16).map (n + ·)).find? (fun p => !s.pageBarred stack p && p < pagesOfStack)

/-- A page of a stack, returned or never used: its physical address; none when there is none (R110, R416). -/
def State.newPage (s : State) (stack : Nat) : Option (Nat × State) :=
  let back := Table.get [] s.pagesFree stack
  let out (s : State) (p : Nat) : Nat × State := ((firstPage stack + p) * 4096, s.powerOn ((firstPage stack + p) * 4096) 4096)
  match back.find? (fun p => !s.pageBarred stack p) with
  | some p => some (out { s with pagesFree := Table.set [] s.pagesFree stack (back.filter (· != p)) } p)
  | none => (s.goodPage stack (Table.get 0 s.pagesOut stack)).map (fun p =>
      out { s with pagesOut := Table.insert s.pagesOut stack (p + 1) } p)
/-- A page handed back. -/
def State.freePage (s : State) (a : Nat) : State :=
  let stack := a / 2 ^ 36
  { s with pagesFree := Table.set [] s.pagesFree stack (Table.get [] s.pagesFree stack ++ [a / 4096 - firstPage stack]) }
/-- A page for a table, holding zeros. -/
def State.tablePage (s : State) : Option (Nat × State) :=
  (s.newPage 0).map (fun e => (e.1, e.2.dramWrite e.1 (List.replicate 4096 0)))

/-- A page-table entry written by firmware. -/
def State.writePte (s : State) (a : Nat) (e : BitVec 64) : State := s.dramWrite a (bytesOfNat e.toNat 8)

/-- A leaf entry of a writable HBM page, and an entry that names a table (R113). -/
def leafPte (p : Nat) : BitVec 64 := BitVec.ofNat 64 (p / 4096 * 4096 + 7)
def tablePte (p : Nat) : BitVec 64 := BitVec.ofNat 64 (p / 4096 * 4096 + 1)

/-- The page of a flat address mapped to a physical page, tables made where they are missing; without a page for a table
nothing is mapped. -/
def State.mapFrom (s : State) (a p : Nat) : Nat → Nat → State
  | 0, base => s.writePte (base + 8 * ptIndex 0 a) (leafPte p)
  | l + 1, base =>
    let i := ptIndex (l + 1) a
    let e := s.pte base i
    if field e 0 1 = 1 then s.mapFrom a p l (field e 12 40 * 4096)
    else
      match s.tablePage with
      | some (t, s) => (s.writePte (base + 8 * i) (tablePte t)).mapFrom a p l t
      | none => s

/-- A new address space: no context has issued a packet in it, and no target holds a translation of an earlier one (R115). -/
def State.newSpace (s : State) (func root : Nat) : State :=
  { s.dropTlb (fun _ => true) (fun p => p / 2 ^ 44 == func) with
    roots := Table.insert s.roots func root, dieSeen := s.dieSeen.filter (fun e => e.1 / 32 != func),
    seq := s.seq.map (fun e =>
      if e.2.task.isSome && (s.launchOf (.seq e.1)).func == func then (e.1, { e.2 with diePres := 0 }) else e) }
/-- The root table of a function's address space, made when it has none. -/
def State.rootOf (s : State) (func : Nat) : Option (Nat × State) :=
  match Table.find? s.roots func with
  | some r => some (r, s)
  | none => s.tablePage.map (fun e => (e.1, e.2.newSpace func e.1))

/-- A fresh page of a stack mapped at a flat address, unless the address is mapped. -/
def State.mapPage (s : State) (func stack a : Nat) : State :=
  match s.walk func a false with
  | .fault .pageNone =>
    match s.rootOf func with
    | none => s
    | some (r, s') =>
      match s'.newPage stack with
      | none => s
      | some (p, s') => s'.mapFrom a p 4 r
  | _ => s

/-- The page of a flat address unmapped, its translations invalidated everywhere, and handed back (R115, log 9). -/
def State.unmapPage (s : State) (func a : Nat) : State :=
  match s.walk func a false, (Table.find? s.roots func).bind (fun r => (s.walkReads a 4 r).getLast?) with
  | .page false p, some e =>
    ((s.writePte e 0).dropTlb (fun _ => true) (· == tlbPage func a)).freePage (p / 4096 * 4096)
  | _, _ => s

/-- The first bytes of the pages of a range. -/
def pagesOf (a n : Nat) : List Nat :=
  if n = 0 then [] else (List.range ((a + n - 1) / 4096 - a / 4096 + 1)).map (fun i => (a / 4096 + i) * 4096)
/-- Every page of a range mapped, or unmapped. -/
def State.mapRange (s : State) (func stack a n : Nat) : State :=
  (pagesOf a n).foldl (fun (s : State) p => s.mapPage func stack p) s
def State.unmapRange (s : State) (func a n : Nat) : State :=
  (pagesOf a n).foldl (fun (s : State) p => s.unmapPage func p) s

/-! ### TLS and stack of a task (R429; log 23 for the addresses) -/

/-- The widths of WID_FMT (R36). -/
def widNf (fmt : Nat) : Nat := fmt / 2 ^ 48 % 8
def widW (fmt i : Nat) : Nat := fmt / 2 ^ (7 * i) % 128
def widCor (fmt : Nat) : Nat := fmt / 2 ^ 42 % 64
/-- Bits of the fields from level `j` on. -/
def widShift (fmt j : Nat) : Nat := ((List.range 6).map (fun i => if j ≤ i then widW fmt i else 0)).foldl (· + ·) 0
/-- Work-identifier fields: widths and extents (R36, R37). -/
def widWidths (fmt : Nat) : List Nat := (List.range 6).map (widW fmt)
def widExtent (fmt lim i : Nat) : Nat := lim / 2 ^ widShift fmt (i + 1) % 2 ^ widW fmt i + 1

/-- Tasks of a launch before a work identifier in the order of R37. -/
def widIndex (fmt lim wid : Nat) : Nat :=
  (List.range (widNf fmt)).foldl (fun a i => a * widExtent fmt lim i + wid / 2 ^ widShift fmt (i + 1) % 2 ^ widW fmt i) 0

/-- Bytes that a context's private pages take up: TLS, then stack, rounded up to a power of two. -/
def privateStep (o : Obj) : Nat :=
  let n := (o.tlsSize + 4095) / 4096 * 4096 + (o.stackSize + 4095) / 4096 * 4096
  (((List.range 24).map (fun i => 4096 * 2 ^ i)).find? (n ≤ ·)).getD (2 ^ 36)
/-- Where they begin, in the upper half of the HBM flat region (R108), above every object: the launch's place and the task give
it, so every run and every bind of a task has the same (R67, R69). -/
def privateBase (l : Launch) (o : Obj) (wid : Nat) : Nat :=
  2 ^ 54 + l.place % 2 ^ 18 * 2 ^ 36 + widIndex (recWidf l.record) (recWidl l.record) wid * privateStep o % 2 ^ 36
/-- The name of the host's launch that `n` of its LAUNCH records went before in its queue, and of the `n`-th LAUNCH of a task: neither depends on
the order in which records of different queues or tasks arrive (R67 to R69; log 23). -/
def hostName (queue n : Nat) : Nat := (64 * n + queue) % 2 ^ 64
def childName (l : Launch) (wid n : Nat) : Nat :=
  (l.name * 6364136223846793005 + widIndex (recWidf l.record) (recWidl l.record) wid * 1442695040888963407 + 2 ^ 19 + n) % 2 ^ 64
/-- The stack's first page, and its top. -/
def stackBase (l : Launch) (o : Obj) (wid : Nat) : Nat := privateBase l o wid + (o.tlsSize + 4095) / 4096 * 4096
def stackTop (l : Launch) (o : Obj) (wid : Nat) : Nat := stackBase l o wid + o.stackSize

def State.objOf (s : State) (l : Launch) : Obj :=
  (Table.find? s.objs l.obj).getD { func := l.func, ftBase := [], ftLen := 0, dataBase := [], stackSize := 0, tlsSize := 0, codeSize := 0 }

/-- The pages of a task's TLS and stack. -/
def State.privatePages (s : State) (t : TaskId) : List Nat :=
  let l := s.launch t.lid
  let o := s.objOf l
  pagesOf (privateBase l o t.wid) o.tlsSize ++ pagesOf (stackBase l o t.wid) o.stackSize
/-- Whether no other task's pages stand where a task's would. -/
def State.privateFree (s : State) (t : TaskId) : Bool :=
  (s.privatePages t).all (fun a => s.walk (s.launch t.lid).func a false == .fault .pageNone)
/-- The private pages of a task mapped to pages of a stack (R429). -/
def State.mapPrivate (s : State) (t : TaskId) (stack : Nat) : State :=
  (s.privatePages t).foldl (fun (s : State) a => s.mapPage (s.launch t.lid).func stack a) s
/-- Whether every private page of a task is mapped to HBM. -/
def State.privateMapped (s : State) (t : TaskId) : Bool :=
  (s.privatePages t).all (fun a => match s.walk (s.launch t.lid).func a false with | .page false _ => true | _ => false)
/-- The private pages of a task that has ended are unmapped. -/
def State.dropPrivate (s : State) (t : TaskId) : State :=
  let l := s.launch t.lid
  let o := s.objOf l
  (s.unmapRange l.func (privateBase l o t.wid) o.tlsSize).unmapRange l.func (stackBase l o t.wid) o.stackSize

end Sys2Proof.Machine
end

