-- ==== Sys2Proof/Machine/Tasks.lean ====
section
/-! DEFINITION. Staged writes and their commit, banks at the end of a task, and the ends of a task: rollback, abort
and FAULTED (R42, R43, R63, R65, R124 to R127, R331, R364, R365, R390, R391). -/

namespace Sys2Proof.Machine

/-! ### Causes (R380) -/

/-- The cause codes. -/
def Cause.code : Cause → Nat
  | .illegal c =>
    match c with
    | .opcode => 0x01 | .function => 0x02 | .reserved => 0x03 | .source => 0x04 | .type => 0x05 | .slot => 0x06
    | .hold => 0x07 | .headimm => 0x08 | .destClash => 0x09 | .latchHazard => 0x0A | .line => 0x0B
  | .noDies => 0x10 | .targetAlign => 0x11 | .fetchFault => 0x12 | .inoOverflow => 0x13 | .loopBusy => 0x14
  | .seqPlace => 0x15 | .callRange => 0x16 | .callSig => 0x17 | .addrBad => 0x18 | .addrAlign => 0x19
  | .pageNone => 0x1A | .pageWrite => 0x1B | .ptBad => 0x1C | .bankOwn => 0x1D | .ownState => 0x1E
  | .stackWindow => 0x1F | .coordRange => 0x20 | .ttUnmapped => 0x21 | .handleStale => 0x22 | .stageFull => 0x23
  | .atomType => 0x24 | .atomTarget => 0x25 | .priv => 0x26 | .csrBad => 0x27 | .soft => 0x28 | .brk => 0x29
  | .dupMismatch => 0x2A | .sigMismatch => 0x2B | .nestBad => 0x2C | .nestOpnd => 0x2D | .tileFmt => 0x2E
  | .xEmpty => 0x2F | .cbBad => 0x30 | .cbStall => 0x31 | .permBad => 0x32 | .residue => 0x33 | .nmDesc => 0x34
  | .nmTicket => 0x35 | .nmFault => 0x36 | .ue => 0x37 | .timer => 0x38 | .double => 0x39 | .rollbackLimit => 0x3A

/-- The fates of R380. -/
inductive Fate where
  | h | s | a | f
  deriving DecidableEq, Repr

def Cause.fate : Cause → Fate
  | .pageNone | .pageWrite => .s
  | .fetchFault | .ptBad | .ttUnmapped | .dupMismatch | .sigMismatch | .nestOpnd | .residue | .nmFault | .ue => .a
  | .stageFull | .double | .rollbackLimit => .f
  | _ => .h

/-- Causes after which R417 keeps a rolled-back task off SUSPECT units. -/
def Cause.wary : Cause → Bool
  | .residue | .sigMismatch | .dupMismatch | .ue => true
  | _ => false

/-! ### Frames (R123 to R125) -/

/-- The first byte of a frame, and the stack whose pool it belongs to. -/
def frameBase (f : BitVec 24) : Nat := f.toNat * 2 ^ 16
def frameStack (f : BitVec 24) : Nat := f.toNat / 2 ^ 20

/-- A frame back in its stack's pool. -/
def State.poolAdd (s : State) (f : BitVec 24) : State :=
  { s with pool := Table.set [] s.pool (frameStack f) (Table.get [] s.pool (frameStack f) ++ [f]) }

/-- Frames of a stack that firmware gives the tensor store (log 23): the low 24 GiB. -/
def framesOfStack : Nat := 24 * 2 ^ 14
/-- Whether firmware has withdrawn the frames of a stack: one of its pseudo-channels is RETIRED, and every frame lies in
all of them (R110, R416). -/
def State.framesBarred (s : State) (stack : Nat) : Bool :=
  s.health.any (fun e => e.1 / 2 ^ 16 == 0x2100 + stack && e.2.st == .retired)
/-- Free frames of a stack. -/
def State.poolFree (s : State) (stack : Nat) : Nat :=
  if s.framesBarred stack then 0
  else (Table.get [] s.pool stack).length + (framesOfStack - Table.get 0 s.framesOut stack)
/-- The first free frame of a stack, and the state without it. -/
def State.poolTake (s : State) (stack : Nat) : Option (BitVec 24 × State) :=
  if s.framesBarred stack then none else
  match Table.get [] s.pool stack with
  | f :: rest => some (f, State.powerOn { s with pool := Table.set [] s.pool stack rest } (frameBase f) 65536)
  | [] =>
    let n := Table.get 0 s.framesOut stack
    let f : BitVec 24 := BitVec.ofNat 24 (stack * 2 ^ 20 + n)
    if n < framesOfStack then
      some (f, State.powerOn { s with framesOut := Table.insert s.framesOut stack (n + 1) } (frameBase f) 65536)
    else none

/-- The handle of a tensor table entry, and the slot and generation in it (R117, R121). -/
def tHandle (e : BitVec 512) : BitVec 32 := e.extractLsb' 0 32
def handleSlot (h : BitVec 32) : Nat := field h 0 20
def handleGen (h : BitVec 32) : Nat := field h 20 12

/-- What a unit's x registers, transfers and nests have captured: whether some handle with its tiles satisfies `p`. -/
def regsHold (m : PMap XReg) (p : BitVec 32 → List Tile → Bool) : Bool := m.any (fun e => p e.2.handle e.2.tiles)
def opsHold (l : List CopyOp) (p : BitVec 32 → List Tile → Bool) : Bool := l.any (fun o => p (tHandle o.entry) o.tiles)
def Ctx.counts (x : Ctx) (p : BitVec 32 → List Tile → Bool) : Bool := regsHold x.xregs p || opsHold x.engine p
def DieCtx.counts (x : DieCtx) (p : BitVec 32 → List Tile → Bool) : Bool :=
  regsHold x.xregs p || x.engines.any (fun e => opsHold e.2 p) || x.nests.any (fun n => p (tHandle n.tensor) n.tiles)
/-- The same over the whole part, the saved contexts of pre-empted tasks included (R123, R294). -/
def State.counts (s : State) (p : BitVec 32 → List Tile → Bool) : Bool :=
  s.seq.any (fun e => e.2.counts p) || s.cel.any (fun e => e.2.counts p) || s.dieCtx.any (fun e => e.2.counts p)
    || s.launches.any (fun l => l.2.tasks.any (fun t =>
        match t.2.saved with
        | some v => v.ctx.counts p || v.dies.any (fun d => d.2.ctx.counts p)
        | none => false))

/-- Whether any x register or transfer still counts a frame (R123). -/
def State.captured (s : State) (f : BitVec 24) : Bool := s.counts (fun _ ts => ts.any (fun t => t.v && t.frame == f))
/-- Whether the in-flight count of a tensor slot is above zero: some x register or transfer has captured from it
(R121, R123). -/
def State.inFlight (s : State) (slot : Nat) : Bool := s.counts (fun h ts => !ts.isEmpty && handleSlot h == slot)

/-- A frame that a commit replaced: to its pool, or kept until nothing counts it (R125). -/
def State.retireFrame (s : State) (f : BitVec 24) : State :=
  if s.captured f then { s with limbo := s.limbo ++ [f] } else s.poolAdd f

/-- A tensor slot's record, and whether a handle is current (R121). -/
def State.tslot (s : State) (n : Nat) : TensorSlot := Table.get TensorSlot.unused s.slots n
def State.handleCurrent (s : State) (h : BitVec 32) : Bool :=
  (s.tslot (handleSlot h)).gen.toNat == handleGen h

/-- Fields of a tile-table entry (R120). -/
def ttV (e : BitVec 64) : Bool := e.getLsbD 63
def ttVer (e : BitVec 64) : BitVec 16 := e.extractLsb' 40 16
def ttFrame (e : BitVec 64) : BitVec 24 := e.extractLsb' 16 24
def ttMake (ver : BitVec 16) (f : BitVec 24) : BitVec 64 := 1#1 ++ 0#7 ++ ver ++ f ++ 0#16

/-- The tile-table entry at an HBM address. -/
def State.ttEntry (s : State) (a : Nat) : BitVec 64 := BitVec.ofNat 64 (s.loadNat (hbmKey a) 8)
def State.setTtEntry (s : State) (a : Nat) (e : BitVec 64) : State := s.dramWrite a (bytesOfNat e.toNat 8)

/-- The tile-table entries at some HBM addresses read: what the reads meet is logged (R401). -/
def State.noteEntries (s : State) (l : List Nat) : State := l.foldl (fun (s : State) a => s.noteRead .data (hbmKey a) 8) s

/-- Bytes copied within HBM below the L2, zero bytes included; an error that the read meets is logged (R105, R401). -/
def State.copyHbm (s : State) (src dst n : Nat) : State :=
  (s.noteRead .data (hbmKey src) n).dramWrite dst (s.loadBytes (hbmKey src) n)

/-- A tile, with its scale byte when it has one, copied from one frame to another (R120). -/
def State.copyTile (s : State) (src dst : BitVec 24) (size slot : Nat) (block : Bool) : State :=
  let off := 1024 + slot * size
  let s := s.copyHbm (frameBase src + off) (frameBase dst + off) size
  if block then s.copyHbm (frameBase src + slot) (frameBase dst + slot) 1 else s

/-- One shadow frame committed (R125). A freed tensor's shadow returns to the pool (DEDUCED, log 16). -/
def State.commitShadow (s : State) (entry : Nat) (sh : Shadow) : State :=
  if !s.handleCurrent sh.handle then s.poolAdd sh.frame
  else
    let e := s.ttEntry entry
    let next := ttMake (ttVer e + 1) sh.frame
    let s := s.noteEntries [entry]
    if ttVer e = sh.ver then (s.setTtEntry entry next).retireFrame (ttFrame e)
    else
      let n := 64512 / max sh.size 1
      let keep := (List.range n).filter (fun i => (Table.find? sh.tiles i).isNone)
      let s := keep.foldl (fun s i => s.copyTile (ttFrame e) sh.frame sh.size i sh.block) s
      (s.setTtEntry entry next).retireFrame (ttFrame e)

/-- The staged bytes of a task written to their home (R126). -/
def State.commitBytes (s : State) (cellar : Bool) (m : PMap Byte) : State :=
  let hbm := m.filter (fun e => isHbm e.1)
  let rest := m.filter (fun e => !isHbm e.1)
  let s := s.storeSparse rest
  if cellar then
    s.dramSparse hbm
  else s.l2Sparse hbm

/-- Commit of everything a task has staged, as one event (R125, R126). `c` is the context it runs on: what another context of
its core has dirtied among these bytes in their L1 is older and leaves it first (R134). -/
def State.commitStaged (s : State) (t : TaskId) (c : Option CoreId) : State :=
  let x := s.task t
  let s : State := match c with
    | some c => s.cleanSome c (fun p => (Table.find? x.staged (hbmKey p)).isSome)
    | none => s
  let cellar := (s.launch t.lid).kind == .cellar
  let s := s.commitBytes cellar x.staged
  let s : State := match c with
    | some c => s.dropClean c ((x.staged.filter (fun e => isHbm e.1)).map Prod.fst)
    | none => s
  let s := x.shadows.foldl (fun s e => s.commitShadow e.1 e.2) s
  s.updTask t (fun x => { x with staged := [], granules := [], shadows := [] })

/-- Everything a task has staged discarded (R125, R126). -/
def State.dropStaged (s : State) (t : TaskId) : State :=
  let x := s.task t
  let s := x.shadows.foldl (fun s e => s.poolAdd e.2.frame) s
  s.updTask t (fun x => { x with staged := [], granules := [], shadows := [] })

/-! ### Pending launches (R331, R364) -/

/-- One eligible entry enters its queue or is discarded. -/
def State.enterOne (s : State) (k : Nat) (e : PendEntry) : State :=
  let s := { s with pend := Table.erase s.pend k }
  let l := s.launch e.task.lid
  let q := recQueue e.record
  if q < 64 && (s.queue q).func = l.func then
    if 256 ≤ (s.queue q).recs.length then s.notAccepted q l.func e.record 0x03
    else s.updQueue q (fun x =>
      { x with recs := x.recs ++ [{ record := e.record, device := true, name := e.name, admitted := false, waits := [], failed := false }] })
  else s.notAccepted l.queue l.func e.record 0x02

/-- Every eligible entry, in ascending order. -/
def State.enterPending (s : State) : State :=
  (s.pend.filter (fun e => e.2.eligible)).foldl (fun s e => s.enterOne e.1 e.2) s

/-- A task's reserved entries become eligible and enter. -/
def State.releasePending (s : State) (t : TaskId) : State :=
  if s.pend.any (fun e => e.2.task == t) then
    State.enterPending
      { s with pend := s.pend.map (fun e => if e.2.task == t then (e.1, { e.2 with eligible := true }) else e) }
  else s

/-- A task's reserved entries freed unlaunched. -/
def State.dropPending (s : State) (t : TaskId) : State :=
  { s with pend := s.pend.filter (fun e => e.2.task != t || e.2.eligible) }

/-- Whether the commit of a task's shadow frames reads an uncorrectable word: of a tile-table entry, or of a tile that the
task did not write and another commit has replaced (R125, R381). -/
def State.commitUE (s : State) (t : TaskId) : Bool :=
  !s.ecc.isEmpty && (s.task t).shadows.any (fun x =>
    let e := s.ttEntry x.1
    let sh := x.2
    s.handleCurrent sh.handle && (s.hasUE (hbmKey x.1) 8
      || (ttVer e != sh.ver && (List.range (64512 / max sh.size 1)).any (fun i => (Table.find? sh.tiles i).isNone
        && (s.hasUE (hbmKey (frameBase (ttFrame e) + 1024 + i * sh.size)) sh.size
          || (sh.block && s.hasUE (hbmKey (frameBase (ttFrame e) + i)) 1))))))

/-- R127: before the access or release performs, what the task has staged commits and NONIDEM becomes 1. -/
def State.endIdem (s : State) (t : TaskId) (c : Option CoreId) : State :=
  if s.nonidem t then s
  else ((s.commitStaged t c).updTask t (fun x => { x with nonidem := true, owesUE := x.owesUE || s.commitUE t })).releasePending t

/-! ### Banks (R63, R65, R390) -/

/-- A successor of a launch: admitted before it completed, it WAITs on its SIGNAL event or FOLLOWs it. -/
def State.successorOf (s : State) (lid : Nat) (e : Nat × Launch) : Bool :=
  let l := s.launch lid
  e.1 < l.doneAt && e.1 ≠ lid && e.2.func = l.func
    && (e.2.leader = some lid || (recSignal l.record ≠ 0 && (recWaits e.2.record).contains (recSignal l.record)))

/-- A RELEASED bank whose launch, with every successor, has completed or failed. -/
def State.bankDone (s : State) (die bank : Nat) : Bool :=
  match Table.get .free (s.die die).banks bank with
  | .released u _ => (s.launch u.lid).complete && s.launches.all (fun e => !s.successorOf u.lid e || e.2.complete)
  | _ => false

/-- The state of a bank now: a RELEASED one is FREE from the first moment at which its launch and every successor have
completed or failed, whether or not its record says so yet. -/
def State.bankNow (s : State) (die bank : Nat) : BankState :=
  if s.bankDone die bank then .free else Table.get .free (s.die die).banks bank

/-- A bank's owner bits back to PROG. -/
def Die.clearEng (x : Die) (bank : Nat) : Die := { x with eng := x.eng.filter (fun e => e.1 / 256 != bank) }

/-- Where a bank goes when its owner ends otherwise than by a commit. -/
def BankState.revert : BankState → BankState
  | .owned _ (some (tag, u)) => .released u tag
  | _ => .free

/-- The banks of a task at its end: FREE at a commit, else back where they came from. -/
def State.endBanks (s : State) (t : TaskId) (commit : Bool) : State :=
  { s with dies := s.dies.map (fun e =>
      let mine (b : BankState) : Bool := match b with | .owned u _ => u == t | _ => false
      let banks := e.2.banks.filterMap (fun b =>
        if mine b.2 then
          let n := if commit then .free else b.2.revert
          if n = .free then none else some (b.1, n)
        else some b)
      (e.1, { e.2 with banks, eng := e.2.eng.filter (fun x =>
        !mine (Table.get .free e.2.banks (x.1 / 256))) })) }

/-- Frames of a save returned to their pools. -/
def State.returnFrames (s : State) (v : Saved) : State :=
  v.dies.foldl (fun (s : State) d => d.2.frames.foldl State.poolAdd s) s

/-- What a preempted task that ends leaves: the frames of its save go back to their pools (R397), and banks that it took by
hand-over and that its frames hold are RELEASED again with their tag and contents, where they stand free (R65, R390). -/
def State.returnSaved (s : State) (t : TaskId) : State :=
  match (s.task t).saved with
  | none => s
  | some v =>
    ((diesOf (s.task t).mask).zip v.dies).foldl (fun (s : State) e =>
      e.2.2.banks.foldl (fun (s : State) b =>
        match b.2, s.bankNow e.1 b.1 with
        | .owned _ (some (tag, u)), .free =>
          let s := s.putCells (dieMemKey e.1 (b.1 * 2 ^ 20)) (2 ^ 20)
            ((e.2.2.bytes.filter (fun x => x.1 / 2 ^ 20 = b.1)).map (fun x => (x.1 % 2 ^ 20, x.2))) []
          s.updDie e.1 (fun y => { y with banks := Table.set .free y.banks b.1 (.released u tag) })
        | _, _ => s) s) (s.returnFrames v)


/-- Dies whose record is that of a fresh die are not listed. -/
def State.tidyDies (s : State) : State := { s with dies := s.dies.filter (fun e => e.2 != Die.fresh) }

/-! ### Contexts and launches at the end of a task -/

/-- DIE_PRES of a sequencer context in an address space (R115). -/
def State.presIn (s : State) (func n : Nat) : BitVec 48 := Table.get 0 s.dieSeen (32 * func + n)

/-- A context and its die contexts without their task; the core has no running context there. DIE_PRES is kept with its
address space (R115). -/
def State.unbind (s : State) (c : CoreId) : State :=
  let x := s.ctx c
  let s : State := match c with
    | .seq n =>
      let s := x.dieIds.foldl (fun (s : State) d => (s.setDctx d DieCtx.unbound).dropAsk d) s
      if x.task.isSome then { s with dieSeen := Table.set 0 s.dieSeen (32 * (s.launchOf c).func + n) x.diePres } else s
    | .cel _ => s
  let s := (s.mendUnits c x.dieIds).setCtx c Ctx.unbound
  let r := s.coreRec c
  if r.running = some c.num then s.setCoreRec c { r with running := none } else s

/-- A task of a launch has ended: the last one completes the launch and changes its SIGNAL event (R365). -/
def State.taskEnded (s : State) (lid : Nat) (faulted : Bool) : State :=
  let l := s.launch lid
  let l := { l with ended := l.ended + 1, faulted := l.faulted + (if faulted then 1 else 0) }
  if l.ended < l.total then s.setLaunch lid l
  else (s.setLaunch lid { l with complete := true, doneAt := s.nextLid }).changeEvent l.func (recSignal l.record)
    (if l.faulted = 0 then 1 else 2)

/-- What ended a task: KIND, cause, TVAL, and EPC or F (R391). -/
structure Ending where
  kind : Nat
  cause : Cause
  code : Nat
  tval : Word
  at_ : Word
  deriving DecidableEq, Repr

/-- A fault record (R391). -/
def faultRecord (wid cookie : Nat) (e : Ending) (rb : Nat) : BitVec 256 :=
  BitVec.ofNat 256 (wid % 2 ^ 64 + cookie % 2 ^ 32 * 2 ^ 64 + e.code * 2 ^ 96
    + (e.kind + (if e.cause = .double then 4 else 0)) * 2 ^ 104 + rb % 256 * 2 ^ 112
    + e.tval.toNat * 2 ^ 128 + e.at_.toNat * 2 ^ 192)

/-- A record appended to the fault log of a queue (R438). -/
def Queue.logFault (q : Queue) (r : BitVec 256) : Queue :=
  { q with faultLog := Table.insert q.faultLog (1 + q.faultCount % 255) r, faultCount := q.faultCount + 1 }

/-- A task leaves its context by an abort: dirty L1 bytes are written back at its end (R158). -/
def State.leaveCtx (s : State) (t : TaskId) : State :=
  match (s.task t).ctx with
  | some c => (s.cleanL1 c).unbind c
  | none => s

/-- A task that ends is no longer one of those saved with another (R338). -/
def State.dropMate (s : State) (t : TaskId) : State :=
  let drop (x : Task) : Task :=
    { x with saved := x.saved.map (fun v => { v with mates := v.mates.filter (· != t) }) }
  s.updLaunch t.lid (fun l => { l with tasks := l.tasks.map (fun e => (e.1, drop e.2)) })

/-- One task enters FAULTED (R390, R391). -/
def State.faultOne (s : State) (t : TaskId) (e : Ending) : State :=
  let x := s.task t
  let l := s.launch t.lid
  let s := s.leaveCtx t
  let s := ((((((s.dropStaged t).returnSaved t).endBanks t false).tidyDies).dropPending t).dropPrivate t).dropMate t
  let s := s.updQueue l.queue (fun q => q.logFault (faultRecord t.wid (recCookie l.record) e x.rb))
  let s := s.updTask t (fun x => { x with state := .faulted, ctx := none, saved := none, cask := none, owesUE := false })
  s.taskEnded t.lid true

/-- One task returns to READY; a cellar task's group keeps its cask slot (R43, R111, R390). -/
def State.rollbackOne (s : State) (t : TaskId) (e : Ending) : State :=
  let x := s.task t
  let s := s.leaveCtx t
  let s := ((((((s.dropStaged t).returnSaved t).endBanks t false).tidyDies).dropPending t).dropPrivate t).dropMate t
  s.setTask t { Task.fresh with cask := x.cask, rb := x.rb + 1, mask := x.mask, dctx := x.dctx, everBound := x.everBound,
                                wary := x.wary || e.cause.wary }

/-- One task aborted: rolled back, or FAULTED when it is non-idempotent or has reached RB_LIMIT. -/
def State.abortOne (s : State) (t : TaskId) (e : Ending) : State :=
  if s.nonidem t then s.faultOne t e
  else if s.rbLimit < (s.task t).rb + 1 then
    s.faultOne t { e with cause := .rollbackLimit, code := Cause.rollbackLimit.code }
  else s.rollbackOne t e

/-- What the tasks of one co-resident group have in common: the fields above its level (R39, R40). -/
def groupKeyOf (fmt wid : Nat) : Option Nat :=
  ((List.range 6).find? (fun j => widCor fmt / 2 ^ j % 2 = 1)).map (fun j => wid / 2 ^ widShift fmt j)

/-- Whether a task state counts as a member that goes with its group. -/
def TaskState.live : TaskState → Bool
  | .bound | .running | .preempted => true
  | _ => false

/-- Whether two tasks belong to one co-resident group (R39, R40). -/
def State.sameGroup (s : State) (t u : TaskId) : Bool :=
  let fmt := recWidf (s.launch t.lid).record
  u.lid == t.lid && (groupKeyOf fmt t.wid).isSome && groupKeyOf fmt u.wid == groupKeyOf fmt t.wid
/-- The other live members of a task's co-resident group. -/
def State.groupOthers (s : State) (t : TaskId) : List TaskId :=
  ((s.launch t.lid).tasks.map (fun e => (({ lid := t.lid, wid := e.1 } : TaskId), e.2))).filterMap (fun e =>
    if e.1 != t && e.2.state.live && s.sameGroup t e.1 then some e.1 else none)

/-- An abort (R390): the task, and its group with it. -/
def State.abort (s : State) (t : TaskId) (e : Ending) : State :=
  let others := s.groupOthers t
  others.foldl (fun s o => s.abortOne o e) (s.abortOne t e)

/-- A task enters FAULTED, its group rolled back or faulted with it (R390). -/
def State.faultTask (s : State) (t : TaskId) (e : Ending) : State :=
  let others := s.groupOthers t
  others.foldl (fun s o => s.abortOne o e) (s.faultOne t e)

/-! ### Kiln runs (R415) -/

/-- Whether a task is a diagnostic launch's. -/
def State.diagTask (s : State) (t : TaskId) : Bool :=
  match (s.task t).ctx with
  | some c => (s.ctx c).diag && (s.ctx c).task == some t
  | none => false

/-- The diagnostic launch of a context drained: it leaves with its banks, and its result is discarded unrecorded. -/
def State.dropKiln (s : State) (c : CoreId) : State :=
  if (s.ctx c).diag then
    let t := s.taskId c
    let s := (((((s.cleanL1 c).dropStaged t).endBanks t false).tidyDies).dropPending t).unbind c
    { s with launches := Table.erase s.launches t.lid }
  else s

/-- The diagnostic launches that a bind or a BANKACQ drains: those of a list of contexts. -/
def State.dropKilns (s : State) (cs : List CoreId) : State := cs.foldl (fun (s : State) c => s.dropKiln c) s

end Sys2Proof.Machine
end

