-- ==== Sys2Proof/Machine/Ops.lean ====
section
/-! DEFINITION. The shared operations of a step: registers, latches and results on their way, blocking and freezing,
taking an exception and returning from one, die faults, and how a slot instruction's checks and effect run
(R59 to R61, R166 to R169, R186, R382 to R389, R454). -/

namespace Sys2Proof.Machine

/-! ### Registers and sources -/

/-- An s register: s0 reads 0 (R166). -/
def Ctx.sreg (x : Ctx) (n : BitVec 6) : Word := if n = 0 then 0 else Table.get 0 x.regs n.toNat
/-- A predicate: q0 is always true (R162). -/
def Ctx.qreg (x : Ctx) (n : BitVec 4) : Bool := n == 0 || Table.get false x.preds n.toNat
/-- A latch. -/
def Ctx.latch (x : Ctx) (n : Nat) : Word := Table.get 0 x.latches n

/-- The hold register of a slot's class: hv, hx, hp, hc (R168). -/
def holdIdx : Slot → Nat
  | .x => 1
  | .p => 2
  | .c => 3
  | _ => 0

/-- A scalar source of a slot in a context (R166). -/
def Ctx.src (x : Ctx) (sl : Slot) : Src → Word
  | .reg n => x.sreg n
  | .latch l => x.latch l.toNat
  | .held => Table.get 0 x.holds (holdIdx sl)

/-- The executing core context. -/
def State.cur (s : State) : Ctx := s.ctx s.core
/-- A scalar source of an S, M or B slot, or of a cellar core's slot. -/
def State.src (s : State) (a : Src) : Word := s.cur.src s.slot a
/-- Register d read at issue. -/
def State.dreg (s : State) (d : BitVec 6) : Word := s.cur.sreg d

/-- A packet with no slot. -/
def Packet.empty : Packet :=
  { no := 0, v := none, x := none, p := none, c := none, himm := 0, hold := 0, va := 0, xa := 0, pa := 0, pb := 0, ca := 0,
    cb := 0, vrm := 0, dieEn := 0, barrier := false }

/-- The die context that executes. -/
def State.dieId (s : State) : DieId := s.onDie.getD { die := 0, k := 0 }
def State.curDie (s : State) : DieCtx := s.dctx s.dieId
/-- The packet that the die context executes. -/
def State.packet (s : State) : Packet := s.curDie.packet.getD Packet.empty

/-- A scalar that a packet carries: field a, or field b when `second`. -/
def Packet.scalar (p : Packet) (sl : Slot) (second : Bool) : Word :=
  match sl, second with
  | .v, _ => p.va
  | .x, _ => p.xa
  | .p, false => p.pa
  | .p, true => p.pb
  | .c, false => p.ca
  | .c, true => p.cb
  | _, _ => 0

/-- A scalar source of a broadcast slot: on a die, the value the packet carries, or the die context's held value. -/
def State.scalar (s : State) (second : Bool) (a : Src) : Word :=
  match s.onDie with
  | none => s.src a
  | some d =>
    match a with
    | .held => Table.get 0 (s.dctx d).holds (holdIdx s.slot)
    | _ => s.packet.scalar s.slot second

/-! ### Results on their way (R186) -/

/-- What a delivery writes: s0, q0 and m0 discard (R169, R56). -/
def Ctx.deliver (x : Ctx) : Deliver → Ctx
  | .none => x
  | .s n v => if n = 0 then x else { x with regs := Table.set 0 x.regs n.toNat v }
  | .q n v => if n = 0 then x else { x with preds := Table.set false x.preds n.toNat v }
  | .w n lanes v =>
    let old : CelVec := Table.get 0 x.w n.toNat
    let mask : CelVec := BitVec.ofNat 512
      (((List.range 16).filter (fun i => lanes.getLsbD i)).foldl (fun a i => a + (2 ^ 32 - 1) * 2 ^ (32 * i)) 0)
    { x with w := Table.set 0 x.w n.toNat ((old &&& ~~~mask) ||| (v &&& mask)) }
  | .m n lanes v =>
    if n = 0 then x else
    let old : BitVec 16 := Table.get 0 x.m n.toNat
    { x with m := Table.set 0 x.m n.toNat ((old &&& ~~~lanes) ||| (v &&& lanes)) }

/-- The latch that a slot feeds, if it feeds one (R167). -/
def latchOf : Slot → Option Nat
  | .s0 => some 0
  | .s1 => some 1
  | .m => some 2
  | .b => some 3
  | _ => none

/-- A flight delivered: its register, its latch, and its flags ORed into FPCTL (R207, R79). -/
def Ctx.land (x : Ctx) (f : Flight) : Ctx :=
  let x := x.deliver f.out
  let x := match latchOf f.slot with
    | some i => { x with delivered := Table.set 0 x.delivered i f.lv }
    | none => x
  { x with fpctl := x.fpctl ||| (f.flags.zeroExtend 64 <<< 8) ||| (f.vflags.zeroExtend 64 <<< 16) }

/-- The results due by the end of a step land, in the order of their bundles (R186). One whose data has not come lands too,
so that the step ends as it would have; the freeze line holds the core until it comes (R188, log 39). -/
def Ctx.landDue (x : Ctx) (step : Nat) : Ctx :=
  let now := x.inflight.filter (fun f => f.due ≤ step)
  now.foldl Ctx.land
    { x with inflight := x.inflight.filter (fun f => !(f.due ≤ step)), late := x.late + (now.filter (fun f => !f.arrived)).length }

/-- A result with an exposed latency put on its way from the executing slot. -/
def State.send (s : State) (out : Deliver) (lv : Word) (lat : Nat) (flags vflags : BitVec 5) (arrived : Bool) : State :=
  s.updCtx s.core (fun x => { x with inflight := x.inflight ++
    [{ slot := s.slot, out, lv, due := x.stepNo + lat - 1, issued := x.stepNo, flags, vflags, arrived }] })

/-- The register write of a result with the suppression bit nw (R169). -/
def outS (nw : Bool) (d : BitVec 6) (v : Word) : Deliver := if nw then .none else .s d v
def outQ (nw : Bool) (q : BitVec 4) (v : Bool) : Deliver := if nw then .none else .q q v

/-- An interlocked result of the executing context (R186): it lands when RESULT_ARRIVAL comes. -/
def State.interlock (s : State) (out : Deliver) : State :=
  s.updCtx s.core (fun x => { x with interlocked := x.interlocked ++ [out] })

/-- Whether the freeze line of a context's core is held: a result that must be visible has not arrived (R188). -/
def State.frozen (s : State) (c : CoreId) : Bool := (CoreId.mates c).any (fun m => (s.ctx m).late != 0)

/-! ### Blocking -/

/-- The latches of a context lost: l0 to l3 take free values, which no bundle may read before they are refilled; what was
delivered last still refills l0 to l3 at the next shift (R61, R167). -/
def State.loseLatches (s : State) (c : CoreId) : State :=
  let f := s.free
  ({ s with free := f + 4 }).updCtx c (fun x =>
    { x with latches := [(0, Config.freeWord f), (1, Config.freeWord (f + 1)), (2, Config.freeWord (f + 2)),
                         (3, Config.freeWord (f + 3))].filter (fun e => e.2 != 0) })

/-- The core lets a context go: none runs there, and the round robin goes on after it (R60). -/
def State.leaveCore (s : State) (c : CoreId) : State :=
  let r := s.coreRec c
  s.setCoreRec c { r with running := none, last := c.num % 4 }

/-- A context has the core: from the moment the core picks it, whether or not its bundle can issue at once, until it lets
the core go (R60, R188). -/
def State.takeCore (s : State) (c : CoreId) : State :=
  let r := s.coreRec c
  if r.running = some c.num then s else s.setCoreRec c { r with running := some c.num }

/-- A context blocks at its bundle (R59, R60). -/
def State.blockCtx (s : State) (c : CoreId) (w : Wait) : State :=
  ((s.updCtx c (fun x => { x with run := .blocked w })).loseLatches c).leaveCore c

/-- A wait at a context's bundle: it blocks, or stops for the debugger (R59, R327). -/
def State.waitAt (s : State) (c : CoreId) (w : Wait) : State :=
  match w with
  | .debug => s.updCtx c (fun x => { x with stopped := true })
  | .hold => s
  | w => s.blockCtx c w

/-! ### Exceptions (R380 to R385) -/

/-- An address with an annul mark in its bit 0, whatever that bit of a misaligned target was (R232). -/
def marked (a : Word) (m : Bool) : Word := (a &&& ~~~1) ||| (if m then 1 else 0)
/-- The chain as EPC, EPC1 and EPC2 hold it (R232). -/
def Ctx.epcOf (x : Ctx) : Word := marked x.n0 x.mark0
def Ctx.epc1Of (x : Ctx) : Word := marked x.n1 x.mark1
def Ctx.epc2Of (x : Ctx) : Word := x.n2 &&& ~~~3

/-- What ends the task of a context now, with the place of its chain. -/
def Ctx.ending (x : Ctx) (kind : Nat) (cause : Cause) (tval : Word) : Ending :=
  { kind, cause, code := cause.code, tval, at_ := x.epcOf }

/-- Results of earlier bundles have arrived: interlocked results reach their registers, and the rest waits for the
snapshot buffer (R382). -/
def Ctx.settle (x : Ctx) : Ctx :=
  let x := { x with inflight := x.inflight.map (fun (f : Flight) => { f with arrived := true }), late := 0 }
  let x := x.interlocked.foldl Ctx.deliver x
  { x with interlocked := [] }

/-- The snapshot buffer at a trap or interrupt (R385): `due` of an entry holds r. -/
def Ctx.takeSnap (x : Ctx) : Snap :=
  { latches := x.latches, delivered := x.delivered, hazard := x.hazard,
    pending := x.inflight.map (fun (f : Flight) => { f with due := f.due + 1 - x.stepNo }) }

/-- The entry into the handler: EPC chain, trap record, mode, chain from TVEC, loops aside (R382). Its first bundles read 0 in
l0 to l3 and free values in l4 to l7 (log 36). -/
def State.enter (s : State) (c : CoreId) (kind slot : Nat) (cause : Cause) (tval tdata : Word)
    (tdies tpd : BitVec 48) : State :=
  let ver := (s.launchOf c).codeVer
  let x := (s.ctx c).settle
  let tv := x.trap.tvec
  let x := { x with
    snap := some x.takeSnap, inflight := [], delivered := [], hazard := 0,
    epc := x.epcOf, epc1 := x.epc1Of, epc2 := x.epc2Of,
    trap := { tvec := tv, kind := BitVec.ofNat 2 kind, slot := BitVec.ofNat 4 slot,
              code := BitVec.ofNat 8 cause.code, tval, tdata, tdies, tpd },
    handler := true,
    n0 := tv, n1 := s.nextN ver tv 1, n2 := s.nextN ver tv 2, mark0 := false, mark1 := false, transfer := .none,
    asideLoops := x.loops, asideOrder := x.order, asideRep := x.rep, asideDelay := x.delay,
    loops := [], order := [], rep := none, delay := 0 }
  (s.setCtx c x).loseLatches c

/-- A cause of fate H reaches a context in task mode: its handler, or FAULTED when it has none (R382). -/
def State.deliverH (s : State) (c : CoreId) (kind slot : Nat) (cause : Cause) (tval tdata : Word)
    (tdies tpd : BitVec 48) (at_ : Word) : State :=
  if (s.ctx c).trap.tvec = 0 then
    s.faultTask (s.taskId c) { kind, cause, code := cause.code, tval, at_ }
  else s.enter c kind slot cause tval tdata tdies tpd

/-- The ending of a context that traps in handler mode: the record keeps the first cause (R383, R391). -/
def Ctx.doubleEnding (x : Ctx) : Ending :=
  { kind := x.trap.kind.toNat, cause := .double, code := x.trap.code.toNat, tval := x.trap.tval,
    at_ := if x.trap.kind = 2 then x.trap.tdata else x.epc }

/-- A precise trap at the bundle at N0 of a context, by the fate of its cause (R380, R382, R383). -/
def State.trapAt (s : State) (c : CoreId) (slot : Nat) (cause : Cause) (tval tdata : Word) : State :=
  let x := s.ctx c
  if x.handler then s.faultTask (s.taskId c) x.doubleEnding
  else match cause.fate with
    | .h => s.deliverH c 0 slot cause tval tdata 0 0 x.epcOf
    | .s => (s.updCtx c (fun x => { x with run := .service cause (BitVec.ofNat 4 slot) tval tdata })).leaveCore c
    | .a => s.abort (s.taskId c) (x.ending 0 cause tval)
    | .f => s.faultTask (s.taskId c) (x.ending 0 cause tval)

/-- The return from a handler at the end of ERET's bundle, whose step has been counted: the chain is what EPC, EPC1 and
EPC2 held at that bundle; what stayed pending is taken before the next bundle (R324, R328, R382, R383, R385). -/
def Ctx.leaveHandler (x : Ctx) (e0 e1 e2 : Word) : Ctx :=
  let sn := x.snap.getD { latches := [], delivered := [], pending := [], hazard := 0 }
  { x with
    handler := false, snap := none, returned := true,
    n0 := e0 &&& ~~~3, n1 := e1 &&& ~~~3, n2 := e2 &&& ~~~3,
    mark0 := e0.getLsbD 0, mark1 := e1.getLsbD 0,
    loops := x.asideLoops, order := x.asideOrder, rep := x.asideRep, asideLoops := [], asideOrder := [],
    asideRep := none, latches := sn.latches, delivered := sn.delivered, hazard := sn.hazard, delay := x.asideDelay,
    asideDelay := 0,
    inflight := (sn.pending.map (fun (f : Flight) => { f with due := x.stepNo + f.due - 1 })) ++ x.inflight }

/-! ### Die faults (R387, R388) -/

/-- The lower of two faults of a die context. -/
def DieFault.low (f : DieFault) : Option DieFault → Option DieFault
  | some g => if g.no ≤ f.no then some g else some f
  | none => some f

/-- A die context raises its fault flag at a number; the partition's stream freezes at the lowest, and packets that wait
on its dies are discarded (R387). What an engine operation or a nest raises (slot 15) is kept apart: it does not recur in a
replay. -/
def State.dieFault (s : State) (d : DieId) (no slot : Nat) (cause : Cause) (tval : Word) : State :=
  let c := s.partOf d
  let f : DieFault := { no, slot, cause, tval }
  let s := s.updDctx d (fun x => if slot = 15 then { x with engFault := f.low x.engFault } else { x with fault := f.low x.fault })
  let s := (s.ctx c).dieIds.foldl State.dropAsk s
  s.updCtx c (fun x => { x with frozenAt := some (match x.frozenAt with | some f => min f no | none => no) })

/-- The instruction number that the die context executes. -/
def State.curNo (s : State) : Nat := if s.packet.no = 0 then s.curDie.retired + 1 else s.packet.no

/-! ### Slot instructions: checks, then effect -/

/-- What a detection leaves besides its trap: a DUP_MISMATCH is logged and its core becomes SUSPECT (R410, R412). -/
def State.noteCause (s : State) (cause : Cause) : State :=
  match cause with
  | .dupMismatch =>
    let u := match s.core with
      | .seq n => unitCode 0x10 0 (n / 4)
      | .cel n => unitCode 0x20 (n / 64) (n / 4 % 16)
    let u := s.blame s.core u
    let (ln, cx) := s.logFields true
    (s.logError { time := s.timeCnt, unit := u, ty := 7, syn := 0, addr := 0, lnch := ln, ctx := cx }).suspectUnit u
  | _ => s

/-- A trap of the executing slot: a precise trap on a core, a die fault on a die (R382, R387). -/
def State.slotTrap (s : State) (cause : Cause) (tval tdata : Word) : State :=
  let s := s.noteCause cause
  match s.onDie with
  | some d => s.dieFault d s.curNo (slotNum s.slot) cause tval
  | none => s.trapAt s.core (slotNum s.slot) cause tval tdata

/-- A wait of the executing slot: a core context blocks; a die context stays where it is. -/
def State.slotWait (s : State) (w : Wait) : State :=
  match s.onDie with
  | some _ => s
  | none => s.waitAt s.core w

/-- The precedence of an answer (R454): a CB_STALL is raised among the waits, which come before the checks, and an
uncorrectable error is consumed only where no check fails. -/
def Verdict.rank : Verdict → Nat
  | .ok => 0
  | .ue _ _ _ => 1
  | .trap .cbStall _ _ => 4
  | .trap _ _ _ | .stop _ => 2
  | .wait _ => 3

/-- The answer of two slots of one bundle or packet, or of two lanes: the one of higher precedence, else the first. -/
def Verdict.merge (a b : Verdict) : Verdict := if a.rank < b.rank then b else a

/-- Two checks of one slot, the first failure deciding. -/
def Verdict.andThen : Verdict → Verdict → Verdict
  | .ok, b => b
  | a, _ => a

/-- `cause` unless a condition holds. -/
def need (p : Bool) (cause : Cause) (tval : Word) : Verdict := if p then .ok else .trap cause tval 0

/-- How an instruction of a slot runs: checks alone, effect alone, or both (`Phase`). -/
def slotOp (chk : State → Verdict) (act : State → State) (s : State) : Host.Outcome State Fault Refusal :=
  match s.phase with
  | .probe =>
    let v := s.verdict.merge (chk s)
    .next { s with verdict := v, failSlot := if v = s.verdict then s.failSlot else s.slot }
  | .commit => .next (act s)
  | .whole =>
    match chk s with
    | .ok => .next (act s)
    | .trap c tval tdata => .next (s.slotTrap c tval tdata)
    | .ue key n tval => .next ((s.noteUE key n).slotTrap .ue tval 0)
    | .wait w => .next (s.slotWait w)
    | .stop f => .fault f

/-- An instruction that no check stops. -/
def plainOp (act : State → State) (s : State) : Host.Outcome State Fault Refusal := slotOp (fun _ => .ok) act s

/-- An event: it changes the state when its condition holds, and nothing otherwise (log 17). -/
def eventOp (cond : State → Bool) (act : State → State) (s : State) : Host.Outcome State Fault Refusal :=
  if cond s then .next (act s) else .next s

end Sys2Proof.Machine
end

