-- ==== Sys2Proof/WellFormed.lean ====
section
/-! DEFINITION. Which terms of `Instr` an encoding can carry: the source codes of R166 and the operand limits that
each instruction's rule sets (what breaks one of these is an illegal instruction under R181). -/

namespace Sys2Proof

/-- The map an encoded instruction belongs to; an event has none. -/
def Instr.opMap : Instr → Option OpMap
  | .add _ | .sub _ | .mul _ | .mulh _ | .div _ | .rem _ | .and _ | .or _ | .xor _ | .andn _ | .shl _ | .shr _
  | .sar _ | .ror _ | .min _ | .max _ | .addi _ | .andi _ | .ori _ | .xori _ | .shli _ | .shri _ | .sari _ | .lih _
  | .cmp _ | .cmpi _ | .plog _ | .sel _ | .bext _ | .bins _ | .bcnt _ | .lea _ | .fadd _ | .fsub _ | .fmul _
  | .fma _ | .fdiv _ | .fsqrt _ | .fmin _ | .fmax _ | .fcmp _ | .fclass _ | .fsgn _ | .cvtif _ | .cvtfi _
  | .cvtff _ => some .s
  | .ld _ | .st _ | .lds _ | .sts _ | .aadd _ | .aand _ | .aor _ | .axor _ | .amin _ | .amax _ | .axch _ | .acas _
  | .afadd _ | .afmax _ | .fenceSc _ | .release _ | .acquire _ | .drain | .fset _ | .ftest _ | .fwait _ | .finc _
  | .csrr _ _ | .csrw _ _ | .csrs _ _ | .csrc _ _ | .dstchk _ _ _ | .drdchk _ _ _ | .cmpt _ _ _ => some .m
  | .br _ _ _ _ | .jmp _ | .jmpl _ | .jr _ | .jrl _ _ _ | .jt _ _ _ | .callf _ _ | .ret _ | .loop _ _ _ _
  | .loopi _ _ _ _ | .lexit _ | .rep _ | .repi _ | .trap _ | .eret | .yieldCore | .yieldSched | .launch _ _ _
  | .halt | .bkpt _ => some .b
  | .vadd _ | .vsub _ | .vmul _ | .vmulh _ | .vfma _ | .vdiv _ | .vmin _ | .vmax _ | .vand _ | .vor _ | .vxor _
  | .vshl _ | .vshr _ | .vsar _ | .vuna _ | .vqadd _ | .vadds _ | .vsubs _ | .vmuls _ | .vfmas _ | .vmins _
  | .vmaxs _ | .vshls _ | .vbcast _ | .vcmp _ | .vcmps _ | .vsel _ | .vmlog _ | .vcvt _ | .vspec _ | .vred _
  | .vkset _ | .vld _ | .vst _ | .vldl _ | .vstl _ | .vgath _ | .vscat _ | .vldc _ | .vstc _ | .vard _ | .vawr _
  | .vqnt _ | .vdqnt _ | .vbscl _ | .vflg _ | .vsig _ | .vlane _ | .vldf _ | .vstf _ | .vamo _ => some .v
  | .ntw _ | .ntrd _ | .mgo _ | .mwait _ | .mprec _ | .azero _ | .aload _ | .astore _ | .aexp _ | .arenorm _
  | .ahead _ | .aevt _ | .ares _ => some .x
  | .ptld _ _ | .perm _ _ _ | .pshr _ | .pxch _ | .pbcd _ | .rred _ | .rsync _ | .sigchk _ => some .p
  | .xlate _ | .tcin _ _ | .tcout _ | .hcopy _ | .lcopy _ | .cwait _ | .townP _ | .townE _ | .cbinit _ | .cbwr _ _
  | .cbrd _ | .cbtake _ | .cbgive _ | .bankacq _ | .bankrel _ => some .c
  | .wadd _ | .wsub _ | .wmul _ | .wfma _ | .wmin _ | .wmax _ | .wand _ | .wor _ | .wxor _ | .wcmp _ | .wsel _
  | .wcvt _ | .wld _ | .wst _ | .wred _ | .wbcast _ => some .cv
  | .nired _ | .ngath _ | .nscat _ | .nmrow _ | .nstrm _ | .nqst _ | .nwait _ => some .nm
  | _ => none

/-- Integer types, class I of R235. -/
def VType.isInt : VType → Bool
  | .i32 | .z32 | .i16x2 | .i8x4 => true
  | _ => false

/-- Floating types, class F of R235. -/
def VType.isFloat : VType → Bool
  | .f32 | .bf16x2 | .f16x2 => true
  | _ => false

/-- The one-element types that compares and reductions accept (R240, R248). -/
def VType.isWide : VType → Bool
  | .i32 | .z32 | .f32 => true
  | _ => false

/-- Elements in a 32-bit lane (R76). -/
def VType.elems : VType → Nat
  | .i32 | .z32 | .f32 => 1
  | .bf16x2 | .i16x2 | .f16x2 => 2
  | .i8x4 => 4

/-- A source that an S0, S1, M or B slot may name: no held value (R166). -/
def Src.plain : Src → Bool
  | .held => false
  | _ => true

def VSatBin.wf (o : VSatBin) : Bool := !o.sat || o.o.t.isInt
def VSatS.wf (o : VSatS) : Bool := !o.sat || o.o.t.isInt
def VUnaOp.wf (o : VUnaOp) : Bool :=
  match o.kind with
  | .popc | .clz => o.t.isInt
  | _ => true
def VCmpOp.wf (o : VCmpOp) : Bool :=
  o.t.isWide && o.cond != .gt && (o.cond != .un || o.t == .f32)
def VCmpSOp.wf (o : VCmpSOp) : Bool := o.t.isWide && o.cond != .ne && o.cond != .un
/-- The pairings of R243 with the element selectors they admit. -/
def cvtOk (src dst : VType) (e : BitVec 2) (vbZero : Bool) : Bool :=
  match src.elems, dst.elems with
  | 1, 1 => e == 0 && vbZero
  | 1, 2 => e == 0
  | 2, 1 => e.toNat ≤ 1 && vbZero
  | 2, 2 => e == 0 && vbZero
  | 4, 1 => vbZero
  | _, _ => false
def VCvtOp.wf (o : VCvtOp) : Bool := cvtOk o.t o.dt o.e (o.vb == 0)
def RedKind.isBitwise : RedKind → Bool
  | .and | .or | .xor => true
  | _ => false
def VRedOp.wf (o : VRedOp) : Bool := o.t.isWide && !(o.kind.isBitwise && o.t == .f32)
def WRedOp.wf (o : WRedOp) : Bool := o.t.isWide && !(o.kind.isBitwise && o.t == .f32)
def VBcastOp.wf (o : VBcastOp) : Bool := o.lane || o.va == 0
def VIdxOp.wf (o : VIdxOp) : Bool := o.x || o.va == 0
def WMemOp.wf (o : WMemOp) : Bool := o.x || o.va == 0
/-- Registers of a tile group (R283). -/
def groupRegs (t32 : Bool) : Nat := if t32 then 8 else 2
def VQntOp.wf (o : VQntOp) : Bool := o.va.toNat + groupRegs o.t32 ≤ 32
def VDqntOp.wf (o : VDqntOp) : Bool := o.vd.toNat + groupRegs o.t32 ≤ 32
def VAmoOp.wf (o : VAmoOp) : Bool := o.o.wf && (!o.sgn || o.kind == .min || o.kind == .max)
def MprecOp.wf (o : MprecOp) : Bool := o.fb != .n4x
def AstoreOp.wf (o : AstoreOp) : Bool := !(o.fmt == .raw && o.base.isSome)
def RredOp.wf (o : RredOp) : Bool :=
  (!o.kind.isBitwise || o.cls == .z)
def HSize.wf (z : BitVec 3) : Bool := z != 7

/-- The operand limits of each instruction. The S, M and B slots may not name the held value. -/
def Instr.wf : Instr → Bool
  | .add o | .sub o | .mul o | .mulh o | .div o | .rem o | .and o | .or o | .xor o | .andn o | .shl o | .shr o
  | .sar o | .ror o | .min o | .max o => o.a.plain && o.b.plain
  | .addi o | .andi o | .ori o | .xori o => o.a.plain
  | .shli o | .shri o | .sari o => o.a.plain
  | .lih o => o.a.plain
  | .cmp o => o.a.plain && o.b.plain
  | .cmpi o => o.a.plain
  | .plog o => o.a.plain && o.b.plain
  | .sel o => o.a.plain && o.b.plain
  | .bext o | .bins o => o.a.plain && o.pos.toNat + o.n1.toNat + 1 ≤ 64
  | .bcnt o => o.a.plain
  | .lea o => o.a.plain && o.b.plain
  | .fadd o | .fsub o | .fmul o | .fdiv o | .fmin o | .fmax o => o.a.plain && o.b.plain
  | .fma o => o.a.plain && o.b.plain
  | .fsqrt o | .fclass o | .cvtff o => o.a.plain
  | .fcmp o => o.a.plain && o.b.plain
  | .fsgn o => o.a.plain && o.b.plain
  | .cvtif o => o.a.plain
  | .cvtfi o => o.a.plain
  | .ld o | .lds o => o.a.plain
  | .st o | .sts o => o.a.plain
  | .aadd o | .aand o | .aor o | .axor o | .amin o | .amax o | .axch o | .acas o => o.a.plain && o.b.plain
  | .afadd o | .afmax o => o.a.plain && o.b.plain
  | .fset o | .finc o => o.a.plain
  | .ftest o => o.a.plain
  | .fwait o => o.a.plain
  | .csrw _ a | .csrs _ a | .csrc _ a => a.plain
  | .dstchk _ a b => a.plain && b.plain
  | .drdchk _ _ a => a.plain
  | .cmpt _ a b => a.plain && b.plain
  | .jr a | .ret a => a.plain
  | .jrl _ _ a => a.plain
  | .jt _ a b => a.plain && b.plain
  | .callf _ a => a.plain
  | .loop _ _ _ a => a.plain
  | .rep a => a.plain
  | .launch _ _ a => a.plain
  | .vadd o | .vsub o | .vmul o => o.wf
  | .vmulh o => o.t.isInt
  | .vfma o => o.o.t.isFloat
  | .vdiv o => o.t.isFloat
  | .vshl o | .vshr o | .vsar o => o.t.isInt
  | .vuna o => o.wf
  | .vqadd o => o.o.t.elems != 1 && (!o.sat || o.o.t.isInt)
  | .vadds o | .vmuls o => o.wf
  | .vsubs o => !o.sat || o.o.t.isInt
  | .vfmas o => o.o.t.isFloat
  | .vshls o => o.o.t.isInt
  | .vbcast o => o.wf
  | .vcmp o => o.wf
  | .vcmps o => o.wf
  | .vcvt o => o.wf
  | .vred o => o.wf
  | .vldl o | .vstl o | .vldf o | .vstf o => o.wf
  | .vamo o => o.wf
  | .vqnt o | .vbscl o => o.wf
  | .vdqnt o => o.wf
  | .ntrd o => o.w.toNat ≤ 16
  | .mprec o => o.wf
  | .astore o => o.wf
  | .rred o => o.wf
  | .hcopy o | .lcopy o => o.z != 7
  | .cwait o => !(o.all && o.e)
  | .wadd o | .wsub o | .wmul o => o.wf
  | .wfma o => o.o.t.isFloat
  | .wcmp o => o.wf
  | .wcvt o => o.wf
  | .wld o | .wst o => o.wf
  | .wred o => o.wf
  | .wbcast o => o.wf
  | .ngath o | .nstrm o => !o.v
  | _ => true

end Sys2Proof
end

