-- ==== Sys2Proof/Machine/Operands.lean ====
section
/-! DEFINITION. Operands: how the integer operations read and return them (R197), and which registers each instruction
names as source and destination, for the checks of R61, R169 and R186. -/

namespace Sys2Proof.Machine

/-- The width code of R196: 64, 32, 16 or 8. -/
def widthOf (w : BitVec 2) : Nat := 64 / 2 ^ w.toNat

/-- `Opnd(v)` of R197. -/
def opnd (sgn : Bool) (n : Nat) (v : Word) : Int := if sgn then sext n v.toNat else (v.toNat % 2 ^ n : Nat)

/-- `Res(x)` of R197, modulo 2^64. -/
def resWord (sgn : Bool) (n : Nat) (x : Int) : Word :=
  let r := (x % (2 ^ n : Nat)).toNat
  if sgn then wrap 64 (sext n r) else BitVec.ofNat 64 r

/-- Effective address of the M form (R214). -/
def effAddr (a : Word) (imm : BitVec 9) (z : Nat) : Word := a + wrap 64 (sext 9 imm.toNat * (z : Int))

/-- Bytes of a store size code. -/
def sizeOf (z : BitVec 2) : Nat := 2 ^ z.toNat
end Sys2Proof.Machine

namespace Sys2Proof

/-- Bytes and sign of a load type. -/
def LdType.bytes : LdType → Nat
  | .z8 | .s8 => 1
  | .z16 | .s16 => 2
  | .z32 | .s32 => 4
  | .z64 => 8
def LdType.signed : LdType → Bool
  | .s8 | .s16 | .s32 => true
  | _ => false
/-- A loaded value extended (R214). -/
def LdType.extend (t : LdType) (v : Nat) : Word :=
  if t.signed then wrap 64 (sext (8 * t.bytes) v) else BitVec.ofNat 64 v

/-! ### Registers named by an instruction -/

/-- Scalar source fields (R166), of every slot. -/
def Instr.srcs : Instr → List Src
  | .add o | .sub o | .mul o | .mulh o | .div o | .rem o | .and o | .or o | .xor o | .andn o | .shl o | .shr o
  | .sar o | .ror o | .min o | .max o => [o.a, o.b]
  | .addi o | .andi o | .ori o | .xori o => [o.a]
  | .shli o | .shri o | .sari o => [o.a]
  | .lih o => [o.a]
  | .cmp o => [o.a, o.b]
  | .cmpi o => [o.a]
  | .plog o => [o.a, o.b]
  | .sel o => [o.a, o.b]
  | .bext o | .bins o => [o.a]
  | .bcnt o => [o.a]
  | .lea o => [o.a, o.b]
  | .fadd o | .fsub o | .fmul o | .fdiv o | .fmin o | .fmax o => [o.a, o.b]
  | .fma o => [o.a, o.b]
  | .fsqrt o | .fclass o | .cvtff o => [o.a]
  | .fcmp o => [o.a, o.b]
  | .fsgn o => [o.a, o.b]
  | .cvtif o => [o.a]
  | .cvtfi o => [o.a]
  | .ld o | .lds o => [o.a]
  | .st o | .sts o => [o.a]
  | .aadd o | .aand o | .aor o | .axor o | .amin o | .amax o | .axch o | .acas o => [o.a, o.b]
  | .afadd o | .afmax o => [o.a, o.b]
  | .fset o | .finc o => [o.a]
  | .ftest o => [o.a]
  | .fwait o => [o.a]
  | .csrw _ a | .csrs _ a | .csrc _ a => [a]
  | .dstchk _ a b => [a, b]
  | .drdchk _ _ a => [a]
  | .cmpt _ a b => [a, b]
  | .jr a | .ret a | .jrl _ _ a | .callf _ a | .loop _ _ _ a | .rep a | .launch _ _ a => [a]
  | .jt _ a b => [a, b]
  | .vadds o | .vmuls o => [o.o.a]
  | .vsubs o => [o.o.a]
  | .vfmas o => [o.o.a]
  | .vmins o | .vmaxs o => [o.a]
  | .vshls o => [o.o.a]
  | .vbcast o | .wbcast o => [o.a]
  | .vcmps o => [o.a]
  | .vkset (.s _ a) => [a]
  | .vkset (.lane _ _ a) => [a]
  | .vld o | .vst o | .vldc o | .vstc o => [o.a]
  | .vldl o | .vstl o | .vldf o | .vstf o => [o.a]
  | .vgath o | .vscat o => [o.a]
  | .vard o | .vawr o => [o.a]
  | .vqnt o | .vbscl o => [o.a]
  | .vdqnt o => [o.a]
  | .vflg (.clr a) | .vflg (.sat a) => [a]
  | .vsig (.set a) => [a]
  | .vamo o => [o.o.a]
  | .ntw (.word _ _ a) => [a]
  | .aload o => [o.a]
  | .astore o => [o.a]
  | .aexp o => [o.a]
  | .arenorm o => [o.a]
  | .ptld _ a => [a]
  | .perm _ _ a => [a]
  | .pshr o | .pxch o | .pbcd o => [o.a, o.b]
  | .xlate o => [o.a]
  | .tcin _ o => [o.a, o.b]
  | .tcout o => [o.a, o.b]
  | .hcopy o | .lcopy o => [o.a, o.b]
  | .townP a | .townE a => [a]
  | .cbinit o => [o.a, o.b]
  | .cbwr _ o => [o.b]
  | .cbrd o => [o.b]
  | .bankacq o | .bankrel o => [o.a, o.b]
  | .wld o | .wst o => [o.a]
  | .nired o | .ngath o | .nscat o | .nmrow o | .nstrm o | .nwait o => [o.a]
  | _ => []

/-- Registers d that an instruction reads at issue as a further source (R204, R208, R215, R314, R321, R334). -/
def Instr.dSource : Instr → Option (BitVec 6)
  | .bins o => some o.d
  | .fma o => some o.d
  | .st o | .sts o => some o.d
  | .acas o => some o.d
  | .fset o | .finc o => some o.d
  | .fwait o => some o.d
  | .dstchk d _ _ => some d
  | _ => none

/-- The s registers that an instruction reads: sources, d where it is read, s58 for CALLF. -/
def Instr.sregs (i : Instr) : List (BitVec 6) :=
  i.srcs.filterMap (fun a => match a with | .reg n => some n | _ => none)
    ++ i.dSource.toList ++ (match i with | .callf _ _ => [58] | _ => [])

/-- The predicates that an instruction reads: BR and SEL (R203, R220). -/
def Instr.qregs : Instr → List (BitVec 4)
  | .br q _ _ _ => [q]
  | .sel o => [o.q]
  | _ => []

/-- The latches that an instruction names. -/
def Instr.latches (i : Instr) : List Nat :=
  i.srcs.filterMap (fun a => match a with | .latch l => some l.toNat | _ => none)

end Sys2Proof

namespace Sys2Proof.Machine

/-- What a slot writes, for DEST_CLASH (R169): an s register, a predicate, or a condition register of the dies, which a V
and an X slot can both name. -/
inductive Dest where
  | s (n : BitVec 6)
  | q (n : BitVec 4)
  | k (n : BitVec 3)
  | a (n : BitVec 3)
  deriving DecidableEq, Repr

def destS (nw : Bool) (d : BitVec 6) : Option Dest := if nw || d == 0 then none else some (.s d)
def destQ (nw : Bool) (q : BitVec 4) : Option Dest := if nw || q == 0 then none else some (.q q)

end Sys2Proof.Machine

namespace Sys2Proof

open Sys2Proof.Machine

/-- The destination of an instruction, unless suppressed or s0 or q0; links write s61 (R221, R224). -/
def Instr.dest : Instr → Option Dest
  | .add o | .sub o | .mul o | .mulh o | .div o | .rem o | .and o | .or o | .xor o | .andn o | .shl o | .shr o
  | .sar o | .ror o | .min o | .max o => destS o.nw o.d
  | .addi o | .andi o | .ori o | .xori o => destS o.nw o.d
  | .shli o | .shri o | .sari o => destS o.nw o.d
  | .lih o => destS o.nw o.d
  | .cmp o => destQ o.nw o.q
  | .cmpi o => destQ o.nw o.q
  | .plog o => destQ o.nw o.q
  | .sel o => destS o.nw o.d
  | .bext o | .bins o => destS o.nw o.d
  | .bcnt o => destS o.nw o.d
  | .lea o => destS o.nw o.d
  | .fadd o | .fsub o | .fmul o | .fdiv o | .fmin o | .fmax o => destS o.nw o.d
  | .fma o => destS o.nw o.d
  | .fsqrt o | .fclass o | .cvtff o => destS o.nw o.d
  | .fcmp o => destQ o.nw o.q
  | .fsgn o => destS o.nw o.d
  | .cvtif o => destS o.nw o.d
  | .cvtfi o => destS o.nw o.d
  | .ld o | .lds o => destS false o.d
  | .aadd o | .aand o | .aor o | .axor o | .amin o | .amax o | .axch o | .acas o => destS false o.d
  | .afadd o | .afmax o => destS false o.d
  | .ftest o => destS false o.d
  | .csrr d _ => destS false d
  | .drdchk _ d _ => destS false d
  | .jmpl _ | .callf _ _ => some (.s 61)
  | .jrl d nw _ => destS nw d
  | .launch d nw _ => destS nw d
  | .nired o | .ngath o | .nscat o | .nmrow o | .nstrm o | .nwait o => destS o.nw o.d
  | .nqst o => destS o.nw o.d
  | .vred o => some (.k o.kd)
  | .vkset o =>
    match o with
    | .s kd _ | .lo kd _ | .hi kd _ | .lane kd _ _ | .pop kd _ _ => some (.k kd)
  | .vflg o => match o with | .rd kd => some (.k kd) | _ => none
  | .vsig o => match o with | .rd kd => some (.k kd) | _ => none
  | .vqnt o | .vbscl o => some (.k o.kd)
  | .ntrd o => some (.k o.kd)
  | .ahead o | .aevt o => some (.k o.kd)
  | .ares o => o.kd.map .k
  | .vawr o => some (.a o.tile)
  | .azero t => some (.a t)
  | .aload o => some (.a o.tile)
  | .aexp o => some (.a o.tile)
  | .arenorm o => some (.a o.tile)
  | _ => none

/-- Instructions of the M and B slots that block (R318), RELEASE by its scope. -/
def Instr.blocking : Instr → Bool
  | .drain | .fenceSc _ | .fwait _ | .yieldCore | .yieldSched => true
  | .release sc => sc != .core && sc != .die
  | _ => false

/-- Reads of rt0 to rt3 (R260, R325). -/
def Instr.readsRt : Instr → Option Nat
  | .csrr _ n => if 0x28 ≤ n.toNat ∧ n.toNat ≤ 0x2B then some (n.toNat - 0x28) else none
  | _ => none

/-- The rt register that a response-tree operation fills (R257, R259, R333). -/
def Instr.rtDest : Instr → Option Nat
  | .rred o => some o.rt.toNat
  | .rsync rt => some rt.toNat
  | .sigchk o => some o.rt.toNat
  | _ => none

/-- The M slot's instruction only loads, so it reads before the bundle's stores (R135). -/
def Instr.onlyLoads : Instr → Bool
  | .ld _ | .lds _ | .csrr _ _ | .ftest _ | .drdchk _ _ _ | .cmpt _ _ _ => true
  | _ => false

end Sys2Proof
end

