-- ==== Sys2Proof/Machine/Csr.lean ====
section
/-! DEFINITION. Control registers: CSRR, CSRW, CSRS and CSRC, and what each number reads and writes
(R28 to R32, R36, R44, R50, R52, R54, R73, R128, R225, R324 to R326, R374, R384, R447, R452). -/

namespace Sys2Proof.Machine

/-- ID_PART (R28): stepping A1, the compute dies that boot has enabled, 12 stacks. -/
def State.idPart (s : State) : Word := 0x4F56004801000C00 + BitVec.ofNat 64 (s.diesOn * 2 ^ 16)

/-- TIME_SKEW (R32): while LOST is 1 the bounds read 0xFFFF and POD_VALID 0. -/
def State.timeSkew (s : State) : Word :=
  if s.timeLost then 0x2FFFFFFFF
  else BitVec.ofNat 64 ((if s.podValid then 2 ^ 32 else 0) + s.podBound.toNat * 2 ^ 16 + s.pkgBound.toNat)

/-- TIME_CNT as a context's core reads it: the control die's copy, or its base die's (R30). -/
def State.timeAt (s : State) (c : CoreId) : Word :=
  if c.isCellar && !s.copies.isEmpty then
    BitVec.ofInt 64 ((s.timeCnt.toNat : Int) + (Table.get TimeCopy.same s.copies c.stack).off)
  else s.timeCnt

/-- TASK_INFO (R44). -/
def State.taskInfo (s : State) (c : CoreId) : Word :=
  let r := (s.launchOf c).record
  BitVec.ofNat 64 ((s.taskOf c).rb % 256 * 256 + (if s.nonidem (s.taskId c) then 16 else 0) + recPrio r * 4 + recKind r)

/-- STAGE_CNT (R128). -/
def State.stageCnt (s : State) (c : CoreId) : Word :=
  let t := s.taskOf c
  BitVec.ofNat 64 (t.shadows.length * 2 ^ 32 + t.granules.length)

/-- PART_CFG (R50). -/
def State.partCfg (s : State) (c : CoreId) : Word :=
  let x := s.ctx c
  BitVec.ofNat 64 (c.num * 2 ^ 54 + (diesOf x.dieMask).length * 2 ^ 48 + x.dieMask.toNat)

/-- RPT (R225); LEFT counts the issue in progress (R230, log 36). -/
def Ctx.rpt (x : Ctx) : Word :=
  match x.rep with
  | some r => BitVec.ofNat 64 (min r.left 0xFFFF)
  | none => 0

/-- The trap record's registers 0x043 to 0x04F (R384). -/
def Ctx.trapReg (x : Ctx) (n : Nat) : Word :=
  let t := x.trap
  match n with
  | 0x43 => t.tvec
  | 0x44 => BitVec.ofNat 64 (t.kind.toNat * 2 ^ 14 + t.slot.toNat * 2 ^ 8 + t.code.toNat)
  | 0x45 => t.tval
  | 0x46 => t.tdata
  | 0x47 => t.tdies.zeroExtend 64
  | 0x48 => t.tpd.zeroExtend 64
  | 0x49 => BitVec.ofNat 64 ((x.snap.map (fun s => s.pending.length)).getD 0)
  | _ => 0

/-- What an access to a control register finds (R325): CSR_BAD, PRIV, or nothing wrong. -/
def Ctx.csrCheck (x : Ctx) (cellar : Bool) (n : Nat) : Option Cause :=
  let both := n ≤ 0x003 || (0x010 ≤ n && n ≤ 0x016) || n = 0x018 || n = 0x019 || (0x030 ≤ n && n ≤ 0x034)
    || (0x038 ≤ n && n ≤ 0x03A) || n = 0x050
  let seqOnly := (0x020 ≤ n && n ≤ 0x023) || (0x028 ≤ n && n ≤ 0x02B)
  let handler := 0x040 ≤ n && n ≤ 0x04F
  if handler then if x.handler then none else some .priv
  else if both || (seqOnly && !cellar) then none
  else some .csrBad

/-- The rt register that a number names, when an earlier reduction has still to fill it (R260). -/
def Ctx.rtPending (x : Ctx) (n : Nat) : Option Nat :=
  if 0x028 ≤ n ∧ n ≤ 0x02B ∧ (Table.find? x.rtWait (n - 0x28)).isSome then some (n - 0x28) else none

/-- The value of control register `n` of a context. -/
def State.csrRead (s : State) (c : CoreId) (n : Nat) : Word :=
  let x := s.ctx c
  let l := s.launchOf c
  if n = 0x000 then s.idPart
  else if n = 0x001 then Config.idSerial
  else if n = 0x002 then s.timeAt c
  else if n = 0x003 then s.timeSkew
  else if n = 0x010 then BitVec.ofNat 64 (s.taskId c).wid
  else if n = 0x011 then BitVec.ofNat 64 (recWidf l.record)
  else if n = 0x012 then BitVec.ofNat 64 (recWidl l.record)
  else if n = 0x013 then s.taskInfo c
  else if n = 0x014 then s.stageCnt c
  else if n = 0x015 then if x.handler then 1 else 0
  else if n = 0x016 then if x.diag then 1 else 0
  else if n = 0x018 then x.fpctl
  else if n = 0x019 then x.ftabLen.zeroExtend 64
  else if n = 0x020 then s.partCfg c
  else if n = 0x021 then x.dieEn.zeroExtend 64
  else if n = 0x022 then BitVec.ofNat 64 (x.instNo % 2 ^ 48)
  else if n = 0x023 then x.diePres.zeroExtend 64
  else if 0x028 ≤ n ∧ n ≤ 0x02B then Table.get 0 x.rt (n - 0x28)
  else if 0x030 ≤ n ∧ n ≤ 0x033 then Table.get 0 x.lc (n - 0x30)
  else if n = 0x034 then x.rpt
  else if n = 0x038 then x.yieldDl
  else if n = 0x039 then (s.coreRec c).curLim.zeroExtend 64
  else if n = 0x03A then (s.coreRec c).curFrz
  else if n = 0x040 then x.epc
  else if n = 0x041 then x.epc1
  else if n = 0x042 then x.epc2
  else if n = 0x050 then x.dbgEn.zeroExtend 64
  else x.trapReg n

/-- How an instruction writes: whole value, bits set, bits cleared (R324). -/
inductive CsrHow where
  | write | set | clear
  deriving DecidableEq, Repr

/-- New value of RW bits. -/
def csrRw (h : CsrHow) (old a : Word) : Word :=
  match h with
  | .write => a
  | .set => old ||| a
  | .clear => old &&& ~~~a

/-- FPCTL after a write: RM and VRM are RW, FLG and VFLG W1C, the rest reads 0 (R73). -/
def fpctlWrite (h : CsrHow) (old a : Word) : Word :=
  let rw := csrRw h old a &&& 0xF
  let sticky := old &&& 0x1F1F00
  rw ||| (match h with | .set => sticky | _ => sticky &&& ~~~a)

/-- A control register written; RO registers ignore it (R10). -/
def Ctx.csrWrite (x : Ctx) (h : CsrHow) (n : Nat) (a : Word) : Ctx :=
  if n = 0x018 then { x with fpctl := fpctlWrite h x.fpctl a }
  else if n = 0x019 then { x with ftabLen := (csrRw h (x.ftabLen.zeroExtend 64) a).truncate 32 }
  else if n = 0x021 then { x with dieEn := (csrRw h (x.dieEn.zeroExtend 64) a).truncate 48 &&& x.dieMask }
  else if n = 0x040 then { x with epc := csrRw h x.epc a }
  else if n = 0x041 then { x with epc1 := csrRw h x.epc1 a }
  else if n = 0x042 then { x with epc2 := csrRw h x.epc2 a }
  else x

/-- The check of a control-register access in a slot. -/
def State.csrVerdict (s : State) (n : Nat) : Verdict :=
  match s.cur.csrCheck s.core.isCellar n with
  | some c => .trap c 0 0
  | none => .ok

def execCsrr (d : BitVec 6) (n : BitVec 9) : State → Host.Outcome State Fault Refusal :=
  slotOp
    (fun s => (s.csrVerdict n.toNat).andThen
      (match s.cur.rtPending n.toNat with | some r => .wait (.rt r) | none => .ok))
    (fun s =>
      let v := s.csrRead s.core n.toNat
      s.send (outS false d v) v 6 0 0 true)

/-- CSRW, CSRS and CSRC. -/
def State.csrStore (s : State) (h : CsrHow) (n : BitVec 9) (a : Src) : State :=
  s.updCtx s.core (fun x => x.csrWrite h n.toNat (s.src a))

def execCsrw (n : BitVec 9) (a : Src) : State → Host.Outcome State Fault Refusal :=
  slotOp (·.csrVerdict n.toNat) (·.csrStore .write n a)
def execCsrs (n : BitVec 9) (a : Src) : State → Host.Outcome State Fault Refusal :=
  slotOp (·.csrVerdict n.toNat) (·.csrStore .set n a)
def execCsrc (n : BitVec 9) (a : Src) : State → Host.Outcome State Fault Refusal :=
  slotOp (·.csrVerdict n.toNat) (·.csrStore .clear n a)

/-- DIE_EN_WRITE: a write to DIE_EN of a sequencer context takes effect for later packets (R54). -/
def execDieEnWrite (c : Nat) (v : BitVec 64) : State → Host.Outcome State Fault Refusal :=
  eventOp (fun _ => c < 32) (·.updCtx (.seq c) (·.csrWrite .write 0x021 v))
/-- FPCTL_WRITE (R73). -/
def execFpctlWrite (c : CoreId) (v : BitVec 64) : State → Host.Outcome State Fault Refusal :=
  eventOp (fun _ => c.real) (·.updCtx c (·.csrWrite .write 0x018 v))

end Sys2Proof.Machine
end

