-- ==== Sys2Proof/Machine/Flags.lean ====
section
/-! DEFINITION. Floating point computed exactly on dyadic rationals and rounded once, with its sticky flags
(R71 to R75, R207 to R213). Flags are the five bits NV, DZ, OF, UF, NX from bit 4 down (R73). -/

namespace Sys2Proof.Machine

/-- A binary format: exponent and fraction widths. -/
structure Fmt where
  eb : Nat
  mb : Nat
  deriving DecidableEq, Repr

def Fmt.f64 : Fmt := { eb := 11, mb := 52 }
def Fmt.f32 : Fmt := { eb := 8, mb := 23 }
def Fmt.bf16 : Fmt := { eb := 8, mb := 7 }
def Fmt.f16 : Fmt := { eb := 5, mb := 10 }

/-- The precision of a scalar operation (R207). -/
def Fmt.ofDbl (dbl : Bool) : Fmt := if dbl then Fmt.f64 else Fmt.f32

def Fmt.bias (f : Fmt) : Nat := 2 ^ (f.eb - 1) - 1
def Fmt.width (f : Fmt) : Nat := f.eb + f.mb + 1
/-- The canonical quiet NaN (R72). -/
def Fmt.nan (f : Fmt) : Nat := (2 ^ f.eb - 1) * 2 ^ f.mb + 2 ^ (f.mb - 1)
def Fmt.signBit (f : Fmt) (neg : Bool) : Nat := if neg then 2 ^ (f.eb + f.mb) else 0
def Fmt.inf (f : Fmt) (neg : Bool) : Nat := f.signBit neg + (2 ^ f.eb - 1) * 2 ^ f.mb
/-- The largest finite magnitude. -/
def Fmt.huge (f : Fmt) (neg : Bool) : Nat := f.inf neg - 1

/-- A value: NaN (signalling or quiet), an infinity, or `(-1)^neg * m * 2^e`. -/
inductive FVal where
  | nan (sig : Bool)
  | inf (neg : Bool)
  | fin (neg : Bool) (m : Nat) (e : Int)
  deriving DecidableEq, Repr

/-- A result's bits and flags. -/
structure FRes where
  v : Nat
  fl : BitVec 5
  deriving DecidableEq, Repr

def flNV : BitVec 5 := 16
def flDZ : BitVec 5 := 8
def flOF : BitVec 5 := 4
def flUF : BitVec 5 := 2
def flNX : BitVec 5 := 1

/-- The value of a bit pattern. -/
def Fmt.decode (f : Fmt) (v : Nat) : FVal :=
  let neg := v / 2 ^ (f.eb + f.mb) % 2 = 1
  let x := v / 2 ^ f.mb % 2 ^ f.eb
  let m := v % 2 ^ f.mb
  if x = 2 ^ f.eb - 1 then if m = 0 then .inf neg else .nan (m / 2 ^ (f.mb - 1) = 0)
  else if x = 0 then .fin neg m (1 - (f.bias + f.mb : Nat))
  else .fin neg (2 ^ f.mb + m) (x - (f.bias + f.mb : Nat))

/-- Rounding-mode codes (R74): 0 RNE, 1 RTZ, 2 RDN, 3 RUP. Whether `n + rem / 2^k` goes up to `n + 1` in magnitude. -/
def roundUp (rm : Nat) (neg : Bool) (n rem k : Nat) : Bool :=
  match rm with
  | 0 => 2 ^ k < 2 * rem || (2 * rem == 2 ^ k && n % 2 == 1)
  | 1 => false
  | 2 => neg && rem != 0
  | _ => !neg && rem != 0

/-- `m / 2^k` rounded, and whether it was inexact. -/
def roundShift (rm : Nat) (neg : Bool) (m k : Nat) : Nat × Bool :=
  let n := m / 2 ^ k
  let r := m % 2 ^ k
  (if roundUp rm neg n r k then n + 1 else n, r != 0)

/-- One rounding of a finite value to a format (R74): underflow is found after rounding. -/
def Fmt.round (f : Fmt) (rm : Nat) (neg : Bool) (m : Nat) (e : Int) : FRes :=
  if m = 0 then { v := f.signBit neg, fl := 0 } else
  let top : Int := (Nat.log2 m : Nat) + e
  let emin : Int := 1 - (f.bias : Nat)
  let at_ (q : Int) : Nat × Bool :=
    if q ≤ e then (m * 2 ^ (e - q).toNat, false) else roundShift rm neg m (q - e).toNat
  let q := max (top - (f.mb : Nat)) (emin - (f.mb : Nat))
  let (n, ix) := at_ q
  let (n, q) := if n = 2 ^ (f.mb + 1) then (2 ^ f.mb, q + 1) else (n, q)
  if 2 ^ f.mb ≤ n && (f.bias : Int) < q + (f.mb : Nat) then
    let toInf := rm = 0 || (rm = 2 && neg) || (rm = 3 && !neg)
    { v := if toInf then f.inf neg else f.huge neg, fl := flOF ||| flNX }
  else
    let tiny := top < emin && !(top = emin - 1 && (at_ (top - (f.mb : Nat))).1 = 2 ^ (f.mb + 1))
    let bits := if n < 2 ^ f.mb then n else (q + (f.mb + f.bias : Nat)).toNat * 2 ^ f.mb + (n - 2 ^ f.mb)
    { v := f.signBit neg + bits, fl := (if ix then flNX else 0) ||| (if tiny && ix then flUF else 0) }

/-- A value rounded to a format; a NaN result is canonical (R72). -/
def Fmt.encode (f : Fmt) (rm : Nat) (x : FVal) (fl : BitVec 5) : FRes :=
  match x with
  | .nan _ => { v := f.nan, fl }
  | .inf neg => { v := f.inf neg, fl }
  | .fin neg m e =>
    let r := f.round rm neg m e
    { r with fl := r.fl ||| fl }

def FVal.isNan : FVal → Bool
  | .nan _ => true
  | _ => false
def FVal.isSig : FVal → Bool
  | .nan sg => sg
  | _ => false
def FVal.neg : FVal → FVal
  | .nan sg => .nan sg
  | .inf n => .inf (!n)
  | .fin n m e => .fin (!n) m e
def FVal.isZero : FVal → Bool
  | .fin _ m _ => m == 0
  | _ => false
def FVal.isNeg : FVal → Bool
  | .nan _ => false
  | .inf n => n
  | .fin n _ _ => n

/-- The signed mantissa of a finite value at a lower exponent. -/
def alignTo (neg : Bool) (m : Nat) (e lo : Int) : Int :=
  let x : Int := (m * 2 ^ (e - lo).toNat : Nat)
  if neg then -x else x

/-- The exact sum (R72, R74): an invalid sum and the sign of a zero are decided here. -/
def fAdd (rm : Nat) (a b : FVal) : FVal × BitVec 5 :=
  let nv := if a.isSig || b.isSig then flNV else 0
  match a, b with
  | .nan _, _ => (.nan false, nv)
  | _, .nan _ => (.nan false, nv)
  | .inf x, .inf y => if x = y then (.inf x, 0) else (.nan false, flNV)
  | .inf x, _ => (.inf x, 0)
  | _, .inf y => (.inf y, 0)
  | .fin n m e, .fin n' m' e' =>
    let lo := min e e'
    let s := alignTo n m e lo + alignTo n' m' e' lo
    if s = 0 then
      if n = n' then (.fin n 0 lo, 0) else (.fin (rm = 2) 0 lo, 0)
    else (.fin (s < 0) s.natAbs lo, 0)

/-- The exact product. -/
def fMul (a b : FVal) : FVal × BitVec 5 :=
  let nv := if a.isSig || b.isSig then flNV else 0
  match a, b with
  | .nan _, _ => (.nan false, nv)
  | _, .nan _ => (.nan false, nv)
  | .inf x, .inf y => (.inf (x != y), 0)
  | .inf x, .fin y m _ => if m = 0 then (.nan false, flNV) else (.inf (x != y), 0)
  | .fin x m _, .inf y => if m = 0 then (.nan false, flNV) else (.inf (x != y), 0)
  | .fin x m e, .fin y m' e' => (.fin (x != y) (m * m') (e + e'), 0)

/-- The exact `a * b + c`; zero times infinity is invalid whatever `c` is (R72, R208). -/
def fFma (rm : Nat) (a b c : FVal) : FVal × BitVec 5 :=
  let p := fMul a b
  let s := fAdd rm p.1 c
  (s.1, p.2 ||| s.2)

/-- The variants of FMA (R208). -/
def fFmaVar (rm : Nat) (var : BitVec 2) (a b c : FVal) : FVal × BitVec 5 :=
  fFma rm (if var.getLsbD 1 then a.neg else a) b (if var.getLsbD 0 then c.neg else c)

/-- The quotient, its last bit sticky, with more bits than any format needs. -/
def fDiv (a b : FVal) : FVal × BitVec 5 :=
  let nv := if a.isSig || b.isSig then flNV else 0
  match a, b with
  | .nan _, _ => (.nan false, nv)
  | _, .nan _ => (.nan false, nv)
  | .inf _, .inf _ => (.nan false, flNV)
  | .inf x, .fin y _ _ => (.inf (x != y), 0)
  | .fin x _ _, .inf y => (.fin (x != y) 0 0, 0)
  | .fin x m e, .fin y m' e' =>
    if m' = 0 then if m = 0 then (.nan false, flNV) else (.inf (x != y), flDZ)
    else
      let n := m * 2 ^ 130
      let q := n / m'
      (.fin (x != y) (2 * q + (if n % m' = 0 then 0 else 1)) (e - e' - 131), 0)

/-- Floor of the square root of a number below `2^(2k)`, bit by bit from bit `k-1`. -/
def isqrt (n : Nat) : Nat → Nat → Nat
  | 0, acc => acc
  | k + 1, acc =>
    let t := acc + 2 ^ k
    isqrt n k (if t * t ≤ n then t else acc)

/-- The square root, its last bit sticky. -/
def fSqrt (a : FVal) : FVal × BitVec 5 :=
  match a with
  | .nan sg => (.nan false, if sg then flNV else 0)
  | .inf n => if n then (.nan false, flNV) else (.inf false, 0)
  | .fin n m e =>
    if m = 0 then (.fin n 0 0, 0)
    else if n then (.nan false, flNV)
    else
      let sh := if e % 2 = 0 then 120 else 121
      let x := m * 2 ^ sh
      let r := isqrt x 90 0
      (.fin false (2 * r + (if r * r = x then 0 else 1)) ((e - (sh : Nat)) / 2 - 1), 0)

/-- Order of two finite values or infinities; zeros of both signs are equal. -/
def FVal.lt (a b : FVal) : Bool :=
  match a, b with
  | .nan _, _ => false
  | _, .nan _ => false
  | .inf x, .inf y => x && !y
  | .inf x, _ => x
  | _, .inf y => !y
  | .fin n m e, .fin n' m' e' =>
    let lo := min e e'
    alignTo n m e lo < alignTo n' m' e' lo
def FVal.eq (a b : FVal) : Bool := !a.isNan && !b.isNan && !a.lt b && !b.lt a

/-- FMIN and FMAX (R209): bit for bit, -0 below +0, one NaN gives the other operand. -/
def Fmt.minmax (f : Fmt) (max : Bool) (x y : Nat) : FRes :=
  let a := f.decode x
  let b := f.decode y
  let fl := if a.isSig || b.isSig then flNV else 0
  if a.isNan && b.isNan then { v := f.nan, fl }
  else if a.isNan then { v := y, fl }
  else if b.isNan then { v := x, fl }
  else
    let less := a.lt b || (a.eq b && a.isNeg && !b.isNeg)
    { v := if less = max then y else x, fl }

/-- FCMP's conditions (R210): the truth value and its flags. -/
def fCompare (c : FCond) (a b : FVal) : Bool × BitVec 5 :=
  let un := a.isNan || b.isNan
  let sg := if a.isSig || b.isSig then flNV else 0
  let any := if un then flNV else 0
  match c with
  | .eq => (a.eq b, sg)
  | .lt => (a.lt b, any)
  | .le => (!un && !b.lt a, any)
  | .un => (un, sg)
  | .ne => (!a.eq b, sg)

/-- FCLASS (R211). -/
def Fmt.classify (f : Fmt) (v : Nat) : Nat :=
  match f.decode v with
  | .nan sg => if sg then 2 ^ 8 else 2 ^ 9
  | .inf n => if n then 2 ^ 0 else 2 ^ 7
  | .fin n m _ =>
    if m = 0 then if n then 2 ^ 3 else 2 ^ 4
    else if m < 2 ^ f.mb then if n then 2 ^ 2 else 2 ^ 5
    else if n then 2 ^ 1 else 2 ^ 6

/-- The value rounded to an integer, and whether it was inexact. -/
def roundInt (rm : Nat) (neg : Bool) (m : Nat) (e : Int) : Int × Bool :=
  let (n, ix) := if 0 ≤ e then (m * 2 ^ e.toNat, false) else roundShift rm neg m (-e).toNat
  (if neg then -(n : Int) else n, ix)

/-- Float to integer (R75, R213): the range is checked after rounding. -/
def fToInt (rm : Nat) (lo hi : Int) (a : FVal) : Int × BitVec 5 :=
  match a with
  | .nan _ => (0, flNV)
  | .inf n => (if n then lo else hi, flNV)
  | .fin n m e =>
    let (x, ix) := roundInt rm n m e
    if x < lo then (lo, flNV) else if hi < x then (hi, flNV) else (x, if ix then flNX else 0)

/-- An integer as an exact value. -/
def fOfInt (x : Int) : FVal := .fin (x < 0) x.natAbs 0

/-- Copy of a value from one format to another (R75): a signalling NaN sets NV (R72, R213). -/
def Fmt.convert (src dst : Fmt) (rm v : Nat) : FRes :=
  let x := src.decode v
  dst.encode rm x (if x.isSig then flNV else 0)

/-- The bits with a new sign. -/
def Fmt.withSign (f : Fmt) (v : Nat) (neg : Bool) : Nat := v % 2 ^ (f.eb + f.mb) + f.signBit neg
def Fmt.sign (f : Fmt) (v : Nat) : Bool := v / 2 ^ (f.eb + f.mb) % 2 == 1

/-! ### Two-operand arithmetic on bits, for the scalar unit, the vector lanes, the trees and near memory -/

def Fmt.add (f : Fmt) (rm x y : Nat) : FRes :=
  let r := fAdd rm (f.decode x) (f.decode y)
  f.encode rm r.1 r.2
def Fmt.subt (f : Fmt) (rm x y : Nat) : FRes :=
  let r := fAdd rm (f.decode x) (f.decode y).neg
  f.encode rm r.1 r.2
def Fmt.mul (f : Fmt) (rm x y : Nat) : FRes :=
  let r := fMul (f.decode x) (f.decode y)
  f.encode rm r.1 r.2
def Fmt.fma (f : Fmt) (rm : Nat) (var : BitVec 2) (x y z : Nat) : FRes :=
  let r := fFmaVar rm var (f.decode x) (f.decode y) (f.decode z)
  f.encode rm r.1 r.2
def Fmt.div (f : Fmt) (rm x y : Nat) : FRes :=
  let r := fDiv (f.decode x) (f.decode y)
  f.encode rm r.1 r.2
def Fmt.sqrt (f : Fmt) (rm x : Nat) : FRes :=
  let r := fSqrt (f.decode x)
  f.encode rm r.1 r.2

end Sys2Proof.Machine
end

