-- ==== Sys2Proof/Decode.lean ====
section
/-! DEFINITION. Slot words to instructions and back: the forms of R170, the maps of R172 to R180, the causes of R181
in the order of R182, and the encoder. -/

namespace Sys2Proof

/-! ### Fields -/

/-- One bit as a truth value. -/
def flag1 (v : BitVec 1) : Bool := v == 1#1
/-- Bit `n` of a field. -/
def fbit {w : Nat} (v : BitVec w) (n : Nat) : Bool := v.getLsbD n
/-- A truth value as a one-bit field. -/
def bit1 (b : Bool) : BitVec 1 := if b then 1#1 else 0#1
/-- Bits `lo+len-1 : lo` of a field. -/
def sub {w : Nat} (v : BitVec w) (lo len : Nat) : BitVec len := v.extractLsb' lo len

/-- A scalar source field that R166 assigns, `held` telling whether the slot may name the held value. -/
def srcOk (held : Bool) (c : BitVec 7) : Bool :=
  c.toNat < 72 || (held && c == 72#7)
/-- The source a legal field names (R166). -/
def srcOf (c : BitVec 7) : Src :=
  if c.toNat < 64 then .reg (c.setWidth 6)
  else if c.toNat < 72 then .latch (c.setWidth 3)
  else .held
/-- The field of a source (R166). -/
def srcCode : Src → BitVec 7
  | .reg n => 0#1 ++ n
  | .latch l => 8#4 ++ l
  | .held => 72#7

/-- Type codes of R76. -/
def vtypeOf (t : BitVec 3) : Option VType :=
  match t.toNat with
  | 0 => some .i32
  | 1 => some .z32
  | 2 => some .f32
  | 3 => some .bf16x2
  | 4 => some .i16x2
  | 5 => some .i8x4
  | 6 => some .f16x2
  | _ => none
def vtypeCode : VType → BitVec 3
  | .i32 => 0 | .z32 => 1 | .f32 => 2 | .bf16x2 => 3 | .i16x2 => 4 | .i8x4 => 5 | .f16x2 => 6

/-- Scope codes of R141. -/
def scopeOf (q : BitVec 4) : Option Scope :=
  match q.toNat with
  | 0 => some .core
  | 1 => some .die
  | 2 => some .part
  | 3 => some .pkg
  | 4 => some .mem
  | 5 => some .sys
  | _ => none
def scopeCode : Scope → BitVec 4
  | .core => 0 | .die => 1 | .part => 2 | .pkg => 3 | .mem => 4 | .sys => 5

/-- The q codes of a load (R171, R214). -/
def ldTypeOf (q : BitVec 4) : Option LdType :=
  match q.toNat with
  | 0 => some .z8
  | 1 => some .z16
  | 2 => some .z32
  | 3 => some .z64
  | 4 => some .s8
  | 5 => some .s16
  | 6 => some .s32
  | _ => none
def ldTypeCode : LdType → BitVec 4
  | .z8 => 0 | .z16 => 1 | .z32 => 2 | .z64 => 3 | .s8 => 4 | .s16 => 5 | .s32 => 6

/-- A word decoded, or the first cause in the order FUNCTION, RESERVED, SOURCE, TYPE (R182). -/
def gate (fn rs sc ty : Bool) (i : Instr) : Except Illegal Instr :=
  if !fn then .error .function
  else if !rs then .error .reserved
  else if !sc then .error .source
  else if !ty then .error .type
  else .ok i

/-! ### The forms of R170 -/

structure FormRR where
  op : BitVec 6
  fn : BitVec 5
  d : BitVec 6
  nw : BitVec 1
  a : BitVec 7
  b : BitVec 7
  deriving DecidableEq, Repr
structure FormRI where
  op : BitVec 6
  d : BitVec 6
  nw : BitVec 1
  a : BitVec 7
  imm : BitVec 12
  deriving DecidableEq, Repr
structure FormM where
  op : BitVec 6
  q : BitVec 4
  d : BitVec 6
  a : BitVec 7
  imm : BitVec 9
  deriving DecidableEq, Repr
structure FormMA where
  op : BitVec 6
  q : BitVec 4
  d : BitVec 6
  a : BitVec 7
  b : BitVec 7
  z : BitVec 2
  deriving DecidableEq, Repr
structure FormBC where
  op : BitVec 6
  q : BitVec 4
  n : BitVec 1
  an : BitVec 1
  off : BitVec 20
  deriving DecidableEq, Repr
structure FormBJ where
  op : BitVec 6
  off : BitVec 26
  deriving DecidableEq, Repr
structure FormJT where
  op : BitVec 6
  len : BitVec 12
  a : BitVec 7
  b : BitVec 7
  deriving DecidableEq, Repr
structure FormCF where
  op : BitVec 6
  sig : BitVec 16
  a : BitVec 7
  z : BitVec 3
  deriving DecidableEq, Repr
structure FormLP where
  op : BitVec 6
  lc : BitVec 2
  len : BitVec 6
  st : BitVec 3
  z : BitVec 1
  a : BitVec 7
  z2 : BitVec 7
  deriving DecidableEq, Repr
structure FormLPI where
  op : BitVec 6
  lc : BitVec 2
  len : BitVec 6
  st : BitVec 3
  cnt : BitVec 15
  deriving DecidableEq, Repr
structure FormV where
  op : BitVec 6
  fn : BitVec 5
  vd : BitVec 5
  va : BitVec 5
  vb : BitVec 5
  m : BitVec 3
  t : BitVec 3
  deriving DecidableEq, Repr
structure FormVS where
  op : BitVec 6
  fn : BitVec 5
  vd : BitVec 5
  va : BitVec 5
  a : BitVec 7
  m : BitVec 3
  z : BitVec 1
  deriving DecidableEq, Repr
structure FormX where
  op : BitVec 6
  fn : BitVec 5
  n : BitVec 2
  ac : BitVec 3
  sel : BitVec 9
  a : BitVec 7
  deriving DecidableEq, Repr
structure FormP where
  op : BitVec 6
  fn : BitVec 5
  k : BitVec 3
  rt : BitVec 2
  sz : BitVec 2
  a : BitVec 7
  b : BitVec 7
  deriving DecidableEq, Repr
structure FormC where
  op : BitVec 6
  fn : BitVec 5
  x : BitVec 3
  e : BitVec 1
  z : BitVec 3
  a : BitVec 7
  b : BitVec 7
  deriving DecidableEq, Repr
structure FormXT where
  op : BitVec 6
  x : BitVec 3
  tid : BitVec 12
  a : BitVec 7
  cnt : BitVec 4
  deriving DecidableEq, Repr

def opOf (w : Word32) : BitVec 6 := sub w 26 6
def unpackRR (w : Word32) : FormRR :=
  { op := opOf w, fn := sub w 21 5, d := sub w 15 6, nw := sub w 14 1, a := sub w 7 7, b := sub w 0 7 }
def packRR (f : FormRR) : Word32 := f.op ++ f.fn ++ f.d ++ f.nw ++ f.a ++ f.b
def unpackRI (w : Word32) : FormRI :=
  { op := opOf w, d := sub w 20 6, nw := sub w 19 1, a := sub w 12 7, imm := sub w 0 12 }
def packRI (f : FormRI) : Word32 := f.op ++ f.d ++ f.nw ++ f.a ++ f.imm
def unpackM (w : Word32) : FormM :=
  { op := opOf w, q := sub w 22 4, d := sub w 16 6, a := sub w 9 7, imm := sub w 0 9 }
def packM (f : FormM) : Word32 := f.op ++ f.q ++ f.d ++ f.a ++ f.imm
def unpackMA (w : Word32) : FormMA :=
  { op := opOf w, q := sub w 22 4, d := sub w 16 6, a := sub w 9 7, b := sub w 2 7, z := sub w 0 2 }
def packMA (f : FormMA) : Word32 := f.op ++ f.q ++ f.d ++ f.a ++ f.b ++ f.z
def unpackBC (w : Word32) : FormBC :=
  { op := opOf w, q := sub w 22 4, n := sub w 21 1, an := sub w 20 1, off := sub w 0 20 }
def packBC (f : FormBC) : Word32 := f.op ++ f.q ++ f.n ++ f.an ++ f.off
def unpackBJ (w : Word32) : FormBJ := { op := opOf w, off := sub w 0 26 }
def packBJ (f : FormBJ) : Word32 := f.op ++ f.off
def unpackJT (w : Word32) : FormJT := { op := opOf w, len := sub w 14 12, a := sub w 7 7, b := sub w 0 7 }
def packJT (f : FormJT) : Word32 := f.op ++ f.len ++ f.a ++ f.b
def unpackCF (w : Word32) : FormCF := { op := opOf w, sig := sub w 10 16, a := sub w 3 7, z := sub w 0 3 }
def packCF (f : FormCF) : Word32 := f.op ++ f.sig ++ f.a ++ f.z
def unpackLP (w : Word32) : FormLP :=
  { op := opOf w, lc := sub w 24 2, len := sub w 18 6, st := sub w 15 3, z := sub w 14 1, a := sub w 7 7,
    z2 := sub w 0 7 }
def packLP (f : FormLP) : Word32 := f.op ++ f.lc ++ f.len ++ f.st ++ f.z ++ f.a ++ f.z2
def unpackLPI (w : Word32) : FormLPI :=
  { op := opOf w, lc := sub w 24 2, len := sub w 18 6, st := sub w 15 3, cnt := sub w 0 15 }
def packLPI (f : FormLPI) : Word32 := f.op ++ f.lc ++ f.len ++ f.st ++ f.cnt
def unpackV (w : Word32) : FormV :=
  { op := opOf w, fn := sub w 21 5, vd := sub w 16 5, va := sub w 11 5, vb := sub w 6 5, m := sub w 3 3,
    t := sub w 0 3 }
def packV (f : FormV) : Word32 := f.op ++ f.fn ++ f.vd ++ f.va ++ f.vb ++ f.m ++ f.t
def unpackVS (w : Word32) : FormVS :=
  { op := opOf w, fn := sub w 21 5, vd := sub w 16 5, va := sub w 11 5, a := sub w 4 7, m := sub w 1 3,
    z := sub w 0 1 }
def packVS (f : FormVS) : Word32 := f.op ++ f.fn ++ f.vd ++ f.va ++ f.a ++ f.m ++ f.z
def unpackX (w : Word32) : FormX :=
  { op := opOf w, fn := sub w 21 5, n := sub w 19 2, ac := sub w 16 3, sel := sub w 7 9, a := sub w 0 7 }
def packX (f : FormX) : Word32 := f.op ++ f.fn ++ f.n ++ f.ac ++ f.sel ++ f.a
def unpackP (w : Word32) : FormP :=
  { op := opOf w, fn := sub w 21 5, k := sub w 18 3, rt := sub w 16 2, sz := sub w 14 2, a := sub w 7 7,
    b := sub w 0 7 }
def packP (f : FormP) : Word32 := f.op ++ f.fn ++ f.k ++ f.rt ++ f.sz ++ f.a ++ f.b
def unpackC (w : Word32) : FormC :=
  { op := opOf w, fn := sub w 21 5, x := sub w 18 3, e := sub w 17 1, z := sub w 14 3, a := sub w 7 7,
    b := sub w 0 7 }
def packC (f : FormC) : Word32 := f.op ++ f.fn ++ f.x ++ f.e ++ f.z ++ f.a ++ f.b
def unpackXT (w : Word32) : FormXT :=
  { op := opOf w, x := sub w 23 3, tid := sub w 11 12, a := sub w 4 7, cnt := sub w 0 4 }
def packXT (f : FormXT) : Word32 := f.op ++ f.x ++ f.tid ++ f.a ++ f.cnt

/-! ### The S map (R172, R196 to R213) -/

def decInt (w : Word32) (mk : IntRR → Instr) : Except Illegal Instr :=
  let f := unpackRR w
  gate (sub f.fn 0 2 == 0#2) true (srcOk false f.a && srcOk false f.b) true
    (mk { w := sub f.fn 3 2, sgn := flag1 (sub f.fn 2 1), d := f.d, nw := flag1 f.nw, a := srcOf f.a, b := srcOf f.b })
def encInt (op : BitVec 6) (o : IntRR) : Word32 :=
  packRR { op, fn := o.w ++ bit1 o.sgn ++ 0#2, d := o.d, nw := bit1 o.nw, a := srcCode o.a, b := srcCode o.b }

def decImm (w : Word32) (mk : IntRI → Instr) : Except Illegal Instr :=
  let f := unpackRI w
  gate true true (srcOk false f.a) true (mk { d := f.d, nw := flag1 f.nw, a := srcOf f.a, imm := f.imm })
def encImm (op : BitVec 6) (o : IntRI) : Word32 :=
  packRI { op, d := o.d, nw := bit1 o.nw, a := srcCode o.a, imm := o.imm }

def decShift (w : Word32) (mk : ShiftRI → Instr) : Except Illegal Instr :=
  let f := unpackRI w
  gate true (sub f.imm 6 6 == 0#6) (srcOk false f.a) true
    (mk { d := f.d, nw := flag1 f.nw, a := srcOf f.a, sh := sub f.imm 0 6 })
def encShift (op : BitVec 6) (o : ShiftRI) : Word32 :=
  packRI { op, d := o.d, nw := bit1 o.nw, a := srcCode o.a, imm := 0#6 ++ o.sh }

def decLih (w : Word32) (himm : BitVec 16) : Except Illegal Instr :=
  let f := unpackRI w
  gate true (f.imm == 0#12) (srcOk false f.a) true (.lih { d := f.d, nw := flag1 f.nw, a := srcOf f.a, himm })

def decCmp (w : Word32) : Except Illegal Instr :=
  let f := unpackRR w
  gate true (sub f.d 4 2 == 0#2) (srcOk false f.a && srcOk false f.b) true
    (.cmp { cond := sub f.fn 2 3, w := sub f.fn 0 2, q := sub f.d 0 4, nw := flag1 f.nw,
            a := srcOf f.a, b := srcOf f.b })
def decCmpi (w : Word32) : Except Illegal Instr :=
  let f := unpackRI w
  gate true (sub f.d 4 2 == 0#2) (srcOk false f.a) true
    (.cmpi { cond := sub f.imm 9 3, q := sub f.d 0 4, nw := flag1 f.nw, a := srcOf f.a, imm := sub f.imm 0 9 })
def decPlog (w : Word32) : Except Illegal Instr :=
  let f := unpackRR w
  gate (sub f.fn 4 1 == 0#1) (sub f.d 4 2 == 0#2) (srcOk false f.a && srcOk false f.b) true
    (.plog { tt := sub f.fn 0 4, q := sub f.d 0 4, nw := flag1 f.nw, a := srcOf f.a, b := srcOf f.b })
def decSel (w : Word32) : Except Illegal Instr :=
  let f := unpackRR w
  gate true true (srcOk false f.a && srcOk false f.b) true
    (.sel { neg := flag1 (sub f.fn 4 1), q := sub f.fn 0 4, d := f.d, nw := flag1 f.nw,
            a := srcOf f.a, b := srcOf f.b })
def decField (w : Word32) (mk : FieldOp → Instr) : Except Illegal Instr :=
  let f := unpackRI w
  gate true ((sub f.imm 6 6).toNat + (sub f.imm 0 6).toNat + 1 ≤ 64) (srcOk false f.a) true
    (mk { pos := sub f.imm 6 6, n1 := sub f.imm 0 6, d := f.d, nw := flag1 f.nw, a := srcOf f.a })
def encField (op : BitVec 6) (o : FieldOp) : Word32 :=
  packRI { op, d := o.d, nw := bit1 o.nw, a := srcCode o.a, imm := o.pos ++ o.n1 }

def countOf (c : BitVec 2) : Option CountKind :=
  match c.toNat with
  | 0 => some .pop
  | 1 => some .clz
  | 2 => some .ctz
  | _ => none
def countCode : CountKind → BitVec 2
  | .pop => 0 | .clz => 1 | .ctz => 2
def decBcnt (w : Word32) : Except Illegal Instr :=
  let f := unpackRR w
  gate (sub f.fn 2 1 == 0#1 && (countOf (sub f.fn 0 2)).isSome) (f.b == 0#7) (srcOk false f.a) true
    (.bcnt { w := sub f.fn 3 2, kind := (countOf (sub f.fn 0 2)).getD .pop, d := f.d, nw := flag1 f.nw,
             a := srcOf f.a })
def decLea (w : Word32) : Except Illegal Instr :=
  let f := unpackRR w
  gate (sub f.fn 2 3 == 0#3) true (srcOk false f.a && srcOk false f.b) true
    (.lea { sc := sub f.fn 0 2, d := f.d, nw := flag1 f.nw, a := srcOf f.a, b := srcOf f.b })

def decFp2 (w : Word32) (mk : FpRR → Instr) : Except Illegal Instr :=
  let f := unpackRR w
  gate (sub f.fn 1 4 == 0#4) true (srcOk false f.a && srcOk false f.b) true
    (mk { dbl := flag1 (sub f.fn 0 1), d := f.d, nw := flag1 f.nw, a := srcOf f.a, b := srcOf f.b })
def encFp2 (op : BitVec 6) (o : FpRR) : Word32 :=
  packRR { op, fn := 0#4 ++ bit1 o.dbl, d := o.d, nw := bit1 o.nw, a := srcCode o.a, b := srcCode o.b }
def decFp1 (w : Word32) (mk : FpR1 → Instr) : Except Illegal Instr :=
  let f := unpackRR w
  gate (sub f.fn 1 4 == 0#4) (f.b == 0#7) (srcOk false f.a) true
    (mk { dbl := flag1 (sub f.fn 0 1), d := f.d, nw := flag1 f.nw, a := srcOf f.a })
def encFp1 (op : BitVec 6) (o : FpR1) : Word32 :=
  packRR { op, fn := 0#4 ++ bit1 o.dbl, d := o.d, nw := bit1 o.nw, a := srcCode o.a, b := 0#7 }
def decFma (w : Word32) : Except Illegal Instr :=
  let f := unpackRR w
  gate (sub f.fn 3 2 == 0#2) true (srcOk false f.a && srcOk false f.b) true
    (.fma { var := sub f.fn 1 2, dbl := flag1 (sub f.fn 0 1), d := f.d, nw := flag1 f.nw,
            a := srcOf f.a, b := srcOf f.b })

def fcondOf (c : BitVec 3) : Option FCond :=
  match c.toNat with
  | 0 => some .eq
  | 1 => some .lt
  | 2 => some .le
  | 3 => some .un
  | 4 => some .ne
  | _ => none
def fcondCode : FCond → BitVec 3
  | .eq => 0 | .lt => 1 | .le => 2 | .un => 3 | .ne => 4
def decFcmp (w : Word32) : Except Illegal Instr :=
  let f := unpackRR w
  gate (sub f.fn 4 1 == 0#1 && (fcondOf (sub f.fn 1 3)).isSome) (sub f.d 4 2 == 0#2)
    (srcOk false f.a && srcOk false f.b) true
    (.fcmp { cond := (fcondOf (sub f.fn 1 3)).getD .eq, dbl := flag1 (sub f.fn 0 1), q := sub f.d 0 4,
             nw := flag1 f.nw, a := srcOf f.a, b := srcOf f.b })
def sgnOf (c : BitVec 2) : Option SgnKind :=
  match c.toNat with
  | 0 => some .j
  | 1 => some .jn
  | 2 => some .jx
  | _ => none
def sgnCode : SgnKind → BitVec 2
  | .j => 0 | .jn => 1 | .jx => 2
def decFsgn (w : Word32) : Except Illegal Instr :=
  let f := unpackRR w
  gate (sub f.fn 3 2 == 0#2 && (sgnOf (sub f.fn 1 2)).isSome) true (srcOk false f.a && srcOk false f.b) true
    (.fsgn { kind := (sgnOf (sub f.fn 1 2)).getD .j, dbl := flag1 (sub f.fn 0 1), d := f.d, nw := flag1 f.nw,
             a := srcOf f.a, b := srcOf f.b })
def decCvtif (w : Word32) : Except Illegal Instr :=
  let f := unpackRR w
  gate (sub f.fn 4 1 == 0#1) (f.b == 0#7) (srcOk false f.a) true
    (.cvtif { sgn := flag1 (sub f.fn 3 1), w := sub f.fn 1 2, dbl := flag1 (sub f.fn 0 1), d := f.d,
              nw := flag1 f.nw, a := srcOf f.a })
def decCvtfi (w : Word32) : Except Illegal Instr :=
  let f := unpackRR w
  gate true (f.b == 0#7) (srcOk false f.a) true
    (.cvtfi { rtz := flag1 (sub f.fn 4 1), sgn := flag1 (sub f.fn 3 1), w := sub f.fn 1 2,
              dbl := flag1 (sub f.fn 0 1), d := f.d, nw := flag1 f.nw, a := srcOf f.a })

/-- The S map (R172). -/
def decodeS (w : Word32) (himm : BitVec 16) : Except Illegal Instr :=
  match (opOf w).toNat with
  | 0x00 => decInt w .add
  | 0x01 => decInt w .sub
  | 0x02 => decInt w .mul
  | 0x03 => decInt w .mulh
  | 0x04 => decInt w .div
  | 0x05 => decInt w .rem
  | 0x06 => decInt w .and
  | 0x07 => decInt w .or
  | 0x08 => decInt w .xor
  | 0x09 => decInt w .andn
  | 0x0A => decInt w .shl
  | 0x0B => decInt w .shr
  | 0x0C => decInt w .sar
  | 0x0D => decInt w .ror
  | 0x0E => decInt w .min
  | 0x0F => decInt w .max
  | 0x10 => decImm w .addi
  | 0x11 => decImm w .andi
  | 0x12 => decImm w .ori
  | 0x13 => decImm w .xori
  | 0x14 => decShift w .shli
  | 0x15 => decShift w .shri
  | 0x16 => decShift w .sari
  | 0x17 => decLih w himm
  | 0x18 => decCmp w
  | 0x19 => decCmpi w
  | 0x1A => decPlog w
  | 0x1B => decSel w
  | 0x1C => decField w .bext
  | 0x1D => decField w .bins
  | 0x1E => decBcnt w
  | 0x1F => decLea w
  | 0x20 => decFp2 w .fadd
  | 0x21 => decFp2 w .fsub
  | 0x22 => decFp2 w .fmul
  | 0x23 => decFma w
  | 0x24 => decFp2 w .fdiv
  | 0x25 => decFp1 w .fsqrt
  | 0x26 => decFp2 w .fmin
  | 0x27 => decFp2 w .fmax
  | 0x28 => decFcmp w
  | 0x29 => decFp1 w .fclass
  | 0x2A => decFsgn w
  | 0x2B => decCvtif w
  | 0x2C => decCvtfi w
  | 0x2D => decFp1 w .cvtff
  | _ => .error .opcode

/-! ### The M map (R173, R214, R313, R317, R320, R324, R332, R334) -/

def decLoad (w : Word32) (mk : LoadOp → Instr) : Except Illegal Instr :=
  let f := unpackM w
  gate true (ldTypeOf f.q).isSome (srcOk false f.a) true
    (mk { ty := (ldTypeOf f.q).getD .z8, d := f.d, a := srcOf f.a, imm := f.imm })
def encLoad (op : BitVec 6) (o : LoadOp) : Word32 :=
  packM { op, q := ldTypeCode o.ty, d := o.d, a := srcCode o.a, imm := o.imm }
def decStore (w : Word32) (mk : StoreOp → Instr) : Except Illegal Instr :=
  let f := unpackM w
  gate true (sub f.q 2 2 == 0#2) (srcOk false f.a) true
    (mk { z := sub f.q 0 2, d := f.d, a := srcOf f.a, imm := f.imm })
def encStore (op : BitVec 6) (o : StoreOp) : Word32 :=
  packM { op, q := 0#2 ++ o.z, d := o.d, a := srcCode o.a, imm := o.imm }
def decAtom (w : Word32) (mk : AtomOp → Instr) : Except Illegal Instr :=
  let f := unpackMA w
  gate true (sub f.q 3 1 == 0#1 && sub f.q 1 1 == 1#1 && f.z == 0#2) (srcOk false f.a && srcOk false f.b) true
    (mk { big := flag1 (sub f.q 0 1), sgn := flag1 (sub f.q 2 1), d := f.d, a := srcOf f.a, b := srcOf f.b })
def encAtom (op : BitVec 6) (o : AtomOp) : Word32 :=
  packMA { op, q := 0#1 ++ bit1 o.sgn ++ 1#1 ++ bit1 o.big, d := o.d, a := srcCode o.a, b := srcCode o.b, z := 0#2 }
def decFAtom (w : Word32) (mk : FAtomOp → Instr) : Except Illegal Instr :=
  let f := unpackMA w
  gate true (sub f.q 1 3 == 5#3 && f.z == 0#2) (srcOk false f.a && srcOk false f.b) true
    (mk { dbl := flag1 (sub f.q 0 1), d := f.d, a := srcOf f.a, b := srcOf f.b })
def encFAtom (op : BitVec 6) (o : FAtomOp) : Word32 :=
  packMA { op, q := 5#3 ++ bit1 o.dbl, d := o.d, a := srcCode o.a, b := srcCode o.b, z := 0#2 }
def decScope (w : Word32) (mk : Scope → Instr) : Except Illegal Instr :=
  let f := unpackM w
  gate true ((scopeOf f.q).isSome && f.d == 0#6 && f.a == 0#7 && f.imm == 0#9) true true
    (mk ((scopeOf f.q).getD .core))
def encScope (op : BitVec 6) (sc : Scope) : Word32 :=
  packM { op, q := scopeCode sc, d := 0#6, a := 0#7, imm := 0#9 }
def decFlagW (cellar : Bool) (w : Word32) (mk : FlagWOp → Instr) : Except Illegal Instr :=
  let f := unpackM w
  if cellar then .error .opcode else
  gate true (f.q == 2#4 && sub f.imm 7 1 == 0#1 && sub f.imm 5 1 == 0#1) (srcOk false f.a) true
    (mk { remote := flag1 (sub f.imm 8 1), rel := flag1 (sub f.imm 6 1), off := sub f.imm 0 5, d := f.d,
          a := srcOf f.a })
def encFlagW (op : BitVec 6) (o : FlagWOp) : Word32 :=
  packM { op, q := 2#4, d := o.d, a := srcCode o.a, imm := bit1 o.remote ++ 0#1 ++ bit1 o.rel ++ 0#1 ++ o.off }
def decFtest (cellar : Bool) (w : Word32) : Except Illegal Instr :=
  let f := unpackM w
  if cellar then .error .opcode else
  gate true (sub f.q 3 1 == 0#1 && sub f.q 0 2 == 2#2 && sub f.imm 6 1 == 0#1 && sub f.imm 5 1 == 0#1)
    (srcOk false f.a) true
    (.ftest { sgn := flag1 (sub f.q 2 1), remote := flag1 (sub f.imm 8 1), acq := flag1 (sub f.imm 7 1),
              off := sub f.imm 0 5, d := f.d, a := srcOf f.a })
def decFwait (cellar : Bool) (w : Word32) : Except Illegal Instr :=
  let f := unpackM w
  if cellar then .error .opcode else
  gate true (sub f.q 3 1 == 0#1 && sub f.q 0 2 == 2#2 && sub f.imm 6 1 == 0#1) (srcOk false f.a) true
    (.fwait { sgn := flag1 (sub f.q 2 1), remote := flag1 (sub f.imm 8 1), acq := flag1 (sub f.imm 7 1),
              eq := flag1 (sub f.imm 5 1), off := sub f.imm 0 5, d := f.d, a := srcOf f.a })
def decCsrr (w : Word32) : Except Illegal Instr :=
  let f := unpackM w
  gate true (f.q == 3#4 && f.a == 0#7) true true (.csrr f.d f.imm)
def decCsrw (w : Word32) (mk : BitVec 9 → Src → Instr) : Except Illegal Instr :=
  let f := unpackM w
  gate true (f.q == 3#4 && f.d == 0#6) (srcOk false f.a) true (mk f.imm (srcOf f.a))
def encCsrw (op : BitVec 6) (n : BitVec 9) (a : Src) : Word32 :=
  packM { op, q := 3#4, d := 0#6, a := srcCode a, imm := n }
def decDrain (w : Word32) : Except Illegal Instr :=
  let f := unpackM w
  gate true (f.q == 0#4 && f.d == 0#6 && f.a == 0#7 && f.imm == 0#9) true true .drain
def decDstchk (w : Word32) : Except Illegal Instr :=
  let f := unpackMA w
  gate true (f.q == 3#4 && f.z == 0#2) (srcOk false f.a && srcOk false f.b) true
    (.dstchk f.d (srcOf f.a) (srcOf f.b))
def decDrdchk (w : Word32) : Except Illegal Instr :=
  let f := unpackMA w
  gate true ((f.q == 0#4 || f.q == 3#4) && f.b == 0#7 && f.z == 0#2) (srcOk false f.a) true
    (.drdchk (f.q == 0#4) f.d (srcOf f.a))
def decCmpt (w : Word32) : Except Illegal Instr :=
  let f := unpackMA w
  gate true (sub f.q 1 3 == 1#3 && f.d == 0#6 && f.z == 0#2) (srcOk false f.a && srcOk false f.b) true
    (.cmpt (flag1 (sub f.q 0 1)) (srcOf f.a) (srcOf f.b))

/-- The M map (R173); flag instructions are cause OPCODE on a cellar core (R319). -/
def decodeM (cellar : Bool) (w : Word32) : Except Illegal Instr :=
  match (opOf w).toNat with
  | 0x00 => decLoad w .ld
  | 0x01 => decStore w .st
  | 0x02 => decLoad w .lds
  | 0x03 => decStore w .sts
  | 0x08 => decAtom w .aadd
  | 0x09 => decAtom w .aand
  | 0x0A => decAtom w .aor
  | 0x0B => decAtom w .axor
  | 0x0C => decAtom w .amin
  | 0x0D => decAtom w .amax
  | 0x0E => decAtom w .axch
  | 0x0F => decAtom w .acas
  | 0x10 => decFAtom w .afadd
  | 0x11 => decFAtom w .afmax
  | 0x18 => decScope w .fenceSc
  | 0x19 => decScope w .release
  | 0x1A => decScope w .acquire
  | 0x1B => decDrain w
  | 0x1C => decFlagW cellar w .fset
  | 0x1D => decFtest cellar w
  | 0x1E => decFwait cellar w
  | 0x1F => decFlagW cellar w .finc
  | 0x20 => decCsrr w
  | 0x21 => decCsrw w .csrw
  | 0x22 => decCsrw w .csrs
  | 0x23 => decCsrw w .csrc
  | 0x24 => decDstchk w
  | 0x25 => decDrdchk w
  | 0x26 => decCmpt w
  | _ => .error .opcode

/-! ### The B map (R174, R220 to R230, R327 to R331) -/

def decBr (w : Word32) : Except Illegal Instr :=
  let f := unpackBC w
  gate true true true true (.br f.q (flag1 f.n) (flag1 f.an) f.off)
def decJump (w : Word32) (mk : BitVec 26 → Instr) : Except Illegal Instr :=
  gate true true true true (mk (unpackBJ w).off)
def decJr (w : Word32) (mk : Src → Instr) : Except Illegal Instr :=
  let f := unpackRR w
  gate true (f.fn == 0#5 && f.d == 0#6 && f.nw == 0#1 && f.b == 0#7) (srcOk false f.a) true (mk (srcOf f.a))
def encJr (op : BitVec 6) (a : Src) : Word32 :=
  packRR { op, fn := 0#5, d := 0#6, nw := 0#1, a := srcCode a, b := 0#7 }
def decJrl (w : Word32) : Except Illegal Instr :=
  let f := unpackRR w
  gate true (f.fn == 0#5 && f.b == 0#7) (srcOk false f.a) true (.jrl f.d (flag1 f.nw) (srcOf f.a))
def decJt (w : Word32) : Except Illegal Instr :=
  let f := unpackJT w
  gate true true (srcOk false f.a && srcOk false f.b) true (.jt f.len (srcOf f.a) (srcOf f.b))
def decCallf (w : Word32) : Except Illegal Instr :=
  let f := unpackCF w
  gate true (f.z == 0#3) (srcOk false f.a) true (.callf f.sig (srcOf f.a))
def decLoop (w : Word32) : Except Illegal Instr :=
  let f := unpackLP w
  gate true (f.z == 0#1 && f.z2 == 0#7) (srcOk false f.a) true (.loop f.lc f.len f.st (srcOf f.a))
def decLoopi (w : Word32) : Except Illegal Instr :=
  let f := unpackLPI w
  gate true true true true (.loopi f.lc f.len f.st f.cnt)
def decLexit (w : Word32) : Except Illegal Instr :=
  let f := unpackRR w
  gate true (sub f.fn 2 3 == 0#3 && f.d == 0#6 && f.nw == 0#1 && f.a == 0#7 && f.b == 0#7) true true
    (.lexit (sub f.fn 0 2))
def decCode12 (w : Word32) (mk : BitVec 12 → Instr) : Except Illegal Instr :=
  let f := unpackRI w
  gate true (f.d == 0#6 && f.nw == 0#1 && f.a == 0#7) true true (mk f.imm)
def encCode12 (op : BitVec 6) (c : BitVec 12) : Word32 :=
  packRI { op, d := 0#6, nw := 0#1, a := 0#7, imm := c }
def decBare (w : Word32) (i : Instr) : Except Illegal Instr :=
  let f := unpackRR w
  gate (f.fn == 0#5) (f.d == 0#6 && f.nw == 0#1 && f.a == 0#7 && f.b == 0#7) true true i
def encBare (op : BitVec 6) (fn : BitVec 5) : Word32 :=
  packRR { op, fn, d := 0#6, nw := 0#1, a := 0#7, b := 0#7 }
def decYield (w : Word32) : Except Illegal Instr :=
  let f := unpackRR w
  gate (sub f.fn 1 4 == 0#4) (f.d == 0#6 && f.nw == 0#1 && f.a == 0#7 && f.b == 0#7) true true
    (if flag1 (sub f.fn 0 1) then .yieldSched else .yieldCore)
def decLaunch (cellar : Bool) (w : Word32) : Except Illegal Instr :=
  let f := unpackRR w
  if cellar then .error .opcode else
  gate (f.fn == 0#5) (f.b == 0#7) (srcOk false f.a) true (.launch f.d (flag1 f.nw) (srcOf f.a))

/-- The B map (R174); LAUNCH is cause OPCODE on a cellar core (R331). -/
def decodeB (cellar : Bool) (w : Word32) : Except Illegal Instr :=
  match (opOf w).toNat with
  | 0x00 => decBr w
  | 0x01 => decJump w .jmp
  | 0x02 => decJump w .jmpl
  | 0x03 => decJr w .jr
  | 0x04 => decJrl w
  | 0x05 => decJt w
  | 0x06 => decCallf w
  | 0x07 => decJr w .ret
  | 0x08 => decLoop w
  | 0x09 => decLoopi w
  | 0x0A => decLexit w
  | 0x0B => decJr w .rep
  | 0x0C => decCode12 w .repi
  | 0x10 => decCode12 w .trap
  | 0x11 => decBare w .eret
  | 0x12 => decYield w
  | 0x13 => decLaunch cellar w
  | 0x14 => decBare w .halt
  | 0x15 => decCode12 w .bkpt
  | _ => .error .opcode

/-! ### The V map (R175, R237 to R256, R283) -/

/-- A V-form word without variant, its types limited by `ty`. -/
def decVBin (ty : VType → Bool) (w : Word32) (mk : VBin → Instr) : Except Illegal Instr :=
  let f := unpackV w
  let t := (vtypeOf f.t).getD .i32
  gate (f.fn == 0#5) true true ((vtypeOf f.t).isSome && ty t)
    (mk { vd := f.vd, va := f.va, vb := f.vb, m := f.m, t })
def encVBin (op : BitVec 6) (fn : BitVec 5) (o : VBin) : Word32 :=
  packV { op, fn, vd := o.vd, va := o.va, vb := o.vb, m := o.m, t := vtypeCode o.t }
/-- With .sat, for the integer types only (R237); the pairing with a float is read as cause TYPE (log 12). -/
def decVSat (ty : VType → Bool) (w : Word32) (mk : VSatBin → Instr) : Except Illegal Instr :=
  let f := unpackV w
  let t := (vtypeOf f.t).getD .i32
  let sat := flag1 (sub f.fn 0 1)
  gate (sub f.fn 1 4 == 0#4) true true ((vtypeOf f.t).isSome && ty t && (!sat || t.isInt))
    (mk { sat, o := { vd := f.vd, va := f.va, vb := f.vb, m := f.m, t } })
def encVSat (op : BitVec 6) (o : VSatBin) : Word32 := encVBin op (0#4 ++ bit1 o.sat) o.o
def decVFma (w : Word32) (mk : VFmaBin → Instr) : Except Illegal Instr :=
  let f := unpackV w
  let t := (vtypeOf f.t).getD .i32
  gate (sub f.fn 2 3 == 0#3) true true ((vtypeOf f.t).isSome && t.isFloat)
    (mk { var := sub f.fn 0 2, o := { vd := f.vd, va := f.va, vb := f.vb, m := f.m, t } })
def encVFma (op : BitVec 6) (o : VFmaBin) : Word32 := encVBin op (0#3 ++ o.var) o.o
def anyType (_ : VType) : Bool := true
def notWideType (t : VType) : Bool := t.elems != 1

def unaOf (c : BitVec 5) : Option UnaKind :=
  match c.toNat with
  | 0 => some .neg
  | 1 => some .abs
  | 2 => some .not
  | 3 => some .mov
  | 4 => some .popc
  | 5 => some .clz
  | _ => none
def unaCode : UnaKind → BitVec 5
  | .neg => 0 | .abs => 1 | .not => 2 | .mov => 3 | .popc => 4 | .clz => 5
def decVuna (w : Word32) : Except Illegal Instr :=
  let f := unpackV w
  let o : VUnaOp := { kind := (unaOf f.fn).getD .neg, vd := f.vd, va := f.va, m := f.m,
                      t := (vtypeOf f.t).getD .i32 }
  gate (unaOf f.fn).isSome (f.vb == 0#5) true ((vtypeOf f.t).isSome && o.wf) (.vuna o)

/-- An elementwise VS word: type in fn[4:2], variant in fn[1:0] (R238). -/
def decVS (varOk : BitVec 2 → Bool) (tyOk : BitVec 2 → VType → Bool) (w : Word32)
    (mk : BitVec 2 → VSBin → Instr) : Except Illegal Instr :=
  let f := unpackVS w
  let t := (vtypeOf (sub f.fn 2 3)).getD .i32
  let var := sub f.fn 0 2
  gate (varOk var) (f.z == 0#1) (srcOk true f.a) ((vtypeOf (sub f.fn 2 3)).isSome && tyOk var t)
    (mk var { t, vd := f.vd, va := f.va, a := srcOf f.a, m := f.m })
def encVS (op : BitVec 6) (var : BitVec 2) (o : VSBin) : Word32 :=
  packVS { op, fn := vtypeCode o.t ++ var, vd := o.vd, va := o.va, a := srcCode o.a, m := o.m, z := 0#1 }
def decVSatS (w : Word32) (mk : VSatS → Instr) : Except Illegal Instr :=
  decVS (fun v => sub v 1 1 == 0#1) (fun v t => !flag1 (sub v 0 1) || t.isInt) w
    (fun v o => mk { sat := flag1 (sub v 0 1), o })
def encVSatS (op : BitVec 6) (o : VSatS) : Word32 := encVS op (0#1 ++ bit1 o.sat) o.o
def decVsubs (w : Word32) : Except Illegal Instr :=
  decVS (fun _ => true) (fun v t => !flag1 (sub v 0 1) || t.isInt) w
    (fun v o => .vsubs { rev := flag1 (sub v 1 1), sat := flag1 (sub v 0 1), o })
def decVfmas (w : Word32) : Except Illegal Instr :=
  decVS (fun _ => true) (fun _ t => t.isFloat) w (fun v o => .vfmas { var := v, o })
def decVSplain (w : Word32) (mk : VSBin → Instr) : Except Illegal Instr :=
  decVS (fun v => v == 0#2) (fun _ _ => true) w (fun _ o => mk o)
def shOf (c : BitVec 2) : Option ShKind :=
  match c.toNat with
  | 0 => some .l
  | 1 => some .r
  | 2 => some .a
  | _ => none
def shCode : ShKind → BitVec 2
  | .l => 0 | .r => 1 | .a => 2
def decVshls (w : Word32) : Except Illegal Instr :=
  decVS (fun v => (shOf v).isSome) (fun _ t => t.isInt) w (fun v o => .vshls { kind := (shOf v).getD .l, o })

def decVbcast (w : Word32) (mk : VBcastOp → Instr) : Except Illegal Instr :=
  let f := unpackVS w
  let lane := flag1 (sub f.fn 0 1)
  gate (sub f.fn 1 4 == 0#4) ((lane || f.va == 0#5) && f.z == 0#1) (srcOk true f.a) true
    (mk { lane, vd := f.vd, va := f.va, a := srcOf f.a, m := f.m })
def encVbcast (op : BitVec 6) (o : VBcastOp) : Word32 :=
  packVS { op, fn := 0#4 ++ bit1 o.lane, vd := o.vd, va := o.va, a := srcCode o.a, m := o.m, z := 0#1 }

def vcondOf (c : BitVec 5) : Option VCond :=
  match c.toNat with
  | 0 => some .eq
  | 1 => some .ne
  | 2 => some .lt
  | 3 => some .le
  | 4 => some .un
  | _ => none
def vcondCode : VCond → BitVec 5
  | .eq => 0 | .ne => 1 | .lt => 2 | .le => 3 | .un => 4 | .gt => 7
/-- VCMP and VCMPS; the condition un with an integer type is cause TYPE (R240; log 12). -/
def decVcmp (w : Word32) (mk : VCmpOp → Instr) : Except Illegal Instr :=
  let f := unpackV w
  let o : VCmpOp := { cond := (vcondOf f.fn).getD .eq, md := sub f.vd 0 3, va := f.va, vb := f.vb, m := f.m,
                      t := (vtypeOf f.t).getD .i32 }
  gate (vcondOf f.fn).isSome (sub f.vd 3 2 == 0#2) true ((vtypeOf f.t).isSome && o.wf) (mk o)
def encVcmp (op : BitVec 6) (o : VCmpOp) : Word32 :=
  packV { op, fn := vcondCode o.cond, vd := 0#2 ++ o.md, va := o.va, vb := o.vb, m := o.m, t := vtypeCode o.t }
def vcondSOf (c : BitVec 2) : VCond :=
  match c.toNat with
  | 0 => .eq
  | 1 => .lt
  | 2 => .le
  | _ => .gt
def vcondSCode : VCond → BitVec 2
  | .eq => 0 | .lt => 1 | .le => 2 | _ => 3
def decVcmps (w : Word32) : Except Illegal Instr :=
  let f := unpackVS w
  let o : VCmpSOp := { t := (vtypeOf (sub f.fn 2 3)).getD .i32, cond := vcondSOf (sub f.fn 0 2),
                       md := sub f.vd 0 3, va := f.va, a := srcOf f.a, m := f.m }
  gate true (sub f.vd 3 2 == 0#2 && f.z == 0#1) (srcOk true f.a) ((vtypeOf (sub f.fn 2 3)).isSome && o.wf)
    (.vcmps o)
def decVsel (w : Word32) (mk : VSelOp → Instr) : Except Illegal Instr :=
  let f := unpackV w
  gate (sub f.fn 3 2 == 0#2) true true (vtypeOf f.t).isSome
    (mk { sel := sub f.fn 0 3, vd := f.vd, va := f.va, vb := f.vb, m := f.m, t := (vtypeOf f.t).getD .i32 })
def encVsel (op : BitVec 6) (o : VSelOp) : Word32 :=
  packV { op, fn := 0#2 ++ o.sel, vd := o.vd, va := o.va, vb := o.vb, m := o.m, t := vtypeCode o.t }
def decVmlog (w : Word32) : Except Illegal Instr :=
  let f := unpackV w
  gate (sub f.fn 4 1 == 0#1)
    (sub f.vd 3 2 == 0#2 && sub f.va 3 2 == 0#2 && sub f.vb 3 2 == 0#2 && f.t == 0#3) true true
    (.vmlog { tt := sub f.fn 0 4, md := sub f.vd 0 3, ma := sub f.va 0 3, mb := sub f.vb 0 3, m := f.m })
/-- VCVT and WCVT: a pairing that R243 does not list is cause TYPE; the selector's and vb's own causes come first. -/
def decVcvt (w : Word32) (mk : VCvtOp → Instr) : Except Illegal Instr :=
  let f := unpackV w
  let o : VCvtOp := { dt := (vtypeOf (sub f.fn 0 3)).getD .i32, e := sub f.fn 3 2, vd := f.vd, va := f.va,
                      vb := f.vb, m := f.m, t := (vtypeOf f.t).getD .i32 }
  let pairOk := (vtypeOf (sub f.fn 0 3)).isSome && (vtypeOf f.t).isSome && cvtOk o.t o.dt 0 true
  gate (!pairOk || cvtOk o.t o.dt o.e true) (!pairOk || cvtOk o.t o.dt o.e (o.vb == 0#5)) true pairOk (mk o)
def encVcvt (op : BitVec 6) (o : VCvtOp) : Word32 :=
  packV { op, fn := o.e ++ vtypeCode o.dt, vd := o.vd, va := o.va, vb := o.vb, m := o.m, t := vtypeCode o.t }
def specOf (c : BitVec 5) : Option SpecKind :=
  match c.toNat with
  | 0 => some .sqrt
  | 1 => some .rcp
  | 2 => some .rsqrt
  | 3 => some .exp2
  | 4 => some .log2
  | _ => none
def specCode : SpecKind → BitVec 5
  | .sqrt => 0 | .rcp => 1 | .rsqrt => 2 | .exp2 => 3 | .log2 => 4
def decVspec (w : Word32) : Except Illegal Instr :=
  let f := unpackV w
  gate (specOf f.fn).isSome (f.vb == 0#5) true (f.t == 2#3)
    (.vspec { kind := (specOf f.fn).getD .sqrt, vd := f.vd, va := f.va, m := f.m })
def redOf (c : BitVec 5) : Option RedKind :=
  match c.toNat with
  | 0 => some .add
  | 1 => some .max
  | 2 => some .min
  | 3 => some .and
  | 4 => some .or
  | 5 => some .xor
  | _ => none
def redCode : RedKind → BitVec 5
  | .add => 0 | .max => 1 | .min => 2 | .and => 3 | .or => 4 | .xor => 5
def decVred (w : Word32) : Except Illegal Instr :=
  let f := unpackV w
  let o : VRedOp := { kind := (redOf f.fn).getD .add, kd := sub f.vd 0 3, va := f.va, m := f.m,
                      t := (vtypeOf f.t).getD .i32 }
  gate (redOf f.fn).isSome (sub f.vd 3 2 == 0#2 && f.vb == 0#5) true ((vtypeOf f.t).isSome && o.wf) (.vred o)
def decVkset (w : Word32) : Except Illegal Instr :=
  let f := unpackVS w
  let kd := sub f.vd 0 3
  let kOk := sub f.vd 3 2 == 0#2 && f.z == 0#1
  let ma := sub f.va 0 3
  let mOk := sub f.va 3 2 == 0#2
  match f.fn.toNat with
  | 0 => gate true (kOk && f.va == 0#5 && f.m == 0#3) (srcOk true f.a) true (.vkset (.s kd (srcOf f.a)))
  | 1 => gate true (kOk && mOk && f.a == 0#7 && f.m == 0#3) true true (.vkset (.lo kd ma))
  | 2 => gate true (kOk && mOk && f.a == 0#7 && f.m == 0#3) true true (.vkset (.hi kd ma))
  | 3 => gate true (kOk && f.m == 0#3) (srcOk true f.a) true (.vkset (.lane kd f.va (srcOf f.a)))
  | 4 => gate true (kOk && mOk && f.a == 0#7) true true (.vkset (.pop kd ma f.m))
  | _ => .error .function
def encVkset : VKsetOp → Word32
  | .s kd a => packVS { op := 0x1F, fn := 0, vd := 0#2 ++ kd, va := 0, a := srcCode a, m := 0, z := 0 }
  | .lo kd ma => packVS { op := 0x1F, fn := 1, vd := 0#2 ++ kd, va := 0#2 ++ ma, a := 0, m := 0, z := 0 }
  | .hi kd ma => packVS { op := 0x1F, fn := 2, vd := 0#2 ++ kd, va := 0#2 ++ ma, a := 0, m := 0, z := 0 }
  | .lane kd va a => packVS { op := 0x1F, fn := 3, vd := 0#2 ++ kd, va, a := srcCode a, m := 0, z := 0 }
  | .pop kd ma m => packVS { op := 0x1F, fn := 4, vd := 0#2 ++ kd, va := 0#2 ++ ma, a := 0, m, z := 0 }
def decVmem (w : Word32) (mk : VMemOp → Instr) : Except Illegal Instr :=
  let f := unpackVS w
  gate (f.fn == 0#5) (f.va == 0#5 && f.z == 0#1) (srcOk true f.a) true (mk { vd := f.vd, a := srcOf f.a, m := f.m })
def encVmem (op : BitVec 6) (o : VMemOp) : Word32 :=
  packVS { op, fn := 0, vd := o.vd, va := 0, a := srcCode o.a, m := o.m, z := 0 }
def decVidx (w : Word32) (mk : VIdxOp → Instr) : Except Illegal Instr :=
  let f := unpackVS w
  let x := flag1 (sub f.fn 0 1)
  gate (sub f.fn 1 4 == 0#4) ((x || f.va == 0#5) && f.z == 0#1) (srcOk true f.a) true
    (mk { x, vd := f.vd, va := f.va, a := srcOf f.a, m := f.m })
def encVidx (op : BitVec 6) (hi : BitVec 4) (o : VIdxOp) : Word32 :=
  packVS { op, fn := hi ++ bit1 o.x, vd := o.vd, va := o.va, a := srcCode o.a, m := o.m, z := 0 }
def decVgath (w : Word32) (mk : VGathOp → Instr) : Except Illegal Instr :=
  let f := unpackVS w
  gate (sub f.fn 2 3 == 0#3) (f.z == 0#1) (srcOk true f.a) true
    (mk { sc := sub f.fn 0 2, vd := f.vd, va := f.va, a := srcOf f.a, m := f.m })
def encVgath (op : BitVec 6) (o : VGathOp) : Word32 :=
  packVS { op, fn := 0#3 ++ o.sc, vd := o.vd, va := o.va, a := srcCode o.a, m := o.m, z := 0 }
def accModeOf (c : BitVec 2) : AccMode :=
  match c.toNat with
  | 0 => .f32
  | 1 => .mlo
  | 2 => .mhi
  | _ => .e
def accModeCode : AccMode → BitVec 2
  | .f32 => 0 | .mlo => 1 | .mhi => 2 | .e => 3
def decVacc (w : Word32) (mk : VAccOp → Instr) : Except Illegal Instr :=
  let f := unpackVS w
  gate true (f.va == 0#5 && f.z == 0#1) (srcOk true f.a) true
    (mk { mode := accModeOf (sub f.fn 3 2), tile := sub f.fn 0 3, vd := f.vd, a := srcOf f.a, m := f.m })
def encVacc (op : BitVec 6) (o : VAccOp) : Word32 :=
  packVS { op, fn := accModeCode o.mode ++ o.tile, vd := o.vd, va := 0, a := srcCode o.a, m := o.m, z := 0 }
def blkOf (c : BitVec 2) : Option BlkFmt :=
  match c.toNat with
  | 1 => some .b8
  | 2 => some .b16
  | 3 => some .n4x
  | _ => none
def blkCode : BlkFmt → BitVec 2
  | .b8 => 1 | .b16 => 2 | .n4x => 3
def decVqnt (w : Word32) (mk : VQntOp → Instr) : Except Illegal Instr :=
  let f := unpackVS w
  let o : VQntOp := { fmt := (blkOf (sub f.fn 0 2)).getD .b8, t32 := flag1 (sub f.fn 2 1), kd := sub f.vd 0 3,
                      va := f.va, a := srcOf f.a }
  gate ((blkOf (sub f.fn 0 2)).isSome && sub f.fn 3 2 == 0#2)
    (sub f.vd 3 2 == 0#2 && f.m == 0#3 && f.z == 0#1 && o.wf) (srcOk true f.a) true (mk o)
def encVqnt (op : BitVec 6) (o : VQntOp) : Word32 :=
  packVS { op, fn := 0#2 ++ bit1 o.t32 ++ blkCode o.fmt, vd := 0#2 ++ o.kd, va := o.va, a := srcCode o.a, m := 0,
           z := 0 }
def decVdqnt (w : Word32) : Except Illegal Instr :=
  let f := unpackVS w
  let b := flag1 (sub f.fn 0 1)
  let o : VDqntOp := { base := if b then some (sub f.va 0 3) else none, t32 := flag1 (sub f.fn 1 1), vd := f.vd,
                       a := srcOf f.a }
  gate (sub f.fn 2 3 == 0#3) (sub f.va 3 2 == 0#2 && (b || f.va == 0#5) && f.m == 0#3 && f.z == 0#1 && o.wf)
    (srcOk true f.a) true (.vdqnt o)
def encVdqnt (o : VDqntOp) : Word32 :=
  packVS { op := 0x2B, fn := 0#3 ++ bit1 o.t32 ++ bit1 o.base.isSome, vd := o.vd, va := 0#2 ++ o.base.getD 0,
           a := srcCode o.a, m := 0, z := 0 }
def decVflg (w : Word32) : Except Illegal Instr :=
  let f := unpackVS w
  let z := f.va == 0#5 && f.m == 0#3 && f.z == 0#1
  match f.fn.toNat with
  | 0 => gate true (z && sub f.vd 3 2 == 0#2 && f.a == 0#7) true true (.vflg (.rd (sub f.vd 0 3)))
  | 1 => gate true (z && f.vd == 0#5) (srcOk true f.a) true (.vflg (.clr (srcOf f.a)))
  | 2 => gate true (z && f.vd == 0#5) (srcOk true f.a) true (.vflg (.sat (srcOf f.a)))
  | _ => .error .function
def encVflg : VFlgOp → Word32
  | .rd kd => packVS { op := 0x2D, fn := 0, vd := 0#2 ++ kd, va := 0, a := 0, m := 0, z := 0 }
  | .clr a => packVS { op := 0x2D, fn := 1, vd := 0, va := 0, a := srcCode a, m := 0, z := 0 }
  | .sat a => packVS { op := 0x2D, fn := 2, vd := 0, va := 0, a := srcCode a, m := 0, z := 0 }
def decVsig (w : Word32) : Except Illegal Instr :=
  let f := unpackVS w
  let z := f.va == 0#5 && f.m == 0#3 && f.z == 0#1
  match f.fn.toNat with
  | 0 => gate true (z && sub f.vd 3 2 == 0#2 && f.a == 0#7) true true (.vsig (.rd (sub f.vd 0 3)))
  | 1 => gate true (z && f.vd == 0#5) (srcOk true f.a) true (.vsig (.set (srcOf f.a)))
  | _ => .error .function
def encVsig : VSigOp → Word32
  | .rd kd => packVS { op := 0x2E, fn := 0, vd := 0#2 ++ kd, va := 0, a := 0, m := 0, z := 0 }
  | .set a => packVS { op := 0x2E, fn := 1, vd := 0, va := 0, a := srcCode a, m := 0, z := 0 }
def laneKindOf (c : BitVec 2) : LaneKind :=
  match c.toNat with
  | 0 => .lane
  | 1 => .rank
  | 2 => .count
  | _ => .glob
def laneKindCode : LaneKind → BitVec 2
  | .lane => 0 | .rank => 1 | .count => 2 | .glob => 3
def decVlane (w : Word32) : Except Illegal Instr :=
  let f := unpackV w
  gate (sub f.fn 2 3 == 0#3) (f.va == 0#5 && f.vb == 0#5 && f.t == 0#3) true true
    (.vlane { kind := laneKindOf (sub f.fn 0 2), vd := f.vd, m := f.m })
def amoOf (c : BitVec 3) : AmoKind :=
  match c.toNat with
  | 0 => .add
  | 1 => .and
  | 2 => .or
  | 3 => .xor
  | 4 => .min
  | 5 => .max
  | 6 => .xch
  | _ => .fadd
def amoCode : AmoKind → BitVec 3
  | .add => 0 | .and => 1 | .or => 2 | .xor => 3 | .min => 4 | .max => 5 | .xch => 6 | .fadd => 7
def decVamo (w : Word32) : Except Illegal Instr :=
  let f := unpackVS w
  let x := flag1 (sub f.fn 0 1)
  let k := amoOf (sub f.fn 1 3)
  let sgn := flag1 (sub f.fn 4 1)
  gate (!sgn || k == .min || k == .max) ((x || f.va == 0#5) && f.z == 0#1) (srcOk true f.a) true
    (.vamo { kind := k, sgn, o := { x, vd := f.vd, va := f.va, a := srcOf f.a, m := f.m } })

/-- The V map of a sequencer core (R175). -/
def decodeV (w : Word32) : Except Illegal Instr :=
  match (opOf w).toNat with
  | 0x00 => decVSat anyType w .vadd
  | 0x01 => decVSat anyType w .vsub
  | 0x02 => decVSat anyType w .vmul
  | 0x03 => decVBin VType.isInt w .vmulh
  | 0x04 => decVFma w .vfma
  | 0x05 => decVBin VType.isFloat w .vdiv
  | 0x06 => decVBin anyType w .vmin
  | 0x07 => decVBin anyType w .vmax
  | 0x08 => decVBin anyType w .vand
  | 0x09 => decVBin anyType w .vor
  | 0x0A => decVBin anyType w .vxor
  | 0x0B => decVBin VType.isInt w .vshl
  | 0x0C => decVBin VType.isInt w .vshr
  | 0x0D => decVBin VType.isInt w .vsar
  | 0x0E => decVuna w
  | 0x0F => decVSat notWideType w .vqadd
  | 0x10 => decVSatS w .vadds
  | 0x11 => decVsubs w
  | 0x12 => decVSatS w .vmuls
  | 0x13 => decVfmas w
  | 0x14 => decVSplain w .vmins
  | 0x15 => decVSplain w .vmaxs
  | 0x16 => decVshls w
  | 0x17 => decVbcast w .vbcast
  | 0x18 => decVcmp w .vcmp
  | 0x19 => decVcmps w
  | 0x1A => decVsel w .vsel
  | 0x1B => decVmlog w
  | 0x1C => decVcvt w .vcvt
  | 0x1D => decVspec w
  | 0x1E => decVred w
  | 0x1F => decVkset w
  | 0x20 => decVmem w .vld
  | 0x21 => decVmem w .vst
  | 0x22 => decVidx w .vldl
  | 0x23 => decVidx w .vstl
  | 0x24 => decVgath w .vgath
  | 0x25 => decVgath w .vscat
  | 0x26 => decVmem w .vldc
  | 0x27 => decVmem w .vstc
  | 0x28 => decVacc w .vard
  | 0x29 => decVacc w .vawr
  | 0x2A => decVqnt w .vqnt
  | 0x2B => decVdqnt w
  | 0x2C => decVqnt w .vbscl
  | 0x2D => decVflg w
  | 0x2E => decVsig w
  | 0x2F => decVlane w
  | 0x30 => decVidx w .vldf
  | 0x31 => decVidx w .vstf
  | 0x32 => decVamo w
  | _ => .error .opcode

/-! ### The X map (R176, R262, R266) -/

def decNtw (w : Word32) (himm : BitVec 16) : Except Illegal Instr :=
  let f := unpackX w
  let i := flag1 (sub f.fn 0 1)
  gate (sub f.fn 1 4 == 0#4)
    (f.ac == 0#3 && sub f.sel 6 3 == 0#3 && (if i then f.a == 0#7 else sub f.sel 4 2 == 0#2))
    (i || srcOk true f.a) true
    (.ntw (if i then .imm f.n (sub f.sel 0 4) (sub f.sel 4 2) himm else .word f.n (sub f.sel 0 4) (srcOf f.a)))
def encNtw : NtwOp → Word32
  | .word n w a => packX { op := 0, fn := 0, n, ac := 0, sel := 0#5 ++ w, a := srcCode a }
  | .imm n w h _ => packX { op := 0, fn := 1, n, ac := 0, sel := 0#3 ++ h ++ w, a := 0 }
def decNtrd (w : Word32) : Except Illegal Instr :=
  let f := unpackX w
  gate (sub f.fn 1 4 == 0#4)
    ((sub f.sel 0 5).toNat ≤ 16 && f.ac == 0#3 && sub f.sel 5 1 == 0#1 && f.a == 0#7) true true
    (.ntrd { act := flag1 (sub f.fn 0 1), n := f.n, w := sub f.sel 0 5, kd := sub f.sel 6 3 })
def decMgo (w : Word32) : Except Illegal Instr :=
  let f := unpackX w
  gate (f.fn == 0#5) (f.ac == 0#3 && f.sel == 0#9 && f.a == 0#7) true true (.mgo f.n)
def decMwait (w : Word32) : Except Illegal Instr :=
  let f := unpackX w
  let all := flag1 (sub f.fn 0 1)
  gate (sub f.fn 1 4 == 0#4) (f.ac == 0#3 && f.sel == 0#9 && f.a == 0#7 && (!all || f.n == 0#2)) true true
    (.mwait (if all then none else some f.n))
def encMwait : Option (BitVec 2) → Word32
  | none => packX { op := 3, fn := 1, n := 0, ac := 0, sel := 0, a := 0 }
  | some n => packX { op := 3, fn := 0, n, ac := 0, sel := 0, a := 0 }
def decMprec (w : Word32) : Except Illegal Instr :=
  let f := unpackX w
  let o : MprecOp := { n := f.n, fa := (blkOf (sub f.fn 0 2)).getD .b8, fb := (blkOf (sub f.fn 2 2)).getD .b8,
                       t32 := flag1 (sub f.fn 4 1) }
  gate ((blkOf (sub f.fn 0 2)).isSome && (blkOf (sub f.fn 2 2)).isSome && o.wf)
    (f.ac == 0#3 && f.sel == 0#9 && f.a == 0#7) true true (.mprec o)
/-- The fn field of MPREC, which is also the PREC word (R266). -/
def mprecFn (o : MprecOp) : BitVec 5 := bit1 o.t32 ++ blkCode o.fb ++ blkCode o.fa
def decAzero (w : Word32) : Except Illegal Instr :=
  let f := unpackX w
  gate (f.fn == 0#5) (f.n == 0#2 && f.sel == 0#9 && f.a == 0#7) true true (.azero f.ac)
def decAload (w : Word32) : Except Illegal Instr :=
  let f := unpackX w
  gate (sub f.fn 1 4 == 0#4) (f.n == 0#2 && f.sel == 0#9) (srcOk true f.a) true
    (.aload { f32 := flag1 (sub f.fn 0 1), tile := f.ac, a := srcOf f.a })
def accFmtOf (c : BitVec 3) : Option AccFmt :=
  match c.toNat with
  | 0 => some .raw
  | 1 => some .f32
  | 2 => some .bf16
  | 3 => some .f16
  | _ => none
def accFmtCode : AccFmt → BitVec 3
  | .raw => 0 | .f32 => 1 | .bf16 => 2 | .f16 => 3
def decAstore (w : Word32) : Except Illegal Instr :=
  let f := unpackX w
  let b := flag1 (sub f.fn 3 1)
  let o : AstoreOp := { fmt := (accFmtOf (sub f.fn 0 3)).getD .raw,
                        base := if b then some (sub f.sel 6 3) else none, tile := f.ac, a := srcOf f.a }
  gate ((accFmtOf (sub f.fn 0 3)).isSome && sub f.fn 4 1 == 0#1 && o.wf)
    (f.n == 0#2 && sub f.sel 0 6 == 0#6 && (b || sub f.sel 6 3 == 0#3)) (srcOk true f.a) true (.astore o)
def encAstore (o : AstoreOp) : Word32 :=
  packX { op := 0x0A, fn := 0#1 ++ bit1 o.base.isSome ++ accFmtCode o.fmt, n := 0, ac := o.tile,
          sel := o.base.getD 0 ++ 0#6, a := srcCode o.a }
def decAexp (w : Word32) : Except Illegal Instr :=
  let f := unpackX w
  let r := flag1 (sub f.fn 0 1)
  gate (sub f.fn 1 4 == 0#4) (f.n == 0#2 && sub f.sel 5 4 == 0#4 && (r || sub f.sel 0 5 == 0#5)) (srcOk true f.a)
    true (.aexp { row := if r then some (sub f.sel 0 5) else none, tile := f.ac, a := srcOf f.a })
def encAexp (o : AexpOp) : Word32 :=
  packX { op := 0x0B, fn := 0#4 ++ bit1 o.row.isSome, n := 0, ac := o.tile, sel := 0#4 ++ o.row.getD 0,
          a := srcCode o.a }
def decArenorm (w : Word32) : Except Illegal Instr :=
  let f := unpackX w
  gate (sub f.fn 1 4 == 0#4) (f.n == 0#2 && f.sel == 0#9) (srcOk true f.a) true
    (.arenorm { h := flag1 (sub f.fn 0 1), tile := f.ac, a := srcOf f.a })
def decAccRd (w : Word32) (mk : AccRdOp → Instr) : Except Illegal Instr :=
  let f := unpackX w
  let all := flag1 (sub f.fn 0 1)
  gate (sub f.fn 1 4 == 0#4) (f.n == 0#2 && sub f.sel 5 1 == 0#1 && (!all || sub f.sel 0 5 == 0#5) && f.a == 0#7)
    true true (mk { row := if all then none else some (sub f.sel 0 5), kd := sub f.sel 6 3, tile := f.ac })
def encAccRd (op : BitVec 6) (o : AccRdOp) : Word32 :=
  packX { op, fn := 0#4 ++ bit1 o.row.isNone, n := 0, ac := o.tile, sel := o.kd ++ 0#1 ++ o.row.getD 0, a := 0 }
def decAres (w : Word32) : Except Illegal Instr :=
  let f := unpackX w
  let clr := flag1 (sub f.fn 0 1)
  gate (sub f.fn 1 4 == 0#4)
    (f.n == 0#2 && f.ac == 0#3 && sub f.sel 2 4 == 0#4 && (!clr || sub f.sel 6 3 == 0#3) && f.a == 0#7) true true
    (.ares { kd := if clr then none else some (sub f.sel 6 3), q := sub f.sel 0 2 })
def encAres (o : AresOp) : Word32 :=
  packX { op := 0x0F, fn := 0#4 ++ bit1 o.kd.isNone, n := 0, ac := 0, sel := o.kd.getD 0 ++ 0#4 ++ o.q, a := 0 }

/-- The X map of a sequencer core (R176). -/
def decodeX (w : Word32) (himm : BitVec 16) : Except Illegal Instr :=
  match (opOf w).toNat with
  | 0x00 => decNtw w himm
  | 0x01 => decNtrd w
  | 0x02 => decMgo w
  | 0x03 => decMwait w
  | 0x04 => decMprec w
  | 0x08 => decAzero w
  | 0x09 => decAload w
  | 0x0A => decAstore w
  | 0x0B => decAexp w
  | 0x0C => decArenorm w
  | 0x0D => decAccRd w .ahead
  | 0x0E => decAccRd w .aevt
  | 0x0F => decAres w
  | _ => .error .opcode

/-! ### The P map (R177, R257, R259, R307, R333) -/

def decPtld (w : Word32) : Except Illegal Instr :=
  let f := unpackP w
  gate (sub f.fn 3 2 == 0#2) (f.k == 0#3 && f.rt == 0#2 && f.sz == 0#2 && f.b == 0#7) (srcOk true f.a) true
    (.ptld (sub f.fn 0 3) (srcOf f.a))
def decPerm (w : Word32) : Except Illegal Instr :=
  let f := unpackP w
  gate (sub f.fn 3 2 == 0#2) (f.k == 0#3 && f.rt == 0#2 && f.b == 0#7) (srcOk true f.a) true
    (.perm (sub f.fn 0 3) f.sz (srcOf f.a))
def decPermD (w : Word32) (mk : PermOp → Instr) : Except Illegal Instr :=
  let f := unpackP w
  gate (f.fn == 0#5) (f.k == 0#3 && f.rt == 0#2) (srcOk true f.a && srcOk true f.b) true
    (mk { sz := f.sz, a := srcOf f.a, b := srcOf f.b })
def encPermD (op : BitVec 6) (o : PermOp) : Word32 :=
  packP { op, fn := 0, k := 0, rt := 0, sz := o.sz, a := srcCode o.a, b := srcCode o.b }
def redClassOf (c : BitVec 2) : Option RedClass :=
  match c.toNat with
  | 0 => some .s
  | 1 => some .z
  | 2 => some .f
  | _ => none
def redClassCode : RedClass → BitVec 2
  | .s => 0 | .z => 1 | .f => 2
def decRred (w : Word32) : Except Illegal Instr :=
  let f := unpackP w
  let kind := redOf (0#2 ++ sub f.fn 2 3)
  let cls := redClassOf (sub f.fn 0 2)
  let o : RredOp := { kind := kind.getD .add, cls := cls.getD .s, big := flag1 (sub f.sz 0 1), k := f.k, rt := f.rt }
  gate (kind.isSome && cls.isSome && o.wf) (sub f.sz 1 1 == 0#1 && f.a == 0#7 && f.b == 0#7) true true (.rred o)
def encRred (o : RredOp) : Word32 :=
  packP { op := 5, fn := sub (redCode o.kind) 0 3 ++ redClassCode o.cls, k := o.k, rt := o.rt,
          sz := 0#1 ++ bit1 o.big, a := 0, b := 0 }
def decRsync (w : Word32) : Except Illegal Instr :=
  let f := unpackP w
  gate (f.fn == 0#5) (f.k == 0#3 && f.sz == 0#2 && f.a == 0#7 && f.b == 0#7) true true (.rsync f.rt)
def decSigchk (w : Word32) : Except Illegal Instr :=
  let f := unpackP w
  gate (sub f.fn 2 3 == 0#3) (f.k == 0#3 && f.sz == 0#2 && f.a == 0#7 && f.b == 0#7) true true
    (.sigchk { t := flag1 (sub f.fn 0 1), clr := flag1 (sub f.fn 1 1), rt := f.rt })

/-- The P map of a sequencer core (R177). -/
def decodeP (w : Word32) : Except Illegal Instr :=
  match (opOf w).toNat with
  | 0x00 => decPtld w
  | 0x01 => decPerm w
  | 0x02 => decPermD w .pshr
  | 0x03 => decPermD w .pxch
  | 0x04 => decPermD w .pbcd
  | 0x05 => decRred w
  | 0x06 => decRsync w
  | 0x07 => decSigchk w
  | _ => .error .opcode

/-! ### The C map (R178, R291, R357) -/

def decXlate (w : Word32) : Except Illegal Instr :=
  let f := unpackXT w
  gate true true (srcOk true f.a) true (.xlate { x := f.x, tid := f.tid, a := srcOf f.a, cnt := f.cnt })
/-- The engine field: any value on a die, zero on a cellar core (R357). -/
def engOk (cellar : Bool) (f : FormC) : Bool := (!cellar || f.e == 0#1) && f.z == 0#3
def decTcopy (cellar modes : Bool) (w : Word32) (mk : Bool → TcopyOp → Instr) : Except Illegal Instr :=
  let f := unpackC w
  gate (sub f.fn 1 4 == 0#4 && (modes || sub f.fn 0 1 == 0#1)) (engOk cellar f) (srcOk true f.a && srcOk true f.b)
    true (mk (flag1 (sub f.fn 0 1)) { x := f.x, e := flag1 f.e, a := srcOf f.a, b := srcOf f.b })
def encTcopy (op : BitVec 6) (planes : Bool) (o : TcopyOp) : Word32 :=
  packC { op, fn := 0#4 ++ bit1 planes, x := o.x, e := bit1 o.e, z := 0, a := srcCode o.a, b := srcCode o.b }
def decFcopy (cellar : Bool) (w : Word32) (mk : FcopyOp → Instr) : Except Illegal Instr :=
  let f := unpackC w
  gate (sub f.fn 4 1 == 0#1 && sub f.fn 1 3 != 7#3) (engOk cellar f && f.x == 0#3)
    (srcOk true f.a && srcOk true f.b) true
    (mk { out := flag1 (sub f.fn 0 1), z := sub f.fn 1 3, e := flag1 f.e, a := srcOf f.a, b := srcOf f.b })
def encFcopy (op : BitVec 6) (o : FcopyOp) : Word32 :=
  packC { op, fn := 0#1 ++ o.z ++ bit1 o.out, x := 0, e := bit1 o.e, z := 0, a := srcCode o.a, b := srcCode o.b }
/-- CWAIT; on a cellar core fn[1] is a reserved fn bit, hence cause FUNCTION (R181, R357). -/
def decCwait (cellar : Bool) (w : Word32) : Except Illegal Instr :=
  let f := unpackC w
  let all := flag1 (sub f.fn 0 1)
  let s := flag1 (sub f.fn 1 1)
  gate (sub f.fn 2 3 == 0#3 && (!cellar || !s))
    (engOk cellar f && f.x == 0#3 && f.a == 0#7 && f.b == 0#7 && (!all || f.e == 0#1)) true true
    (.cwait { all, s, e := flag1 f.e })
def decTown (w : Word32) : Except Illegal Instr :=
  let f := unpackC w
  gate (sub f.fn 1 4 == 0#4) (f.x == 0#3 && f.e == 0#1 && f.z == 0#3 && f.b == 0#7) (srcOk true f.a) true
    (if flag1 (sub f.fn 0 1) then .townE (srcOf f.a) else .townP (srcOf f.a))
def encTown (e : Bool) (a : Src) : Word32 :=
  packC { op := 6, fn := 0#4 ++ bit1 e, x := 0, e := 0, z := 0, a := srcCode a, b := 0 }
def decCbinit (w : Word32) : Except Illegal Instr :=
  let f := unpackC w
  gate true (f.x == 0#3 && f.e == 0#1 && f.z == 0#3) (srcOk true f.a && srcOk true f.b) true
    (.cbinit { cb := sub f.fn 0 3, wp := flag1 (sub f.fn 3 1), rp := flag1 (sub f.fn 4 1), a := srcOf f.a,
               b := srcOf f.b })
def decCbEng (cellar modes : Bool) (w : Word32) (mk : Bool → CbEngOp → Instr) : Except Illegal Instr :=
  let f := unpackC w
  gate (sub f.fn 4 1 == 0#1 && (modes || sub f.fn 3 1 == 0#1)) (engOk cellar f && f.a == 0#7) (srcOk true f.b) true
    (mk (flag1 (sub f.fn 3 1)) { cb := sub f.fn 0 3, x := f.x, e := flag1 f.e, b := srcOf f.b })
def encCbEng (op : BitVec 6) (planes : Bool) (o : CbEngOp) : Word32 :=
  packC { op, fn := 0#1 ++ bit1 planes ++ o.cb, x := o.x, e := bit1 o.e, z := 0, a := 0, b := srcCode o.b }
def decCbProg (w : Word32) (mk : CbProgOp → Instr) : Except Illegal Instr :=
  let f := unpackC w
  gate (sub f.fn 4 1 == 0#1) (f.x == 0#3 && f.e == 0#1 && f.z == 0#3 && f.a == 0#7 && f.b == 0#7) true true
    (mk { cb := sub f.fn 0 3, r := flag1 (sub f.fn 3 1) })
def encCbProg (op : BitVec 6) (o : CbProgOp) : Word32 :=
  packC { op, fn := 0#1 ++ bit1 o.r ++ o.cb, x := 0, e := 0, z := 0, a := 0, b := 0 }
def decBank (w : Word32) (mk : BankOp → Instr) : Except Illegal Instr :=
  let f := unpackC w
  gate (f.fn == 0#5) (f.x == 0#3 && f.e == 0#1 && f.z == 0#3) (srcOk true f.a && srcOk true f.b) true
    (mk { a := srcOf f.a, b := srcOf f.b })
def encBank (op : BitVec 6) (o : BankOp) : Word32 :=
  packC { op, fn := 0, x := 0, e := 0, z := 0, a := srcCode o.a, b := srcCode o.b }
/-- An entry that is cause OPCODE on a cellar core (R178). -/
def seqOnly (cellar : Bool) (r : Except Illegal Instr) : Except Illegal Instr :=
  if cellar then .error .opcode else r

/-- The C map (R178). -/
def decodeC (cellar : Bool) (w : Word32) : Except Illegal Instr :=
  match (opOf w).toNat with
  | 0x00 => decXlate w
  | 0x01 => decTcopy cellar true w .tcin
  | 0x02 => decTcopy cellar false w (fun _ o => .tcout o)
  | 0x03 => seqOnly cellar (decFcopy cellar w .hcopy)
  | 0x04 => decFcopy cellar w .lcopy
  | 0x05 => decCwait cellar w
  | 0x06 => seqOnly cellar (decTown w)
  | 0x08 => decCbinit w
  | 0x09 => decCbEng cellar true w .cbwr
  | 0x0A => decCbEng cellar false w (fun _ o => .cbrd o)
  | 0x0B => decCbProg w .cbtake
  | 0x0C => decCbProg w .cbgive
  | 0x0D => seqOnly cellar (decBank w .bankacq)
  | 0x0E => seqOnly cellar (decBank w .bankrel)
  | _ => .error .opcode

/-! ### The cellar vector map (R179, R341 to R345) -/

def decWmem (w : Word32) (mk : WMemOp → Instr) : Except Illegal Instr :=
  let f := unpackVS w
  let x := flag1 (sub f.fn 1 1)
  gate (sub f.fn 2 3 == 0#3) ((x || f.va == 0#5) && f.z == 0#1) (srcOk true f.a) true
    (mk { flat := flag1 (sub f.fn 0 1), x, vd := f.vd, va := f.va, a := srcOf f.a, m := f.m })
def encWmem (op : BitVec 6) (o : WMemOp) : Word32 :=
  packVS { op, fn := 0#3 ++ bit1 o.x ++ bit1 o.flat, vd := o.vd, va := o.va, a := srcCode o.a, m := o.m, z := 0 }
def decWred (w : Word32) : Except Illegal Instr :=
  let f := unpackV w
  let o : WRedOp := { kind := (redOf f.fn).getD .add, vd := f.vd, va := f.va, m := f.m,
                      t := (vtypeOf f.t).getD .i32 }
  gate (redOf f.fn).isSome (f.vb == 0#5) true ((vtypeOf f.t).isSome && o.wf) (.wred o)

/-- The vector map of a cellar core (R179). -/
def decodeCV (w : Word32) : Except Illegal Instr :=
  match (opOf w).toNat with
  | 0x00 => decVSat anyType w .wadd
  | 0x01 => decVSat anyType w .wsub
  | 0x02 => decVSat anyType w .wmul
  | 0x03 => decVFma w .wfma
  | 0x04 => decVBin anyType w .wmin
  | 0x05 => decVBin anyType w .wmax
  | 0x06 => decVBin anyType w .wand
  | 0x07 => decVBin anyType w .wor
  | 0x08 => decVBin anyType w .wxor
  | 0x09 => decVcmp w .wcmp
  | 0x0A => decVsel w .wsel
  | 0x0B => decVcvt w .wcvt
  | 0x0C => decWmem w .wld
  | 0x0D => decWmem w .wst
  | 0x0E => decWred w
  | 0x0F => decVbcast w .wbcast
  | _ => .error .opcode

/-! ### The near-memory map (R180, R346) -/

def decNm (variant : Bool) (w : Word32) (mk : NmOp → Instr) : Except Illegal Instr :=
  let f := unpackRR w
  gate (sub f.fn 1 4 == 0#4 && (variant || sub f.fn 0 1 == 0#1)) (f.b == 0#7) (srcOk true f.a) true
    (mk { v := flag1 (sub f.fn 0 1), d := f.d, nw := flag1 f.nw, a := srcOf f.a })
def encNm (op : BitVec 6) (o : NmOp) : Word32 :=
  packRR { op, fn := 0#4 ++ bit1 o.v, d := o.d, nw := bit1 o.nw, a := srcCode o.a, b := 0 }
def decNqst (w : Word32) : Except Illegal Instr :=
  let f := unpackRR w
  gate (sub f.fn 1 4 == 0#4) (f.a == 0#7 && f.b == 0#7) true true
    (.nqst { acq := flag1 (sub f.fn 0 1), d := f.d, nw := flag1 f.nw })

/-- The near-memory map of a cellar core (R180). -/
def decodeNM (w : Word32) : Except Illegal Instr :=
  match (opOf w).toNat with
  | 0x00 => decNm true w .nired
  | 0x01 => decNm false w .ngath
  | 0x02 => decNm true w .nscat
  | 0x03 => decNm true w .nmrow
  | 0x04 => decNm false w .nstrm
  | 0x05 => decNqst w
  | 0x06 => decNm true w .nwait
  | _ => .error .opcode

/-! ### A slot word of a core, and the encoder -/

/-- The word of a slot, on a sequencer or a cellar core, with its bundle's head immediate. -/
def decodeSlot (cellar : Bool) (sl : Slot) (w : Word32) (himm : BitVec 16) : Except Illegal Instr :=
  match sl with
  | .s0 | .s1 => decodeS w himm
  | .m => decodeM cellar w
  | .b => decodeB cellar w
  | .v => if cellar then decodeCV w else decodeV w
  | .x => if cellar then decodeNM w else decodeX w himm
  | .p => if cellar then .error .opcode else decodeP w
  | .c => decodeC cellar w

/-- The word of a map, read on the core that the map serves. -/
def decodeMap (mp : OpMap) (w : Word32) (himm : BitVec 16) : Except Illegal Instr :=
  match mp with
  | .s => decodeS w himm
  | .m => decodeM false w
  | .b => decodeB false w
  | .v => decodeV w
  | .x => decodeX w himm
  | .p => decodeP w
  | .c => decodeC false w
  | .cv => decodeCV w
  | .nm => decodeNM w

/-- Opcodes that consume the head immediate (R165): LIH in an S slot, NTW in a sequencer's X slot. -/
def consumesHead (cellar : Bool) (sl : Slot) (w : Word32) : Bool :=
  match sl with
  | .s0 | .s1 => opOf w == 0x17#6
  | .x => !cellar && opOf w == 0x00#6
  | _ => false

/-- The capture field of a slot word (R168): the scalar source of a VS word, or field a of another form that has one.
An unassigned opcode of the cellar vector map is taken to have the V form, which has none (log 12). -/
def captureField (cellar : Bool) (sl : Slot) (w : Word32) : Option (BitVec 7) :=
  let op := (opOf w).toNat
  match sl with
  | .v =>
    if cellar then
      if op == 0x0C || op == 0x0D || op == 0x0F then some (unpackVS w).a else none
    else if op < 0x10 || op == 0x18 || (0x1A ≤ op && op ≤ 0x1E) || op == 0x2F then none
    else some (unpackVS w).a
  | .x => some (if cellar then (unpackRR w).a else (unpackX w).a)
  | .p => some (unpackP w).a
  | .c => some (if op == 0 then (unpackXT w).a else (unpackC w).a)
  | _ => none

/-- The head immediate an instruction carries. -/
def headImm : Instr → BitVec 16
  | .lih o => o.himm
  | .ntw (.imm _ _ _ h) => h
  | _ => 0#16

/-- The slot word of an instruction; an event has none and gives 0. -/
def encode : Instr → Word32
  | .add o => encInt 0x00 o
  | .sub o => encInt 0x01 o
  | .mul o => encInt 0x02 o
  | .mulh o => encInt 0x03 o
  | .div o => encInt 0x04 o
  | .rem o => encInt 0x05 o
  | .and o => encInt 0x06 o
  | .or o => encInt 0x07 o
  | .xor o => encInt 0x08 o
  | .andn o => encInt 0x09 o
  | .shl o => encInt 0x0A o
  | .shr o => encInt 0x0B o
  | .sar o => encInt 0x0C o
  | .ror o => encInt 0x0D o
  | .min o => encInt 0x0E o
  | .max o => encInt 0x0F o
  | .addi o => encImm 0x10 o
  | .andi o => encImm 0x11 o
  | .ori o => encImm 0x12 o
  | .xori o => encImm 0x13 o
  | .shli o => encShift 0x14 o
  | .shri o => encShift 0x15 o
  | .sari o => encShift 0x16 o
  | .lih o => packRI { op := 0x17, d := o.d, nw := bit1 o.nw, a := srcCode o.a, imm := 0 }
  | .cmp o => packRR { op := 0x18, fn := o.cond ++ o.w, d := 0#2 ++ o.q, nw := bit1 o.nw, a := srcCode o.a,
                       b := srcCode o.b }
  | .cmpi o => packRI { op := 0x19, d := 0#2 ++ o.q, nw := bit1 o.nw, a := srcCode o.a, imm := o.cond ++ o.imm }
  | .plog o => packRR { op := 0x1A, fn := 0#1 ++ o.tt, d := 0#2 ++ o.q, nw := bit1 o.nw, a := srcCode o.a,
                        b := srcCode o.b }
  | .sel o => packRR { op := 0x1B, fn := bit1 o.neg ++ o.q, d := o.d, nw := bit1 o.nw, a := srcCode o.a,
                       b := srcCode o.b }
  | .bext o => encField 0x1C o
  | .bins o => encField 0x1D o
  | .bcnt o => packRR { op := 0x1E, fn := o.w ++ 0#1 ++ countCode o.kind, d := o.d, nw := bit1 o.nw,
                        a := srcCode o.a, b := 0 }
  | .lea o => packRR { op := 0x1F, fn := 0#3 ++ o.sc, d := o.d, nw := bit1 o.nw, a := srcCode o.a, b := srcCode o.b }
  | .fadd o => encFp2 0x20 o
  | .fsub o => encFp2 0x21 o
  | .fmul o => encFp2 0x22 o
  | .fma o => packRR { op := 0x23, fn := 0#2 ++ o.var ++ bit1 o.dbl, d := o.d, nw := bit1 o.nw, a := srcCode o.a,
                       b := srcCode o.b }
  | .fdiv o => encFp2 0x24 o
  | .fsqrt o => encFp1 0x25 o
  | .fmin o => encFp2 0x26 o
  | .fmax o => encFp2 0x27 o
  | .fcmp o => packRR { op := 0x28, fn := 0#1 ++ fcondCode o.cond ++ bit1 o.dbl, d := 0#2 ++ o.q, nw := bit1 o.nw,
                        a := srcCode o.a, b := srcCode o.b }
  | .fclass o => encFp1 0x29 o
  | .fsgn o => packRR { op := 0x2A, fn := 0#2 ++ sgnCode o.kind ++ bit1 o.dbl, d := o.d, nw := bit1 o.nw,
                        a := srcCode o.a, b := srcCode o.b }
  | .cvtif o => packRR { op := 0x2B, fn := 0#1 ++ bit1 o.sgn ++ o.w ++ bit1 o.dbl, d := o.d, nw := bit1 o.nw,
                         a := srcCode o.a, b := 0 }
  | .cvtfi o => packRR { op := 0x2C, fn := bit1 o.rtz ++ bit1 o.sgn ++ o.w ++ bit1 o.dbl, d := o.d,
                         nw := bit1 o.nw, a := srcCode o.a, b := 0 }
  | .cvtff o => encFp1 0x2D o
  | .ld o => encLoad 0x00 o
  | .st o => encStore 0x01 o
  | .lds o => encLoad 0x02 o
  | .sts o => encStore 0x03 o
  | .aadd o => encAtom 0x08 o
  | .aand o => encAtom 0x09 o
  | .aor o => encAtom 0x0A o
  | .axor o => encAtom 0x0B o
  | .amin o => encAtom 0x0C o
  | .amax o => encAtom 0x0D o
  | .axch o => encAtom 0x0E o
  | .acas o => encAtom 0x0F o
  | .afadd o => encFAtom 0x10 o
  | .afmax o => encFAtom 0x11 o
  | .fenceSc sc => encScope 0x18 sc
  | .release sc => encScope 0x19 sc
  | .acquire sc => encScope 0x1A sc
  | .drain => packM { op := 0x1B, q := 0, d := 0, a := 0, imm := 0 }
  | .fset o => encFlagW 0x1C o
  | .ftest o => packM { op := 0x1D, q := 0#1 ++ bit1 o.sgn ++ 2#2, d := o.d, a := srcCode o.a,
                        imm := bit1 o.remote ++ bit1 o.acq ++ 0#2 ++ o.off }
  | .fwait o => packM { op := 0x1E, q := 0#1 ++ bit1 o.sgn ++ 2#2, d := o.d, a := srcCode o.a,
                        imm := bit1 o.remote ++ bit1 o.acq ++ 0#1 ++ bit1 o.eq ++ o.off }
  | .finc o => encFlagW 0x1F o
  | .csrr d n => packM { op := 0x20, q := 3, d, a := 0, imm := n }
  | .csrw n a => encCsrw 0x21 n a
  | .csrs n a => encCsrw 0x22 n a
  | .csrc n a => encCsrw 0x23 n a
  | .dstchk d a b => packMA { op := 0x24, q := 3, d, a := srcCode a, b := srcCode b, z := 0 }
  | .drdchk c d a => packMA { op := 0x25, q := if c then 0 else 3, d, a := srcCode a, b := 0, z := 0 }
  | .cmpt big a b => packMA { op := 0x26, q := 1#3 ++ bit1 big, d := 0, a := srcCode a, b := srcCode b, z := 0 }
  | .br q n an off => packBC { op := 0x00, q, n := bit1 n, an := bit1 an, off }
  | .jmp off => packBJ { op := 0x01, off }
  | .jmpl off => packBJ { op := 0x02, off }
  | .jr a => encJr 0x03 a
  | .jrl d nw a => packRR { op := 0x04, fn := 0, d, nw := bit1 nw, a := srcCode a, b := 0 }
  | .jt len a b => packJT { op := 0x05, len, a := srcCode a, b := srcCode b }
  | .callf sig a => packCF { op := 0x06, sig, a := srcCode a, z := 0 }
  | .ret a => encJr 0x07 a
  | .loop lc len st a => packLP { op := 0x08, lc, len, st, z := 0, a := srcCode a, z2 := 0 }
  | .loopi lc len st cnt => packLPI { op := 0x09, lc, len, st, cnt }
  | .lexit lc => encBare 0x0A (0#3 ++ lc)
  | .rep a => encJr 0x0B a
  | .repi cnt => encCode12 0x0C cnt
  | .trap code => encCode12 0x10 code
  | .eret => encBare 0x11 0
  | .yieldCore => encBare 0x12 0
  | .yieldSched => encBare 0x12 1
  | .launch d nw a => packRR { op := 0x13, fn := 0, d, nw := bit1 nw, a := srcCode a, b := 0 }
  | .halt => encBare 0x14 0
  | .bkpt code => encCode12 0x15 code
  | .vadd o => encVSat 0x00 o
  | .vsub o => encVSat 0x01 o
  | .vmul o => encVSat 0x02 o
  | .vmulh o => encVBin 0x03 0 o
  | .vfma o => encVFma 0x04 o
  | .vdiv o => encVBin 0x05 0 o
  | .vmin o => encVBin 0x06 0 o
  | .vmax o => encVBin 0x07 0 o
  | .vand o => encVBin 0x08 0 o
  | .vor o => encVBin 0x09 0 o
  | .vxor o => encVBin 0x0A 0 o
  | .vshl o => encVBin 0x0B 0 o
  | .vshr o => encVBin 0x0C 0 o
  | .vsar o => encVBin 0x0D 0 o
  | .vuna o => packV { op := 0x0E, fn := unaCode o.kind, vd := o.vd, va := o.va, vb := 0, m := o.m,
                       t := vtypeCode o.t }
  | .vqadd o => encVSat 0x0F o
  | .vadds o => encVSatS 0x10 o
  | .vsubs o => encVS 0x11 (bit1 o.rev ++ bit1 o.sat) o.o
  | .vmuls o => encVSatS 0x12 o
  | .vfmas o => encVS 0x13 o.var o.o
  | .vmins o => encVS 0x14 0 o
  | .vmaxs o => encVS 0x15 0 o
  | .vshls o => encVS 0x16 (shCode o.kind) o.o
  | .vbcast o => encVbcast 0x17 o
  | .vcmp o => encVcmp 0x18 o
  | .vcmps o => packVS { op := 0x19, fn := vtypeCode o.t ++ vcondSCode o.cond, vd := 0#2 ++ o.md, va := o.va,
                         a := srcCode o.a, m := o.m, z := 0 }
  | .vsel o => encVsel 0x1A o
  | .vmlog o => packV { op := 0x1B, fn := 0#1 ++ o.tt, vd := 0#2 ++ o.md, va := 0#2 ++ o.ma, vb := 0#2 ++ o.mb,
                        m := o.m, t := 0 }
  | .vcvt o => encVcvt 0x1C o
  | .vspec o => packV { op := 0x1D, fn := specCode o.kind, vd := o.vd, va := o.va, vb := 0, m := o.m, t := 2 }
  | .vred o => packV { op := 0x1E, fn := redCode o.kind, vd := 0#2 ++ o.kd, va := o.va, vb := 0, m := o.m,
                       t := vtypeCode o.t }
  | .vkset o => encVkset o
  | .vld o => encVmem 0x20 o
  | .vst o => encVmem 0x21 o
  | .vldl o => encVidx 0x22 0 o
  | .vstl o => encVidx 0x23 0 o
  | .vgath o => encVgath 0x24 o
  | .vscat o => encVgath 0x25 o
  | .vldc o => encVmem 0x26 o
  | .vstc o => encVmem 0x27 o
  | .vard o => encVacc 0x28 o
  | .vawr o => encVacc 0x29 o
  | .vqnt o => encVqnt 0x2A o
  | .vdqnt o => encVdqnt o
  | .vbscl o => encVqnt 0x2C o
  | .vflg o => encVflg o
  | .vsig o => encVsig o
  | .vlane o => packV { op := 0x2F, fn := 0#3 ++ laneKindCode o.kind, vd := o.vd, va := 0, vb := 0, m := o.m, t := 0 }
  | .vldf o => encVidx 0x30 0 o
  | .vstf o => encVidx 0x31 0 o
  | .vamo o => encVidx 0x32 (bit1 o.sgn ++ amoCode o.kind) o.o
  | .ntw o => encNtw o
  | .ntrd o => packX { op := 0x01, fn := 0#4 ++ bit1 o.act, n := o.n, ac := 0, sel := o.kd ++ 0#1 ++ o.w, a := 0 }
  | .mgo n => packX { op := 0x02, fn := 0, n, ac := 0, sel := 0, a := 0 }
  | .mwait n => encMwait n
  | .mprec o => packX { op := 0x04, fn := mprecFn o, n := o.n, ac := 0, sel := 0, a := 0 }
  | .azero t => packX { op := 0x08, fn := 0, n := 0, ac := t, sel := 0, a := 0 }
  | .aload o => packX { op := 0x09, fn := 0#4 ++ bit1 o.f32, n := 0, ac := o.tile, sel := 0, a := srcCode o.a }
  | .astore o => encAstore o
  | .aexp o => encAexp o
  | .arenorm o => packX { op := 0x0C, fn := 0#4 ++ bit1 o.h, n := 0, ac := o.tile, sel := 0, a := srcCode o.a }
  | .ahead o => encAccRd 0x0D o
  | .aevt o => encAccRd 0x0E o
  | .ares o => encAres o
  | .ptld pt a => packP { op := 0, fn := 0#2 ++ pt, k := 0, rt := 0, sz := 0, a := srcCode a, b := 0 }
  | .perm pt sz a => packP { op := 1, fn := 0#2 ++ pt, k := 0, rt := 0, sz, a := srcCode a, b := 0 }
  | .pshr o => encPermD 2 o
  | .pxch o => encPermD 3 o
  | .pbcd o => encPermD 4 o
  | .rred o => encRred o
  | .rsync rt => packP { op := 6, fn := 0, k := 0, rt, sz := 0, a := 0, b := 0 }
  | .sigchk o => packP { op := 7, fn := 0#3 ++ bit1 o.clr ++ bit1 o.t, k := 0, rt := o.rt, sz := 0, a := 0, b := 0 }
  | .xlate o => packXT { op := 0, x := o.x, tid := o.tid, a := srcCode o.a, cnt := o.cnt }
  | .tcin planes o => encTcopy 0x01 planes o
  | .tcout o => encTcopy 0x02 false o
  | .hcopy o => encFcopy 0x03 o
  | .lcopy o => encFcopy 0x04 o
  | .cwait o => packC { op := 0x05, fn := 0#3 ++ bit1 o.s ++ bit1 o.all, x := 0, e := bit1 o.e, z := 0, a := 0, b := 0 }
  | .townP a => encTown false a
  | .townE a => encTown true a
  | .cbinit o => packC { op := 0x08, fn := bit1 o.rp ++ bit1 o.wp ++ o.cb, x := 0, e := 0, z := 0, a := srcCode o.a,
                         b := srcCode o.b }
  | .cbwr planes o => encCbEng 0x09 planes o
  | .cbrd o => encCbEng 0x0A false o
  | .cbtake o => encCbProg 0x0B o
  | .cbgive o => encCbProg 0x0C o
  | .bankacq o => encBank 0x0D o
  | .bankrel o => encBank 0x0E o
  | .wadd o => encVSat 0x00 o
  | .wsub o => encVSat 0x01 o
  | .wmul o => encVSat 0x02 o
  | .wfma o => encVFma 0x03 o
  | .wmin o => encVBin 0x04 0 o
  | .wmax o => encVBin 0x05 0 o
  | .wand o => encVBin 0x06 0 o
  | .wor o => encVBin 0x07 0 o
  | .wxor o => encVBin 0x08 0 o
  | .wcmp o => encVcmp 0x09 o
  | .wsel o => encVsel 0x0A o
  | .wcvt o => encVcvt 0x0B o
  | .wld o => encWmem 0x0C o
  | .wst o => encWmem 0x0D o
  | .wred o => packV { op := 0x0E, fn := redCode o.kind, vd := o.vd, va := o.va, vb := 0, m := o.m,
                       t := vtypeCode o.t }
  | .wbcast o => encVbcast 0x0F o
  | .nired o => encNm 0x00 o
  | .ngath o => encNm 0x01 o
  | .nscat o => encNm 0x02 o
  | .nmrow o => encNm 0x03 o
  | .nstrm o => encNm 0x04 o
  | .nqst o => packRR { op := 0x05, fn := 0#4 ++ bit1 o.acq, d := o.d, nw := bit1 o.nw, a := 0, b := 0 }
  | .nwait o => encNm 0x06 o
  | _ => 0#32

/-- The maps in the mask order of R162, those of a sequencer core first. -/
def mapOrder : List OpMap := [.s, .m, .b, .v, .x, .p, .c, .cv, .nm]

/-- The first map of a list in which a word is an instruction, its head immediate 0. -/
def decodeFirst (w : Word32) : List OpMap → Option Instr
  | [] => none
  | mp :: rest =>
    match decodeMap mp w 0#16 with
    | .ok i => some i
    | .error _ => decodeFirst w rest

/-- The instruction of a table word. The maps of R172 to R180 share the 6-bit opcodes, and a word alone does not say
which slot holds it: the maps are tried in `mapOrder` (log 13). -/
def decodeTableWord (nbits w : Nat) : Option Instr :=
  if nbits ≤ 32 ∧ w < 2 ^ 32 then decodeFirst (BitVec.ofNat 32 w) mapOrder else none

end Sys2Proof
end

