-- ==== Sys2Proof/Machine/Parity.lean ====
section
/-! DEFINITION. Parity of registers, queues and buffers, and the codes of the I-cache and the loop buffer: the cells that a
bundle or a packet reads, and those that it writes anew (R381, R398). -/

namespace Sys2Proof

/-! ### Registers that a slot operation reads and writes besides s and q -/

/-- Vector registers, masks, condition registers, accumulator tiles, nest-table words, x registers and permutation tables that an
instruction reads; a register is read whole (log 43). -/
structure RegUse where
  vecs : List (BitVec 5) := []
  masks : List (BitVec 3) := []
  ks : List (BitVec 3) := []
  accs : List (BitVec 3) := []
  words : List Nat := []
  xs : List (BitVec 3) := []
  pts : List (BitVec 3) := []
  deriving DecidableEq, Repr

/-- A vector register that is read where a bit says so. -/
def vecIf (b : Bool) (v : BitVec 5) : List (BitVec 5) := if b then [v] else []
/-- The registers of a group from `v` on that holds a tile of side 16 or 32 (R286, R287). -/
def vecGroup (t32 : Bool) (v : BitVec 5) : List (BitVec 5) := (List.range (if t32 then 8 else 2)).map (fun i => v + BitVec.ofNat 5 i)
/-- The words of nest table `n`. -/
def tableRange (n : BitVec 2) : List Nat := (List.range 17).map (n.toNat * 32 + ·)

def Instr.uses : Instr → RegUse
  | .vadd o | .vsub o | .vmul o | .vqadd o | .wadd o | .wsub o | .wmul o => { vecs := [o.o.va, o.o.vb], masks := [o.o.m] }
  | .vmulh o | .vdiv o | .vmin o | .vmax o | .vand o | .vor o | .vxor o | .vshl o | .vshr o | .vsar o
  | .wmin o | .wmax o | .wand o | .wor o | .wxor o => { vecs := [o.va, o.vb], masks := [o.m] }
  | .vfma o | .wfma o => { vecs := [o.o.va, o.o.vb, o.o.vd], masks := [o.o.m] }
  | .vuna o => { vecs := [o.va], masks := [o.m] }
  | .vadds o | .vmuls o => { vecs := [o.o.va], masks := [o.o.m] }
  | .vsubs o => { vecs := [o.o.va], masks := [o.o.m] }
  | .vfmas o => { vecs := [o.o.va, o.o.vd], masks := [o.o.m] }
  | .vmins o | .vmaxs o => { vecs := [o.va], masks := [o.m] }
  | .vshls o => { vecs := [o.o.va], masks := [o.o.m] }
  | .vbcast o | .wbcast o => { vecs := vecIf o.lane o.va, masks := [o.m] }
  | .vcmp o | .wcmp o => { vecs := [o.va, o.vb], masks := [o.m] }
  | .vcmps o => { vecs := [o.va], masks := [o.m] }
  | .vsel o | .wsel o => { vecs := [o.va, o.vb], masks := [o.sel, o.m] }
  | .vmlog o => { masks := [o.ma, o.mb, o.m] }
  | .vcvt o | .wcvt o => { vecs := [o.va, o.vb], masks := [o.m] }
  | .vspec o => { vecs := [o.va], masks := [o.m] }
  | .vred o => { vecs := [o.va], masks := [o.m] }
  | .wred o => { vecs := [o.va], masks := [o.m] }
  | .vkset (.lo _ ma) | .vkset (.hi _ ma) => { masks := [ma] }
  | .vkset (.lane _ va _) => { vecs := [va] }
  | .vkset (.pop _ ma m) => { masks := [ma, m] }
  | .vld o | .vldc o => { masks := [o.m] }
  | .vst o | .vstc o => { vecs := [o.vd], masks := [o.m] }
  | .vldl o | .vldf o => { vecs := vecIf o.x o.va, masks := [o.m] }
  | .vstl o | .vstf o => { vecs := o.vd :: vecIf o.x o.va, masks := [o.m] }
  | .vamo o => { vecs := o.o.vd :: vecIf o.o.x o.o.va, masks := [o.o.m] }
  | .vgath o => { vecs := [o.va], masks := [o.m] }
  | .vscat o => { vecs := [o.va, o.vd], masks := [o.m] }
  | .wld o => { vecs := vecIf o.x o.va, masks := [o.m] }
  | .wst o => { vecs := o.vd :: vecIf o.x o.va, masks := [o.m] }
  | .vard o => { masks := [o.m], accs := [o.tile] }
  | .vawr o => { vecs := [o.vd], masks := [o.m], accs := [o.tile] }
  | .vqnt o => { vecs := vecGroup o.t32 o.va, ks := [o.kd] }
  | .vbscl o => { vecs := vecGroup o.t32 o.va }
  | .vdqnt o => { ks := o.base.toList }
  | .vlane o => { masks := [o.m] }
  | .ntrd o => { words := [(o.n.toNat + if o.act then 4 else 0) * 32 + o.w.toNat] }
  | .mgo n => { words := tableRange n }
  | .astore o => { accs := [o.tile], ks := o.base.toList }
  | .aexp o => { accs := [o.tile] }
  | .arenorm o => { accs := [o.tile] }
  | .ahead o | .aevt o => { accs := [o.tile] }
  | .rred o => { ks := [o.k] }
  | .perm pt _ _ => { pts := [pt] }
  | .tcin _ o => { xs := [o.x] }
  | .tcout o => { xs := [o.x] }
  | .cbwr _ o => { xs := [o.x] }
  | .cbrd o => { xs := [o.x] }
  | _ => {}

/-- The destination register and lane mask of an instruction that writes lanes of a vector register, and of one that writes
lanes of a mask. -/
def Instr.vecDest : Instr → Option (BitVec 5 × BitVec 3)
  | .vadd o | .vsub o | .vmul o | .vqadd o | .wadd o | .wsub o | .wmul o => some (o.o.vd, o.o.m)
  | .vmulh o | .vdiv o | .vmin o | .vmax o | .vand o | .vor o | .vxor o | .vshl o | .vshr o | .vsar o
  | .wmin o | .wmax o | .wand o | .wor o | .wxor o => some (o.vd, o.m)
  | .vfma o | .wfma o => some (o.o.vd, o.o.m)
  | .vuna o => some (o.vd, o.m)
  | .vadds o | .vmuls o => some (o.o.vd, o.o.m)
  | .vsubs o => some (o.o.vd, o.o.m)
  | .vfmas o => some (o.o.vd, o.o.m)
  | .vmins o | .vmaxs o => some (o.vd, o.m)
  | .vshls o => some (o.o.vd, o.o.m)
  | .vbcast o | .wbcast o => some (o.vd, o.m)
  | .vsel o | .wsel o => some (o.vd, o.m)
  | .vcvt o | .wcvt o => some (o.vd, o.m)
  | .vspec o => some (o.vd, o.m)
  | .wred o => some (o.vd, o.m)
  | .vld o | .vldc o => some (o.vd, o.m)
  | .vldl o | .vldf o => some (o.vd, o.m)
  | .vamo o => some (o.o.vd, o.o.m)
  | .vgath o => some (o.vd, o.m)
  | .wld o => some (o.vd, o.m)
  | .vard o => some (o.vd, o.m)
  | .vlane o => some (o.vd, o.m)
  | _ => none
def Instr.maskDest : Instr → Option (BitVec 3 × BitVec 3)
  | .vcmp o | .wcmp o => some (o.md, o.m)
  | .vcmps o => some (o.md, o.m)
  | .vmlog o => some (o.md, o.m)
  | _ => none

end Sys2Proof

namespace Sys2Proof.Machine

/-- Whether an instruction reads entry `n` of one of these files. -/
def readsFile (i : Instr) (f : PFile) (n : Nat) : Bool :=
  match f with
  | .vec => i.uses.vecs.any (·.toNat == n)
  | .mask => n != 0 && i.uses.masks.any (·.toNat == n)
  | .k => i.uses.ks.any (·.toNat == n)
  | .acc => i.uses.accs.any (·.toNat == n)
  | .table => i.uses.words.contains n
  | .x => i.uses.xs.any (·.toNat == n)
  | .pt => i.uses.pts.any (·.toNat == n)
  | _ => false
/-- Whether it writes the whole of it: the lanes of a mask m0, a condition register, a tile, a word, a run. -/
def writesFile (i : Instr) (f : PFile) (n : Nat) : Bool :=
  match f, i with
  | .vec, .vdqnt o => (vecGroup o.t32 o.vd).any (·.toNat == n)
  | .vec, i => (match i.vecDest with | some d => d.1.toNat == n && d.2 == 0 | none => false)
  | .mask, i => (match i.maskDest with | some d => d.1.toNat == n && d.2 == 0 | none => false)
  | .k, i => (match i.dest with | some (.k d) => d.toNat == n | _ => false)
  | .acc, .azero t => t.toNat == n
  | .acc, .aload o => o.tile.toNat == n
  | .table, .ntw (.word t w _) => t.toNat * 32 + w.toNat == n
  | .table, .mprec o => o.n.toNat * 32 + 16 == n
  | .table, .mgo t => n / 32 == t.toNat + 4
  | .x, .xlate o => o.x.toNat == n
  | .pt, .ptld pt _ => pt.toNat == n
  | _, _ => false

/-! ### Bundles and packets -/

/-- Whether a source field of an operation names the hold register. -/
def readsHold (i : Instr) : Bool := i.srcs.contains .held

/-- The 8-byte words of code that hold a bundle of `k` words at an address, and the first word of its line, which says where
bundles start (R159). -/
def bundleWords (a k wk : Nat) : Bool := (a / 8 ≤ wk && wk ≤ (a + 4 * k - 1) / 8) || wk == a / 64 * 8
/-- The cells that a bundle at N0 reads as it issues: its words, its predicate, and when it executes what its slot operations
on the core name. On a sequencer core the wide slots read scalar sources only; their other registers are the dies'. -/
def Ctx.bundleCells (x : Ctx) (c : CoreId) (pred : BitVec 4) (runs : Bool) (is : List (Slot × Instr)) : Cell → Bool
  | .icache k wk | .loopBuf k wk => k == c.padIdx && bundleWords x.n0.toNat (1 + is.length) wk
  | .code wk => bundleWords x.n0.toNat (1 + is.length) wk
  | .file (.core d) f n => d == c && (match f with
    | .q => n != 0 && (pred.toNat == n || (runs && is.any (fun e => e.2.qregs.any (·.toNat == n))))
    | .s => runs && n != 0 && is.any (fun e => e.2.sregs.any (·.toNat == n))
    | .latch => runs && is.any (fun e => e.2.latches.contains n)
    | .hold => runs && is.any (fun e => holdIdx e.1 == n && readsHold e.2)
    | .rt => runs && is.any (fun e => e.2.readsRt == some n)
    | .snapshot => runs && is.any (fun e => match e.2 with | .eret => true | _ => false)
    | f => runs && c.isCellar && is.any (fun e => readsFile e.2 f n))
  | _ => false

/-- The cells that a die context reads for a packet: its queue entry, and what the slot operations name. -/
def packetCells (d : DieId) (no : Nat) (w : List (Slot × Instr)) : Cell → Bool
  | .file (.die e) f n => e == d && (match f with
    | .packets => n == no
    | .hold => w.any (fun e => holdIdx e.1 == n && readsHold e.2)
    | f => w.any (fun e => readsFile e.2 f n))
  | _ => false

/-- Latches as a bundle issues: l0 to l3 hold what was delivered, l4 to l7 the old l0 to l3 (R167). -/
def shiftLatch (c : CoreId) (e : Cell × Byte) : Option (Cell × Byte) :=
  match e.1 with
  | .file (.core d) .latch n => if d = c then (if n < 4 then some (.file (.core c) .latch (n + 4), e.2) else none) else some e
  | _ => some e
def State.shiftLatchCells (s : State) (c : CoreId) : State :=
  if s.flaws.isEmpty then s else { s with flaws := s.flaws.filterMap (shiftLatch c) }

/-- The registers that a result writes whole as it is delivered. -/
def Deliver.writes : Deliver → PFile → Nat → Bool
  | .s d _, .s, n => d.toNat == n
  | .q d _, .q, n => d.toNat == n
  | .w d lanes _, .vec, n => d.toNat == n && lanes == BitVec.allOnes 16
  | .m d lanes _, .mask, n => d.toNat == n && lanes == BitVec.allOnes 16
  | _, _, _ => false
/-- Cells that deliveries to a context write anew. -/
def deliverCells (c : CoreId) (l : List Deliver) : Cell → Bool
  | .file (.core d) f n => d == c && l.any (fun o => o.writes f n)
  | _ => false
/-- What a bundle's end writes anew: results that land, hold registers captured, the stage predicates of a loop that a LOOP opens
or that passes its END (R226, R227). -/
def Ctx.endCells (x : Ctx) (c : CoreId) : Cell → Bool
  | .file (.core d) .hold n => d == c && (Table.find? x.captures n).isSome
  | .file (.core d) .q n => d == c && ((x.inflight.any (fun f => f.due ≤ x.stepNo && f.out.writes .q n))
      || x.loops.any (fun l => 0 < l.2.st && l.2.stop == x.n0 && 8 ≤ n && n ≤ 8 + l.2.st))
  | e => deliverCells c ((x.inflight.filter (fun f => f.due ≤ x.stepNo)).map (·.out)) e
/-- What a die context writes anew as it retires a packet. -/
def retireCells (d : DieId) (p : Packet) (w : List (Slot × Instr)) : Cell → Bool
  | .file (.die e) f n => e == d && (match f with
    | .packets => n == p.no
    | .hold => n < 4 && p.hold.getLsbD (3 - n)
    | f => w.any (fun e => writesFile e.2 f n))
  | _ => false

end Sys2Proof.Machine
end

