-- ==== Sys2Proof/Machine/Issue.lean ====
section
/-! DEFINITION. BUNDLE_ISSUE: one issue step of a core context: fetch, checks, the packet, the latches, and what the
bundle leaves at its end: results, the chain, loops and repeats (R59 to R61, R154, R159 to R189, R217 to R232). -/

namespace Sys2Proof.Machine

/-! ### Loops at the end of a step (R227 to R230) -/

/-- The chain refilled at a loop's START (R227). -/
def Ctx.refill (x : Ctx) (nx : Word → Word) (l : Loop) : Ctx :=
  let e1 := nx l.stop
  let e2 := nx e1
  let e3 := nx e2
  if x.n0 = e1 then
    if x.n1 = e2 then
      if x.n2 = e3 then { x with n0 := l.start, n1 := nx l.start, n2 := nx (nx l.start) }
      else { x with n0 := l.start, n1 := nx l.start }
    else { x with n0 := l.start }
  else x

/-- A counter's loop no longer active. -/
def Ctx.endLoop (x : Ctx) (k : Nat) : Ctx :=
  { x with loops := Table.erase x.loops k, order := x.order.filter (· != k) }

/-- Predicate q(8+j) as the loop engine sets it. -/
def Ctx.setStage (x : Ctx) (j : Nat) (v : Bool) : Ctx := { x with preds := Table.set false x.preds (8 + j) v }
/-- q(8+st) .. q9 take q(7+st) .. q8 (R227). -/
def Ctx.shiftStages (x : Ctx) (st : Nat) : Ctx :=
  (List.range st).foldl (fun (y : Ctx) i => y.setStage (i + 1) (Table.get false x.preds (8 + i))) x
/-- q8 := 1 and q9 .. q(8+st) := 0 (R226). -/
def Ctx.openStages (x : Ctx) (st : Nat) : Ctx :=
  if st = 0 then x else (List.range st).foldl (fun (y : Ctx) i => y.setStage (i + 1) false) (x.setStage 0 true)

/-- The stop of a context that a drain has brought to a loop boundary: every latch resumes as 0 (R167, R392). `mid`: the loop
goes on when the context resumes (R229). -/
def Ctx.drainStop (x : Ctx) (mid : Bool) : Ctx := { x with run := .drained mid, latches := [], delivered := [] }
/-- Resumption of a loop that a drain stopped: one with stages is refilled, its first stage open (R229). -/
def Ctx.refillDrained (x : Ctx) : Ctx :=
  match x.run, x.order with
  | .drained true, k :: _ =>
    match Table.find? x.loops k with
    | some l =>
      let c : Word := Table.get 0 x.lc k
      if l.st = 0 || c = 0 then x else Ctx.openStages { x with lc := Table.set 0 x.lc k (c - 1) } l.st
    | none => x
  | _, _ => x

/-- The iteration boundary of loop `k` (R227); the Bool says that it deactivated. A drain request holds q8 at 0 at the
boundaries of the innermost loop (`held`), and stops the context when that loop ends or, for st = 0, at once (R229). A
target that a taken transfer has placed in the chain stays there when the context stops (log 21). -/
def Ctx.boundary (x : Ctx) (nx : Word → Word) (k : Nat) (l : Loop) (held : Bool) : Ctx × Bool :=
  let c : Word := Table.get 0 x.lc k
  let dec (y : Ctx) : Ctx := { y with lc := Table.set 0 y.lc k (c - 1) }
  if l.exitPending then
    let y := x.endLoop k
    (if held then y.drainStop false else y, true)
  else if l.st = 0 then
    if c = 0 then
      let y := x.endLoop k
      (if held then y.drainStop false else y, true)
    else
      let y := (dec x).refill nx l
      (if held then y.drainStop true else y, false)
  else
    let y := x.shiftStages l.st
    let y := if c != 0 && !held then (dec y).setStage 0 true else y.setStage 0 false
    if (List.range (l.st + 1)).any (fun j => Table.get false y.preds (8 + j)) then (y.refill nx l, false)
    else if held && c != 0 then
      -- drained before its count ran out, lc intact: it resumes at START (R229)
      ((y.refill nx l).drainStop true, false)
    else
      let y := y.endLoop k
      (if held then y.drainStop false else y, true)

/-- The boundaries at an END, innermost first: the next loop's only when the inner one deactivated (R228). -/
def Ctx.boundaries (x : Ctx) (nx : Word → Word) (p : Word) (held : Bool) : List Nat → Ctx
  | [] => x
  | k :: rest =>
    match Table.find? x.loops k with
    | none => x.boundaries nx p held rest
    | some l =>
      if l.stop != p then x.boundaries nx p false rest
      else
        let (y, ended) := x.boundary nx k l held
        if ended then y.boundaries nx p false rest else y

/-- Whether a drain request acts at the boundaries of a context's loops: it waits while the stream is frozen (R229, R392). -/
def Ctx.drains (x : Ctx) : Bool := x.drain.isSome && x.frozenAt.isNone

/-- The effects of the bundle at N0 on the chain, in the order of R217; a chain that is set is not annulled (R226; log 39). -/
def Ctx.advance (x : Ctx) (nx : Word → Word) : Ctx :=
  let p := x.n0
  match x.rep with
  | some r =>
    if 1 < r.left then { x with rep := some { r with left := r.left - 1 } } else
    let y := { x with rep := none, n0 := x.n1, n1 := x.n2, n2 := nx x.n2, mark0 := x.mark1, mark1 := false }
    y.boundaries nx p y.drains y.order
  | none =>
    let y := { x with n0 := x.n1, n1 := x.n2, n2 := nx x.n2, mark0 := x.mark1, mark1 := false }
    let y := y.boundaries nx p y.drains y.order
    let y := { y with delay := y.delay - 1, transfer := .none }
    match x.transfer with
    | .none => y
    | .eret _ _ _ => y
    | .to t => { y with n2 := t, delay := 2 }
    | .annul => { y with mark0 := true, mark1 := true }
    | .chain a b c => { y with n0 := a, n1 := b, n2 := c, mark0 := false, mark1 := false }
    | .rep 0 => { y with mark0 := true }
    | .rep n => { y with rep := some { left := n, addr := y.n0 } }

/-- Whether a drain request can stop a context between issue steps at once (R375, R392). -/
def Ctx.canDrain (x : Ctx) : Bool :=
  x.drains && x.loops.isEmpty && !x.handler && !x.stopped && !x.stepStop
    && (match x.run with
        | .ready | .blocked _ | .service _ _ _ _ => true
        | _ => false)

/-- A context stopped between issue steps for its drain request; the core goes on without it. One that awaits a fault's
service raises it again when it resumes (R375, R380). -/
def State.drainNow (s : State) (c : CoreId) : State :=
  let s := s.updCtx c (fun x => { x with run := .drained false })
  if (s.coreRec c).running = some c.num then s.leaveCore c else s
/-- A context whose drain request had to wait, and need no longer, is stopped where it is (R375). -/
def State.settleDrain (s : State) (c : CoreId) : State := if (s.ctx c).canDrain then s.drainNow c else s

/-- Whether a context's freeze is resolved: its notice is out, or its handler runs (R388). -/
def Ctx.resolved (x : Ctx) : Bool := x.notice.isSome || (x.handler && x.trap.kind == 2)
/-- Where a stream freezes for what engines and nests of its dies have raised: the lowest number. -/
def State.engineFreeze (s : State) (c : CoreId) : Option Nat :=
  ((s.ctx c).dieIds.filterMap (fun d => (s.dctx d).engFault.map (·.no))).foldl
    (fun m n => some (match m with | some k => min k n | none => n)) none

/-- Replay, which waits for RESUME while a debugger's stop holds the context, since that sends no packet (R450). The faults of packets are cleared, and each die executes what it has not retired; no new packet leaves before
the last number sent has been retired (R389). A parity error of the reissue buffer ends the task (R398). A die at a barrier stays there, its
V and X slots acted (R156, log 39). A fault of an engine operation or a nest does not recur, and freezes the
stream again. -/
def State.startReplay (s : State) (c : CoreId) : State :=
  let buffer (e : Cell) : Bool := match e with | .file (.core d) .reissue _ => d == c | _ => false
  if (s.ctx c).stopped || (s.ctx c).stepStop then s.updCtx c (fun x => { x with replayDue := true })
  else if s.cellUE buffer then
    (s.acting c none (·.noteCells .data buffer)).abort (s.taskId c) ((s.ctx c).ending 0 .ue 0)
  else
  let s := (s.ctx c).dieIds.foldl (fun (s : State) d => s.updDctx d (fun y => { y with fault := none })) s
  (s.updCtx c (fun x =>
    { x with replayDue := false, frozenAt := s.engineFreeze c, freezeOver := false, replayTo := match x.sent.getLast? with | some p => p.no | none => 0 })).settleDrain c

/-- The slot operations of a packet, decoded as the sequencer has checked them (R184). -/
def packetWork (p : Packet) : List (Slot × Instr) :=
  let one (sl : Slot) (w : Option Word32) : List (Slot × Instr) :=
    match w with
    | none => []
    | some w => match decodeSlot false sl w p.himm with
      | .ok i => [(sl, i)]
      | .error _ => []
  one .v p.v ++ one .x p.x ++ one .p p.p ++ one .c p.c

/-- A packet leaves (R51, R115): reductions are awaited (R260), and a CWAIT.s blocks the context after its bundle
until the dies' reports (R299). -/
def Ctx.sendPacket (x : Ctx) (p : Packet) (is : List Instr) : Ctx :=
  let reports := is.any (fun i => match i with | .cwait o => o.s | _ => false)
  { x with
    sent := x.sent ++ [p], instNo := x.instNo + 1, diePres := x.diePres ||| x.dieMask, outgoing := none,
    rtWait := (is.filterMap Instr.rtDest).foldl (fun m r => Table.insert m r (Table.get 0 m r + 1)) x.rtWait,
    awaited := if reports then some p.no else x.awaited,
    run := if reports && x.run == .ready then .blocked (.reports p.no) else x.run }

/-- The packet of a bundle whose slots have acted leaves. -/
def Ctx.sendOut (x : Ctx) : Ctx :=
  match x.outgoing with
  | some p => x.sendPacket p ((packetWork p).map Prod.snd)
  | none => x

/-- What a Merlet bundle changes at the end of its step: its results are due at once, and its transfer redirects the next
bundle (R191). -/
def Ctx.portableEnd (x : Ctx) (target : Word → Word) (nx : Word → Word) : Ctx :=
  { x with
    inflight := x.inflight.map (fun (f : Flight) => { f with due := min f.due x.stepNo }),
    transfer := match x.transfer with
      | .to t => .chain (target t) (nx (target t)) (nx (nx (target t)))
      | t => t }

/-- The end of a bundle's issue step: its packet leaves, results land, holds are captured, the chain advances, and the
context gives up the core if the bundle says so (R51, R167, R168, R186, R217, R329, R299). A result for q8 to q15 lands
before the loop engine shifts the stages at the same step, and after LOOP has set them (R226, R227, log 39). -/
def State.finishBundle (s : State) (c : CoreId) : State :=
  let s := s.updCtx c Ctx.sendOut
  let x := s.ctx c
  let s := s.mend (x.endCells c)
  if x.run = .halted then (s.updCtx c (fun x => { x with stepStop := x.dbgEn.getLsbD 1 })).leaveCore c else
  let ver := (s.launchOf c).codeVer
  let k := x.stepNo
  let x := if s.portable ver x.n0 then x.portableEnd (s.codeTarget ver x.n0) (s.nextOf ver) else x
  let x : Ctx := ({ x with delivered := [] } : Ctx).landDue k
  let x : Ctx := { x with
    stepNo := k + 1, captures := [],
    holds := x.captures.foldl (fun (h : PMap Word) (e : Nat × Word) => Table.set 0 h e.1 e.2) x.holds,
    stepStop := x.dbgEn.getLsbD 1 }
  let back := x.transfer
  let x := x.advance (s.nextOf ver)
  let (x, eret) := match back with
    | .eret a b c => (x.leaveHandler a b c, true)
    | _ => (x, false)
  let s := s.setCtx c x
  let s := if eret && x.trap.kind = 2 && x.frozenAt.isSome && x.notice.isNone then s.startReplay c else s
  match x.run with
  | .blocked .yielded => ((s.updCtx c (fun y => { y with run := .ready })).loseLatches c).leaveCore c
  | .blocked _ => (s.loseLatches c).leaveCore c
  | .drained _ => s.leaveCore c
  | _ => s

/-! ### Who may issue -/

/-- Priority of a context's task; 4, below all others, for a kiln run (R415) and a context without a task. -/
def State.prioOf (s : State) (c : CoreId) : Nat :=
  if (s.ctx c).task.isSome && !(s.ctx c).diag then recPrio (s.launchOf c).record else 4

/-- A context that can issue its next bundle. -/
def Ctx.canIssue (x : Ctx) : Bool := x.run == .ready && !x.stopped && !x.stepStop

/-- The context that a free core picks: highest priority, then round robin after the last one (R60). -/
def State.pick (s : State) (c : CoreId) : Option CoreId :=
  let r := s.coreRec c
  let l := CoreId.mates c
  let ring := (l.drop (r.last + 1) ++ l.take (r.last + 1)).filter (fun m => (s.ctx m).canIssue)
  let best := ring.foldl (fun b m => min b (s.prioOf m)) 5
  ring.find? (fun m => s.prioOf m == best)

/-- Whether a context is the one that issues on its core now: the one that has the core, or the one that a free core
picks (R60). -/
def State.mayIssue (s : State) (c : CoreId) : Bool :=
  (s.ctx c).canIssue && !s.frozen c
    && (match (s.coreRec c).running with
        | some n => n == c.num || !(s.ctx (if c.isCellar then .cel n else .seq n)).canIssue && s.pick c == some c
        | none => s.pick c == some c)

/-! ### Checks of a bundle (R61, R165, R168, R169, R181 to R184) -/

/-- A failed check: cause, slot, TVAL. -/
structure Bad where
  cause : Cause
  slot : Nat
  tval : Word
  deriving DecidableEq, Repr

def wordVal (w : Word32) : Word := w.zeroExtend 64

/-- A whole-bundle cause (log 18). -/
def Bad.whole (c : Illegal) : Bad := { cause := .illegal c, slot := 15, tval := 0 }

/-- The head's checks: SLOT, HOLD, HEADIMM (R163, R165, R168, R182). -/
def checkHead (cellar : Bool) (hd : Word32) (ws : List (Slot × Word32)) : Option Bad :=
  let at_ (sl : Slot) : Option Word32 := (ws.find? (fun e => e.1 == sl)).map Prod.snd
  let holdBad (sl : Slot) (bit : Nat) : Option Bad :=
    if !hd.getLsbD bit then none else
    match at_ sl with
    | none => some { cause := .illegal .hold, slot := slotNum sl, tval := 0 }
    | some w =>
      match captureField cellar sl w with
      | none => some { cause := .illegal .hold, slot := slotNum sl, tval := wordVal w }
      | some f => if f = 0b1001000 then some { cause := .illegal .hold, slot := slotNum sl, tval := wordVal w } else none
  let heads := (ws.filter (fun e => consumesHead cellar e.1 e.2)).length
  match (if cellar then at_ .p else none) with
  | some w => some { cause := .illegal .slot, slot := 6, tval := wordVal w }
  | none =>
    match [holdBad .v 23, holdBad .x 22, holdBad .p 21, holdBad .c 20].find? Option.isSome with
    | some b => b
    | none => if 1 < heads || (heads = 0 && hd.extractLsb' 0 16 != 0) then some (Bad.whole .headimm) else none

/-- Each slot word decoded in mask order, or the first illegal one (R182). -/
def decodeWords (cellar : Bool) (himm : BitVec 16) : List (Slot × Word32) → Except Bad (List (Slot × Instr))
  | [] => .ok []
  | (sl, w) :: rest =>
    match decodeSlot cellar sl w himm with
    | .error c => .error { cause := .illegal c, slot := slotNum sl, tval := wordVal w }
    | .ok i =>
      match decodeWords cellar himm rest with
      | .error b => .error b
      | .ok is => .ok ((sl, i) :: is)

/-- DEST_CLASH: the first slot that writes a register an earlier slot writes (R169). -/
def destClash : List (Slot × Instr) → List Dest → Option Slot
  | [], _ => none
  | (sl, i) :: rest, seen =>
    match i.dest with
    | none => destClash rest seen
    | some d => if seen.contains d then some sl else destClash rest (d :: seen)

/-- A broadcast or engine slot (R59). -/
def isWide : Slot → Bool
  | .v | .x | .p | .c => true
  | _ => false

def mayBlockBundle (is : List (Slot × Instr)) : Bool :=
  is.any (fun e => isWide e.1 || e.2.blocking || e.2.readsRt.isSome)
def holdsCwaitS (is : List (Slot × Instr)) : Bool :=
  is.any (fun e => match e.2 with | .cwait o => o.s | _ => false)

/-- LATCH_HAZARD (R61); `h` is 1 after a may-block bundle, 2 after one that holds CWAIT.s. -/
def latchHazard (h : Nat) (is : List (Slot × Instr)) : Bool :=
  let ls := is.flatMap (fun e => e.2.latches)
  (mayBlockBundle is && !ls.isEmpty) || (h = 1 && ls.any (4 ≤ ·)) || (h = 2 && !ls.isEmpty)

/-- The instructions of the bundle at a context's N0, or what is wrong with it, in the order of R182. -/
def State.readBundle (s : State) (c : CoreId) : Except Bad (Word32 × List (Slot × Word32) × List (Slot × Instr)) :=
  let x := s.ctx c
  match s.fetch (s.launchOf c).codeVer x.n0 with
  | .misaligned =>
    -- an annulled bundle raises no sequencing fault (R219, R231)
    if x.mark0 then .ok (0, [], []) else .error { cause := .targetAlign, slot := 15, tval := x.n0 }
  | .noLine => .error { cause := .fetchFault, slot := 15, tval := x.n0 }
  | .broken => .error (Bad.whole .line)
  | .bundle hd ws =>
    match checkHead c.isCellar hd ws with
    | some b => .error b
    | none =>
      match decodeWords c.isCellar (hd.extractLsb' 0 16) ws with
      | .error b => .error b
      | .ok is =>
        match destClash is [] with
        | some sl => .error { cause := .illegal .destClash, slot := slotNum sl,
                              tval := ((ws.find? (fun e => e.1 == sl)).map (fun e => wordVal e.2)).getD 0 }
        | none => .ok (hd, ws, is)

/-- Whether an interlocked result bound for a source is still to come (R186). -/
def Ctx.awaits (x : Ctx) (is : List Instr) (pred : BitVec 4) : Bool :=
  x.interlocked.any (fun d => match d with
    | .s n _ => is.any (fun i => i.sregs.contains n)
    | .q n _ => n == pred || is.any (fun i => i.qregs.contains n)
    | _ => false)

/-! ### Packets (R24, R51, R73, R386) -/

/-- The scalar sources of a slot's instruction: fields a and b. -/
def slotScalars (x : Ctx) (sl : Slot) (i : Instr) : Word × Word :=
  match i with
  | .cbwr _ o => (0, x.src sl o.b)
  | .cbrd o => (0, x.src sl o.b)
  | i =>
    match i.srcs with
    | [] => (0, 0)
    | [a] => (x.src sl a, 0)
    | a :: b :: _ => (x.src sl a, x.src sl b)

/-- A die source code 0b1001000 names the die's own hold register; the packet carries what the sequencer's holds. -/
def mkPacket (x : Ctx) (hd : Word32) (ws : List (Slot × Word32)) (is : List (Slot × Instr)) : Packet :=
  let w (sl : Slot) : Option Word32 := (ws.find? (fun e => e.1 == sl)).map Prod.snd
  let sc (sl : Slot) : Word × Word := ((is.find? (fun e => e.1 == sl)).map (fun e => slotScalars x sl e.2)).getD (0, 0)
  { no := x.instNo, v := w .v, x := w .x, p := w .p, c := w .c, himm := hd.extractLsb' 0 16,
    hold := hd.extractLsb' 20 4, va := (sc .v).1, xa := (sc .x).1, pa := (sc .p).1, pb := (sc .p).2,
    ca := (sc .c).1, cb := (sc .c).2, vrm := x.fpctl.extractLsb' 2 2, dieEn := x.dieEn, barrier := false }

/-- The hold registers that a bundle captures (R168): the value of each marked slot's capture field. -/
def Ctx.capture (x : Ctx) (cellar : Bool) (hd : Word32) (ws : List (Slot × Word32)) : PMap Word :=
  ws.foldl (fun m e =>
    if isWide e.1 && hd.getLsbD (23 - holdIdx e.1) then
      match captureField cellar e.1 e.2 with
      | some f => Table.insert m (holdIdx e.1) (x.src e.1 (srcOf f))
      | none => m
    else m) []

/-- Packets of a context that a die context still holds or will receive. -/
def heldBy (x : Ctx) (d : DieCtx) : Nat := (x.sent.filter (fun p => d.retired < p.no)).length

/-- Back-pressure (R24, R46, R386): 256 packets kept for reissue, or a die's 64-entry queue without room beside the 16
entries kept for its other context. -/
def State.sendBlocked (s : State) (c : CoreId) : Bool :=
  let x := s.ctx c
  256 ≤ x.sent.length || x.dieIds.any (fun d =>
    let o : DieId := { die := d.die, k := 1 - d.k }
    let od := s.dctx o
    let other := match od.part with | some n => heldBy (s.ctx (.seq n)) od | none => 0
    64 ≤ heldBy x (s.dctx d) + max 16 other)

/-! ### Current (R189, R446) -/

def slotWeight (cellar : Bool) : Slot → Nat
  | .s0 | .s1 => 2
  | .m => 3
  | .b => 1
  | .v => if cellar then 5 else 4
  | .x => if cellar then 3 else 6
  | .p => 3
  | .c => 2
def bundleWeight (cellar : Bool) (is : List (Slot × Instr)) : Nat :=
  (is.map (fun e => slotWeight cellar e.1)).foldl (· + ·) 0
/-- Whether issuing a weight now would pass the limit (R189). -/
def Core.overLimit (r : Core) (w : Nat) : Bool := r.curLim.toNat < (r.window.take 63).foldl (· + ·) 0 + w

/-! ### The issue step -/

/-- Whether a die-fault notice or an interrupt waits for a context in task mode (R382, R383). -/
def Ctx.pending (x : Ctx) : Bool := !x.handler && (x.notice.isSome || x.irq)
/-- What is delivered between issue steps: a die-fault notice, then an interrupt (R382). -/
def State.deliverPending (s : State) (c : CoreId) : State :=
  let x := s.ctx c
  match x.notice with
  | some n =>
    let s := s.updCtx c (fun x => { x with notice := none, returned := false })
    s.deliverH c 2 n.slot n.cause n.tval (BitVec.ofNat 64 n.f) n.dies (BitVec.ofNat 48 n.pd) (BitVec.ofNat 64 n.f)
  | none =>
    let s := s.updCtx c (fun x => { x with irq := false, returned := false })
    s.deliverH c 1 15 .timer 0 0 0 0 x.epcOf
/-- A precise trap at the bundle takes precedence over what is pending, which comes before anything else that the bundle
at N0 does (R382). -/
def State.orPending (s : State) (c : CoreId) (t : State) : State := if (s.ctx c).pending then s.deliverPending c else t
/-- Whether a drain request stops the context before its next bundle (R375, R392). -/
def Ctx.stopsHere (x : Ctx) : Bool := x.drains && x.loops.isEmpty && !x.handler

/-- The context as its bundle is issued: latches shifted (R167), captures noted, and the hazard for the next bundle. -/
def Ctx.issued (x : Ctx) (cellar : Bool) (hd : Word32) (ws : List (Slot × Word32)) (is : List (Slot × Instr))
    (runs : Bool) : Ctx :=
  let lo := (List.range 4).foldl (fun m i => Table.set 0 m i (Table.get 0 x.delivered i)) ([] : PMap Word)
  let all := (List.range 4).foldl (fun m i => Table.set 0 m (4 + i) (Table.get 0 x.latches i)) lo
  let y := { x with latches := all }
  if runs then
    { y with captures := y.capture cellar hd ws,
             hazard := if holdsCwaitS is then 2 else if mayBlockBundle is then 1 else 0 }
  else y

/-- The slot operations that a bundle leaves on its own core: all of a cellar core's, and the S, M and B slots of a
sequencer core's; none when it does not execute (R162, R184). -/
def slotWork (c : CoreId) (is : List (Slot × Instr)) (runs : Bool) : List (Slot × Instr) :=
  if !runs then [] else if c.isCellar then is else is.filter (fun e => !isWide e.1)
/-- The bundle issues: the task runs (R41), its packet is made (R51), and the slot operations stand in `work`. Every issued
slot has its weight, whether or not the bundle executes (R183, R189). -/
def State.startBundle (s : State) (c : CoreId) (hd : Word32) (ws : List (Slot × Word32)) (is : List (Slot × Instr))
    (runs : Bool) : State :=
  let cellar := c.isCellar
  let wide := is.any (fun e => isWide e.1)
  let t := s.taskId c
  let s := if (s.task t).state = .bound then s.updTask t (fun x => { x with state := .running }) else s
  let s := (s.shiftLatchCells c).updCtx c (fun x => x.issued cellar hd ws is runs)
  let s := if runs && wide && !cellar then
      s.updCtx c (fun x => { x with outgoing := some (mkPacket x hd ws is) })
    else s
  let r := s.coreRec c
  let s := s.setCoreRec c { r with running := some c.num, window := (bundleWeight cellar is :: r.window).take 63 }
  let mine := slotWork c is runs
  let s := { s with core := c, onDie := none }
  if mine.isEmpty then s.finishBundle c else { s with work := mine }

/-- What the bundle at N0 does at its issue, apart from what its slots do: a trap, a wait with the core held (R186, R189),
a block, or the start of its slot operations. A bundle that does not execute waits for the result of its predicate alone (log
36). -/
def State.issueBundle (s : State) (c : CoreId) : State :=
  let x := s.ctx c
  let t (b : Bad) : State := s.trapAt c b.slot b.cause b.tval 0
  match s.readBundle c with
  | .error b => t b
  | .ok (hd, ws, is) =>
    let pred := hd.extractLsb' 16 4
    if x.awaits [] pred then s.orPending c s else
    let runs := !x.mark0 && x.qreg pred
    let ins := is.map Prod.snd
    let wide := is.any (fun e => isWide e.1)
    let cast := runs && wide && !c.isCellar
    let first := !x.mark0 && (match x.rep with | some r => r.addr == x.n0 | none => false)
    if runs && x.awaits ins pred then s.orPending c s
    else if runs && latchHazard x.hazard is then t (Bad.whole .latchHazard)
    else if wide && !c.isCellar && x.dieMask = 0 then t { cause := .noDies, slot := 15, tval := 0 }
    else if wide && !c.isCellar && x.handler then t { cause := .seqPlace, slot := 15, tval := 0 }
    else if cast && 2 ^ 48 ≤ x.instNo then t { cause := .inoOverflow, slot := 15, tval := 0 }
    else if first && is.any (fun e => e.1 == .b) then t { cause := .seqPlace, slot := 3, tval := 0 }
    else if (s.coreRec c).overLimit (bundleWeight c.isCellar is) then s.orPending c s
    else if cast && (x.frozenAt.isSome || x.replayTo ≠ 0) then s.orPending c (s.blockCtx c .frozen)
    else if cast && s.sendBlocked c then s.orPending c (s.blockCtx c .send)
    else if s.cellUE (x.bundleCells c pred runs is) then
      (s.acting c none (·.noteCells .data (x.bundleCells c pred runs is))).trapAt c 15 .ue 0 0
    else
    let s := s.acting c none (·.noteCells .data (x.bundleCells c pred runs is))
    if (slotWork c is runs).isEmpty then s.orPending c (s.startBundle c hd ws is runs)
    else s.startBundle c hd ws is runs

/-- One issue step of a context (R217): the core is its own from now on (R60). What stayed pending over a handler is taken
before the first resumed bundle (R382); a context that awaits the reports of a CWAIT.s blocks (R299). -/
def State.issue (s : State) (c : CoreId) : State :=
  let s := s.takeCore c
  let x := s.ctx c
  let s' := s.updCtx c (fun x => { x with returned := false })
  if x.stopsHere then (s.updCtx c (fun x => { x with run := .drained false })).leaveCore c
  else if x.pending && x.returned then s.deliverPending c
  else match (if x.handler then none else x.awaited) with
    | some no => s'.orPending c (s'.blockCtx c (.reports no))
    | none => s'.issueBundle c

/-- BUNDLE_ISSUE. -/
def execBundleIssue (c : CoreId) : State → Host.Outcome State Fault Refusal :=
  eventOp (·.mayIssue c) (·.issue c)

/-! ### Running the slot operations of a bundle or packet -/

/-- The order in which a bundle's slots act: loads before the bundle's stores, a WST after all that reads (R135, R349). -/
def slotRank (sl : Slot) (i : Instr) : Nat :=
  match sl with
  | .m => if i.onlyLoads then 2 else 8
  | .s0 => 0
  | .s1 => 1
  | .b => 3
  | .v => match i with | .wst _ => 9 | _ => 4
  | .x => 5
  | .p => 6
  | .c => 7
def workOrder (w : List (Slot × Instr)) : List (Slot × Instr) :=
  (List.range 10).flatMap (fun r => w.filter (fun e => slotRank e.1 e.2 == r))

end Sys2Proof.Machine
end

