-- ==== Sys2Proof/Machine/Units.lean ====
section
/-! DEFINITION. What die contexts and cellar contexts have in common: x registers, circular buffers, copy engines; the
checks of die scratchpad ranges; the fold of SIG; running nests' tiles; and when a wait has been met
(R95, R149, R249, R269, R292, R294, R301 to R304, R407, R454). -/

namespace Sys2Proof.Machine

/-! ### The unit that a C, V or near-memory operation acts on -/

/-- The die context, or the core context, that executes. -/
def State.unit (s : State) : UnitId :=
  match s.onDie with
  | some d => .die d
  | none => .core s.core

/-- The core context whose task a unit serves, and that task. -/
def State.unitOwner (s : State) : UnitId → CoreId
  | .core c => c
  | .die d => s.partOf d
def State.unitTask (s : State) (u : UnitId) : TaskId := s.taskId (s.unitOwner u)
def State.unitLaunch (s : State) (u : UnitId) : Launch := s.launch (s.unitTask u).lid

/-- x registers. -/
def State.xregs (s : State) : UnitId → PMap XReg
  | .core c => (s.ctx c).xregs
  | .die d => (s.dctx d).xregs
def State.setXregs (s : State) (u : UnitId) (m : PMap XReg) : State :=
  match u with
  | .core c => s.updCtx c (fun x => { x with xregs := m })
  | .die d => s.updDctx d (fun x => { x with xregs := m })
def State.xreg? (s : State) (u : UnitId) (x : BitVec 3) : Option XReg := Table.find? (s.xregs u) x.toNat

/-- Circular buffers. -/
def State.cbTable (s : State) : UnitId → PMap Cb
  | .core c => (s.ctx c).cbs
  | .die d => (s.dctx d).cbs
def State.setCbTable (s : State) (u : UnitId) (m : PMap Cb) : State :=
  match u with
  | .core c => s.updCtx c (fun x => { x with cbs := m })
  | .die d => s.updDctx d (fun x => { x with cbs := m })
def State.cb? (s : State) (u : UnitId) (n : Nat) : Option Cb := Table.find? (s.cbTable u) n
def State.setCb (s : State) (u : UnitId) (n : Nat) (c : Cb) : State := s.setCbTable u (Table.insert (s.cbTable u) n c)

/-- The queue of copy engine `e`; a cellar context has one (R290, R357). -/
def State.engineQ (s : State) (u : UnitId) (e : Nat) : List CopyOp :=
  match u with
  | .core c => (s.ctx c).engine
  | .die d => Table.get [] (s.dctx d).engines e
def State.setEngineQ (s : State) (u : UnitId) (e : Nat) (l : List CopyOp) : State :=
  match u with
  | .core c => s.updCtx c (fun x => { x with engine := l })
  | .die d => s.updDctx d (fun x => { x with engines := Table.set [] x.engines e l })
/-- Every queued operation of a unit. -/
def State.allOps (s : State) : UnitId → List CopyOp
  | .core c => (s.ctx c).engine
  | .die d => (s.dctx d).engines.flatMap Prod.snd

/-- The key of an offset in a unit's scratchpad (R99, R100, R103). -/
def unitPadKey : UnitId → Nat → Nat
  | .core c, off => padKey c.padIdx off
  | .die d, off => dieMemKey d.die off

/-! ### Circular buffers and ranges -/

/-- 4 KiB blocks that `len` bytes at `off` touch. -/
def blocksOf (off len : Nat) : List Nat :=
  if len = 0 then [] else (List.range ((off + len - 1) / 4096 - off / 4096 + 1)).map (fun i => off / 4096 + i)

/-- The slot of a buffer that holds a block. -/
def Cb.slotOf (c : Cb) (blk : Nat) : Option Nat :=
  if c.base / 4096 ≤ blk && blk < c.base / 4096 + c.n * c.blocks then some ((blk - c.base / 4096) / c.blocks) else none
/-- Whether ring position `i` is among `held` slots that end before position `pos`. -/
def Cb.among (c : Cb) (pos held i : Nat) : Bool := (List.range held).any (fun j => (pos + c.n - 1 - j % c.n) % c.n == i)
def Cb.writerHolds (c : Cb) (i : Nat) : Bool := c.wp && c.among c.wpos c.wheld i
def Cb.readerHolds (c : Cb) (i : Nat) : Bool := c.rp && c.among c.rpos c.rheld i

/-- The buffer of a unit that covers a block. -/
def cbOver (m : PMap Cb) (blk : Nat) : Option (Cb × Nat) :=
  match m with
  | [] => none
  | (_, c) :: rest =>
    match c.slotOf blk with
    | some i => some (c, i)
    | none => cbOver rest blk

/-- What an operation may touch of a buffer (R304): a slot held by a program side, by the program reader, or nothing. -/
inductive CbUse where
  | prog | reader | none
  deriving DecidableEq, Repr

/-- Whether a block may be touched: by the buffer rule, else by its owner bit (R149, R304). -/
def State.blockOk (s : State) (d : DieId) (eng : Bool) (use : CbUse) (blk : Nat) : Bool :=
  match cbOver (s.dctx d).cbs blk with
  | some (c, i) =>
    match use with
    | .prog => c.writerHolds i || c.readerHolds i
    | .reader => c.readerHolds i
    | .none => false
  | none => (Table.find? (s.die d.die).eng blk).isSome == eng

/-- The checks of a die scratchpad range, in the order of R249 and R292. -/
def State.dieRange (s : State) (d : DieId) (off len align : Nat) (eng : Bool) (use : CbUse) (tval : Word) : Verdict :=
  if off % align ≠ 0 then .trap .addrAlign tval 0
  else if 192 * 2 ^ 20 < off + len then .trap .addrBad tval 0
  else if !(blocksOf off len).all (fun b => s.ownsBank (s.dieTask d) d.die (b / 256)) then .trap .bankOwn tval 0
  else if !(blocksOf off len).all (s.blockOk d eng use) then .trap .ownState tval 0
  else .ok

/-- A check made of each lane in ascending order: the first failure decides (R236); an uncorrectable word that a lane would
consume is no check of the lanes, and comes after them (R381, R454). -/
def lanesVerdict (lanes : List Nat) (f : Nat → Verdict) : Verdict := lanes.foldl (fun v n => v.merge (f n)) .ok

/-- UE of a read of storage (R381). -/
def State.ueVerdict (s : State) (key n : Nat) (tval : Word) : Verdict := if s.hasUE key n then .ue key n tval else .ok

/-- Whether a task took a bank by hand-over (R65). -/
def BankState.handed : BankState → TaskId → Bool
  | .owned u (some _), t => u == t
  | _, _ => false

/-- Bytes stored in the banks of a die by its own partition: the first write to a bank taken by hand-over makes the
task non-idempotent (R65). -/
def State.padStore (s : State) (d : DieId) (off : Nat) (bs : List Byte) : State :=
  let t := s.dieTask d
  let s := if (blocksOf off bs.length).any (fun b => (Table.get .free (s.die d.die).banks (b / 256)).handed t) then
      s.endIdem t (some (s.partOf d)) else s
  s.storeBytes (dieMemKey d.die off) bs

/-- R304 on a cellar core: a block of a circular buffer may be touched inside a slot that the program holds (R357). -/
def State.corePadOk (s : State) (c : CoreId) (off len : Nat) : Bool :=
  (blocksOf off len).all (fun b =>
    match cbOver (s.ctx c).cbs b with
    | some (cb, i) => cb.writerHolds i || cb.readerHolds i
    | none => true)

/-! ### Errors that no check of an instruction finds (R381, R390) -/

/-- What an engine, or a unit by itself, has found: a die fault at its number, an abort of a core's task. -/
def State.engineFault (s : State) (u : UnitId) (no : Nat) (cause : Cause) : State :=
  match u with
  | .die d => s.dieFault d no 15 cause 0
  | .core c => s.abort (s.taskId c) ((s.ctx c).ending 0 cause 0)
/-- Whether a unit's task has an uncorrectable error to report from the commit of what it had staged, and its report. -/
def State.owes (s : State) (u : UnitId) : Bool := (s.task (s.unitTask u)).owesUE
def State.payOwed (s : State) (u : UnitId) (no : Nat) : State :=
  if s.owes u then (s.updTask (s.unitTask u) (fun x => { x with owesUE := false })).engineFault u no .ue else s

/-! ### SIG (R407) -/

/-- One word folded in: `n` of its bits left, the highest first. -/
def foldBits (sig w : Word) : Nat → Word
  | 0 => sig
  | n + 1 =>
    let f := sig.getLsbD 63 != w.getLsbD n
    foldBits (if f then (sig <<< 1) ^^^ 0x42F0E1EBA9EA3693 else sig <<< 1) w n
def foldWord (sig w : Word) : Word := foldBits sig w 64

/-- Events folded up to the first one that waits for an engine operation. -/
def DieCtx.drainFolds (x : DieCtx) : List (Nat × Option (List Word)) → DieCtx
  | [] => { x with folds := [] }
  | (n, none) :: rest => { x with folds := (n, none) :: rest }
  | (_, some ws) :: rest => DieCtx.drainFolds { x with sig := ws.foldl foldWord x.sig } rest
/-- An event of the packet that executes. -/
def DieCtx.foldEvent (x : DieCtx) (no : Nat) (ws : List Word) : DieCtx := x.drainFolds (x.folds ++ [(no, some ws)])
/-- The event of an engine operation that has still to read its bytes, and its words once it has. -/
def DieCtx.awaitFold (x : DieCtx) (no : Nat) : DieCtx := { x with folds := x.folds ++ [(no, none)] }
def DieCtx.fillFold (x : DieCtx) (no : Nat) (ws : List Word) : DieCtx :=
  x.drainFolds (x.folds.map (fun e => if e.1 = no && e.2.isNone then (no, some ws) else e))

/-- Bytes as 8-byte words, the last zero-padded. -/
def wordsOfBytes : List Byte → List Word
  | a :: b :: c :: d :: e :: f :: g :: h :: rest => BitVec.ofNat 64 (natOfBytes [a, b, c, d, e, f, g, h]) :: wordsOfBytes rest
  | [] => []
  | l => [BitVec.ofNat 64 (natOfBytes l)]

def sigTag (cls : Nat) (low : Nat) : Word := BitVec.ofNat 64 (cls * 2 ^ 56 + low % 2 ^ 56)

/-- An event folded on the executing die. -/
def State.foldHere (s : State) (ws : List Word) : State :=
  match s.onDie with
  | some d => s.updDctx d (fun x => x.foldEvent s.curNo ws)
  | none => s

/-- A die that suppresses its writes: an odd rank in twin-die mode (R405, R406). -/
def State.suppressed (s : State) (d : DieId) : Bool :=
  (s.launch (s.dieTask d).lid).twin && (s.dctx d).rank % 2 == 1
def State.suppressHere (s : State) : Bool :=
  match s.onDie with
  | some d => s.suppressed d
  | none => false

/-! ### Nests (R263, R267) -/

/-- A word of a nest table. -/
def nestWord (m : PMap Word) (n k : Nat) : Word := Table.get 0 m (n * 32 + k)
def nestAmask (cfg : Word) : Nat := field cfg 0 4
def nestAcc (cfg : Word) : Nat := field cfg 4 3
def nestBsrc (cfg : Word) : Bool := cfg.getLsbD 7
def nestXb (cfg : Word) : Nat := field cfg 8 3
/-- CNTj, DTj, DAj, DBj of a level. -/
def levelCnt (w : PMap Word) (n j : Nat) : Nat := max 1 (field (nestWord w n (4 + 2 * j)) 0 32)
def levelDt (w : PMap Word) (n j : Nat) : Int := sext 3 (field (nestWord w n (4 + 2 * j)) 32 3)
def levelDa (w : PMap Word) (n j : Nat) : Int := sext 32 (field (nestWord w n (5 + 2 * j)) 0 32)
def levelDb (w : PMap Word) (n j : Nat) : Int := sext 32 (field (nestWord w n (5 + 2 * j)) 32 32)
def nestDaq (w : PMap Word) (n : Nat) : Int := sext 28 (field (nestWord w n 3) 0 28)
def nestDbq (w : PMap Word) (n : Nat) : Int := sext 28 (field (nestWord w n 3) 28 28)
def nestDtq (w : PMap Word) (n : Nat) : Int := sext 3 (field (nestWord w n 3) 56 3)
/-- The arrays of AMASK. -/
def nestArrays (w : PMap Word) (n : Nat) : List Nat :=
  (List.range 4).filter (fun q => (nestAmask (nestWord w n 0)).testBit q)

/-- The tiles that a nest of table `n` with words `w` names, as far as they lie in 0-7. -/
def nestTiles (w : PMap Word) (n : Nat) : List Nat :=
  let start := (nestArrays w n).map (fun (q : Nat) => (nestAcc (nestWord w n 0) : Int) + q * nestDtq w n)
  let all := (List.range 6).foldl (fun (vs : List Int) j =>
    (vs.flatMap (fun v => (List.range (min (levelCnt w n j) 9)).map (fun (i : Nat) => v + i * levelDt w n j))).eraseDups) start
  (all.filter (fun v => 0 ≤ v && v < 8)).map Int.toNat

/-- Whether a running nest of the die context holds one of some tiles (R95). -/
def DieCtx.tilesBusy (x : DieCtx) (ts : List Nat) : Bool :=
  x.nests.any (fun n => (nestTiles n.words n.table).any ts.contains)
/-- Arrays in use by the nests of either context of a die. -/
def State.arraysBusy (s : State) (die mask : Nat) : Bool :=
  ([0, 1] : List (Fin 2)).any (fun k => (s.dctx { die, k }).nests.any (fun n => nestAmask (nestWord n.words n.table 0) &&& mask != 0))

/-- Whether some step of levels below `j` brings an address from `base` into `[lo, hi]`; each level is searched only
where the reach of the levels below it allows. -/
def anyFrom (p : Nat → Bool) : Nat → Bool
  | 0 => false
  | n + 1 => p n || anyFrom p n
def levelsReach (step : Nat → Int) (cnt : Nat → Nat) (lo hi : Int) : Nat → Int → Bool
  | 0, base => lo ≤ base && base ≤ hi
  | j + 1, base =>
    let low := (List.range (j + 1)).foldl (fun (a : Int) i => a + min 0 ((cnt i - 1 : Nat) * step i)) base
    let high := (List.range (j + 1)).foldl (fun (a : Int) i => a + max 0 ((cnt i - 1 : Nat) * step i)) base
    if high < lo || hi < low then false
    else anyFrom (fun i => levelsReach step cnt lo hi j (base + i * step j)) (cnt j)

/-- Bytes of a staged tile (R268): format code, side, whether as an A operand. -/
def stagedSize (fmt t : Nat) (isA : Bool) : Nat :=
  64 + (match fmt with | 2 => 2 * t * t | 3 => t * t / 2 | _ => t * t) + (if isA && fmt = 3 then 16 * t else 0)
/-- Formats and side that PREC declares (R266). -/
def precA (p : Word) : Nat := field p 0 2
def precB (p : Word) : Nat := field p 2 2
def precT (p : Word) : Nat := if p.getLsbD 4 then 32 else 16

/-- Whether a nest's operand blocks touch a 4 KiB block of the die scratchpad (R270). -/
def Nest.touches (x : Nest) (blk : Nat) : Bool :=
  let w := x.words
  let n := x.table
  let p := nestWord w n 16
  let lo : Int := (4096 * blk : Nat)
  let t := precT p
  let la : Nat := stagedSize (precA p) t true * (32 / t)
  let lb : Nat := stagedSize (precB p) t false * (32 / t)
  (nestArrays w n).any (fun q =>
    levelsReach (levelDa w n) (levelCnt w n) (lo - la + 1) (lo + 4095) 6
        (field (nestWord w n 1) 0 28 + q * nestDaq w n)
    || (!nestBsrc (nestWord w n 0) &&
      levelsReach (levelDb w n) (levelCnt w n) (lo - lb + 1) (lo + 4095) 6
        (field (nestWord w n 2) 0 28 + q * nestDbq w n)))

/-- Nests of the executing die context. -/
def State.nestsOf (s : State) : UnitId → List Nest
  | .core _ => []
  | .die d => (s.dctx d).nests

/-! ### When a wait has been met -/

/-- Scratchpad bytes that a queued operation reads or writes. -/
def CopyOp.touches (o : CopyOp) (off len : Nat) : Bool := o.off < off + len && off < o.off + o.len
/-- Operations of circular buffer `n`. -/
def CopyOp.ofCb (o : CopyOp) (n : Nat) : Bool :=
  match o.kind with
  | .cbwr _ | .cbrd => o.cb == n
  | _ => false
/-- Engine operations that write the scratchpad. -/
def CopyOp.writesPad (o : CopyOp) : Bool :=
  match o.kind with
  | .tcin _ | .flatIn | .cbwr _ => true
  | _ => false

/-- Operations that write tensors or memory; their events take their place in the fold when they are queued, and their
bytes when the engine reads them (R407). -/
def CopyKind.isOut : CopyKind → Bool
  | .tcout | .flatOut | .cbrd => true
  | _ => false
/-- Whether two lists of captured tiles have one in common. -/
def tilesMeet (a b : List Tile) : Bool := a.any (fun x => b.any (fun y => x.entry == y.entry && x.slot == y.slot))
/-- Whether two operations name one block of the scratchpad or one tile, and whether one of them writes it (R151). -/
def CopyOp.shares (a b : CopyOp) : Bool :=
  (blocksOf a.off a.len).any (blocksOf b.off b.len).contains || tilesMeet a.tiles b.tiles
def CopyOp.conflicts (a b : CopyOp) : Bool :=
  ((blocksOf a.off a.len).any (blocksOf b.off b.len).contains && (a.writesPad || b.writesPad))
    || (tilesMeet a.tiles b.tiles && (a.kind.isOut || b.kind.isOut))
/-- The same of a nest, which reads its operand blocks and its run of tiles (R151, R270). -/
def Nest.shares (x : Nest) (o : CopyOp) : Bool := (blocksOf o.off o.len).any x.touches || tilesMeet x.tiles o.tiles
def Nest.conflicts (x : Nest) (o : CopyOp) : Bool :=
  (o.writesPad && (blocksOf o.off o.len).any x.touches) || (o.kind.isOut && tilesMeet x.tiles o.tiles)
/-- Whether two operations write, or read, the slots of one circular buffer: which slot each takes follows from their order
(R303), so they keep that of their numbers. A writer and a reader wait for each other's counter. -/
def CopyOp.sameSide (a b : CopyOp) : Bool :=
  match a.kind, b.kind with
  | .cbwr _, .cbwr _ | .cbrd, .cbrd => a.cb == b.cb
  | _, _ => false
/-- Whether an operation holds back a later one of its unit: one that conflicts until it has completed, one that reads the
same until it has begun (R151). -/
def CopyOp.holds (p o : CopyOp) : Bool :=
  p.no < o.no && (p.conflicts o || p.sameSide o || (p.shares o && !p.started))
/-- Whether a nest has applied its first batch, and whether it holds back a later operation in the same way. -/
def Nest.begun (x : Nest) : Bool := x.finished || x.t != 0 || x.q != 0 || x.p != 0 || x.i != 0
def Nest.holds (x : Nest) (o : CopyOp) : Bool := x.no < o.no && (x.conflicts o || (x.shares o && !x.begun))
/-- An operation may begin: nothing earlier of its unit holds it back (R151). -/
def State.canStart (s : State) (u : UnitId) (o : CopyOp) : Bool :=
  !(s.allOps u).any (fun p => p.holds o) && !(s.nestsOf u).any (fun n => n.holds o)
/-- Whether a nest waits for an earlier engine operation of its die context: one that writes what it reads until it has
completed, one that reads the same until it has begun (R151). -/
def State.nestHeld (s : State) (u : UnitId) (x : Nest) : Bool :=
  (s.allOps u).any (fun o => o.no < x.no && (x.conflicts o || (x.shares o && !o.started)))

/-- Entries of a copy-engine queue (R290, R357). -/
def engineCap : Nat := 8

/-- Whether a bank can be taken now (R63); one that a kiln run holds is drained from it (R415). -/
def State.bankReady (s : State) (t : TaskId) (die bank : Nat) (tag : BitVec 32) : Bool :=
  match s.bankNow die bank with
  | .free => true
  | .released _ g => g == tag
  | .owned u _ => u == t || s.diagTask u

/-- Whether the condition a unit waits for holds. -/
def State.waitMet (s : State) (u : UnitId) (w : Wait) : Bool :=
  let c := s.unitOwner u
  let x := s.ctx c
  let dx : DieCtx := match u with | .die d => s.dctx d | .core _ => DieCtx.unbound
  match w with
  | .send => !s.sendBlocked c
  | .frozen => x.frozenAt.isNone && x.replayTo = 0
  | .rt n => (Table.find? x.rtWait n).isNone
  | .accesses => x.nmq.isEmpty && x.engine.isEmpty
  | .flag k v eq sgn =>
    let f := s.flagWord k
    if eq then f == v else if sgn then v.toInt ≤ f.toInt else v.toNat ≤ f.toNat
  | .xfill n => match Table.find? (s.xregs u) n with | some r => r.filled | none => true
  | .engineFull e => (s.engineQ u e).length < engineCap
  | .copies e before =>
    let l := match e with | some e => s.engineQ u e | none => s.allOps u
    l.all (fun o => before ≤ o.no)
  | .block off => !(s.allOps u).any (fun o => o.touches off 4096) && !(s.nestsOf u).any (fun n => n.touches (off / 4096))
  | .counter n r => match s.cb? u n with | some b => 0 < (if r then b.filled else b.free) | none => true
  | .slotUse n r =>
    match s.cb? u n with
    | some b =>
      let i := if r then (b.rpos + b.n - b.rheld) % b.n else (b.wpos + b.n - b.wheld) % b.n
      !r || !(s.nestsOf u).any (fun t => (List.range b.blocks).any (fun k => t.touches (b.base / 4096 + i * b.blocks + k)))
    | none => true
  | .cbOps n => !(s.allOps u).any (fun o => o.ofCb n)
  | .bank m tag => match u with | .die d => s.bankReady (s.dieTask d) d.die m tag | .core _ => true
  | .tiles ts => !dx.tilesBusy ts
  | .table n => !dx.nests.any (fun t => t.table == n)
  | .arrays mask =>
    match u with
    | .die d => !s.arraysBusy d.die mask
        && !((s.die d.die).asks.takeWhile (fun a => a.1 != d.k)).any (fun a => a.2 &&& mask != 0)
    | .core _ => true
  | .nests => dx.nests.isEmpty
  | .xnest n => !dx.nests.any (fun t => nestBsrc (nestWord t.words t.table 0) && nestXb (nestWord t.words t.table 0) == n)
  | .images off len => !(s.allOps u).any (fun o => o.writesPad && (blocksOf o.off o.len).any (blocksOf off len).contains)
  | .perm src dst len =>
    let hits (o : CopyOp) (off : Nat) : Bool := (blocksOf o.off o.len).any (blocksOf off len).contains
    !(s.allOps u).any (fun o => hits o dst || ((o.writesPad || !o.started) && hits o src))
      && !(s.nestsOf u).any (fun n => (blocksOf dst len).any n.touches || (!n.begun && (blocksOf src len).any n.touches))
  | .fold => dx.folds.isEmpty
  | .nmFull => x.nmq.length < 16
  | .nmTicket t => t ≤ x.nmDone
  | .reports no =>
    match x.sent.find? (fun p => p.no == no) with
    | some p => (x.enabledIds p.dieEn).all (fun d => no ≤ (s.dctx d).retired)
    | none => true
  | .yielded | .debug | .hold => true

/-- A condition of the executing slot: the verdict is a wait until it holds. -/
def State.waitFor (s : State) (w : Wait) : Verdict := if s.waitMet s.unit w then .ok else .wait w

end Sys2Proof.Machine
end

