-- ==== Sys2Proof/Machine/Access.lean ====
section
/-! DEFINITION. Loads, stores and atomics of a core context (R214 to R216, R313 to R316), and the checks of stored
words, DSTCHK and DRDCHK (R334). -/

namespace Sys2Proof.Machine

/-! ### LD, ST, LDS, STS -/

/-- A place or the verdict of a failed check. -/
def placeVerdict (r : Except Verdict Place) (f : Place → Verdict) : Verdict :=
  match r with
  | .error v => v
  | .ok pl => f pl

/-- The place of an access, where its check has passed. -/
def placeOf (r : Except Verdict Place) : Place :=
  match r with
  | .ok pl => pl
  | .error _ => .csr 0

/-- An access to the core's own scratchpad through region 0xB performs as an LDS or STS does: R304 applies to it (R215,
R357). -/
def State.ownPadOk (s : State) (pl : Place) (n : Nat) : Bool :=
  match pl with
  | .pad idx off => idx != s.core.padIdx || s.corePadOk s.core off n
  | _ => true

/-- The checks of a load of `n` bytes at a flat address. -/
def State.loadVerdict (s : State) (ea : Word) (n : Nat) : Verdict :=
  placeVerdict (s.corePlace s.core ea n .load) (fun pl =>
    match pl with
    | .csr k =>
      (s.csrVerdict k).andThen (match s.cur.rtPending k with | some _ => .wait .hold | none => .ok)
    | pl => (need (s.ownPadOk pl n) .ownState ea).andThen (if s.readUE s.core pl n then .ue pl.key n ea else .ok))

/-- The `n` bytes that a load returns. -/
def State.loadValue (s : State) (ea : Word) (n : Nat) : Nat :=
  match placeOf (s.corePlace s.core ea n .load) with
  | .csr k => (s.csrRead s.core k).toNat
  | pl => s.coreRead s.core pl (ea.toNat % 4) n

/-- Whether a load is served without the freeze line: an L1 hit, the core's own scratchpad, a control register
(R188, R215). -/
def State.servedAtOnce (s : State) (ea : Word) (n : Nat) : Bool :=
  match placeOf (s.corePlace s.core ea n .load) with
  | .hbm p => s.l1Hit s.core p n
  | .pad idx _ => idx == s.core.padIdx
  | .csr _ => true
  | _ => false

/-- Whether a flat access lies in the core's own scratchpad, and the latency of its load: as an LDS, 4 steps (R185, R215). -/
def State.inOwnPad (s : State) (ea : Word) (n : Nat) : Bool :=
  match placeOf (s.corePlace s.core ea n .load) with
  | .pad idx _ => idx == s.core.padIdx
  | _ => false
def State.loadLatency (s : State) (ea : Word) (n : Nat) : Nat := if s.inOwnPad ea n then 4 else 6

/-- A load's effects on caches and logs. -/
def State.loadEffects (s : State) (ea : Word) (n : Nat) : State :=
  (s.coreReadEffects s.core (placeOf (s.corePlace s.core ea n .load)) n).noteWalk (s.launchOf s.core).func ea

def State.ldAddr (s : State) (o : LoadOp) : Word := effAddr (s.src o.a) o.imm o.ty.bytes

def execLd (o : LoadOp) : State → Host.Outcome State Fault Refusal :=
  slotOp (fun s => s.loadVerdict (s.ldAddr o) o.ty.bytes)
    (fun s =>
      let ea := s.ldAddr o
      let v := o.ty.extend (s.loadValue ea o.ty.bytes)
      (s.loadEffects ea o.ty.bytes).send (outS false o.d v) v (s.loadLatency ea o.ty.bytes) 0 0
        (s.servedAtOnce ea o.ty.bytes))

def State.stAddr (s : State) (o : StoreOp) : Word := effAddr (s.src o.a) o.imm (sizeOf o.z)
/-- The bytes of a store. -/
def State.stBytes (s : State) (o : StoreOp) : List Byte := bytesOfNat (s.dreg o.d).toNat (sizeOf o.z)

/-- Whether a store consumes an uncorrectable word that it writes in part, staged or not (R381, R402). -/
def State.storeUE (s : State) (c : CoreId) (pl : Place) (n : Nat) : Bool :=
  match pl with
  | .hbm p => s.dramPartUE (s.heldAbove c) p n || (partWords p n).any (fun wk => s.cellUE (s.coreCells c (8 * wk) 8))
  | pl => s.partialUE pl.key n
/-- The checks of a store: place, the staged-write buffer, and an uncorrectable word stored in part (R126, R402). -/
def State.storeVerdict (s : State) (ea : Word) (n : Nat) : Verdict :=
  placeVerdict (s.corePlace s.core ea n .store) (fun pl =>
    match pl with
    | .csr k => s.csrVerdict k
    | .flag k => if n < 4 && s.cellUE (flagCells k n) then .ue (flagAt k) n ea else .ok
    | .host _ => .ok
    | .peer _ => .ok
    | pl =>
      ((need (s.ownPadOk pl n) .ownState ea).andThen
        (need (s.nonidem (s.taskId s.core) || !s.stageFull (s.taskId s.core) (stageKeys pl n)) .stageFull ea)).andThen
        (if s.storeUE s.core pl n then .ue pl.key n ea else .ok))

/-- A store whose place is known: R127 first, then the bytes. A store over a route that is down is reported later
(R441). -/
def State.storeTo (s : State) (pl : Place) (ea : Word) (bs : List Byte) : State :=
  let s := if pl.endsIdem then s.endIdem (s.taskId s.core) (some s.core) else s
  let s := s.noteWalk (s.launchOf s.core).func ea
  match pl with
  | .csr k => s.updCtx s.core (fun x => x.csrWrite .write k (BitVec.ofNat 64 (natOfBytes bs)))
  | .peer k =>
    if s.routeUp ((k - 2 ^ 60) / 2 ^ 48) then s.coreWrite s.core pl 0 bs
    else s.updCtx s.core (fun x => { x with peerErr := true })
  | pl => s.coreWrite s.core pl (ea.toNat % 4) bs

def execSt (o : StoreOp) : State → Host.Outcome State Fault Refusal :=
  slotOp (fun s => s.storeVerdict (s.stAddr o) (sizeOf o.z))
    (fun s => s.storeTo (placeOf (s.corePlace s.core (s.stAddr o) (sizeOf o.z) .store)) (s.stAddr o) (s.stBytes o))

/-- A byte of the issuing core's scratchpad (R216). -/
def State.padAt (s : State) (off : Word) : Nat := padKey s.core.padIdx off.toNat

/-- LDS and STS: the size bound first by alignment (R107, R216). -/
def State.padVerdict (s : State) (ea : Word) (n : Nat) (store : Bool) : Verdict :=
  if ea.toNat % n ≠ 0 then .trap .addrAlign ea 0
  else if s.core.padSize ≤ ea.toNat then .trap .addrBad ea 0
  else if !s.corePadOk s.core ea.toNat n then .trap .ownState ea 0
  else if (if store then s.partialUE (s.padAt ea) n else s.hasUE (s.padAt ea) n) then .ue (s.padAt ea) n ea
  else .ok

def execLds (o : LoadOp) : State → Host.Outcome State Fault Refusal :=
  slotOp (fun s => s.padVerdict (s.ldAddr o) o.ty.bytes false)
    (fun s =>
      let k := s.padAt (s.ldAddr o)
      let v := o.ty.extend (s.loadNat k o.ty.bytes)
      (s.noteRead .data k o.ty.bytes).send (outS false o.d v) v 4 0 0 true)

def execSts (o : StoreOp) : State → Host.Outcome State Fault Refusal :=
  slotOp (fun s => s.padVerdict (s.stAddr o) (sizeOf o.z) true)
    (fun s => s.storeBytes (s.padAt (s.stAddr o)) (s.stBytes o))

/-! ### Atomics -/

/-- What an atomic stores: the new value, or nothing (ACAS). -/
abbrev AtomFn := Nat → Nat → Option Nat

/-- Whether host memory serves an atomic (R147, R315). -/
inductive AtomHost where
  | served | refused
  deriving DecidableEq, Repr

/-- An uncorrectable word at the place where an atomic executes. -/
def State.atomUE (s : State) (pl : Place) (n : Nat) : Bool :=
  match pl with
  | .hbm p => s.dramUE (s.heldAbove s.core) p n || s.cellUE (s.coreCells s.core p n)
  | .host _ => false
  | pl => s.hasUE pl.key n

/-- The checks of an atomic; a page fault of a host page comes before ATOM_TYPE (log 14). -/
def State.atomVerdict (s : State) (ea : Word) (n : Nat) (h : AtomHost) : Verdict :=
  placeVerdict (s.corePlace s.core ea n .atomic) (fun pl =>
    match pl with
    | .host _ => if h = .served then .ok else .trap .atomType ea 0
    | pl => if s.atomUE pl n then .ue pl.key n ea else .ok)

/-- One atomic at a place (R147, R148, R314, R315): the old value and the state after it. -/
def State.atomAt (s : State) (pl : Place) (n : Nat) (f : Nat → Option Nat) : Nat × State :=
  match pl with
  | .hbm p =>
    let held := (List.range n).all (fun i => s.heldAbove s.core (p + i))
    let s := s.noteCells .data (s.coreCells s.core p n)
    let s := s.flushRange s.core p n
    let old := natOfBytes ((List.range n).map (fun i => s.l2Byte (p + i)))
    let s := if held then s else s.noteRead .data (hbmKey p) n
    match f old with
    | some v => (old, s.l2Write p (bytesOfNat v n))
    | none => (old, s)
  | .host a =>
    match s.hostError a n with
    | some cpl => (2 ^ (8 * n) - 1, s.hostFailed (s.launchOf s.core).func a cpl)
    | none =>
      let old := s.loadNat (hostKey a) n
      match f old with
      | some v => (old, s.storeBytes (hostKey a) (bytesOfNat v n))
      | none => (old, s)
  | pl =>
    let old := s.loadNat pl.key n
    let s := s.noteRead .data pl.key n
    match f old with
    | some v => (old, s.storeBytes pl.key (bytesOfNat v n))
    | none => (old, s)

/-- An atomic of a core context: R127 first, then the access; its old value is on its way for 6 steps (R316), all ones
when the host completed it with an error (R315). -/
def State.atomic (s : State) (ea : Word) (n : Nat) (d : BitVec 6) (ret : Nat → Word) (f : Nat → Option Nat) : State :=
  let pl := placeOf (s.corePlace s.core ea n .atomic)
  let s := s.noteWalk (s.launchOf s.core).func ea
  let s := s.endIdem (s.taskId s.core) (some s.core)
  let failed := match pl with
    | .host a => (s.hostError a n).isSome
    | _ => false
  let (old, s) := s.atomAt pl n f
  let v := if failed then BitVec.allOnes 64 else ret old
  s.send (outS false d v) v 6 0 0
    (match pl with | .pad idx _ => idx == s.core.padIdx | _ => false)

def atomSize (big : Bool) : Nat := if big then 8 else 4
/-- The old value as R313 returns it. -/
def atomRet (big sgn : Bool) (old : Nat) : Word :=
  if !big && sgn then wrap 64 (sext 32 old) else BitVec.ofNat 64 old

/-- An integer atomic with `f old B` (R314). -/
def intAtom (h : AtomHost) (o : AtomOp) (f : State → AtomFn) : State → Host.Outcome State Fault Refusal :=
  slotOp (fun s => s.atomVerdict (s.src o.a) (atomSize o.big) h)
    (fun s =>
      let n := atomSize o.big
      let b := (s.src o.b).toNat % 2 ^ (8 * n)
      s.atomic (s.src o.a) n o.d (atomRet o.big o.sgn) (fun old => f s old b))

/-- The order of R313. -/
def atomLess (o : AtomOp) (x y : Nat) : Bool :=
  if o.sgn then sext (8 * atomSize o.big) x < sext (8 * atomSize o.big) y else x < y

def execAadd (o : AtomOp) : State → Host.Outcome State Fault Refusal :=
  intAtom .served o (fun _ x b => some ((x + b) % 2 ^ (8 * atomSize o.big)))
def execAand (o : AtomOp) : State → Host.Outcome State Fault Refusal := intAtom .refused o (fun _ x b => some (x &&& b))
def execAor (o : AtomOp) : State → Host.Outcome State Fault Refusal := intAtom .refused o (fun _ x b => some (x ||| b))
def execAxor (o : AtomOp) : State → Host.Outcome State Fault Refusal := intAtom .refused o (fun _ x b => some (x ^^^ b))
def execAmin (o : AtomOp) : State → Host.Outcome State Fault Refusal :=
  intAtom .refused o (fun _ x b => some (if atomLess o b x then b else x))
def execAmax (o : AtomOp) : State → Host.Outcome State Fault Refusal :=
  intAtom .refused o (fun _ x b => some (if atomLess o x b then b else x))
def execAxch (o : AtomOp) : State → Host.Outcome State Fault Refusal := intAtom .served o (fun _ _ b => some b)
/-- ACAS compares with register d, read at issue. -/
def execAcas (o : AtomOp) : State → Host.Outcome State Fault Refusal :=
  intAtom .served o (fun s x b => if x = (s.dreg o.d).toNat % 2 ^ (8 * atomSize o.big) then some b else none)

/-- A floating-point atomic; it records no flag. -/
def fpAtom (o : FAtomOp) (f : State → Nat → Nat → Nat) : State → Host.Outcome State Fault Refusal :=
  slotOp (fun s => s.atomVerdict (s.src o.a) (atomSize o.dbl) .refused)
    (fun s =>
      let n := atomSize o.dbl
      let b := (s.src o.b).toNat % 2 ^ (8 * n)
      s.atomic (s.src o.a) n o.d (fun old => BitVec.ofNat 64 old) (fun old => some (f s old b)))
def execAfadd (o : FAtomOp) : State → Host.Outcome State Fault Refusal :=
  fpAtom o (fun s x b => ((Fmt.ofDbl o.dbl).add (field s.cur.fpctl 0 2) x b).v)
def execAfmax (o : FAtomOp) : State → Host.Outcome State Fault Refusal :=
  fpAtom o (fun _ x b => ((Fmt.ofDbl o.dbl).minmax true x b).v)

/-! ### Stored words with their check bits (R334) -/

/-- The place of the aligned word that DSTCHK or DRDCHK reaches; PRIV comes before what fails of the address (log 14). -/
def State.checkPlace (s : State) (a : Word) (store : Bool) : Except Verdict Place :=
  let reg := a.toNat / 2 ^ 52
  if !(s.cur.diag || s.cur.handler) then .error (.trap .priv a 0)
  else if a.toNat % 8 ≠ 0 then .error (.trap .addrAlign a 0)
  else if !(reg < 8 || reg = 9 || reg = 0xA || reg = 0xB) then .error (.trap .addrBad a 0)
  else s.corePlace s.core a 8 (if store then .store else .load)

/-- L1 and L2 bytes of the word written back and discarded, before the access at storage. -/
def State.bareWord (s : State) (pl : Place) : State :=
  match pl with
  | .hbm p =>
    let s := s.flushRange s.core p 8
    let here := s.l2.filter (fun e => p ≤ e.1 && e.1 < p + 8)
    let r := s.leaveCells (fun e => match e with | .l2 wk => here.any (fun b => b.1 / 8 == wk) | _ => false)
    r.2.foldl (fun (s : State) e => s.spoil (hbmKey (8 * e.1)) e.2) (r.1.dramSparse here)
  | _ => s

/-- DSTCHK stores the word and its check bits as they are given. -/
def State.storeChecked (s : State) (pl : Place) (d : Word) (c : Byte) : State :=
  let s := (s.bareWord pl).raiseLayer pl.key 8
  let wk := pl.key / 8
  { s with mem := Memory.writeNat s.mem pl.key d.toNat 8, rewrites := s.rewrites.filter (· != wk),
           ecc := if c.toNat = eccByte d.toNat then Table.erase s.ecc wk else Table.insert s.ecc wk c }

def execDstchk (d : BitVec 6) (a b : Src) : State → Host.Outcome State Fault Refusal :=
  slotOp (fun s => placeVerdict (s.checkPlace (s.src a) true) (fun _ => .ok))
    (fun s =>
      let pl := placeOf (s.checkPlace (s.src a) true)
      (s.endIdem (s.taskId s.core) (some s.core)).storeChecked pl (s.dreg d) ((s.src b).truncate 8))

/-- DRDCHK: the stored word, or its check bits; the result is interlocked (R186). -/
def execDrdchk (chk : Bool) (d : BitVec 6) (a : Src) : State → Host.Outcome State Fault Refusal :=
  slotOp (fun s => placeVerdict (s.checkPlace (s.src a) false) (fun _ => .ok))
    (fun s =>
      let pl := placeOf (s.checkPlace (s.src a) false)
      let s' := (s.bareWord pl).raiseLayer pl.key 8
      let w := Memory.readNat s'.mem pl.key 8
      let c := match Table.find? s'.ecc (pl.key / 8) with | some c => c.toNat | none => eccByte w
      s'.interlock (.s d (BitVec.ofNat 64 (if chk then c else w))))

/-- CMPT (R332): a difference in the low 32 or 64 bits is DUP_MISMATCH; it delivers nothing. -/
def execCmpt (big : Bool) (a b : Src) : State → Host.Outcome State Fault Refusal :=
  slotOp (fun s =>
      let n := 8 * atomSize big
      if (s.src a).toNat % 2 ^ n = (s.src b).toNat % 2 ^ n then .ok else .trap .dupMismatch 0 0)
    (fun s => s)

end Sys2Proof.Machine
end

