-- ==== Sys2Proof/Machine/Control.lean ====
section
/-! DEFINITION. The B map: branches, jumps, calls, loops, repeats and the system instructions (R217 to R232, R327 to
R331). Transfers take effect when the bundle finishes (R217). -/

namespace Sys2Proof.Machine

/-- A field of the executing context changed. -/
def State.updCur (s : State) (f : Ctx → Ctx) : State := s.updCtx s.core f

/-- The transfer that the executing bundle makes. -/
def State.transferBy (s : State) (t : Transfer) : State := s.updCur (fun x => { x with transfer := t })

/-- The code version of the executing task. -/
def State.curVer (s : State) : Nat := (s.launchOf s.core).codeVer

/-- A target given in words from the bundle (R161), or in Merlet bundles (R191). -/
def State.relTarget (s : State) (n : Nat) (off : Nat) : Word :=
  s.cur.n0 + wrap 64 ((if s.portable s.curVer s.cur.n0 then 96 else 4) * sext n off)

/-- The link: the X that a target replaces, Next(N2) (R221), also at the END of a loop that continues, where the refill
comes between (log 39). In Merlet code, which has no delay bundles, it is the next bundle (R191). -/
def State.link (s : State) : Word :=
  if s.portable s.curVer s.cur.n0 then s.nextOf s.curVer s.cur.n0 else s.nextOf s.curVer s.cur.n2

/-- A link written to an s register, with latency 1 (R185). -/
def State.writeLink (s : State) (nw : Bool) (d : BitVec 6) : State :=
  s.send (outS nw d s.link) s.link 1 0 0 true

/-! ### Branches and jumps -/

def execBr (q : BitVec 4) (n : Bool) (an : Bool) (off : BitVec 20) : State → Host.Outcome State Fault Refusal :=
  plainOp (fun s =>
    if s.cur.qreg q != n then s.transferBy (.to (s.relTarget 20 off.toNat))
    else if an then s.transferBy .annul
    else s)
def execJmp (off : BitVec 26) : State → Host.Outcome State Fault Refusal :=
  plainOp (fun s => s.transferBy (.to (s.relTarget 26 off.toNat)))
def execJmpl (off : BitVec 26) : State → Host.Outcome State Fault Refusal :=
  plainOp (fun s => (s.writeLink false 61).transferBy (.to (s.relTarget 26 off.toNat)))
def execJr (a : Src) : State → Host.Outcome State Fault Refusal := plainOp (fun s => s.transferBy (.to (s.src a)))
def execJrl (d : BitVec 6) (nw : Bool) (a : Src) : State → Host.Outcome State Fault Refusal :=
  plainOp (fun s => (s.writeLink nw d).transferBy (.to (s.src a)))
def execRet (a : Src) : State → Host.Outcome State Fault Refusal := plainOp (fun s => s.transferBy (.to (s.src a)))

/-- R223: a table entry is a byte offset from the base. -/
def execJt (len : BitVec 12) (a b : Src) : State → Host.Outcome State Fault Refusal :=
  slotOp (fun s => if (s.src b).toNat < len.toNat then s.loadVerdict (s.src a + 4 * s.src b) 4 else .ok)
    (fun s =>
      if (s.src b).toNat < len.toNat then
        let ea := s.src a + 4 * s.src b
        (s.loadEffects ea 4).transferBy (.to (s.src a + wrap 64 (sext 32 (s.loadValue ea 4))))
      else s)

/-- The address of a function-table entry (R224). -/
def State.callEntry (s : State) (a : Src) : Word := s.dreg 58 + 16 * s.src a
/-- The signature an entry holds. -/
def State.callSigAt (s : State) (a : Src) : Nat := s.loadValue (s.callEntry a + 8) 8 % 2 ^ 16

/-- What the fetch of an entry leaves, whether or not its signature agrees (R224, R401, R453). -/
def State.callFetch (s : State) (a : Src) : State := (s.loadEffects (s.callEntry a) 8).loadEffects (s.callEntry a + 8) 8

def State.callVerdict (s : State) (sig : BitVec 16) (a : Src) : Verdict :=
  let e := s.callEntry a
  if s.cur.ftabLen.toNat ≤ (s.src a).toNat then .trap .callRange (s.src a) 0
  else if field (s.dreg 58) 0 4 ≠ 0 then .trap .addrAlign e 0
  else ((s.loadVerdict e 8).andThen (s.loadVerdict (e + 8) 8)).andThen
    (if s.callSigAt a = sig.toNat then .ok
     else .trap .callSig 0 (BitVec.ofNat 64 (s.callSigAt a * 2 ^ 16 + sig.toNat)))

/-- R224. -/
def execCallf (sig : BitVec 16) (a : Src) (s : State) : Host.Outcome State Fault Refusal :=
  match s.phase, s.callVerdict sig a with
  | .whole, .trap .callSig tval tdata => .next ((s.callFetch a).slotTrap .callSig tval tdata)
  | _, _ => slotOp (·.callVerdict sig a) (fun s =>
      ((s.callFetch a).writeLink false 61).transferBy (.to (BitVec.ofNat 64 (s.loadValue (s.callEntry a) 8)))) s

/-- The fetch that a CALLF made before its CALL_SIG stopped the bundle at N0. -/
def State.failedFetch (s : State) (cause : Cause) : State :=
  match cause, s.readBundle s.core with
  | .callSig, .ok (_, _, is) =>
    match is.findSome? (fun e => match e.2 with | .callf _ a => some a | _ => none) with
    | some a => s.callFetch a
    | none => s
  | _, _ => s

/-! ### Loops and repeats -/

/-- START and END of a loop at the executing bundle (R226). -/
def State.loopStart (s : State) : Word := s.nextOf s.curVer s.cur.n0
def State.loopEnd (s : State) (len : BitVec 6) : Word := s.nextN s.curVer s.loopStart len.toNat

/-- LOOP_BUSY and SEQ_PLACE (R228, R231, R383). Where several apply the manual gives no order: a delay bundle or a handler
comes first, then a busy counter, then the nesting (log 39). -/
def State.loopVerdict (s : State) (lc : BitVec 2) (len : BitVec 6) : Verdict :=
  let x := s.cur
  if x.handler || x.delay ≠ 0 then .trap .seqPlace 0 0
  else if (Table.find? x.loops lc.toNat).isSome then .trap .loopBusy 0 0
  else if x.loops.all (fun e => e.2.start.toNat ≤ s.loopStart.toNat && (s.loopEnd len).toNat ≤ e.2.stop.toNat) then .ok
  else .trap .seqPlace 0 0

/-- R226: the body is skipped, or the loop is active. A result for q8 to q15 that lands at the end of this step lands after the
stages have been set (log 39). -/
def State.startLoop (s : State) (lc : BitVec 2) (len : BitVec 6) (st : BitVec 3) (c : Nat) : State :=
  let stop := s.loopEnd len
  let nx (n : Nat) : Word := s.nextN s.curVer stop n
  if c = 0 then s.transferBy (.chain (nx 1) (nx 2) (nx 3))
  else
    let l : Loop := { start := s.loopStart, stop, st := st.toNat, exitPending := false }
    s.updCur (fun x =>
      Ctx.openStages
        { x with lc := Table.set 0 x.lc lc.toNat (BitVec.ofNat 64 (c - 1)), loops := Table.insert x.loops lc.toNat l,
                 order := lc.toNat :: x.order } st.toNat)

def execLoop (lc : BitVec 2) (len : BitVec 6) (st : BitVec 3) (a : Src) : State → Host.Outcome State Fault Refusal :=
  slotOp (·.loopVerdict lc len) (fun s => s.startLoop lc len st (s.src a).toNat)
def execLoopi (lc : BitVec 2) (len : BitVec 6) (st : BitVec 3) (cnt : BitVec 15) :
    State → Host.Outcome State Fault Refusal :=
  slotOp (·.loopVerdict lc len) (fun s => s.startLoop lc len st cnt.toNat)

/-- The loop and every loop nested in it: those that stand before it in the order, innermost first. -/
def upTo (k : Nat) : List Nat → List Nat
  | [] => []
  | j :: rest => if j = k then [j] else j :: upTo k rest

/-- LEXIT (R228): exit pending for an active loop and the loops nested in it. -/
def execLexit (lc : BitVec 2) : State → Host.Outcome State Fault Refusal :=
  slotOp (fun s => if s.cur.handler then .trap .seqPlace 0 0 else .ok)
    (fun s => s.updCur (fun x =>
      if (Table.find? x.loops lc.toNat).isSome then
        let ks := upTo lc.toNat x.order
        { x with loops := x.loops.map (fun e => if ks.contains e.1 then (e.1, { e.2 with exitPending := true }) else e) }
      else x))

/-- REP and REPI outside a delay bundle and a handler (R231, R383). -/
def State.repVerdict (s : State) : Verdict :=
  if s.cur.handler || s.cur.delay ≠ 0 then .trap .seqPlace 0 0 else .ok
def execRep (a : Src) : State → Host.Outcome State Fault Refusal :=
  slotOp State.repVerdict (fun s => s.transferBy (.rep (s.src a).toNat))
def execRepi (cnt : BitVec 12) : State → Host.Outcome State Fault Refusal :=
  slotOp State.repVerdict (fun s => s.transferBy (.rep cnt.toNat))

/-! ### System instructions -/

/-- TRAP: cause SOFT, with its word in TVAL and its code in TDATA (R327, R384). -/
def execTrap (code : BitVec 12) : State → Host.Outcome State Fault Refusal :=
  slotOp (fun _ => .trap .soft ((encode (.trap code)).zeroExtend 64) (code.zeroExtend 64)) (fun s => s)
/-- BKPT: the context stops for an enabled debugger, else cause BREAK (R327, R450). -/
def execBkpt (code : BitVec 12) : State → Host.Outcome State Fault Refusal :=
  slotOp (fun s =>
      if s.cur.dbgEn.getLsbD 0 then .wait .debug
      else .trap .brk ((encode (.bkpt code)).zeroExtend 64) (code.zeroExtend 64))
    (fun s => s)

/-- ERET: PRIV in task mode; in handler mode the return at the end of its bundle (R328). -/
def execEret : State → Host.Outcome State Fault Refusal :=
  slotOp (fun s => if s.cur.handler then .ok else .trap .priv 0 0) (fun s => s.transferBy (.eret s.cur.epc s.cur.epc1 s.cur.epc2))

/-- The context gives up the core at the end of its bundle (R329). -/
def Ctx.yieldNow (x : Ctx) : Ctx := { x with run := .blocked .yielded }
def execYieldCore : State → Host.Outcome State Fault Refusal := plainOp (·.updCur Ctx.yieldNow)

/-- Whether YIELD.sched switches the context out: a request is pending or the deadline has expired, and no handler runs. On a
frozen stream it wins too, and the switch then waits (R329, R376, R383, R392). -/
def State.schedSwitch (s : State) : Bool :=
  (s.cur.drain.isSome || s.cur.yieldDl.toNat ≤ s.timeCnt.toNat && s.cur.yieldDl != BitVec.allOnes 64)
    && !s.cur.handler
def execYieldSched : State → Host.Outcome State Fault Refusal :=
  plainOp (fun s =>
    if s.schedSwitch then s.updCur (fun x => { x with run := .drained false, drain := none }) else s.updCur Ctx.yieldNow)

/-- A frozen stream of a context discarded, with what is unissued or unretired of it (R383); what an engine or a nest of it
has raised stands (R455). -/
def State.dropStream (s : State) (c : CoreId) : State :=
  let x := s.ctx c
  let s := x.dieIds.foldl (fun s d => s.updDctx d (fun y =>
    { y with fault := none, atBarrier := false, half := false, packet := none, retired := x.instNo - 1 })) s
  s.updCtx c (fun x => { x with sent := [], frozenAt := s.engineFreeze c, freezeOver := false, replayTo := 0, notice := none })

/-- HALT (R330, R383): the program ends at its bundle. -/
def execHalt : State → Host.Outcome State Fault Refusal :=
  plainOp (fun s =>
    let s := if s.cur.handler && s.cur.frozenAt.isSome then s.dropStream s.core else s
    let s := s.updTask (s.taskId s.core) (fun t => { t with state := .committing })
    s.updCur (fun x =>
      { x with run := .halted, inflight := [], interlocked := [], loops := [], order := [], rep := none, delay := 0,
               transfer := .none, drain := none }))

/-- Eight loads of a device-side record (R331). -/
def State.recordVerdict (s : State) (a : Word) : Verdict :=
  if a.toNat % 64 ≠ 0 then .trap .addrAlign a 0
  else (List.range 8).foldl (fun v i => v.andThen (s.loadVerdict (a + BitVec.ofNat 64 (8 * i)) 8)) .ok
def State.recordAt (s : State) (a : Word) : BitVec 512 :=
  BitVec.ofNat 512 ((List.range 8).foldl
    (fun v i => v + s.loadValue (a + BitVec.ofNat 64 (8 * i)) 8 * 2 ^ (64 * i)) 0)
def State.recordEffects (s : State) (a : Word) : State :=
  (List.range 8).foldl (fun s i => s.loadEffects (a + BitVec.ofNat 64 (8 * i)) 8) s

/-- The lowest free entry of the pending-launch store (R331). -/
def State.freePending (s : State) : Option Nat :=
  let k := Table.freshKey s.pend 0 1024
  if k < 1024 then some k else none

def execLaunch (d : BitVec 6) (nw : Bool) (a : Src) : State → Host.Outcome State Fault Refusal :=
  slotOp (fun s => s.recordVerdict (s.src a))
    (fun s =>
      let r := s.recordAt (s.src a)
      let t := s.taskId s.core
      let s := s.recordEffects (s.src a)
      match s.freePending with
      | some k =>
        let v : Word := BitVec.ofNat 64 (k * 2 ^ 16)
        let name := childName (s.launch t.lid) t.wid (s.task t).launched
        let e : PendEntry := { record := r, task := t, name, eligible := s.nonidem t }
        let s := s.updTask t (fun x => { x with launched := x.launched + 1 })
        let s := State.enterPending { s with pend := Table.insert s.pend k e }
        s.send (outS nw d v) v 6 0 0 true
      | none =>
        let s := s.setFlagWord (flagKey s.core.num 255) 1
        s.send (outS nw d 1) 1 6 0 0 true)

end Sys2Proof.Machine
end

