-- ==== Sys2Proof/Machine/Packets.lean ====
section
/-! DEFINITION. PACKET_EXECUTE: a die context takes the next packet of its partition through its phases, and what a
bundle's or packet's slot operations end in (R46, R51, R53 to R56, R386, R387, R454). -/

namespace Sys2Proof.Machine

/-- The packet that a die context executes next; one whose die was reset has lost its queue (R18). -/
def State.nextPacket (s : State) (d : DieId) : Option Packet :=
  let x := s.dctx d
  match x.part with
  | none => none
  | some n => if x.lost then none else (s.ctx (.seq n)).sent.find? (fun p => p.no == x.retired + 1)

/-- What the C slot of a packet may still wait for once it acts: an operation of the same packet (R454). -/
def State.actWait (s : State) : Instr → Option Wait
  | .townP a => some (.block (s.scalar false a).toNat)
  | .cbgive o => some (.slotUse o.cb.toNat o.r)
  | .xlate o => some (.xnest o.x.toNat)
  | _ => none
/-- Whether the C slot of a die's half-executed packet can act. -/
def State.canEnd (s : State) (d : DieId) (p : Packet) : Bool :=
  (packetWork p).all (fun e => e.1 != .c ||
    (match State.actWait { s with core := s.partOf d, onDie := some d, slot := .c } e.2 with | some w => s.waitMet (.die d) w | none => true))

/-- Whether a die context can start its next packet, or end one that it has begun: it is not at a barrier or faulted, and
the number does not lie beyond a frozen stream's F. One that lags may still try F itself until the freeze is complete
(R387, log 27). -/
def State.canPacket (s : State) (d : DieId) : Bool :=
  let x := s.dctx d
  let c := s.ctx (s.partOf d)
  match s.nextPacket d with
  | none => false
  | some p =>
    if x.half then s.canEnd d p
    else !x.atBarrier && x.fault.isNone
      && (match c.frozenAt with | some f => p.barrier || p.no < f || (p.no = f && !c.freezeOver) | none => true)

/-- Alternation of the two contexts of a die (R46). -/
def State.packetTurn (s : State) (d : DieId) : Bool :=
  s.canPacket d && ((s.die d.die).turn == d.k || !s.canPacket { die := d.die, k := 1 - d.k })

/-- Packets that every enabled die has retired leave the reissue buffer; a switched-off die retires them as no-ops
(R55, R386). With every die switched off, a barrier-class packet leaves once its barrier has completed. -/
def State.pruneSent (s : State) (c : CoreId) : List Packet → State
  | [] => (s.updCtx c (fun x => { x with sent := [], replayTo := 0 })).settleDrain c
  | p :: rest =>
    let x := s.ctx c
    let off := (x.enabledIds p.dieEn).isEmpty
    if (off && (p.p.isNone || p.barrier)) || (!off && (x.enabledIds p.dieEn).all (fun d => p.no ≤ (s.dctx d).retired)) then
      let s := x.dieIds.foldl (fun s d => s.updDctx d (fun y => { y with retired := max y.retired p.no })) s
      s.pruneSent c rest
    else (s.updCtx c (fun x =>
      { x with sent := p :: rest, replayTo := if x.replayTo < p.no then 0 else x.replayTo })).settleDrain c

/-- A die context has completed a packet: it captures its hold registers and retires the number (R53, R168). -/
def State.retire (s : State) (d : DieId) : State :=
  let x := s.dctx d
  let p := x.packet.getD Packet.empty
  let cap (h : PMap Word) (i : Nat) (w : Option Word32) (sl : Slot) (v : Word) : PMap Word :=
    match w with
    | some w =>
      if p.hold.getLsbD (3 - i) then
        match captureField false sl w with
        | some f => if f = 0b1001000 then h else Table.set 0 h i v
        | none => h
      else h
    | none => h
  let h := cap (cap (cap (cap x.holds 0 p.v .v p.va) 1 p.x .x p.xa) 2 p.p .p p.pa) 3 p.c .c p.ca
  let s := s.mend (retireCells d p (packetWork p))
  let s := s.setDctx d { x with holds := h, retired := p.no, packet := none, atBarrier := false, half := false }
  let s := s.updDie d.die (fun y => { y with turn := 1 - d.k })
  s.pruneSent (s.partOf d) (s.ctx (s.partOf d)).sent

/-- Whether only the C slot of the packet that a die executes is left to act: after its barrier, or after a wait for the
packet's own operation (R454). -/
def DieCtx.onlyC (x : DieCtx) (p : Packet) : Bool := x.half || p.barrier

/-- The x register whose run an MGO names by its table (R269). -/
def DieCtx.runCells (x : DieCtx) (d : DieId) (w : List (Slot × Instr)) : Cell → Bool
  | .file (.die e) .x n => e == d && w.any (fun i => match i.2 with
    | .mgo t => nestBsrc (nestWord x.shadow t.toNat 0) && nestXb (nestWord x.shadow t.toNat 0) == n
    | _ => false)
  | _ => false

/-- The start of the next packet: a switched-off die retires it at once, which is its packet of the alternation (R46, R55). -/
def State.startPacket (s : State) (d : DieId) : State :=
  match s.nextPacket d with
  | none => s
  | some p =>
    if !p.dieEn.getLsbD d.die then
      let s := (s.updDctx d (fun x => { x with retired := p.no })).updDie d.die (fun y => { y with turn := 1 - d.k })
      s.pruneSent (s.partOf d) (s.ctx (s.partOf d)).sent
    else
      let w := if (s.dctx d).onlyC p then (packetWork p).filter (fun e => e.1 == .c) else packetWork p
      let cells := fun e => packetCells d p.no w e || (s.dctx d).runCells d w e
      if s.cellUE cells then
        (s.asUnit (.die d) (·.noteCells .data cells)).dieFault d p.no (slotNum ((w.map Prod.fst).headD .c)) .ue 0
      else
      let s := s.asUnit (.die d) (·.noteCells .data cells)
      let s := s.updDctx d (fun x => { x with packet := some p })
      { s with core := s.partOf d, onDie := some d, work := w }

/-- PACKET_EXECUTE. -/
def execPacketExecute (d : DieId) : State → Host.Outcome State Fault Refusal :=
  eventOp (·.packetTurn d) (·.startPacket d)

/-! ### The ends of a bundle's or packet's slot operations -/

/-- Every slot has acted: the bundle finishes, or the die retires the number unless it stands at a barrier (R62) or its C
slot still waits (R454); an error that a commit has consumed on the way is reported (R381). -/
def State.finishWork (s : State) : State :=
  match s.onDie with
  | none => if s.owes (.core s.core) then s.payOwed (.core s.core) 0 else s.finishBundle s.core
  | some d =>
    let s := (s.dropAsk d).payOwed (.die d) s.curNo
    if (s.dctx d).atBarrier then s
    else if (s.dctx d).half then s.updDie d.die (fun y => { y with turn := 1 - d.k })
    else s.retire d

/-- An MGO that waits takes its place among those that ask for arrays of its die (R272). -/
def State.askArrays (s : State) (d : DieId) : State :=
  match (s.nextPacket d).bind (fun p => ((packetWork p).find? (fun e => e.1 == .x)).map Prod.snd) with
  | some (.mgo n) =>
    if (s.die d.die).asks.any (fun a => a.1 == d.k) then s
    else s.updDie d.die (fun x =>
      { x with asks := x.asks ++ [(d.k, nestAmask (nestWord (s.dctx d).shadow n.toNat 0))] })
  | _ => s

/-- A check failed or a condition is unmet: `s` is the state before the bundle or packet, `bad` the one whose checks
were made. No slot has acted (R154, R454); an XLATE that faults empties its register (R293). A core's context has its core
(R60), and what is pending comes before a wait (R382). -/
def State.failWork (s bad : State) : State :=
  let s := { s with core := bad.core, onDie := bad.onDie, slot := bad.failSlot }
  let s : State := match bad.onDie with
    | none => (s.takeCore bad.core).updCtx bad.core (fun x => { x with returned := false })
    | some _ => s
  let s : State := match bad.emptied with
    | some x => s.setXregs s.unit (Table.erase (s.xregs s.unit) x)
    | none => s
  match bad.verdict with
  | .trap cause tval tdata => (s.failedFetch cause).slotTrap cause tval tdata
  | .ue key n tval => (s.noteUE key n).slotTrap .ue tval 0
  | .wait w =>
    match bad.onDie with
    | none => s.orPending bad.core (s.waitAt bad.core w)
    | some d => (s.askArrays d).updDie d.die (fun y => { y with turn := 1 - d.k })
  | _ => s

/-- Whether what is pending comes before a bundle whose checks have all passed: no precise trap takes precedence (R382). -/
def State.noticeFirst (s : State) : Bool := s.onDie.isNone && (s.ctx s.core).pending
/-- What is pending is delivered to a context in place of its bundle. -/
def State.beforeBundle (s : State) (c : CoreId) : State := (s.takeCore c).deliverPending c

/-- The slots left to act after a barrier have been checked before it (R454). -/
def State.actOnly (s : State) : Bool :=
  match s.onDie with
  | some _ => s.curDie.onlyC s.packet
  | none => false

/-- A slot operation on a die waits while its packet stands at a barrier, for BARRIER_COMPLETE (R62), and a C slot while an
operation of the same packet goes on (R454). -/
def State.heldBack (s : State) (sl : Slot) (i : Instr) : Bool :=
  match s.onDie with
  | some d => s.phase == .commit && ((s.dctx d).atBarrier || (sl == .c &&
      (match State.actWait { s with slot := .c } i with | some w => !s.waitMet (.die d) w | none => false)))
  | none => false
/-- The die that a slot operation holds back stays at its packet. -/
def State.holdBack (s : State) : State :=
  match s.onDie with
  | some d => if s.curDie.atBarrier then s else s.updDctx d (fun x => { x with half := true })
  | none => s

end Sys2Proof.Machine
end

