-- ==== Sys2Proof/Machine/Scalar.lean ====
section
/-! DEFINITION. The S map (R196 to R213): integer, predicate and floating-point operations of slots S0 and S1. -/

namespace Sys2Proof.Machine

/-- A scalar result for register d. -/
def State.result (s : State) (nw : Bool) (d : BitVec 6) (v : Word) (lat : Nat) (fl : BitVec 5) : State :=
  s.send (outS nw d v) v lat fl 0 true

/-- A predicate result; the latch receives 0 or 1 (R201). -/
def State.resultQ (s : State) (nw : Bool) (q : BitVec 4) (v : Bool) (lat : Nat) (fl : BitVec 5) : State :=
  s.send (outQ nw q v) (if v then 1 else 0) lat fl 0 true

/-- The shift amount of R197. -/
def shiftOf (n : Nat) (b : Word) : Nat := b.toNat % n

/-- `Trunc(A / B)` with the corners of R198: all ones for B = 0. -/
def divInt (a b : Int) : Int := if b = 0 then -1 else a.tdiv b
/-- `A - B * Trunc(A / B)`, A for B = 0. -/
def remInt (a b : Int) : Int := if b = 0 then a else a.tmod b

/-- An integer operation of R197 on the operands' values. -/
def State.intOp (s : State) (o : IntRR) (lat : Nat) (f : Nat → Word → Word → Int) : State :=
  let n := widthOf o.w
  s.result o.nw o.d (resWord o.sgn n (f n (s.src o.a) (s.src o.b))) lat 0

/-- An integer operation on `Opnd(a)` and `Opnd(b)`. -/
def State.arith (s : State) (o : IntRR) (lat : Nat) (f : Nat → Int → Int → Int) : State :=
  s.intOp o lat (fun n a b => f n (opnd o.sgn n a) (opnd o.sgn n b))

/-- A bitwise operation; the result's low bits are those of the operands' low bits. -/
def State.logic (s : State) (o : IntRR) (f : Word → Word → Word) : State :=
  s.intOp o 1 (fun _ a b => ((f a b).toNat : Int))

def execAdd (o : IntRR) : State → Host.Outcome State Fault Refusal := plainOp (·.arith o 1 (fun _ a b => a + b))
def execSub (o : IntRR) : State → Host.Outcome State Fault Refusal := plainOp (·.arith o 1 (fun _ a b => a - b))
def execMul (o : IntRR) : State → Host.Outcome State Fault Refusal := plainOp (·.arith o 3 (fun _ a b => a * b))
def execMulh (o : IntRR) : State → Host.Outcome State Fault Refusal :=
  plainOp (·.arith o 3 (fun n a b => a * b / (2 ^ n : Nat)))
def execDiv (o : IntRR) : State → Host.Outcome State Fault Refusal := plainOp (·.arith o 20 (fun _ a b => divInt a b))
def execRem (o : IntRR) : State → Host.Outcome State Fault Refusal := plainOp (·.arith o 20 (fun _ a b => remInt a b))
def execAnd (o : IntRR) : State → Host.Outcome State Fault Refusal := plainOp (·.logic o (fun a b => a &&& b))
def execOr (o : IntRR) : State → Host.Outcome State Fault Refusal := plainOp (·.logic o (fun a b => a ||| b))
def execXor (o : IntRR) : State → Host.Outcome State Fault Refusal := plainOp (·.logic o (fun a b => a ^^^ b))
def execAndn (o : IntRR) : State → Host.Outcome State Fault Refusal := plainOp (·.logic o (fun a b => a &&& ~~~b))
/-- Shifts take the field of width w: SHL and SHR unsigned, SAR signed (R197). -/
def execShl (o : IntRR) : State → Host.Outcome State Fault Refusal :=
  plainOp (·.intOp o 1 (fun n a b => opnd o.sgn n a * (2 ^ shiftOf n b : Nat)))
def execShr (o : IntRR) : State → Host.Outcome State Fault Refusal :=
  plainOp (·.intOp o 1 (fun n a b => opnd false n a / (2 ^ shiftOf n b : Nat)))
def execSar (o : IntRR) : State → Host.Outcome State Fault Refusal :=
  plainOp (·.intOp o 1 (fun n a b => opnd true n a / (2 ^ shiftOf n b : Nat)))
/-- Right rotation of a field of `n` bits. -/
def rotr (n v sh : Nat) : Nat := v / 2 ^ sh + v % 2 ^ sh * 2 ^ (n - sh)
def execRor (o : IntRR) : State → Host.Outcome State Fault Refusal :=
  plainOp (·.intOp o 1 (fun n a b => (rotr n (a.toNat % 2 ^ n) (shiftOf n b) : Nat)))
def execMin (o : IntRR) : State → Host.Outcome State Fault Refusal := plainOp (·.arith o 1 (fun _ a b => min a b))
def execMax (o : IntRR) : State → Host.Outcome State Fault Refusal := plainOp (·.arith o 1 (fun _ a b => max a b))

/-- An RI operation on 64 bits with its immediate sign-extended (R199). -/
def State.immOp (s : State) (o : IntRI) (f : Word → Word → Word) : State :=
  s.result o.nw o.d (f (s.src o.a) (wrap 64 (sext 12 o.imm.toNat))) 1 0
def execAddi (o : IntRI) : State → Host.Outcome State Fault Refusal := plainOp (·.immOp o (fun a b => a + b))
def execAndi (o : IntRI) : State → Host.Outcome State Fault Refusal := plainOp (·.immOp o (fun a b => a &&& b))
def execOri (o : IntRI) : State → Host.Outcome State Fault Refusal := plainOp (·.immOp o (fun a b => a ||| b))
def execXori (o : IntRI) : State → Host.Outcome State Fault Refusal := plainOp (·.immOp o (fun a b => a ^^^ b))

def State.shiftImm (s : State) (o : ShiftRI) (f : Word → Nat → Word) : State :=
  s.result o.nw o.d (f (s.src o.a) o.sh.toNat) 1 0
def execShli (o : ShiftRI) : State → Host.Outcome State Fault Refusal := plainOp (·.shiftImm o (fun a n => a <<< n))
def execShri (o : ShiftRI) : State → Host.Outcome State Fault Refusal := plainOp (·.shiftImm o (fun a n => a >>> n))
def execSari (o : ShiftRI) : State → Host.Outcome State Fault Refusal :=
  plainOp (·.shiftImm o (fun a n => a.sshiftRight n))

/-- R200. -/
def execLih (o : LihOp) : State → Host.Outcome State Fault Refusal :=
  plainOp (fun s => s.result o.nw o.d ((s.src o.a <<< 16) ||| o.himm.zeroExtend 64) 1 0)

/-- The conditions of R201 at a width. -/
def cmpHolds (cond : BitVec 3) (n : Nat) (a b : Word) : Bool :=
  let ua := a.toNat % 2 ^ n
  let ub := b.toNat % 2 ^ n
  let sa := sext n ua
  let sb := sext n ub
  match cond.toNat with
  | 0 => ua == ub
  | 1 => ua != ub
  | 2 => sa < sb
  | 3 => sb ≤ sa
  | 4 => ua < ub
  | 5 => ub ≤ ua
  | 6 => sa ≤ sb
  | _ => sb < sa

def execCmp (o : CmpRR) : State → Host.Outcome State Fault Refusal :=
  plainOp (fun s => s.resultQ o.nw o.q (cmpHolds o.cond (widthOf o.w) (s.src o.a) (s.src o.b)) 1 0)
def execCmpi (o : CmpRI) : State → Host.Outcome State Fault Refusal :=
  plainOp (fun s => s.resultQ o.nw o.q (cmpHolds o.cond 64 (s.src o.a) (wrap 64 (sext 9 o.imm.toNat))) 1 0)
/-- R202. -/
def execPlog (o : PlogOp) : State → Host.Outcome State Fault Refusal :=
  plainOp (fun s => s.resultQ o.nw o.q
    (o.tt.getLsbD (2 * (if (s.src o.b).getLsbD 0 then 1 else 0) + (if (s.src o.a).getLsbD 0 then 1 else 0))) 1 0)
/-- R203. -/
def execSel (o : SelOp) : State → Host.Outcome State Fault Refusal :=
  plainOp (fun s => s.result o.nw o.d (if s.cur.qreg o.q != o.neg then s.src o.a else s.src o.b) 1 0)
/-- R204. -/
def execBext (o : FieldOp) : State → Host.Outcome State Fault Refusal :=
  plainOp (fun s => s.result o.nw o.d (BitVec.ofNat 64 (field (s.src o.a) o.pos.toNat (o.n1.toNat + 1))) 1 0)
def insertBits (old a : Word) (pos n : Nat) : Word :=
  let mask := BitVec.ofNat 64 ((2 ^ n - 1) * 2 ^ pos)
  (old &&& ~~~mask) ||| ((a <<< pos) &&& mask)
def execBins (o : FieldOp) : State → Host.Outcome State Fault Refusal :=
  plainOp (fun s => s.result o.nw o.d (insertBits (s.dreg o.d) (s.src o.a) o.pos.toNat (o.n1.toNat + 1)) 1 0)

/-- Leading zeros of an `n`-bit field: the counts of R205. -/
def clz (n v : Nat) : Nat := if v = 0 then n else n - 1 - Nat.log2 v
def ctzFrom (v : Nat) : Nat → Nat → Nat
  | 0, i => i
  | fuel + 1, i => if v.testBit i then i else ctzFrom v fuel (i + 1)
def ctz (n v : Nat) : Nat := ctzFrom v n 0
def countBits (k : CountKind) (n v : Nat) : Nat :=
  match k with
  | .pop => popBits v n
  | .clz => clz n v
  | .ctz => ctz n v
def execBcnt (o : BcntOp) : State → Host.Outcome State Fault Refusal :=
  plainOp (fun s =>
    let n := widthOf o.w
    s.result o.nw o.d (BitVec.ofNat 64 (countBits o.kind n ((s.src o.a).toNat % 2 ^ n))) 1 0)
/-- R206. -/
def execLea (o : LeaOp) : State → Host.Outcome State Fault Refusal :=
  plainOp (fun s => s.result o.nw o.d (s.src o.a + (s.src o.b <<< o.sc.toNat)) 1 0)

/-! ### Floating point (R207 to R213) -/

/-- The scalar rounding mode of the issuing bundle (R73). -/
def Ctx.rm (x : Ctx) : Nat := field x.fpctl 0 2
/-- The low bits of a register as a precision reads them (R71). -/
def fbits (dbl : Bool) (v : Word) : Nat := if dbl then v.toNat else v.toNat % 2 ^ 32

/-- A floating-point result: bits zero-extended (R71), flags with the delivery. -/
def State.resultF (s : State) (nw : Bool) (d : BitVec 6) (r : FRes) (lat : Nat) : State :=
  s.result nw d (BitVec.ofNat 64 r.v) lat r.fl

def State.fp2 (s : State) (o : FpRR) (lat : Nat) (f : Fmt → Nat → Nat → Nat → FRes) : State :=
  s.resultF o.nw o.d (f (Fmt.ofDbl o.dbl) s.cur.rm (fbits o.dbl (s.src o.a)) (fbits o.dbl (s.src o.b))) lat

/-- FDIV and FSQRT take 20 steps in double precision, 12 in single (R185). -/
def longLat (dbl : Bool) : Nat := if dbl then 20 else 12

def execFadd (o : FpRR) : State → Host.Outcome State Fault Refusal := plainOp (·.fp2 o 4 Fmt.add)
def execFsub (o : FpRR) : State → Host.Outcome State Fault Refusal := plainOp (·.fp2 o 4 Fmt.subt)
def execFmul (o : FpRR) : State → Host.Outcome State Fault Refusal := plainOp (·.fp2 o 4 Fmt.mul)
def execFma (o : FmaOp) : State → Host.Outcome State Fault Refusal :=
  plainOp (fun s => s.resultF o.nw o.d ((Fmt.ofDbl o.dbl).fma s.cur.rm o.var (fbits o.dbl (s.src o.a))
    (fbits o.dbl (s.src o.b)) (fbits o.dbl (s.dreg o.d))) 4)
def execFdiv (o : FpRR) : State → Host.Outcome State Fault Refusal := plainOp (·.fp2 o (longLat o.dbl) Fmt.div)
def execFsqrt (o : FpR1) : State → Host.Outcome State Fault Refusal :=
  plainOp (fun s => s.resultF o.nw o.d ((Fmt.ofDbl o.dbl).sqrt s.cur.rm (fbits o.dbl (s.src o.a))) (longLat o.dbl))
def execFmin (o : FpRR) : State → Host.Outcome State Fault Refusal :=
  plainOp (·.fp2 o 4 (fun f _ a b => f.minmax false a b))
def execFmax (o : FpRR) : State → Host.Outcome State Fault Refusal :=
  plainOp (·.fp2 o 4 (fun f _ a b => f.minmax true a b))
def execFcmp (o : FcmpOp) : State → Host.Outcome State Fault Refusal :=
  plainOp (fun s =>
    let f := Fmt.ofDbl o.dbl
    let r := fCompare o.cond (f.decode (fbits o.dbl (s.src o.a))) (f.decode (fbits o.dbl (s.src o.b)))
    s.resultQ o.nw o.q r.1 4 r.2)
def execFclass (o : FpR1) : State → Host.Outcome State Fault Refusal :=
  plainOp (fun s => s.result o.nw o.d (BitVec.ofNat 64 ((Fmt.ofDbl o.dbl).classify (fbits o.dbl (s.src o.a)))) 4 0)
/-- R212. -/
def execFsgn (o : FsgnOp) : State → Host.Outcome State Fault Refusal :=
  plainOp (fun s =>
    let f := Fmt.ofDbl o.dbl
    let a := fbits o.dbl (s.src o.a)
    let sb := f.sign (fbits o.dbl (s.src o.b))
    let neg := match o.kind with
      | .j => sb
      | .jn => !sb
      | .jx => f.sign a != sb
    s.result o.nw o.d (BitVec.ofNat 64 (f.withSign a neg)) 4 0)
/-- R213. -/
def execCvtif (o : CvtIfOp) : State → Host.Outcome State Fault Refusal :=
  plainOp (fun s => s.resultF o.nw o.d
    ((Fmt.ofDbl o.dbl).encode s.cur.rm (fOfInt (opnd o.sgn (widthOf o.w) (s.src o.a))) 0) 4)
/-- The range of an integer destination. -/
def intLo (sgn : Bool) (n : Nat) : Int := if sgn then -(2 ^ (n - 1) : Nat) else 0
def intHi (sgn : Bool) (n : Nat) : Int := if sgn then (2 ^ (n - 1) : Nat) - 1 else (2 ^ n : Nat) - 1
def execCvtfi (o : CvtFiOp) : State → Host.Outcome State Fault Refusal :=
  plainOp (fun s =>
    let n := widthOf o.w
    let r := fToInt (if o.rtz then 1 else s.cur.rm) (intLo o.sgn n) (intHi o.sgn n)
      ((Fmt.ofDbl o.dbl).decode (fbits o.dbl (s.src o.a)))
    s.result o.nw o.d (wrap 64 r.1) 4 r.2)
def execCvtff (o : FpR1) : State → Host.Outcome State Fault Refusal :=
  plainOp (fun s => s.resultF o.nw o.d
    ((Fmt.ofDbl (!o.dbl)).convert (Fmt.ofDbl o.dbl) s.cur.rm (fbits (!o.dbl) (s.src o.a))) 4)

end Sys2Proof.Machine
end

