-- ==== Sys2Proof/Machine/Lanes.lean ====
section
/-! DEFINITION. Lane arithmetic of the vector units of dies and cellar cores: element types, exact operations and their
rounding, compares, conversions, special functions and the lane tree (R76, R77, R96, R237 to R248, R340 to R345). -/

namespace Sys2Proof

/-- Element width of a lane type (R76). -/
def VType.width : VType → Nat
  | .i32 | .z32 | .f32 => 32
  | .bf16x2 | .i16x2 | .f16x2 => 16
  | .i8x4 => 8
/-- Elements of a lane. -/
def VType.count (t : VType) : Nat := 32 / t.width
def VType.signed : VType → Bool
  | .z32 => false
  | _ => true
def VType.fmt : VType → Machine.Fmt
  | .bf16x2 => Machine.Fmt.bf16
  | .f16x2 => Machine.Fmt.f16
  | _ => Machine.Fmt.f32
/-- Limits of an integer type (R239). -/
def VType.lo (t : VType) : Int := Machine.intLo t.signed t.width
def VType.hi (t : VType) : Int := Machine.intHi t.signed t.width
/-- Element `e` of a lane, and its value as the type reads it. -/
def VType.elem (t : VType) (lane e : Nat) : Nat := lane / 2 ^ (t.width * e) % 2 ^ t.width
def VType.value (t : VType) (x : Nat) : Int := if t.signed then sext t.width x else (x % 2 ^ t.width : Nat)

end Sys2Proof

namespace Sys2Proof.Machine

/-! ### Lanes -/

/-- Lane `n` of a vector register as a number. -/
def laneOf {w : Nat} (v : BitVec w) (n : Nat) : Nat := (v.toNat >>> (32 * n)) % 2 ^ 32

/-- Lanes packed, lane 0 lowest. -/
def packLanes : List Nat → Nat
  | [] => 0
  | x :: rest => x % 2 ^ 32 + 2 ^ 32 * packLanes rest

/-- A result of every enabled lane: its packed value with the old lanes elsewhere, and the flags of enabled lanes. -/
def runLanes (count : Nat) (on : Nat → Bool) (old : Nat → Nat) (f : Nat → FRes) : FRes :=
  let rs := (List.range count).map (fun n => if on n then f n else { v := old n, fl := 0 })
  { v := packLanes (rs.map (fun (r : FRes) => r.v)), fl := rs.foldl (fun (a : BitVec 5) (r : FRes) => a ||| r.fl) 0 }

/-- Results of the elements of a lane packed together. -/
def packElems (w : Nat) : List FRes → FRes
  | [] => { v := 0, fl := 0 }
  | r :: rest =>
    let q := packElems w rest
    { v := r.v % 2 ^ w + 2 ^ w * q.v, fl := r.fl ||| q.fl }
def perElem (t : VType) (f : Nat → FRes) : FRes := packElems t.width ((List.range t.count).map f)

/-- An integer result narrowed to an element (R239). -/
def narrow (t : VType) (sat : Bool) (x : Int) : FRes :=
  { v := ((if sat then satInt x t.lo t.hi else x) % (2 ^ t.width : Nat)).toNat, fl := 0 }

/-- A two-operand operation: its exact integer value, or its float result, on element values. -/
structure LaneFn where
  int : Int → Int → Int
  flt : Fmt → Nat → Nat → Nat → FRes

/-- A lane of an elementwise operation (R239). -/
def laneBin (t : VType) (sat : Bool) (rm : Nat) (f : LaneFn) (a b : Nat) : FRes :=
  perElem t (fun e =>
    if t.isFloat then f.flt t.fmt rm (t.elem a e) (t.elem b e)
    else narrow t sat (f.int (t.value (t.elem a e)) (t.value (t.elem b e))))

def fnAdd : LaneFn := { int := fun a b => a + b, flt := Fmt.add }
def fnSub : LaneFn := { int := fun a b => a - b, flt := Fmt.subt }
def fnMul : LaneFn := { int := fun a b => a * b, flt := Fmt.mul }
def fnMin : LaneFn := { int := min, flt := fun f _ a b => f.minmax false a b }
def fnMax : LaneFn := { int := max, flt := fun f _ a b => f.minmax true a b }
def fnDiv : LaneFn := { int := fun _ _ => 0, flt := Fmt.div }
def fnMulh (w : Nat) : LaneFn := { int := fun a b => a * b / (2 ^ w : Nat), flt := fun _ _ _ _ => { v := 0, fl := 0 } }

/-- A lane of a fused multiply-add on floats. -/
def laneFma (t : VType) (var : BitVec 2) (rm a b d : Nat) : FRes :=
  perElem t (fun e => t.fmt.fma rm var (t.elem a e) (t.elem b e) (t.elem d e))

/-- A lane of a shift: the element of B gives the amount (R237). -/
def laneShift (t : VType) (k : ShKind) (a b : Nat) : FRes :=
  perElem t (fun e =>
    let x := t.elem a e
    let sh := t.elem b e % t.width
    match k with
    | .l => narrow t false ((x * 2 ^ sh : Nat) : Int)
    | .r => narrow t false ((x / 2 ^ sh : Nat) : Int)
    | .a => narrow t false (sext t.width x / (2 ^ sh : Nat)))

/-- A bitwise operation on the whole lane. -/
def laneBits (f : Nat → Nat → Nat) (a b : Nat) : FRes := { v := f a b % 2 ^ 32, fl := 0 }

/-- VUNA (R237). -/
def laneUna (k : UnaKind) (t : VType) (a : Nat) : FRes :=
  match k with
  | .not => { v := 2 ^ 32 - 1 - a, fl := 0 }
  | .mov => { v := a, fl := 0 }
  | .neg => perElem t (fun e =>
      if t.isFloat then { v := t.fmt.withSign (t.elem a e) (!t.fmt.sign (t.elem a e)), fl := 0 }
      else narrow t false (-(t.elem a e : Int)))
  | .abs => perElem t (fun e =>
      if t.isFloat then { v := t.fmt.withSign (t.elem a e) false, fl := 0 }
      else narrow t false ((t.value (t.elem a e)).natAbs : Int))
  | .popc => perElem t (fun e => { v := popBits (t.elem a e) t.width, fl := 0 })
  | .clz => perElem t (fun e => { v := clz t.width (t.elem a e), fl := 0 })

/-- The exact sum of several terms, special values by IEEE 754, and the flags of invalid terms. The terms meet in order, the
old lane first: a quiet NaN there keeps later infinities of both signs from setting NV (R72, log 39). -/
def fSum (rm : Nat) (first : FVal) (ts : List (FVal × BitVec 5)) : FVal × BitVec 5 :=
  ts.foldl (fun (a : FVal × BitVec 5) t =>
    let s := fAdd rm a.1 t.1
    (s.1, a.2 ||| t.2 ||| s.2)) (first, 0)

/-- VQADD (R237): `d` is the old lane, read as i32 or f32. -/
def laneQadd (t : VType) (sat : Bool) (rm a b d : Nat) : FRes :=
  if t.isFloat then
    let f := t.fmt
    let x := Fmt.f32.decode d
    let ps := (List.range t.count).map (fun e => fMul (f.decode (t.elem a e)) (f.decode (t.elem b e)))
    let r := fSum rm x ps
    Fmt.f32.encode rm r.1 (r.2 ||| (if x.isSig then flNV else 0))
  else
    narrow .i32 sat ((List.range t.count).foldl (fun (x : Int) e => x + t.value (t.elem a e) * t.value (t.elem b e))
      (sext 32 d))

/-! ### Compares (R240) -/

/-- Whether a condition holds between two lanes, with its flags. -/
def laneCmp (c : VCond) (t : VType) (a b : Nat) : Bool × BitVec 5 :=
  if t.isFloat then
    let x := Fmt.f32.decode a
    let y := Fmt.f32.decode b
    match c with
    | .eq => fCompare .eq x y
    | .ne => fCompare .ne x y
    | .lt => fCompare .lt x y
    | .le => fCompare .le x y
    | .gt => fCompare .lt y x
    | .un => fCompare .un x y
  else
    let x := t.value a
    let y := t.value b
    (match c with
      | .eq => x == y
      | .ne => x != y
      | .lt => x < y
      | .le => x ≤ y
      | .gt => y < x
      | .un => false, 0)

/-- Mask bits of enabled lanes from a compare, the others kept. -/
def runMask (count : Nat) (on : Nat → Bool) (old : Nat → Bool) (f : Nat → Bool × BitVec 5) : FRes :=
  (List.range count).foldl (fun (r : FRes) n =>
    let x := if on n then f n else (old n, 0)
    { v := r.v + (if x.1 then 2 ^ n else 0), fl := r.fl ||| x.2 }) { v := 0, fl := 0 }

/-! ### Conversions (R243) -/

/-- c(x): one element converted. -/
def convElem (src dst : VType) (rm x : Nat) : FRes :=
  if src.isFloat then
    if dst.isFloat then src.fmt.convert dst.fmt rm x
    else
      let r := fToInt rm dst.lo dst.hi (src.fmt.decode x)
      { v := (r.1 % (2 ^ dst.width : Nat)).toNat, fl := r.2 }
  else if dst.isFloat then dst.fmt.encode rm (fOfInt (src.value x)) 0
  else narrow dst true (src.value x)

/-- A lane of a conversion: element selector `e`, second source `b`. -/
def laneConv (src dst : VType) (e : Nat) (rm a b : Nat) : FRes :=
  if dst.count = 1 then convElem src dst rm (src.elem a e)
  else perElem dst (fun i =>
    if src.count = 1 then convElem src dst rm (if i = 0 then a else b) else convElem src dst rm (src.elem a i))

/-! ### Special functions (R244) -/

/-- Fraction bits to which EXP2 and LOG2 are cut, far more than f32 has: below them the exact value has more, since it is no
dyadic number, so the cut number with a last bit that stands for the rest rounds as the exact value does. Fraction bits of the
bounds from which the cut is found, wherever both bounds agree on it. -/
def cutBits : Nat := 96
def boundBits : Nat := 256

/-- Bounds of a product of two numbers, and of a square root, from theirs. -/
def boundMul (x y : Nat × Nat) : Nat × Nat := (x.1 * y.1 / 2 ^ boundBits, x.2 * y.2 / 2 ^ boundBits + 1)
def boundSqrt (x : Nat × Nat) : Nat × Nat :=
  (isqrt (x.1 * 2 ^ boundBits) (boundBits + 1) 0, isqrt (x.2 * 2 ^ boundBits) (boundBits + 1) 0 + 1)

/-- Bounds of `acc * 2^(F / 2^n)` for the low `n` bits of `F`: one root of 2 for each, `root` being the one above the first. -/
def powBounds (F : Nat) : Nat → Nat × Nat → Nat × Nat → Nat × Nat
  | 0, _, acc => acc
  | n + 1, root, acc =>
    let r := boundSqrt root
    powBounds F n r (if F.testBit n then boundMul acc r else acc)

/-- The largest number of `cutBits` fraction bits whose `2^K`-th power is at most `2^F`: `2^(F / 2^K)` cut, for `F` below
`2^K`. -/
def exp2Exact (F K : Nat) : Nat :=
  (List.range cutBits).foldl (fun n i =>
    let m := n + 2 ^ (cutBits - 1 - i)
    if m ^ 2 ^ K ≤ 2 ^ (F + cutBits * 2 ^ K) then m else n) (2 ^ cutBits)
/-- The same, from bounds where they decide. -/
def exp2Cut (F K : Nat) : Nat :=
  let w := powBounds F K (2 ^ (boundBits + 1), 2 ^ (boundBits + 1)) (2 ^ boundBits, 2 ^ boundBits)
  let lo := w.1 / 2 ^ (boundBits - cutBits)
  if lo = w.2 / 2 ^ (boundBits - cutBits) then lo else exp2Exact F K

/-- `2^x` for `x = (-1)^neg * m * 2^e` with a non-zero `m`; beyond the exponents that f32 can tell apart, a number that rounds
alike. -/
def exp2Val (neg : Bool) (m : Nat) (e : Int) : FVal :=
  if 9 < (Nat.log2 m : Nat) + e then .fin false 3 (if neg then -1000 else 1000)
  else
    let K := (-e).toNat
    let x : Int := (if neg then -1 else 1) * (m * 2 ^ e.toNat : Nat)
    let whole : Int := x / (2 ^ K : Nat)
    let F := (x % (2 ^ K : Nat)).toNat
    if F = 0 then .fin false 1 whole else .fin false (2 * exp2Cut F K + 1) (whole - (cutBits + 1 : Nat))

/-- Bits of the logarithm of a number between 1 and 2, from its bounds: each square tells one; none where they do not decide. -/
def logBits : Nat → Nat × Nat → Nat → Option Nat
  | 0, _, acc => some acc
  | n + 1, x, acc =>
    let y := boundMul x x
    if 2 ^ (boundBits + 1) ≤ y.1 then logBits n (y.1 / 2, (y.2 + 1) / 2) (2 * acc + 1)
    else if y.2 < 2 ^ (boundBits + 1) then logBits n y (2 * acc)
    else none
/-- `log2 (m / 2^k)` cut, for `m` between `2^k` and `2^(k+1)`. -/
def log2Cut (m k : Nat) : Nat :=
  let x := m * 2 ^ (boundBits - k)
  match logBits cutBits (x, x) 0 with
  | some d => d
  | none => Nat.log2 (m ^ 2 ^ cutBits) - k * 2 ^ cutBits

/-- `log2 x` for `x = m * 2^e`, `m` not 0: cut, its last bit for the rest unless `m` is a power of two. -/
def log2Val (m : Nat) (e : Int) : FVal :=
  let k := Nat.log2 m
  let whole : Int := (k : Nat) + e
  if m = 2 ^ k then .fin (whole < 0) whole.natAbs 0
  else
    let v : Int := 2 * (whole * (2 ^ cutBits : Nat) + (log2Cut m k : Nat)) + 1
    .fin (v < 0) v.natAbs (-(cutBits + 1 : Nat))

/-- `1 / sqrt x` for `x = m * 2^e`, `m` not 0: last bit sticky. -/
def rsqrtVal (m : Nat) (e : Int) : FVal :=
  let m' := if e % 2 = 0 then m else 2 * m
  let e' := if e % 2 = 0 then e else e - 1
  let q := isqrt (2 ^ 256 / m') 130 0
  .fin false (2 * q + (if q * q * m' = 2 ^ 256 then 0 else 1)) (-(e' / 2) - 129)

/-- VSPEC: the value and the flags that its operand raises. -/
def specVal (k : SpecKind) (a : FVal) : FVal × BitVec 5 :=
  match k with
  | .sqrt => fSqrt a
  | .rcp =>
    match a with
    | .fin n 0 _ => (.inf n, flDZ)
    | a => fDiv (.fin false 1 0) a
  | .rsqrt =>
    match a with
    | .nan sg => (.nan false, if sg then flNV else 0)
    | .inf n => if n then (.nan false, flNV) else (.fin false 0 0, 0)
    | .fin n m e => if m = 0 then (.inf n, flDZ) else if n then (.nan false, flNV) else (rsqrtVal m e, 0)
  | .exp2 =>
    match a with
    | .nan sg => (.nan false, if sg then flNV else 0)
    | .inf n => if n then (.fin false 0 0, 0) else (.inf false, 0)
    | .fin n m e => if m = 0 then (.fin false 1 0, 0) else (exp2Val n m e, 0)
  | .log2 =>
    match a with
    | .nan sg => (.nan false, if sg then flNV else 0)
    | .inf n => if n then (.nan false, flNV) else (.inf false, 0)
    | .fin n m e => if m = 0 then (.inf true, flDZ) else if n then (.nan false, flNV) else (log2Val m e, 0)

def laneSpec (k : SpecKind) (rm a : Nat) : FRes :=
  let r := specVal k (Fmt.f32.decode a)
  Fmt.f32.encode rm r.1 r.2

/-! ### Reductions (R96, R248, R258) -/

/-- One combination of two 32-bit or 64-bit numbers of a class. -/
def combine (k : RedKind) (signed flt : Bool) (w rm : Nat) (x y : Nat) : FRes :=
  let f := if w = 64 then Fmt.f64 else Fmt.f32
  let pick (up : Bool) : FRes :=
    if flt then f.minmax up x y
    else
      let less := if signed then sext w x < sext w y else x < y
      { v := if less = up then y else x, fl := 0 }
  match k with
  | .add => if flt then f.add rm x y else { v := (x + y) % 2 ^ w, fl := 0 }
  | .max => pick true
  | .min => pick false
  | .and => { v := x &&& y, fl := 0 }
  | .or => { v := x ||| y, fl := 0 }
  | .xor => { v := x ^^^ y, fl := 0 }

/-- The identity elements of R258. -/
def redIdentity (k : RedKind) (signed flt : Bool) (w : Nat) : Nat :=
  let f := if w = 64 then Fmt.f64 else Fmt.f32
  match k with
  | .add => 0
  | .max => if flt then f.inf true else if signed then 2 ^ (w - 1) else 0
  | .min => if flt then f.inf false else if signed then 2 ^ (w - 1) - 1 else 2 ^ w - 1
  | .and => 2 ^ w - 1
  | .or | .xor => 0

/-- One level of the tree: neighbours combined, a skipped one passing the other on. -/
def treeLevel (f : Nat → Nat → FRes) : List (Option Nat) → List (Option Nat) × BitVec 5
  | [] => ([], 0)
  | [x] => ([x], 0)
  | x :: y :: rest =>
    let q := treeLevel f rest
    match x, y with
    | some a, some b =>
      let r := f a b
      (some r.v :: q.1, r.fl ||| q.2)
    | some a, none => (some a :: q.1, q.2)
    | none, b => (b :: q.1, q.2)
/-- The balanced tree over the lanes. -/
def treeReduce (f : Nat → Nat → FRes) : Nat → List (Option Nat) → Option Nat × BitVec 5
  | 0, l => (l.headD none, 0)
  | n + 1, l =>
    let q := treeLevel f l
    let r := treeReduce f n q.1
    (r.1, q.2 ||| r.2)

/-- The 64-bit result of a reduction of 32-bit lanes: an integer sum is exact (R248). -/
def laneReduce (k : RedKind) (t : VType) (rm levels : Nat) (ls : List (Option Nat)) : Word × BitVec 5 :=
  let ext (v : Nat) : Word := match k with
    | .add | .max | .min => if t.isFloat then BitVec.ofNat 64 v else wrap 64 (t.value v)
    | _ => BitVec.ofNat 64 v
  if k = .add && !t.isFloat then
    (wrap 64 ((ls.filterMap (fun x => x.map t.value)).foldl (fun (a : Int) b => a + b) 0), 0)
  else
    let r := treeReduce (combine k t.signed t.isFloat 32 rm) levels ls
    match r.1 with
    | some v => (ext v, r.2)
    | none => (ext (redIdentity k t.signed t.isFloat 32), 0)

end Sys2Proof.Machine
end

