-- ==== Sys2Proof/Machine/Accum.lean ====
section
/-! DEFINITION. Accumulator rows: batches, renormalisation, reads and writes of elements (R87 to R93, R254, R276 to
R281). -/

namespace Sys2Proof

/-- Bytes of each image and of an element. -/
def AccFmt.size : AccFmt → Nat
  | .raw => 8448
  | .f32 => 4096
  | .bf16 | .f16 => 2048
def AccFmt.fmt : AccFmt → Machine.Fmt
  | .bf16 => Machine.Fmt.bf16
  | .f16 => Machine.Fmt.f16
  | _ => Machine.Fmt.f32

end Sys2Proof

namespace Sys2Proof.Machine

/-- An element that holds 0. -/
def AccElem.zero : AccElem := { m := 0, tag := 0 }
def AccRow.elem (r : AccRow) (j : Nat) : AccElem := Table.get AccElem.zero r.elems j
def AccRow.setElem (r : AccRow) (j : Nat) (x : AccElem) : AccRow :=
  { r with elems := Table.set AccElem.zero r.elems j x }

/-- W(x) of R87. -/
def magWidth (x : Int) : Nat :=
  let n := if x < 0 then (-x - 1).toNat else x.toNat
  if n = 0 then 0 else Nat.log2 n + 1

/-- Every element of a row changed. -/
def AccRow.mapElems (r : AccRow) (f : AccElem → AccElem) : AccRow :=
  { r with elems := (List.range 32).foldl (fun m j => Table.set AccElem.zero m j (f (r.elem j))) [] }
/-- The width of a finite element; a special one has none. -/
def AccElem.width (x : AccElem) : Nat := if x.tag = 0 then magWidth x.m.toInt else 0

/-- A row after a write other than a batch: FRESH falls, and H is the largest that the invariant of R87 allows (R92). -/
def AccRow.refit (r : AccRow) : AccRow :=
  { r with fresh := false, h := BitVec.ofNat 6 (55 - (List.range 32).foldl (fun a j => max a (r.elem j).width) 0) }

/-- Row `i` of tile `t` of a die context. -/
def DieCtx.accRow (x : DieCtx) (t i : Nat) : AccRow := Table.get AccRow.zero x.acc (32 * t + i)
def DieCtx.setAccRow (x : DieCtx) (t i : Nat) (r : AccRow) : DieCtx :=
  { x with acc := Table.set AccRow.zero x.acc (32 * t + i) r }
/-- Every row of a tile changed. -/
def DieCtx.mapAcc (x : DieCtx) (t : Nat) (f : Nat → AccRow → AccRow) : DieCtx :=
  (List.range 32).foldl (fun (y : DieCtx) i => y.setAccRow t i (f i (y.accRow t i))) x

/-! ### Renormalisation and batches -/

/-- Renorm(row, k) (R91). -/
def AccRow.renorm (r : AccRow) (k : Nat) : AccRow :=
  let c := BitVec.ofNat 32 (min (r.c.toNat + 1) 0xFFFFFFFF)
  if 32767 < r.e.toInt + k then
    { r.mapElems (fun x =>
        if x.tag = 0 then { m := 0, tag := (if x.m = 0 then 0 else if x.m.toInt < 0 then 2 else 1) } else x) with
      e := 32767, h := 55, c }
  else
    { r.mapElems (fun x => if x.tag = 0 then { x with m := wrap 56 (roundNEShift x.m.toInt k) } else x) with
      e := r.e + BitVec.ofNat 16 k, h := BitVec.ofNat 6 (min 55 (r.h.toNat + k - 1)), c }

/-- A column of a batch (R88, R89). -/
inductive Batch where
  | fin (x : Int)
  | inf (neg : Bool)
  | nan
  deriving DecidableEq, Repr

/-- A product aligned to a row exponent, rounding toward minus infinity (R90). -/
def alignBatch (e row : Int) : Batch → Batch
  | .fin x => .fin (if row ≤ e then x * (2 ^ (e - row).toNat : Nat) else x / (2 ^ (row - e).toNat : Nat))
  | b => b

/-- Wb of R90. -/
def batchWidth (l : List Batch) : Nat :=
  l.foldl (fun a b => match b with | .fin x => max a (magWidth x) | _ => a) 0

/-- Combine (R90). -/
def AccElem.combine (x : AccElem) (b : Batch) : AccElem :=
  match b with
  | .nan => { m := 0, tag := 3 }
  | .inf neg =>
    if x.tag = 0 then { m := 0, tag := if neg then 2 else 1 }
    else if x.tag = 3 then x
    else if (x.tag = 2) = neg then x else { m := 0, tag := 3 }
  | .fin q => if x.tag = 0 then { m := wrap 56 (x.m.toInt + q), tag := 0 } else x

/-- Columns combined into a row, column `j` first. -/
def AccRow.combineAll (r : AccRow) : Nat → List Batch → AccRow
  | _, [] => r
  | j, b :: rest => AccRow.combineAll (r.setElem j ((r.elem j).combine b)) (j + 1) rest

/-- ApplyBatch (R90); with only special columns the row's fields stay (R89). -/
def AccRow.apply (r : AccRow) (ps : List Batch) (e : Int) : AccRow :=
  if !ps.any (fun b => match b with | .fin _ => true | _ => false) then r.combineAll 0 ps
  else
    let r := if r.fresh then { r with e := wrap 16 e, fresh := false } else r
    let q := ps.map (alignBatch e r.e.toInt)
    let wb := batchWidth q
    let again := r.h.toNat < 1 || 54 < wb
    let r := if again then r.renorm (max (1 - r.h.toNat) (wb - 54) + 4) else r
    let q := if again then ps.map (alignBatch e r.e.toInt) else q
    let r := r.combineAll 0 q
    { r with h := BitVec.ofNat 6 (min r.h.toNat (55 - batchWidth q) - 1) }

/-! ### Reads and writes -/

/-- The value of an element (R93). -/
def AccRow.value (r : AccRow) (j : Nat) : FVal :=
  let x := r.elem j
  match x.tag.toNat with
  | 0 => .fin (x.m.toInt < 0) x.m.toInt.natAbs r.e.toInt
  | 1 => .inf false
  | 2 => .inf true
  | _ => .nan false

/-- An element times a base, rounded to a format (R93). -/
def AccRow.read (r : AccRow) (j : Nat) (f : Fmt) (rm : Nat) (base : Nat) : FRes :=
  let p := fMul (r.value j) (Fmt.f32.decode base)
  f.encode rm p.1 p.2
/-- The base 1. -/
def baseOne : Nat := 0x3F800000

/-- Floor(log2 |x|) of a finite non-zero value. -/
def FVal.top : FVal → Option Int
  | .fin _ m e => if m = 0 then none else some ((Nat.log2 m : Nat) + e)
  | _ => none
/-- RoundNE(v / 2^e). -/
def FVal.scaled (v : FVal) (e : Int) : Int :=
  match v with
  | .fin n m x =>
    let s : Int := if n then -(m : Int) else m
    if e ≤ x then s * (2 ^ (x - e).toNat : Nat) else roundNEShift s (e - x).toNat
  | _ => 0

/-- A row set from 32 f32 values (R254); C stays. -/
def AccRow.ofF32 (r : AccRow) (vs : List Nat) : AccRow :=
  let xs := vs.map Fmt.f32.decode
  let e : Int := match xs.filterMap FVal.top with
    | [] => 0
    | t :: ts => ts.foldl max t - 53
  let el (v : FVal) : AccElem := match v with
    | .nan _ => { m := 0, tag := 3 }
    | .inf n => { m := 0, tag := if n then 2 else 1 }
    | v => { m := wrap 56 (v.scaled e), tag := 0 }
  AccRow.refit { r with
    e := wrap 16 e,
    elems := (xs.zipIdx).foldl (fun m x => Table.set AccElem.zero m x.2 (el x.1)) [] }

/-! ### Images (R276) -/

/-- The row word and element words of a .raw image. -/
def AccRow.rowWord (r : AccRow) : Nat :=
  r.c.toNat * 2 ^ 32 + (if r.fresh then 2 ^ 22 else 0) + r.h.toNat * 2 ^ 16 + r.e.toNat
def AccElem.word (x : AccElem) : Nat := x.tag.toNat * 2 ^ 56 + x.m.toNat
def AccRow.rawImage (r : AccRow) : List Byte :=
  bytesOfNat r.rowWord 8 ++ (List.range 32).flatMap (fun j => bytesOfNat (r.elem j).word 8)
/-- A row from its words. -/
def AccRow.ofRaw (rowW : Nat) (ws : List Nat) : AccRow :=
  let el (w : Nat) : AccElem :=
    let tag := BitVec.ofNat 2 (w / 2 ^ 56)
    { m := if tag = 0 then BitVec.ofNat 56 w else 0, tag }
  AccRow.refit { e := BitVec.ofNat 16 rowW, h := 0, c := BitVec.ofNat 32 (rowW / 2 ^ 32), fresh := false,
                 elems := (ws.zipIdx).foldl (fun m x => Table.set AccElem.zero m x.2 (el x.1)) [] }

/-- A converted image of a tile, element by element, with its flags (R278). -/
def tileImage (rows : List AccRow) (f : Fmt) (rm base : Nat) : List Byte × BitVec 5 :=
  let rs := rows.flatMap (fun r => (List.range 32).map (fun j => r.read j f rm base))
  (rs.flatMap (fun (r : FRes) => bytesOfNat r.v (f.width / 8)), rs.foldl (fun (a : BitVec 5) (r : FRes) => a ||| r.fl) 0)

end Sys2Proof.Machine
end

