-- ==== Sys2Proof/Machine/Vector.lean ====
section
/-! DEFINITION. V slots on a die: elementwise arithmetic, compares, masks, conversions, lanes, condition registers,
accumulator access, flags and SIG (R233 to R248, R252 to R256). -/

namespace Sys2Proof.Machine

/-! ### Registers of a die context -/

def DieCtx.vreg (x : DieCtx) (n : BitVec 5) : DieVec := Table.get 0 x.v n.toNat
def DieCtx.kreg (x : DieCtx) (n : BitVec 3) : Word := Table.get 0 x.k n.toNat
def DieCtx.setV (x : DieCtx) (n : BitVec 5) (v : Nat) : DieCtx := { x with v := Table.set 0 x.v n.toNat (BitVec.ofNat 4096 v) }
def DieCtx.setM (x : DieCtx) (n : BitVec 3) (v : Nat) : DieCtx :=
  if n = 0 then x else { x with m := Table.set 0 x.m n.toNat (BitVec.ofNat 128 v) }
def DieCtx.setK (x : DieCtx) (n : BitVec 3) (v : Word) : DieCtx := { x with k := Table.set 0 x.k n.toNat v }
/-- Exception flags ORed into DFLAGS (R77, R78). -/
def DieCtx.addFlags (x : DieCtx) (fl : BitVec 5) : DieCtx := { x with dflags := x.dflags ||| fl.zeroExtend 64 }

/-- The executing die context changed. -/
def State.updHere (s : State) (f : DieCtx → DieCtx) : State := s.updDctx s.dieId f
def State.lane (s : State) (v : BitVec 5) (n : Nat) : Nat := laneOf (s.curDie.vreg v) n
def State.laneOn (s : State) (m : BitVec 3) (n : Nat) : Bool := (s.curDie.mask m).getLsbD n
/-- The enabled lanes, ascending. -/
def State.lanesOn (s : State) (m : BitVec 3) : List Nat := (List.range 128).filter (s.laneOn m)
/-- The rounding mode that the packet carries. -/
def State.vrm (s : State) : Nat := s.packet.vrm.toNat
/-- S32 of R233, and S. -/
def State.s64 (s : State) (a : Src) : Word := s.scalar false a
def State.s32 (s : State) (a : Src) : Nat := (s.s64 a).toNat % 2 ^ 32

/-- A vector result of the enabled lanes, with its flags. -/
def State.vecOp (s : State) (vd : BitVec 5) (m : BitVec 3) (f : Nat → FRes) : State :=
  let r := runLanes 128 (s.laneOn m) (s.lane vd) f
  s.updHere (fun x => (x.setV vd r.v).addFlags r.fl)

/-- A V-form operation on lanes of va, vb and the old vd. -/
def State.vecBin (s : State) (o : VBin) (f : Nat → Nat → Nat → FRes) : State :=
  s.vecOp o.vd o.m (fun n => f (s.lane o.va n) (s.lane o.vb n) (s.lane o.vd n))
/-- A VS-form operation: every lane has the element of S32 in the place of vb's (R238). -/
def State.vecS (s : State) (o : VSBin) (f : Nat → Nat → Nat → FRes) : State :=
  let b := (packElems o.t.width ((List.range o.t.count).map (fun e => { v := o.t.elem (s.s32 o.a) e, fl := 0 }))).v
  s.vecOp o.vd o.m (fun n => f (s.lane o.va n) b (s.lane o.vd n))

/-! ### Elementwise operations (R237 to R239) -/

def vArith (o : VBin) (sat : Bool) (f : LaneFn) : State → Host.Outcome State Fault Refusal :=
  plainOp (fun s => s.vecBin o (fun a b _ => laneBin o.t sat s.vrm f a b))
def vShift (o : VBin) (k : ShKind) : State → Host.Outcome State Fault Refusal :=
  plainOp (fun s => s.vecBin o (fun a b _ => laneShift o.t k a b))
def vBits (o : VBin) (f : Nat → Nat → Nat) : State → Host.Outcome State Fault Refusal :=
  plainOp (fun s => s.vecBin o (fun a b _ => laneBits f a b))
def vArithS (o : VSBin) (sat : Bool) (f : LaneFn) : State → Host.Outcome State Fault Refusal :=
  plainOp (fun s => s.vecS o (fun a b _ => laneBin o.t sat s.vrm f a b))

def execVadd (o : VSatBin) : State → Host.Outcome State Fault Refusal := vArith o.o o.sat fnAdd
def execVsub (o : VSatBin) : State → Host.Outcome State Fault Refusal := vArith o.o o.sat fnSub
def execVmul (o : VSatBin) : State → Host.Outcome State Fault Refusal := vArith o.o o.sat fnMul
def execVmulh (o : VBin) : State → Host.Outcome State Fault Refusal := vArith o false (fnMulh o.t.width)
def execVfma (o : VFmaBin) : State → Host.Outcome State Fault Refusal :=
  plainOp (fun s => s.vecBin o.o (fun a b d => laneFma o.o.t o.var s.vrm a b d))
def execVdiv (o : VBin) : State → Host.Outcome State Fault Refusal := vArith o false fnDiv
def execVmin (o : VBin) : State → Host.Outcome State Fault Refusal := vArith o false fnMin
def execVmax (o : VBin) : State → Host.Outcome State Fault Refusal := vArith o false fnMax
def execVand (o : VBin) : State → Host.Outcome State Fault Refusal := vBits o (fun a b => a &&& b)
def execVor (o : VBin) : State → Host.Outcome State Fault Refusal := vBits o (fun a b => a ||| b)
def execVxor (o : VBin) : State → Host.Outcome State Fault Refusal := vBits o (fun a b => a ^^^ b)
def execVshl (o : VBin) : State → Host.Outcome State Fault Refusal := vShift o .l
def execVshr (o : VBin) : State → Host.Outcome State Fault Refusal := vShift o .r
def execVsar (o : VBin) : State → Host.Outcome State Fault Refusal := vShift o .a
def execVuna (o : VUnaOp) : State → Host.Outcome State Fault Refusal :=
  plainOp (fun s => s.vecOp o.vd o.m (fun n => laneUna o.kind o.t (s.lane o.va n)))
def execVqadd (o : VSatBin) : State → Host.Outcome State Fault Refusal :=
  plainOp (fun s => s.vecBin o.o (fun a b d => laneQadd o.o.t o.sat s.vrm a b d))
def execVadds (o : VSatS) : State → Host.Outcome State Fault Refusal := vArithS o.o o.sat fnAdd
def execVsubs (o : VSubS) : State → Host.Outcome State Fault Refusal :=
  plainOp (fun s => s.vecS o.o (fun a b _ =>
    if o.rev then laneBin o.o.t o.sat s.vrm fnSub b a else laneBin o.o.t o.sat s.vrm fnSub a b))
def execVmuls (o : VSatS) : State → Host.Outcome State Fault Refusal := vArithS o.o o.sat fnMul
def execVfmas (o : VFmaS) : State → Host.Outcome State Fault Refusal :=
  plainOp (fun s => s.vecS o.o (fun a b d => laneFma o.o.t o.var s.vrm a b d))
def execVmins (o : VSBin) : State → Host.Outcome State Fault Refusal := vArithS o false fnMin
def execVmaxs (o : VSBin) : State → Host.Outcome State Fault Refusal := vArithS o false fnMax
def execVshls (o : VShS) : State → Host.Outcome State Fault Refusal :=
  plainOp (fun s => s.vecS o.o (fun a b _ => laneShift o.o.t o.kind a b))

/-! ### Compares, masks and selection (R240 to R242) -/

/-- A mask result of the enabled lanes; a write to m0 is discarded and its flags are kept (R234). -/
def State.maskOp (s : State) (md : BitVec 3) (m : BitVec 3) (f : Nat → Bool × BitVec 5) : State :=
  let old := s.curDie.mask md
  let r := runMask 128 (s.laneOn m) old.getLsbD f
  s.updHere (fun x => (x.setM md r.v).addFlags r.fl)

def execVcmp (o : VCmpOp) : State → Host.Outcome State Fault Refusal :=
  plainOp (fun s => s.maskOp o.md o.m (fun n => laneCmp o.cond o.t (s.lane o.va n) (s.lane o.vb n)))
def execVcmps (o : VCmpSOp) : State → Host.Outcome State Fault Refusal :=
  plainOp (fun s => s.maskOp o.md o.m (fun n => laneCmp o.cond o.t (s.lane o.va n) (s.s32 o.a)))
def execVmlog (o : VMlogOp) : State → Host.Outcome State Fault Refusal :=
  plainOp (fun s =>
    let x := s.curDie
    s.maskOp o.md o.m (fun n => (o.tt.getLsbD (2 * ((x.mask o.mb).getLsbD n).toNat + ((x.mask o.ma).getLsbD n).toNat), 0)))
def execVsel (o : VSelOp) : State → Host.Outcome State Fault Refusal :=
  plainOp (fun s => s.vecOp o.vd o.m (fun n =>
    { v := if s.laneOn o.sel n then s.lane o.va n else s.lane o.vb n, fl := 0 }))

/-! ### Conversions, lanes, condition registers (R243 to R248) -/

def execVcvt (o : VCvtOp) : State → Host.Outcome State Fault Refusal :=
  plainOp (fun s => s.vecOp o.vd o.m (fun n => laneConv o.t o.dt o.e.toNat s.vrm (s.lane o.va n) (s.lane o.vb n)))
def execVspec (o : VSpecOp) : State → Host.Outcome State Fault Refusal :=
  plainOp (fun s => s.vecOp o.vd o.m (fun n => laneSpec o.kind s.vrm (s.lane o.va n)))
def execVbcast (o : VBcastOp) : State → Host.Outcome State Fault Refusal :=
  plainOp (fun s =>
    let v := if o.lane then s.lane o.va ((s.s64 o.a).toNat % 128) else s.s32 o.a
    s.vecOp o.vd o.m (fun _ => { v, fl := 0 }))
def execVlane (o : VLaneOp) : State → Host.Outcome State Fault Refusal :=
  plainOp (fun s =>
    let x := s.curDie
    s.vecOp o.vd o.m (fun n =>
      { v := match o.kind with
          | .lane => n
          | .rank => x.rank
          | .count => x.count
          | .glob => 128 * x.rank + n, fl := 0 }))

/-- The value that VKSET writes (R247). -/
def State.vksetValue (s : State) : VKsetOp → Word
  | .s _ a => s.s64 a
  | .lo _ ma => (s.curDie.mask ma).truncate 64
  | .hi _ ma => ((s.curDie.mask ma) >>> 64).truncate 64
  | .lane _ va a => BitVec.ofNat 64 (s.lane va ((s.s64 a).toNat % 128))
  | .pop _ ma m => BitVec.ofNat 64 (popBits ((s.curDie.mask ma) &&& (s.curDie.mask m)).toNat 128)
def vksetDest : VKsetOp → BitVec 3
  | .s kd _ | .lo kd _ | .hi kd _ => kd
  | .lane kd _ _ => kd
  | .pop kd _ _ => kd
def execVkset (o : VKsetOp) : State → Host.Outcome State Fault Refusal :=
  plainOp (fun s => s.updHere (·.setK (vksetDest o) (s.vksetValue o)))

/-- Each lane's value, or nothing where its mask bit is 0. -/
def State.laneOpts (s : State) (va : BitVec 5) (m : BitVec 3) : List (Option Nat) :=
  (List.range 128).map (fun n => if s.laneOn m n then some (s.lane va n) else none)
def execVred (o : VRedOp) : State → Host.Outcome State Fault Refusal :=
  plainOp (fun s =>
    let r := laneReduce o.kind o.t s.vrm 7 (s.laneOpts o.va o.m)
    s.updHere (fun x => (x.setK o.kd r.1).addFlags r.2))

/-! ### Accumulator access (R252 to R254) -/

/-- The row and column of a lane in a row group. -/
def State.accRowOf (s : State) (a : Src) (n : Nat) : Nat := 4 * ((s.s64 a).toNat % 8) + n / 32

/-- What VARD writes to a lane. -/
def State.vardLane (s : State) (o : VAccOp) (n : Nat) : FRes :=
  let r := s.curDie.accRow o.tile.toNat (s.accRowOf o.a n)
  let x := r.elem (n % 32)
  match o.mode with
  | .f32 => r.read (n % 32) Fmt.f32 s.vrm baseOne
  | .mlo => { v := x.m.toNat % 2 ^ 32, fl := 0 }
  | .mhi => { v := (wrap 32 (sext 24 (x.m.toNat / 2 ^ 32))).toNat, fl := 0 }
  | .e => { v := r.e.toNat + x.tag.toNat * 2 ^ 16 + r.h.toNat * 2 ^ 18 + (if r.fresh then 2 ^ 24 else 0), fl := 0 }

def execVard (o : VAccOp) : State → Host.Outcome State Fault Refusal :=
  slotOp (·.waitFor (.tiles [o.tile.toNat])) (fun s => s.vecOp o.vd o.m (s.vardLane o))

/-- A row that VAWR writes lane by lane, its enabled columns and their values given. -/
def AccRow.writeLanes (r : AccRow) (mode : AccMode) (ls : List (Nat × Nat)) : AccRow :=
  let one (q : AccRow × Bool) (e : Nat × Nat) : AccRow × Bool :=
    let x := q.1.elem e.1
    let v := BitVec.ofNat 32 e.2
    match mode with
    | .mlo => if x.tag = 0 then (q.1.setElem e.1 { x with m := x.m.extractLsb' 32 24 ++ v }, true) else q
    | .mhi =>
      if x.tag = 0 then (q.1.setElem e.1 { x with m := v.extractLsb' 0 24 ++ x.m.extractLsb' 0 32 }, true) else q
    | .e =>
      let tag := v.extractLsb' 16 2
      let y := q.1.setElem e.1 { m := if tag = 0 then x.m else 0, tag }
      (if e.1 = 0 then { y with e := v.extractLsb' 0 16 } else y, true)
    | .f32 => q
  let w := ls.foldl one (r, false)
  if w.2 then w.1.refit else r

/-- VAWR on the executing die context. -/
def State.vawr (s : State) (o : VAccOp) : State :=
  s.updHere (fun x => (List.range 4).foldl (fun (y : DieCtx) j =>
    let cols := (List.range 32).filter (fun i => s.laneOn o.m (32 * j + i))
    let row := s.accRowOf o.a (32 * j)
    let r := y.accRow o.tile.toNat row
    let vs := cols.map (fun i => (i, s.lane o.vd (32 * j + i)))
    match o.mode with
    | .f32 => if cols.length = 32 then y.setAccRow o.tile.toNat row (r.ofF32 (vs.map Prod.snd)) else y
    | mode => if cols.isEmpty then y else y.setAccRow o.tile.toNat row (r.writeLanes mode vs)) x)

def execVawr (o : VAccOp) : State → Host.Outcome State Fault Refusal :=
  slotOp (·.waitFor (.tiles [o.tile.toNat])) (·.vawr o)

/-! ### Flags and SIG (R255, R256) -/

def execVflg (o : VFlgOp) : State → Host.Outcome State Fault Refusal :=
  plainOp (fun s =>
    match o with
    | .rd kd => s.updHere (fun x => x.setK kd x.dflags)
    | .clr a => s.updHere (fun x => { x with dflags := x.dflags &&& ~~~(s.s64 a &&& 0x3F) })
    | .sat a => s.updHere (fun x => { x with dflags := (x.dflags &&& 0x3F) ||| ((s.s64 a &&& 0xFFFF) <<< 16) }))

/-- VSIG.rd waits until every earlier engine operation's event is folded; VSIG.set overwrites them (R407). -/
def execVsig (o : VSigOp) : State → Host.Outcome State Fault Refusal :=
  slotOp (fun s => match o with | .rd _ => s.waitFor .fold | .set _ => .ok)
    (fun s =>
      match o with
      | .rd kd => s.updHere (fun x => x.setK kd x.sig)
      | .set a => s.updHere (fun x => { x with sig := s.s64 a, folds := [] }))

end Sys2Proof.Machine
end

