-- ==== Sys2Proof/Machine/VecMem.lean ====
section
/-! DEFINITION. V slots that reach memory: die scratchpad, lane slices, cluster window and flat memory
(R249 to R251, R406, R407). -/

namespace Sys2Proof.Machine

/-! ### Die scratchpad, slices and cluster window (R249) -/

/-- S + 4n, or S + scale * ZeroExt(index). -/
def State.laneAddr (s : State) (a : Src) (n : Nat) : Word := s.s64 a + BitVec.ofNat 64 (4 * n)
def State.laneIndexed (s : State) (a : Src) (va : BitVec 5) (scale n : Nat) : Word :=
  s.s64 a + BitVec.ofNat 64 (scale * s.lane va n)

/-- The storage key of a die-scratchpad offset or window offset of the executing die. -/
def State.dieKey (s : State) (a : Word) : Nat := dieMemKey s.dieId.die a.toNat
def State.winKey (s : State) (a : Word) : Nat := windowKey (s.dieId.die / 4) a.toNat

/-- The checks of one lane's 4 bytes of die scratchpad; a load may meet an uncorrectable word, a store a part of one. -/
def State.padLane (s : State) (store : Bool) (a : Word) : Verdict :=
  (s.dieRange s.dieId a.toNat 4 4 false .prog a).andThen
    (if (if store then s.partialUE (s.dieKey a) 4 else s.hasUE (s.dieKey a) 4) then .ue (s.dieKey a) 4 a else .ok)
/-- The word of a die context's slices at an offset of a lane's slice, and the key that stands for it where a verdict names
storage: above every key of `State.mem` but host and peer ones. -/
def sliceCell (d : DieId) (lane off : Nat) : Cell := .slice d ((2048 * lane + off) / 8)
def sliceKey (d : DieId) (lane off : Nat) : Nat := 2 ^ 44 + d.key * 2 ^ 18 + 2048 * lane + off
/-- The checks of one lane's slice access; 4 bytes of a word in error are consumed, stored or loaded (R381, R402). -/
def State.sliceLane (s : State) (n : Nat) (a : Word) : Verdict :=
  if a.toNat % 4 ≠ 0 then .trap .addrAlign a 0 else if 2048 < a.toNat + 4 then .trap .addrBad a 0
  else if s.cellUE (· == sliceCell s.dieId n a.toNat) then .ue (sliceKey s.dieId n a.toNat) 4 a else .ok
/-- What a slice access logs. -/
def State.noteSlice (s : State) (n : Nat) (a : Word) : State := s.noteCells .data (· == sliceCell s.dieId n a.toNat)
/-- The checks of one lane's cluster-window access; a store that an odd rank does not perform reads no word (R406). -/
def State.winLane (s : State) (store : Bool) (a : Word) : Verdict :=
  if a.toNat % 4 ≠ 0 then .trap .addrAlign a 0
  else if 2 ^ 26 < a.toNat + 4 then .trap .addrBad a 0
  else if (if store then !s.suppressHere && s.partialUE (s.winKey a) 4 else s.hasUE (s.winKey a) 4) then .ue (s.winKey a) 4 a
  else .ok

/-- Bytes stored in a cluster window by a task: its first write to a bank that it took by hand-over ends idempotence
(R65, R101). -/
def State.windowStore (s : State) (t : TaskId) (c : CoreId) (key : Nat) (bs : List Byte) : State :=
  let o := key - 2 ^ 41
  let s := if (Table.get .free (s.die (o / 2 ^ 28)).banks (o % 2 ^ 28 / 2 ^ 20)).handed t then s.endIdem t (some c) else s
  s.storeBytes key bs

/-- A load of every enabled lane from storage keys. -/
def State.laneLoad (s : State) (vd : BitVec 5) (m : BitVec 3) (key : Nat → Nat) : State :=
  let t := s.vecOp vd m (fun n => { v := s.loadNat (key n) 4, fl := 0 })
  (s.lanesOn m).foldl (fun t n => t.noteRead .data (key n) 4) t

/-- A store of every enabled lane, in ascending order so that the highest lane's bytes remain (R135), with its event. -/
def State.laneStore (s : State) (vd : BitVec 5) (m : BitVec 3) (cls : Nat) (addr : Nat → Word)
    (put : State → Nat → List Byte → State) : State :=
  (s.lanesOn m).foldl (fun (t : State) n =>
    let t := put t n (bytesOfNat (s.lane vd n) 4)
    t.foldHere [sigTag cls (addr n).toNat, BitVec.ofNat 64 (s.lane vd n)]) s

def vLoadOp (vd : BitVec 5) (m : BitVec 3) (addr : State → Nat → Word) : State → Host.Outcome State Fault Refusal :=
  slotOp (fun s => lanesVerdict (s.lanesOn m) (fun n => s.padLane false (addr s n)))
    (fun s => s.laneLoad vd m (fun n => s.dieKey (addr s n)))
def vStoreOp (vd : BitVec 5) (m : BitVec 3) (addr : State → Nat → Word) : State → Host.Outcome State Fault Refusal :=
  slotOp (fun s => lanesVerdict (s.lanesOn m) (fun n => s.padLane true (addr s n)))
    (fun s => s.laneStore vd m 1 (addr s) (fun t n bs => t.padStore s.dieId (addr s n).toNat bs))

def execVld (o : VMemOp) : State → Host.Outcome State Fault Refusal := vLoadOp o.vd o.m (fun s => s.laneAddr o.a)
def execVst (o : VMemOp) : State → Host.Outcome State Fault Refusal := vStoreOp o.vd o.m (fun s => s.laneAddr o.a)
def execVgath (o : VGathOp) : State → Host.Outcome State Fault Refusal :=
  vLoadOp o.vd o.m (fun s => s.laneIndexed o.a o.va (2 ^ o.sc.toNat))
def execVscat (o : VGathOp) : State → Host.Outcome State Fault Refusal :=
  vStoreOp o.vd o.m (fun s => s.laneIndexed o.a o.va (2 ^ o.sc.toNat))

/-- A lane's slice offset, or its flat address: S for a slice and S + 4n for flat memory, indexed with .x. -/
def State.sliceAddr (s : State) (o : VIdxOp) (n : Nat) : Word := if o.x then s.laneIndexed o.a o.va 4 n else s.s64 o.a
def State.flatAddr (s : State) (o : VIdxOp) (n : Nat) : Word :=
  if o.x then s.laneIndexed o.a o.va 4 n else s.laneAddr o.a n

/-- A 4-byte word of a lane's slice. -/
def DieCtx.sliceWord (x : DieCtx) (lane off : Nat) : Nat := Memory.readNat x.slices (2048 * lane + off) 4
def DieCtx.setSlice (x : DieCtx) (lane off v : Nat) : DieCtx :=
  { x with slices := Memory.writeNat x.slices (2048 * lane + off) v 4 }

def execVldl (o : VIdxOp) : State → Host.Outcome State Fault Refusal :=
  slotOp (fun s => lanesVerdict (s.lanesOn o.m) (fun n => s.sliceLane n (s.sliceAddr o n)))
    (fun s => (s.lanesOn o.m).foldl (fun t n => t.noteSlice n (s.sliceAddr o n))
      (s.vecOp o.vd o.m (fun n => { v := s.curDie.sliceWord n (s.sliceAddr o n).toNat, fl := 0 })))
def execVstl (o : VIdxOp) : State → Host.Outcome State Fault Refusal :=
  slotOp (fun s => lanesVerdict (s.lanesOn o.m) (fun n => s.sliceLane n (s.sliceAddr o n)))
    (fun s => (s.lanesOn o.m).foldl (fun (t : State) n =>
      ((t.noteSlice n (s.sliceAddr o n)).updHere (fun x => x.setSlice n (s.sliceAddr o n).toNat (s.lane o.vd n))).foldHere
        [sigTag 2 (2048 * n + (s.sliceAddr o n).toNat), BitVec.ofNat 64 (s.lane o.vd n)]) s)

def execVldc (o : VMemOp) : State → Host.Outcome State Fault Refusal :=
  slotOp (fun s => lanesVerdict (s.lanesOn o.m) (fun n => s.winLane false (s.laneAddr o.a n)))
    (fun s => s.laneLoad o.vd o.m (fun n => s.winKey (s.laneAddr o.a n)))
def execVstc (o : VMemOp) : State → Host.Outcome State Fault Refusal :=
  slotOp (fun s => lanesVerdict (s.lanesOn o.m) (fun n => s.winLane true (s.laneAddr o.a n)))
    (fun s => s.laneStore o.vd o.m 3 (s.laneAddr o.a) (fun t n bs =>
      if s.suppressHere then t
      else t.windowStore (s.dieTask s.dieId) (s.partOf s.dieId) (s.winKey (s.laneAddr o.a n)) bs))

/-! ### Flat memory (R251) -/

/-- The place that a die's flat access reaches, or its fault, in the order of R251, and of R439 in region 0xE. An atomic to a block of the own die's
banks needs the block in the program's hands (R147). -/
def State.diePlace (s : State) (ea : Word) (acc : Access) : Except Verdict Place :=
  let a := ea.toNat
  let reg := a / 2 ^ 52 % 16
  let bad : Except Verdict Place := .error (.trap .addrBad ea 0)
  if acc = .atomic && reg = 0xE && a < 2 ^ 56 then .error (.trap .atomTarget ea 0)
  else if a % 4 ≠ 0 then .error (.trap .addrAlign ea 0)
  else if acc = .atomic && 0xC ≤ reg && reg ≤ 0xE then .error (.trap .atomTarget ea 0)
  else if 2 ^ 56 ≤ a then bad
  else if reg < 8 then s.translate (.die s.dieId) (s.launch (s.dieTask s.dieId).lid).func a acc.writes ea
  else if reg = 9 then (landPlace a).elim bad .ok
  else if reg = 0xA then
    match directPlace a with
    | some (.bank d off) =>
      if !s.ownsBank (s.dieTask s.dieId) d (off / 2 ^ 20) then .error (.trap .bankOwn ea 0)
      else if acc = .atomic && d = s.dieId.die && !s.blockOk s.dieId false .prog (off / 4096) then
        .error (.trap .ownState ea 0)
      else .ok (.bank d off)
    | some p => .ok p
    | none => bad
  else bad

/-- Whether a read of a place meets an uncorrectable word, and whether a store meets one that it writes in part
(R381, R402). -/
def State.flatUE (s : State) (t : TaskId) (pl : Place) (n : Nat) : Bool :=
  match pl with
  | .hbm p => s.dramUE (s.heldForDie t) p n || s.cellUE (s.dieCells t p n)
  | .host _ => false
  | pl => s.hasUE pl.key n
def State.flatPartUE (s : State) (t : TaskId) (pl : Place) (n : Nat) : Bool :=
  match pl with
  | .hbm p => s.dramPartUE (s.heldForDie t) p n || (partWords p n).any (fun wk => s.cellUE (s.dieCells t (8 * wk) 8))
  | .host _ => false
  | pl => s.partialUE pl.key n
/-- What a read of a place logs: the words that it reads from storage (R401). -/
def State.noteFlat (s : State) (t : TaskId) (pl : Place) (n : Nat) : State :=
  match pl with
  | .hbm p =>
    let t' := s.noteCells .data (s.dieCells t p n)
    if (List.range n).all (fun i => s.heldForDie t (p + i)) then t' else t'.noteRead .data (hbmKey p) n
  | .host _ => s
  | pl => s.noteRead .data pl.key n

/-- The bytes that a die or engine of a task loads from a place. -/
def State.flatRead (s : State) (t : TaskId) (pl : Place) (n : Nat) : List Byte :=
  match pl with
  | .hbm p => (List.range n).map (fun i => s.dieHbmByte t (p + i))
  | .host a => if (s.hostError a n).isSome then List.replicate n 255 else s.loadBytes (hostKey a) n
  | pl => (List.range n).map (fun i => s.homeByte t (pl.key + i))

/-- Bytes stored by a die or an engine of a task: staged while NONIDEM is 0, else at the L2 or at their home. -/
def State.flatWrite (s : State) (t : TaskId) (pl : Place) (bs : List Byte) : State :=
  let stage := !s.nonidem t
  match pl with
  | .hbm p => if stage then s.stageBytes t (hbmKey p) bs else s.l2Write p bs
  | .land b => if stage then s.stageBytes t (landKey b) bs else s.storeBytes (landKey b) bs
  | pl => s.storeBytes pl.key bs

def isDirect (pl : Place) : Bool :=
  match pl with
  | .bank _ _ | .window _ => true
  | _ => false

/-- The place of a lane, where its checks have passed. -/
def State.lanePlace (s : State) (o : VIdxOp) (acc : Access) (n : Nat) : Place :=
  match s.diePlace (s.flatAddr o n) acc with
  | .ok p => p
  | .error _ => .csr 0

/-- Granules that the enabled lanes up to `n` would stage. -/
def State.laneGranules (s : State) (o : VIdxOp) (n : Nat) : List Nat :=
  ((s.lanesOn o.m).filter (· ≤ n)).flatMap (fun i => stageKeys (s.lanePlace o .store i) 4)

/-- The check of one lane of a flat access. -/
def State.flatLane (s : State) (o : VIdxOp) (acc : Access) (n : Nat) : Verdict :=
  let ea := s.flatAddr o n
  let t := s.dieTask s.dieId
  match s.diePlace ea acc with
  | .error v => v
  | .ok pl =>
    let staging := acc = .store && !s.nonidem t && !isDirect pl && !s.suppressHere
    if staging && s.stageFull t (s.laneGranules o n) then .trap .stageFull ea 0
    else if acc != .load && s.suppressHere then .ok
    else if (if acc = .store then s.flatPartUE t pl 4 else s.flatUE t pl 4) then .ue pl.key 4 ea
    else .ok

/-- The walks of the enabled lanes, and what they log (R401). -/
def State.noteLanes (s : State) (o : VIdxOp) (t : State) : State :=
  (s.lanesOn o.m).foldl (fun t n => t.noteWalk (s.launch (s.dieTask s.dieId).lid).func (s.flatAddr o n)) t

def execVldf (o : VIdxOp) : State → Host.Outcome State Fault Refusal :=
  slotOp (fun s => lanesVerdict (s.lanesOn o.m) (s.flatLane o .load))
    (fun s =>
      let t := s.vecOp o.vd o.m (fun n =>
        { v := natOfBytes (s.flatRead (s.dieTask s.dieId) (s.lanePlace o .load n) 4), fl := 0 })
      s.noteLanes o
        ((s.lanesOn o.m).foldl (fun t n => t.noteFlat (s.dieTask s.dieId) (s.lanePlace o .load n) 4) t))

/-- R127 for the task of the executing die. -/
def State.dieEndIdem (s : State) : State := s.endIdem (s.dieTask s.dieId) (some (s.partOf s.dieId))

def execVstf (o : VIdxOp) : State → Host.Outcome State Fault Refusal :=
  slotOp (fun s => lanesVerdict (s.lanesOn o.m) (s.flatLane o .store))
    (fun s =>
      let performs := !s.suppressHere
      let s0 := if performs && (s.lanesOn o.m).any (fun n => isDirect (s.lanePlace o .store n)) then s.dieEndIdem else s
      s.noteLanes o <| (s.lanesOn o.m).foldl (fun (t : State) n =>
        let t := if performs then
            t.flatWrite (s.dieTask s.dieId) (s.lanePlace o .store n) (bytesOfNat (s.lane o.vd n) 4)
          else t
        t.foldHere [sigTag 3 (s.flatAddr o n).toNat, BitVec.ofNat 64 (s.lane o.vd n)]) s0)

/-- The new value of a VAMO. -/
def amoValue (k : AmoKind) (sgn : Bool) (rm old b : Nat) : Nat :=
  let less (x y : Nat) : Bool := if sgn then sext 32 x < sext 32 y else x < y
  match k with
  | .add => (old + b) % 2 ^ 32
  | .and => old &&& b
  | .or => old ||| b
  | .xor => old ^^^ b
  | .min => if less b old then b else old
  | .max => if less old b then b else old
  | .xch => b
  | .fadd => (Fmt.f32.add rm old b).v

/-- One lane's atomic: the old value and the state after it. HBM is reached at the L2 (R147). -/
def State.amoAt (s : State) (pl : Place) (f : Nat → Nat) : Nat × State :=
  match pl with
  | .hbm p =>
    let old := natOfBytes ((List.range 4).map (fun i => s.l2Byte (p + i)))
    let held := (List.range 4).all (fun i => (Table.find? s.l2 (p + i)).isSome)
    let s := s.noteCells .data (s.dieCells (s.dieTask s.dieId) p 4)
    (old, (if held then s else s.noteRead .data (hbmKey p) 4).l2Write p (bytesOfNat (f old) 4))
  | pl =>
    let old := s.loadNat pl.key 4
    (old, (s.noteRead .data pl.key 4).storeBytes pl.key (bytesOfNat (f old) 4))

/-- The lanes of a VAMO in ascending order: the old values of each lane, the state after them. -/
def State.amoLanes (s : State) (o : VAmoOp) : List Nat → State → PMap Nat → PMap Nat × State
  | [], t, olds => (olds, t)
  | n :: rest, t, olds =>
    let r := t.amoAt (s.lanePlace o.o .atomic n) (fun old => amoValue o.kind o.sgn s.vrm old (s.lane o.o.vd n))
    s.amoLanes o rest r.2 (Table.insert olds n r.1)

def execVamo (o : VAmoOp) : State → Host.Outcome State Fault Refusal :=
  slotOp (fun s => lanesVerdict (s.lanesOn o.o.m) (s.flatLane o.o .atomic))
    (fun s =>
      let lanes := s.lanesOn o.o.m
      let events (t : State) : State := lanes.foldl (fun (t : State) n =>
        t.foldHere [sigTag 5 (s.flatAddr o.o n).toNat, BitVec.ofNat 64 (s.lane o.o.vd n)]) t
      if s.suppressHere then events s
      else
        let r := s.amoLanes o lanes s.dieEndIdem []
        (s.noteLanes o.o (events r.2)).vecOp o.o.vd o.o.m (fun n => { v := Table.get 0 r.1 n, fl := 0 }))

end Sys2Proof.Machine
end

