-- ==== Sys2Proof/Machine/Quant.lean ====
section
/-! DEFINITION. Block formats: N4X rows, tile images, plane form, and VBSCL, VQNT and VDQNT (R80 to R86, R283 to
R287). -/

namespace Sys2Proof.Machine

/-! ### Formats -/

/-- Format codes of R85 and R118. -/
def blkCode : BlkFmt → Nat
  | .b8 => 1
  | .b16 => 2
  | .n4x => 3
/-- Bytes of a tile of `n` elements in a format of R118. -/
def fmtBytes (fmt n : Nat) : Nat :=
  match fmt with
  | 1 | 9 => n
  | 3 => n / 2
  | 4 | 7 => 4 * n
  | _ => 2 * n
def isBlock (fmt : Nat) : Bool := 1 ≤ fmt && fmt ≤ 3

/-- X8 (R83) is a float with four exponent and three fraction bits. -/
def fmtX8 : Fmt := { eb := 4, mb := 3 }

/-- A decoded slot of a segment (R82): its value, an outlier with its code, an outlier's payload, a malformed escape. -/
inductive N4 where
  | val (x : Int)
  | out (code : Nat)
  | pad
  | esc
  deriving DecidableEq, Repr

/-- DecodeSegment (R82): an outlier needs two more slots of its segment. -/
def decodeSegment : List Nat → List N4
  | 8 :: a :: b :: rest => .out (16 * a + b) :: .pad :: .pad :: decodeSegment rest
  | 8 :: rest => .esc :: decodeSegment rest
  | x :: rest => .val (sext 4 x) :: decodeSegment rest
  | [] => []

/-- The slots of a row of N4X bytes. -/
def slotsOf (bs : List Byte) : List Nat := bs.flatMap (fun b => [b.toNat % 16, b.toNat / 16])
/-- A row decoded segment by segment; `n` bounds the segments. -/
def decodeRow : Nat → List Nat → List N4
  | 0, _ => []
  | n + 1, l => decodeSegment (l.take 8) ++ decodeRow n (l.drop 8)
/-- The value of a decoded slot: every zero, an outlier's too, is +0 (R80). A NaN outlier sets no flag: X8 has no signalling
NaN (R80, R83; log 39). -/
def N4.value : N4 → FVal
  | .val x => fOfInt x
  | .out c => match fmtX8.decode c with
    | .nan _ => .nan false
    | .fin _ 0 _ => .fin false 0 0
    | v => v
  | .pad | .esc => .fin false 0 0

/-- Every element of a block tile in row-major order. -/
def tileN4 (t : Nat) (bs : List Byte) : List N4 := decodeRow (t * t / 8) (slotsOf bs)
/-- Pairs of bytes as signed 16-bit numbers. -/
def pairInts : List Byte → List Int
  | a :: b :: rest => sext 16 (a.toNat + 256 * b.toNat) :: pairInts rest
  | _ => []
def blockValues (fmt t : Nat) (bs : List Byte) : List FVal :=
  match fmt with
  | 1 => bs.map (fun b => fOfInt b.toInt)
  | 2 => (pairInts bs).map fOfInt
  | _ => (tileN4 t bs).map N4.value

/-- A malformed escape among the slots (R84). -/
def hasEscape (fmt t : Nat) (bs : List Byte) : Bool := fmt == 3 && (tileN4 t bs).any (· == .esc)

/-- The 64-byte header of R85. -/
def header (code fmt t mal : Nat) : List Byte :=
  [BitVec.ofNat 8 code, BitVec.ofNat 8 fmt, BitVec.ofNat 8 t, BitVec.ofNat 8 mal] ++ List.replicate 60 0

/-! ### Plane form (R85) -/

/-- The slot value of each element as the planes hold it, in `n` bits. -/
def slotValues (fmt t : Nat) (bs : List Byte) : List Nat :=
  match fmt with
  | 1 => bs.map BitVec.toNat
  | 2 => (pairInts bs).map (fun x => (x % 65536).toNat)
  | _ => (tileN4 t bs).map (fun x => match x with | .val v => (v % 16).toNat | _ => 0)

/-- Plane `p` of the rows: each row a T-bit little-endian word. -/
def planeBytes (t p : Nat) (vals : List Nat) : List Byte :=
  (List.range t).flatMap (fun i =>
    bytesOfNat (((vals.drop (t * i)).take t).zipIdx.foldl (fun a e => a + (if e.1.testBit p then 2 ^ e.2 else 0)) 0) (t / 8))

/-- The outlier side list of a row: eight entries. -/
def sideList (row : List N4) : List Byte :=
  let es := row.zipIdx.filterMap (fun e => match e.1 with
    | .out c => some (2 ^ 15 + e.2 * 256 + c)
    | _ => none)
  (es ++ List.replicate (8 - es.length) 0).flatMap (fun w => bytesOfNat w 2)

/-- Planes of a format. -/
def planesOf (fmt : Nat) : Nat :=
  match fmt with
  | 1 => 8
  | 2 => 16
  | _ => 4

/-- The plane form of a tile; a poisoned one carries 0 in header byte 3 (R84). -/
def planeImage (fmt t code : Nat) (bs : List Byte) : List Byte :=
  let vals := slotValues fmt t bs
  header code fmt t (if code != 255 && hasEscape fmt t bs then 1 else 0)
    ++ (List.range (planesOf fmt)).flatMap (fun p => planeBytes t p vals)
    ++ (if fmt = 3 then (List.range t).flatMap (fun i => sideList (((tileN4 t bs).drop (t * i)).take t)) else [])

/-! ### Quantisation (R283 to R287) -/

def sideOf (t32 : Bool) : Nat := if t32 then 32 else 16
/-- The f32 elements of the group at a vector register, row-major. -/
def State.group (s : State) (va : BitVec 5) (t : Nat) : List Nat :=
  (List.range (t * t / 128)).flatMap (fun r => (List.range 128).map (fun n => s.lane (va + BitVec.ofNat 5 r) n))
def FVal.finite : FVal → Bool
  | .fin _ _ _ => true
  | _ => false

/-- Whether `m * 2^e` is at most `l * 2^k`. -/
def leScaled (m : Nat) (e : Int) (l : Nat) (k : Int) : Bool :=
  m * 2 ^ (e - min e k).toNat ≤ l * 2 ^ (k - min e k).toNat
/-- The smallest `s` with `m * 2^e <= l * 2^(k+s)`, for m not 0. -/
def leastScale (m : Nat) (e : Int) (l : Nat) (k : Int) : Int :=
  let s0 : Int := (Nat.log2 m : Nat) + e - (Nat.log2 l : Nat) - k - 1
  if leScaled m e l (k + s0) then s0
  else if leScaled m e l (k + s0 + 1) then s0 + 1
  else s0 + 2

/-- The larger of two finite magnitudes. -/
def maxMag (a b : Nat × Int) : Nat × Int := if leScaled a.1 a.2 b.1 b.2 then b else a

/-- The scale code of VBSCL (R285). -/
def scaleCode (fmt : BlkFmt) (h : Nat) (xs : List FVal) : Nat :=
  let mags := xs.filterMap (fun x => match x with | .fin _ m e => if m = 0 then none else some (m, e) | _ => none)
  match mags with
  | [] => 0
  | g :: gs =>
    let mx := gs.foldl maxMag g
    let s := match fmt with
      | .b8 => leastScale mx.1 mx.2 127 0
      | .b16 => leastScale mx.1 mx.2 32767 0
      | .n4x => leastScale mx.1 mx.2 15 ((h : Int) - 1)
    (satInt (127 + s) 0 254).toNat

def execVbscl (o : VQntOp) : State → Host.Outcome State Fault Refusal :=
  plainOp (fun s =>
    let c := scaleCode o.fmt (min ((s.s64 o.a).toNat % 8) 5) ((s.group o.va (sideOf o.t32)).map Fmt.f32.decode)
    s.updHere (·.setK o.kd (BitVec.ofNat 64 c)))

/-- Quantised elements so far: bytes or slots, saturations, poison. -/
structure Quant where
  out : List Nat
  sat : Nat
  poison : Bool
  deriving DecidableEq, Repr

/-- X8Enc (R286): the code and whether it saturates. -/
def x8Encode (x : FVal) (c : Int) : Nat × Nat :=
  match x with
  | .nan _ => (0x7F, 0)
  | .inf n => (if n then 0xF8 else 0x78, 0)
  | .fin n m e =>
    if leScaled m (e - c) 240 0 then ((fmtX8.round 0 n m (e - c)).v, 0) else (if n then 0xF7 else 0x77, 1)
/-- Drop (R286). -/
def dropElem (x : FVal) (c : Int) (q : Quant) : Quant :=
  if !x.finite then { q with poison := true } else if x.scaled c != 0 then { q with sat := q.sat + 1 } else q

/-- One N4X segment (R286); `c` is the scale exponent. -/
def quantSegment (c : Int) : List FVal → Quant
  | [] => { out := [], sat := 0, poison := false }
  | x :: y :: z :: rest =>
    if x.finite && (x.scaled c).natAbs ≤ 7 then
      let q := quantSegment c (y :: z :: rest)
      { q with out := (x.scaled c % 16).toNat :: q.out }
    else
      let e := x8Encode x c
      let q := quantSegment c rest
      dropElem z c (dropElem y c
        { q with out := 8 :: e.1 / 16 :: e.1 % 16 :: q.out, sat := q.sat + e.2 })
  | x :: rest =>
    let q := quantSegment c rest
    if x.finite && (x.scaled c).natAbs ≤ 7 then { q with out := (x.scaled c % 16).toNat :: q.out }
    else if x.finite then { q with out := (satInt (x.scaled c) (-7) 7 % 16).toNat :: q.out, sat := q.sat + 1 }
    else { q with out := 0 :: q.out, poison := true }
/-- Segments one after another. -/
def quantSegments (c : Int) : Nat → List FVal → Quant
  | 0, _ => { out := [], sat := 0, poison := false }
  | n + 1, l =>
    let a := quantSegment c (l.take 8)
    let b := quantSegments c n (l.drop 8)
    { out := a.out ++ b.out, sat := a.sat + b.sat, poison := a.poison || b.poison }
/-- Pairs of slots as bytes. -/
def packSlots : List Nat → List Byte
  | a :: b :: rest => BitVec.ofNat 8 (a + 16 * b) :: packSlots rest
  | _ => []
/-- B8 and B16: each element rounded and saturated to `w` bits. -/
def quantInts (w : Nat) (c : Int) (xs : List FVal) : Quant :=
  { out := xs.map (fun x => (satInt (x.scaled c) (intLo true w) (intHi true w) % (2 ^ w : Nat)).toNat),
    sat := (xs.filter (fun x => x.scaled c < intLo true w || intHi true w < x.scaled c)).length,
    poison := xs.any (fun x => !x.finite) }

/-- The element bytes of a tile, the saturations, and whether it is poisoned. -/
def quantTile (fmt : BlkFmt) (t c : Nat) (xs : List FVal) : List Byte × Nat × Bool :=
  let e : Int := (c : Int) - 127
  match fmt with
  | .b8 =>
    let q := quantInts 8 e xs
    (q.out.flatMap (fun v => bytesOfNat v 1), q.sat, q.poison)
  | .b16 =>
    let q := quantInts 16 e xs
    (q.out.flatMap (fun v => bytesOfNat v 2), q.sat, q.poison)
  | .n4x =>
    let q := quantSegments e (t * t / 8) xs
    (packSlots q.out, q.sat, q.poison)

/-- SATCNT raised, up to 0xFFFF (R78). -/
def DieCtx.addSat (x : DieCtx) (n : Nat) : DieCtx :=
  { x with dflags := (x.dflags &&& 0xFFFF) ||| (BitVec.ofNat 64 (min (field x.dflags 16 16 + n) 0xFFFF) <<< 16) }

/-- Bytes of an image. -/
def imageSize (fmt : BlkFmt) (t : Nat) : Nat := 64 + fmtBytes (blkCode fmt) (t * t)

/-- The image that VQNT writes, its scale code, and the saturations counted. -/
def State.vqntImage (s : State) (o : VQntOp) : List Byte × Nat × Nat :=
  let t := sideOf o.t32
  let c := (s.curDie.kreg o.kd).toNat % 256
  let n := fmtBytes (blkCode o.fmt) (t * t)
  let q := quantTile o.fmt t c ((s.group o.va t).map Fmt.f32.decode)
  if c = 255 || q.2.2 then (header 255 (blkCode o.fmt) t 0 ++ List.replicate n 0, 255, 0)
  else (header c (blkCode o.fmt) t 0 ++ q.1, c, q.2.1)

/-- The range of an image, and an uncorrectable word that a store of it meets in part. -/
def State.imageStoreVerdict (s : State) (off : Word) (n : Nat) : Verdict :=
  (s.dieRange s.dieId off.toNat n 64 false .prog off).andThen
    (if s.partialUE (s.dieKey off) n then .ue (s.dieKey off) n off else .ok)
def State.imageLoadVerdict (s : State) (off : Word) (n : Nat) : Verdict :=
  (s.dieRange s.dieId off.toNat n 64 false .prog off).andThen (s.ueVerdict (s.dieKey off) n off)

/-- An image written, with its event (R407). -/
def State.storeImage (s : State) (off : Word) (bs : List Byte) : State :=
  (s.padStore s.dieId off.toNat bs).foldHere (sigTag 1 off.toNat :: wordsOfBytes bs)

def execVqnt (o : VQntOp) : State → Host.Outcome State Fault Refusal :=
  slotOp (fun s => s.imageStoreVerdict (s.s64 o.a) (imageSize o.fmt (sideOf o.t32)))
    (fun s =>
      let r := s.vqntImage o
      (s.storeImage (s.s64 o.a) r.1).updHere (fun x => (x.setK o.kd (BitVec.ofNat 64 r.2.1)).addSat r.2.2))

/-- A dequantised element (R80). -/
def dequant (rm : Nat) (code : Nat) (base : FVal) (x : FVal) : FRes :=
  let y : FVal := match x with
    | .fin n m e => .fin n m (e + (code : Int) - 127)
    | x => x
  let p := fMul y base
  Fmt.f32.encode rm p.1 p.2

/-- The checks of VDQNT: the header's range, its format and side, then the whole image. -/
def State.vdqntVerdict (s : State) (o : VDqntOp) : Verdict :=
  let off := s.s64 o.a
  let t := sideOf o.t32
  (s.imageLoadVerdict off 64).andThen
    (let fmt := s.loadNat (s.dieKey off + 1) 1
     if !isBlock fmt || s.loadNat (s.dieKey off + 2) 1 ≠ t then .trap .tileFmt off 0
     else s.imageLoadVerdict off (64 + fmtBytes fmt (t * t)))

/-- The group of registers at vd replaced by the lanes of a list. -/
def DieCtx.setGroup (x : DieCtx) (vd : BitVec 5) (vs : List Nat) : DieCtx :=
  (List.range (vs.length / 128)).foldl (fun (y : DieCtx) r =>
    y.setV (vd + BitVec.ofNat 5 r) (packLanes ((vs.drop (128 * r)).take 128))) x

def execVdqnt (o : VDqntOp) : State → Host.Outcome State Fault Refusal :=
  slotOp (·.vdqntVerdict o)
    (fun s =>
      let k := s.dieKey (s.s64 o.a)
      let t := sideOf o.t32
      let code := s.loadNat k 1
      let fmt := s.loadNat (k + 1) 1
      let n := fmtBytes fmt (t * t)
      let bs := s.loadBytes (k + 64) n
      let base := match o.base with
        | some kr => Fmt.f32.decode ((s.curDie.kreg kr).toNat % 2 ^ 32)
        | none => Fmt.f32.decode baseOne
      let rs := if code = 255 then List.replicate (t * t) { v := Fmt.f32.nan, fl := 0 }
        else (blockValues fmt t bs).map (dequant s.vrm code base)
      let fl := rs.foldl (fun (a : BitVec 5) (r : FRes) => a ||| r.fl) 0
      let esc : Bool := code != 255 && hasEscape fmt t bs
      (s.noteRead .data k (64 + n)).updHere (fun x =>
        let y := (x.setGroup o.vd (rs.map (fun (r : FRes) => r.v))).addFlags fl
        if esc then { y with dflags := y.dflags ||| 32 } else y))

end Sys2Proof.Machine
end

