-- ==== Sys2Proof/Machine/Tensor.lean ====
section
/-! DEFINITION. Tensors: table entries, tiles in frames, shadow frames, and the images that transfers read and write
(R116 to R125, R295 to R297). -/

namespace Sys2Proof.Machine

/-! ### Tensor table entries (R117 to R119) -/

def tFmt (e : BitVec 512) : Nat := field e 32 8
def tSide (e : BitVec 512) : Nat := if e.getLsbD 43 then 32 else 16
def tNdim (e : BitVec 512) : Nat := field e 40 3
def tExt (e : BitVec 512) (i : Nat) : Nat := field e (128 + 32 * i) 32
def tTtp (e : BitVec 512) : Nat := field e 320 64
/-- Tile size S, tiles of a frame N, tile columns and rows, and the tile count of a tensor. -/
def tSize (e : BitVec 512) : Nat := fmtBytes (tFmt e) (tSide e * tSide e)
def tPerFrame (e : BitVec 512) : Nat := 64512 / max 1 (tSize e)
def tCols (e : BitVec 512) : Nat := (tExt e 0 + tSide e - 1) / tSide e
def tRows (e : BitVec 512) : Nat := (tExt e 1 + tSide e - 1) / tSide e
def tTiles (e : BitVec 512) : Nat := tCols e * tRows e * tExt e 2 * tExt e 3 * tExt e 4
/-- Bytes of an image in the scratchpad: .raw, and the plane form. -/
def rawStride (e : BitVec 512) : Nat := 64 + tSize e
def planeStride (e : BitVec 512) : Nat := stagedSize (tFmt e) (tSide e) true

/-- Entry `tid` of the launch's tensor table; an empty one has FMT 0 (R117). -/
def Launch.tensor (l : Launch) (tid : BitVec 12) : BitVec 512 := l.tensors.getD tid.toNat 0
def State.tensorOf (s : State) (u : UnitId) (tid : BitVec 12) : BitVec 512 := (s.unitLaunch u).tensor tid

/-- The comparison of R121: an empty entry holds no current handle. -/
def State.handleVerdict (s : State) (fmt : Nat) (h : BitVec 32) : Verdict :=
  if fmt = 0 || !s.handleCurrent h then .trap .handleStale 0 0 else .ok

/-! ### Tiles in frames (R119, R120, R124) -/

def frameTile (f : BitVec 24) (slot size : Nat) : Nat := hbmKey (frameBase f + 1024 + slot * size)
def frameCode (f : BitVec 24) (slot : Nat) : Nat := hbmKey (frameBase f + slot)

/-- The shadow of a task for a tile-table entry. -/
def State.shadowOf (s : State) (t : TaskId) (entry : Nat) : Option Shadow := Table.find? (s.task t).shadows entry
/-- The frame that a task's own transfer reads for a captured tile. -/
def State.readFrame (s : State) (t : TaskId) (tl : Tile) : BitVec 24 :=
  match s.shadowOf t tl.entry with
  | some sh => sh.frame
  | none => tl.frame

/-- Element positions of tile number `n` that lie inside the extents. -/
def inside (e : BitVec 512) (n i j : Nat) : Bool :=
  let t := tSide e
  let cx := n % max 1 (tCols e)
  let cy := n / max 1 (tCols e) % max 1 (tRows e)
  cx * t + j < tExt e 0 && cy * t + i < tExt e 1

/-- Which N4X slots of a tile stand for elements inside the extents: an outlier's payload goes with the outlier (R82,
R119). -/
def keepSlots : Bool → List (Bool × N4) → List Bool
  | _, [] => []
  | last, (ins, x) :: rest =>
    let k := if x = .pad then last else ins
    k :: keepSlots k rest
/-- Elements beyond the extents as zero (R119): N4X slots two to a byte, wider elements byte by byte. -/
def edgeZero (e : BitVec 512) (n : Nat) (bs : List Byte) : List Byte :=
  let t := tSide e
  let w := tSize e / (t * t)
  if tFmt e = 3 then
    let keep := keepSlots false ((tileN4 t bs).zipIdx.map (fun x => (inside e n (x.2 / t) (x.2 % t), x.1)))
    packSlots (((slotsOf bs).zip keep).map (fun x => if x.2 then x.1 else 0))
  else
    bs.zipIdx.map (fun x =>
      let k := x.2 / max 1 w
      if inside e n (k / t) (k % t) then x.1 else 0)

/-- The scale code and the element bytes of a captured tile, as a task's transfer reads them; the edge reads as zero in a
poisoned tile too (R296; log 44). -/
def State.tileRead (s : State) (t : TaskId) (e : BitVec 512) (n : Nat) (tl : Tile) : Nat × List Byte :=
  let f := s.readFrame t tl
  (if isBlock (tFmt e) then s.loadNat (frameCode f tl.slot) 1 else 0,
   edgeZero e n (s.loadBytes (frameTile f tl.slot (tSize e)) (tSize e)))

/-- An uncorrectable word in a tile or its code: the key and length of the bytes. -/
def State.tileUE (s : State) (t : TaskId) (e : BitVec 512) (tl : Tile) : Option (Nat × Nat) :=
  let f := s.readFrame t tl
  if s.hasUE (frameTile f tl.slot (tSize e)) (tSize e) then some (frameTile f tl.slot (tSize e), tSize e)
  else if isBlock (tFmt e) && s.hasUE (frameCode f tl.slot) 1 then some (frameCode f tl.slot, 1)
  else none

/-- What a read of a tile logs: its elements, and its code when it has one (R401). -/
def State.noteTile (s : State) (t : TaskId) (e : BitVec 512) (tl : Tile) : State :=
  let f := s.readFrame t tl
  let s := s.noteRead .data (frameTile f tl.slot (tSize e)) (tSize e)
  if isBlock (tFmt e) then s.noteRead .data (frameCode f tl.slot) 1 else s

/-- The image of a tile that a copy in writes (R296), and whether it decodes a malformed escape (R84). -/
def State.imageOf (s : State) (t : TaskId) (e : BitVec 512) (planes : Bool) (n : Nat) (tl : Tile) : List Byte × Bool :=
  let r := s.tileRead t e n tl
  if planes then
    (planeImage (tFmt e) (tSide e) r.1 r.2, r.1 != 255 && hasEscape (tFmt e) (tSide e) r.2)
  else (header r.1 (tFmt e) (tSide e) 0 ++ r.2, false)

/-! ### Shadow frames (R124) -/

/-- Entries among some tiles that a task has still to stage. -/
def State.newEntries (s : State) (t : TaskId) (ts : List Tile) : List Tile :=
  (ts.foldl (fun (acc : List Tile) tl => if acc.any (fun x => x.entry == tl.entry) then acc else acc ++ [tl]) []).filter
    (fun tl => (s.shadowOf t tl.entry).isNone)

/-- STAGE_FULL (R124): too many shadow frames, or a pool without a free frame. -/
def State.stageVerdict (s : State) (t : TaskId) (ts : List Tile) : Verdict :=
  let fresh := s.newEntries t ts
  let short := fresh.any (fun tl =>
    s.poolFree (frameStack tl.frame)
      < (fresh.filter (fun x => frameStack x.frame == frameStack tl.frame)).length)
  if s.nonidem t then .ok
  else if 16384 < (s.task t).shadows.length + fresh.length || short then .trap .stageFull 0 0 else .ok

/-- Whether staging some tiles copies a frame that holds an uncorrectable word: its data enters a tensor frame (R381). -/
def State.stageUE (s : State) (t : TaskId) (ts : List Tile) : Bool :=
  !s.nonidem t && (s.newEntries t ts).any (fun tl => s.hasUE (hbmKey (frameBase tl.frame)) 65536)
/-- A shadow frame taken for a captured tile, from the pool of the captured frame's stack (log 40): a copy of the whole
captured frame. -/
def State.stageFrame (s : State) (t : TaskId) (e : BitVec 512) (tl : Tile) : State :=
  match s.poolTake (frameStack tl.frame) with
  | none => s
  | some (f, s) =>
    (s.copyHbm (frameBase tl.frame) (frameBase f) 65536).updTask t (fun x =>
      { x with shadows := Table.insert x.shadows tl.entry
                  { frame := f, ver := tl.ver, tiles := [], size := tSize e, block := isBlock (tFmt e),
                    handle := tHandle e } })
/-- Shadow frames for the tiles of a copy out, while NONIDEM is 0. -/
def State.stageFrames (s : State) (t : TaskId) (e : BitVec 512) (ts : List Tile) : State :=
  if s.nonidem t then s else (s.newEntries t ts).foldl (fun s tl => s.stageFrame t e tl) s

/-- The frame that a copy out writes: the task's shadow, or the committed frame that the tile-table entry names now
(R125, R297); of a tensor freed meanwhile, the frame captured (R123). -/
def State.writeFrame (s : State) (t : TaskId) (e : BitVec 512) (tl : Tile) : BitVec 24 :=
  match s.shadowOf t tl.entry with
  | some sh => sh.frame
  | none => if s.handleCurrent (tHandle e) then ttFrame (s.ttEntry tl.entry) else tl.frame

/-- A tile written by a copy out: into the shadow with its mark, or into the committed frame (R122, R125, R297). -/
def State.tileWrite (s : State) (t : TaskId) (e : BitVec 512) (n : Nat) (tl : Tile) (code : Byte) (bs : List Byte) : State :=
  let f := s.writeFrame t e tl
  let put (s : State) (key : Nat) (bs : List Byte) : State := s.dramWrite key bs
  let s := if isBlock (tFmt e) then put s (frameCode f tl.slot) [code] else s
  let s := put s (frameTile f tl.slot (tSize e)) (edgeZero e n bs)
  match s.shadowOf t tl.entry with
  | some sh => s.updTask t (fun x =>
      { x with shadows := Table.insert x.shadows tl.entry { sh with tiles := Table.insert sh.tiles tl.slot () } })
  | none => s

/-! ### Captures (R122, R123, R294) -/

/-- The capture of tile number `n`: its entry's address and slot, V, FRAME and VER. -/
def State.capture (s : State) (e : BitVec 512) (n : Nat) : Tile :=
  let a := tTtp e + 8 * (n / max 1 (tPerFrame e))
  let w := s.ttEntry a
  { entry := a, slot := n % max 1 (tPerFrame e), v := ttV w, frame := ttFrame w, ver := ttVer w }

/-- Frames kept for captures that nothing holds any more return to their pools (R123, R125). -/
def State.freeLimbo (s : State) : State :=
  let back := s.limbo.filter (fun f => !s.captured f)
  let s := { s with limbo := s.limbo.filter (fun f => back.contains f == false) }
  back.foldl State.poolAdd s

end Sys2Proof.Machine
end

