-- ==== Sys2Proof/Machine/Copy.lean ====
section
/-! DEFINITION. C slots: XLATE, copy operations and their engines, circular buffers, owner bits and banks, on dies and
on cellar cores (R289 to R306, R311, R357). -/

namespace Sys2Proof.Machine

/-- Fields a and b of a C slot. -/
def State.ca (s : State) (a : Src) : Word := s.scalar false a
def State.cbw (s : State) (b : Src) : Word := s.scalar true b

/-- Whether the unit is a cellar core. -/
def unitOnCore : UnitId → Bool
  | .core _ => true
  | .die _ => false

/-- The checks of a scratchpad range (R292; on a cellar core without banks and owner bits, R357, blocks of a circular buffer
remaining OWN_STATE by log 44). -/
def State.unitRange (s : State) (u : UnitId) (off len align : Nat) (eng : Bool) (tval : Word) : Verdict :=
  match u with
  | .die d => s.dieRange d off len align eng .none tval
  | .core c =>
    if off % align ≠ 0 then .trap .addrAlign tval 0
    else if c.padSize < off + len then .trap .addrBad tval 0
    else if (blocksOf off len).any (fun b => (cbOver (s.ctx c).cbs b).isSome) then .trap .ownState tval 0
    else .ok

/-- The number of the operation that a unit executes now: its instruction number, or the cellar context's serial. -/
def State.opNo (s : State) : Nat :=
  match s.onDie with
  | some _ => s.curNo
  | none => s.cur.copySerial

/-! ### CB_STALL (R305) -/

/-- The buffer counter that an operation of a circular buffer waits on is 0. -/
def cbBlocked (m : PMap Cb) (o : CopyOp) : Bool :=
  match o.kind, Table.find? m o.cb with
  | .cbwr _, some c => c.free == 0
  | .cbrd, some c => c.filled == 0
  | _, _ => false

/-- The counters once an operation of a circular buffer has performed. -/
def cbPerformed (m : PMap Cb) (o : CopyOp) : PMap Cb :=
  match o.kind, Table.find? m o.cb with
  | .cbwr _, some c => Table.insert m o.cb { c with free := c.free - 1, filled := c.filled + 1 }
  | .cbrd, some c => Table.insert m o.cb { c with free := c.free + 1, filled := c.filled - 1 }
  | _, _ => m

/-- The head of a queue has run, unless its counter is 0 or R151 holds it behind what is left. -/
def State.settleHead (s : State) (u : UnitId) (e : Nat) : State :=
  match s.engineQ u e with
  | [] => s
  | o :: rest =>
    if cbBlocked (s.cbTable u) o || !(o.started || s.canStart u o) then s
    else (s.setCbTable u (cbPerformed (s.cbTable u) o)).setEngineQ u e rest
/-- Nests that nothing left holds back have run. -/
def State.settleNests (s : State) (u : UnitId) : State :=
  match u with
  | .core _ => s
  | .die d => s.updDctx d (fun x => { x with nests := x.nests.filter (s.nestHeld u) })
/-- Whatever can run of a unit's copies and nests has run: what stays stands at a counter that is 0, or behind such a one. -/
def State.settleUnit (s : State) (u : UnitId) : Nat → State
  | 0 => s
  | n + 1 => (((s.settleHead u 0).settleHead u 1).settleNests u).settleUnit u n

/-- A wait of R290, R299, R301 or R302, or the CB_STALL that it can only end in: once all that can run has run, what is left
stands at a buffer counter that only this packet or a later one of its context can change, or behind an operation that
does. -/
def State.stallWait (s : State) (w : Wait) : Verdict :=
  let u := s.unit
  if s.waitMet u w then .ok
  else
    let s' := s.settleUnit u ((s.allOps u).length + (s.nestsOf u).length + 1)
    if s'.waitMet u w then .wait w else .trap .cbStall 0 0

/-! ### XLATE (R293, R294) -/

def State.xlateFirst (s : State) (o : XlateOp) : Nat := (s.ca o.a).toNat
def xlateCount (o : XlateOp) : Nat := o.cnt.toNat + 1

/-- The tiles that an XLATE captures. -/
def State.xlateTiles (s : State) (o : XlateOp) : List Tile :=
  (List.range (xlateCount o)).map (fun i => s.capture (s.tensorOf s.unit o.tid) (s.xlateFirst o + i))
/-- A tile-table entry that cannot be read would be consumed by its capture (R381). -/
def State.entriesUE (s : State) (ts : List Tile) : Verdict :=
  match ts.find? (fun t => s.hasUE (hbmKey t.entry) 8) with
  | some t => .ue (hbmKey t.entry) 8 0
  | none => .ok

def State.xlateVerdict (s : State) (o : XlateOp) : Verdict :=
  let e := s.tensorOf s.unit o.tid
  ((s.waitFor (.xnest o.x.toNat)).andThen (s.handleVerdict (tFmt e) (tHandle e))).andThen
    ((need (s.xlateFirst o + xlateCount o ≤ tTiles e) .coordRange 0).andThen (s.entriesUE (s.xlateTiles o)))

/-- The register names its run and waits for the layout unit (R122). -/
def State.xlateStart (s : State) (o : XlateOp) : State :=
  let e := s.tensorOf s.unit o.tid
  let f := s.xlateFirst o
  let r : XReg := { filled := false, tid := o.tid, handle := tHandle e, first := f,
                    tiles := s.xlateTiles o }
  (((s.noteEntries (r.tiles.map (·.entry))).setXregs s.unit (Table.insert (s.xregs s.unit) o.x.toNat r))).freeLimbo

/-- XLATE; one that faults leaves its register empty. -/
def execXlate (o : XlateOp) (s : State) : Host.Outcome State Fault Refusal :=
  match s.phase with
  | .commit => .next (s.xlateStart o)
  | .probe =>
    let c := s.xlateVerdict o
    let v := s.verdict.merge c
    .next { s with
      verdict := v,
      failSlot := if v = s.verdict then s.failSlot else s.slot,
      emptied := if v = s.verdict then s.emptied else match c with | .trap _ _ _ | .ue _ _ _ => some o.x.toNat | _ => s.emptied }
  | .whole =>
    match s.xlateVerdict o with
    | .ok => .next (s.xlateStart o)
    | .trap c tval tdata => .next ((s.setXregs s.unit (Table.erase (s.xregs s.unit) o.x.toNat)).slotTrap c tval tdata)
    | .ue key n tval =>
      .next ((State.noteRead (s.setXregs s.unit (Table.erase (s.xregs s.unit) o.x.toNat)) .data key n).slotTrap .ue tval 0)
    | .wait w => .next (s.slotWait w)
    | .stop f => .fault f

/-- XLATE_FILL: the layout unit has delivered the entries captured at the XLATE's execution (R122, R293). -/
def execXlateFill (u : UnitId) (x : Nat) : State → Host.Outcome State Fault Refusal :=
  eventOp (fun s => match Table.find? (s.xregs u) x with | some r => !r.filled | none => false)
    (fun s =>
      match Table.find? (s.xregs u) x with
      | none => s
      | some r => s.setXregs u (Table.insert (s.xregs u) x { r with filled := true }))

/-! ### Tensor copies (R295 to R297, R303) -/

/-- The selector: first index and count. -/
def selFirst (b : Word) : Nat := field b 0 4
def selCount (b : Word) : Nat := field b 4 4 + 1

/-- The x register of a run. -/
def State.runReg (s : State) (x : BitVec 3) : XReg :=
  (s.xreg? s.unit x).getD { filled := true, tid := 0, handle := 0, first := 0, tiles := [] }
/-- The tiles that a selector picks, with their tile numbers. -/
def XReg.picked (r : XReg) (b : Word) : List Tile := (r.tiles.drop (selFirst b)).take (selCount b)

/-- The wait of a transfer for its x register (R122, R454). -/
def State.runWait (s : State) (x : BitVec 3) : Verdict := s.waitFor (.xfill x.toNat)
/-- The wait of a copy operation: a free entry in its engine's queue, then its x register (R290, R454). -/
def State.copyWait (s : State) (e : Bool) (x : BitVec 3) : Verdict :=
  (s.stallWait (.engineFull (if e then 1 else 0))).andThen (s.runWait x)
/-- Checks of a transfer's run: X_EMPTY, HANDLE_STALE, COORD_RANGE, TT_UNMAPPED, STACK_WINDOW (R121, R294, R295,
R357), in this order (log 44). -/
def State.runVerdict (s : State) (x : BitVec 3) (b : Word) : Verdict :=
  match s.xreg? s.unit x with
  | none => .trap .xEmpty 0 0
  | some r =>
      ((s.handleVerdict (tFmt (s.tensorOf s.unit r.tid)) r.handle).andThen
        (need (selFirst b + selCount b ≤ r.tiles.length) .coordRange 0)).andThen
        ((need ((r.picked b).all (fun t => t.v)) .ttUnmapped 0).andThen
          (match s.unit with
           | .core c => need ((r.picked b).all (fun t => frameStack t.frame == c.stack)) .stackWindow 0
           | .die _ => .ok))

/-- The operation of a tensor copy as it enters a queue. -/
def State.tensorOp (s : State) (kind : CopyKind) (x : BitVec 3) (b : Word) (off stride cb : Nat) : CopyOp :=
  let r := s.runReg x
  { no := s.opNo, kind, off, len := selCount b * stride, tid := r.tid, entry := s.tensorOf s.unit r.tid,
    first := r.first + selFirst b, tiles := r.picked b, flat := 0, addr := 0, cb, host := false, started := false,
    ue := false, task := s.unitTask s.unit }


/-- An operation enters an engine's queue (R290). -/
def State.enqueue (s : State) (e : Nat) (o : CopyOp) : State :=
  let u := s.unit
  let s := s.setEngineQ u e (s.engineQ u e ++ [o])
  match s.onDie with
  | some d => if o.kind.isOut then s.updDctx d (fun x => x.awaitFold o.no) else s
  | none => s.updCtx s.core (fun x => { x with copySerial := x.copySerial + 1 })

/-- A TCOUT or CBRD enters its queue: its shadow frames are taken now; a copy of a frame with an uncorrectable word is
reported when the operation completes (R124, R381). -/
def State.enqueueStaged (s : State) (e : Nat) (o : CopyOp) : State :=
  if s.suppressHere then s.enqueue e o
  else (s.stageFrames (s.unitTask s.unit) o.entry o.tiles).enqueue e { o with ue := s.stageUE (s.unitTask s.unit) o.tiles }

/-- The entry of the tensor of a run. -/
def State.runEntry (s : State) (x : BitVec 3) : BitVec 512 := s.tensorOf s.unit (s.runReg x).tid
def engNo (e : Bool) : Nat := if e then 1 else 0

/-- Bytes of a tile's image. -/
def copyStride (planes : Bool) (e : BitVec 512) : Nat := if planes then planeStride e else rawStride e

/-- Checks of TCIN, in the order of log 44. -/
def State.tcinVerdict (s : State) (planes : Bool) (o : TcopyOp) : Verdict :=
  let e := s.runEntry o.x
  let off := s.ca o.a
  ((s.copyWait o.e o.x).andThen (s.runVerdict o.x (s.cbw o.b))).andThen
    ((need (!planes || isBlock (tFmt e)) .tileFmt 0).andThen
      (s.unitRange s.unit off.toNat (selCount (s.cbw o.b) * copyStride planes e) 64 true off))
def execTcin (planes : Bool) (o : TcopyOp) : State → Host.Outcome State Fault Refusal :=
  slotOp (·.tcinVerdict planes o) (fun s =>
    s.enqueue (engNo o.e) (s.tensorOp (.tcin planes) o.x (s.cbw o.b) (s.ca o.a).toNat (copyStride planes (s.runEntry o.x)) 0))

/-- Header bytes 1 and 2 of the images against the tensor (R297). -/
def State.imagesOk (s : State) (u : UnitId) (e : BitVec 512) (off count : Nat) : Bool :=
  (List.range count).all (fun i =>
    let k := unitPadKey u (off + i * rawStride e)
    s.loadNat (k + 1) 1 == tFmt e && s.loadNat (k + 2) 1 == tSide e)

/-- Checks of TCOUT, in the order of log 44. -/
def State.tcoutVerdict (s : State) (o : TcopyOp) : Verdict :=
  let e := s.runEntry o.x
  let off := s.ca o.a
  let b := s.cbw o.b
  let len := selCount b * rawStride e
  -- without a captured run there is no image to wait for: X_EMPTY
  let images := if (s.xreg? s.unit o.x).isSome then s.waitFor (.images off.toNat len) else .ok
  (((s.copyWait o.e o.x).andThen images).andThen (s.runVerdict o.x b)).andThen
    ((s.unitRange s.unit off.toNat len 64 true off).andThen
      ((need (s.imagesOk s.unit e off.toNat (selCount b)) .tileFmt off).andThen
        (if s.suppressHere then .ok else s.stageVerdict (s.unitTask s.unit) ((s.runReg o.x).picked b))))
def execTcout (o : TcopyOp) : State → Host.Outcome State Fault Refusal :=
  slotOp (·.tcoutVerdict o) (fun s =>
    let e := s.runEntry o.x
    let op := s.tensorOp .tcout o.x (s.cbw o.b) (s.ca o.a).toNat (rawStride e) 0
    s.enqueueStaged (engNo o.e) op)

/-! ### Flat copies (R298) -/

def flatLen (o : FcopyOp) : Nat := 64 * 2 ^ o.z.toNat

/-- The place of a flat copy's memory side (R298, R357). -/
def State.flatPlace (s : State) (hostSide : Bool) (ea : Word) (n : Nat) (store : Bool) : Except Verdict Place :=
  let a := ea.toNat
  let reg := a / 2 ^ 52
  let func := (s.unitLaunch s.unit).func
  let bad : Except Verdict Place := .error (.trap .addrBad ea 0)
  if a % n ≠ 0 then .error (.trap .addrAlign ea 0)
  else if hostSide then if reg = 8 then s.translate s.unit func a store ea else bad
  else if reg < 8 then
    match s.unit, s.translate s.unit func a store ea with
    | .core c, .ok (.hbm p) => if p / 2 ^ 36 ≠ c.stack then .error (.trap .stackWindow ea 0) else .ok (.hbm p)
    | _, r => r
  else
    match s.unit with
    | .core _ => bad
    | .die d =>
      if reg = 9 then (landPlace a).elim bad .ok
      else if reg = 0xA && a % 2 ^ 52 / 2 ^ 46 = 48 + d.die / 4 then
        match directPlace a with
        | some (.window k) => .ok (.window k)
        | _ => bad
      else bad

/-- The place that a queued copy's key names. -/
def placeOfKey (k : Nat) : Place :=
  if k < 2 ^ 40 then .hbm k
  else if k < 2 ^ 41 then .land (k - 2 ^ 40)
  else if 2 ^ 56 ≤ k then .host (k - 2 ^ 56)
  else .window k

/-- The checks of a flat copy: its scratchpad range, its flat address, then the staged-write buffer (log 44). -/
def State.fcopyVerdict (s : State) (hostSide : Bool) (o : FcopyOp) : Verdict :=
  let n := flatLen o
  let off := s.ca o.a
  let t := s.unitTask s.unit
  ((s.stallWait (.engineFull (engNo o.e))).andThen (s.unitRange s.unit off.toNat n n true off)).andThen
    (match s.flatPlace hostSide (s.cbw o.b) n o.out with
     | .error v => v
     | .ok pl =>
       if o.out && !s.nonidem t && !s.suppressHere && s.stageFull t (stageKeys pl n) then .trap .stageFull (s.cbw o.b) 0
       else .ok)

/-- A flat copy is queued: a copy out to host memory or a window first ends idempotence (R127), one that is staged takes
its granules (R126). -/
def State.fcopyStart (s : State) (hostSide : Bool) (o : FcopyOp) : State :=
  let n := flatLen o
  let u := s.unit
  let t := s.unitTask u
  match s.flatPlace hostSide (s.cbw o.b) n o.out with
  | .error _ => s
  | .ok pl =>
    let op : CopyOp := { no := s.opNo, kind := if o.out then .flatOut else .flatIn, off := (s.ca o.a).toNat, len := n,
                         tid := 0, entry := 0, first := 0, tiles := [], flat := pl.key, addr := s.cbw o.b, cb := 0,
                         host := hostSide, started := false, ue := false, task := t }
    let s := s.noteWalk (s.launch t.lid).func (s.cbw o.b)
    let s := if o.out && !s.suppressHere then
        if pl.endsIdem then s.endIdem t (some (s.unitOwner u))
        else if s.nonidem t then s
        else s.updTask t (fun x =>
          { x with granules := (stageKeys pl n).foldl (fun m g => Table.insert m g ()) x.granules })
      else s
    s.enqueue (engNo o.e) op

def execHcopy (o : FcopyOp) : State → Host.Outcome State Fault Refusal :=
  slotOp (·.fcopyVerdict true o) (·.fcopyStart true o)
def execLcopy (o : FcopyOp) : State → Host.Outcome State Fault Refusal :=
  slotOp (·.fcopyVerdict false o) (·.fcopyStart false o)

/-! ### Completion and owner bits (R299, R300) -/

/-- CWAIT; the sequencer context's wait for the reports of .s is in `Ctx.sendPacket`. -/
def execCwait (o : CwaitOp) : State → Host.Outcome State Fault Refusal :=
  slotOp (fun s => s.stallWait (.copies (if o.all || unitOnCore s.unit then none else some (engNo o.e)) s.opNo)) (fun s => s)

def State.townVerdict (s : State) (off : Word) : Verdict :=
  let d := s.dieId
  if off.toNat % 4096 ≠ 0 then .trap .addrAlign off 0
  else if 192 * 2 ^ 20 ≤ off.toNat then .trap .addrBad off 0
  else if !s.ownsBank (s.dieTask d) d.die (off.toNat / 2 ^ 20) then .trap .bankOwn off 0
  else if (cbOver (s.dctx d).cbs (off.toNat / 4096)).isSome then .trap .ownState off 0
  else .ok
def execTownE (a : Src) : State → Host.Outcome State Fault Refusal :=
  slotOp (fun s => s.townVerdict (s.ca a))
    (fun s => s.updDie s.dieId.die (fun x => { x with eng := Table.insert x.eng ((s.ca a).toNat / 4096) () }))
/-- TOWN.p waits for the engine operations and nests that name the block (R150). -/
def execTownP (a : Src) : State → Host.Outcome State Fault Refusal :=
  slotOp (fun s => (s.waitFor (.block (s.ca a).toNat)).andThen (s.townVerdict (s.ca a)))
    (fun s => s.updDie s.dieId.die (fun x => { x with eng := Table.erase x.eng ((s.ca a).toNat / 4096) }))

/-! ### Circular buffers (R301 to R303) -/

def cbSlots (b : Word) : Nat := field b 0 8
def cbBlocks (b : Word) : Nat := field b 8 4 + 1

def State.cbinitVerdict (s : State) (o : CbinitOp) : Verdict :=
  let b := s.cbw o.b
  let off := s.ca o.a
  if cbSlots b = 0 then s.stallWait (.cbOps o.cb.toNat)
  else if (s.cb? s.unit o.cb.toNat).isSome then .trap .cbBad 0 0
  else s.unitRange s.unit off.toNat (cbSlots b * cbBlocks b * 4096) 4096 false off
def execCbinit (o : CbinitOp) : State → Host.Outcome State Fault Refusal :=
  slotOp (·.cbinitVerdict o) (fun s =>
    let b := s.cbw o.b
    if cbSlots b = 0 then s.setCbTable s.unit (Table.erase (s.cbTable s.unit) o.cb.toNat)
    else s.setCb s.unit o.cb.toNat
      { base := (s.ca o.a).toNat, n := cbSlots b, blocks := cbBlocks b, free := cbSlots b, filled := 0, wpos := 0, rpos := 0,
        wheld := 0, rheld := 0, wp := o.wp, rp := o.rp })

/-- CBTAKE: a slot must be there, and the side must be the program's. -/
def execCbtake (o : CbProgOp) : State → Host.Outcome State Fault Refusal :=
  slotOp (fun s =>
      match s.cb? s.unit o.cb.toNat with
      | none => .trap .cbBad 0 0
      | some c =>
        (s.stallWait (.counter o.cb.toNat o.r)).andThen (need (if o.r then c.rp else c.wp) .cbBad 0))
    (fun s =>
      match s.cb? s.unit o.cb.toNat with
      | none => s
      | some c => s.setCb s.unit o.cb.toNat
        (if o.r then { c with filled := c.filled - 1, rheld := c.rheld + 1, rpos := (c.rpos + 1) % c.n }
         else { c with free := c.free - 1, wheld := c.wheld + 1, wpos := (c.wpos + 1) % c.n }))
def execCbgive (o : CbProgOp) : State → Host.Outcome State Fault Refusal :=
  slotOp (fun s =>
      match s.cb? s.unit o.cb.toNat with
      | none => .trap .cbBad 0 0
      | some c =>
        (s.stallWait (.slotUse o.cb.toNat o.r)).andThen
          (need (if o.r then c.rp && 0 < c.rheld else c.wp && 0 < c.wheld) .cbBad 0))
    (fun s =>
      match s.cb? s.unit o.cb.toNat with
      | none => s
      | some c => s.setCb s.unit o.cb.toNat
        (if o.r then { c with free := c.free + 1, rheld := c.rheld - 1 }
         else { c with filled := c.filled + 1, wheld := c.wheld - 1 }))

/-- Checks of CBWR and CBRD: queue, run, buffer and its side, and images that fit a slot (the order is log 44's). -/
def State.cbCopyVerdict (s : State) (cb : BitVec 3) (x : BitVec 3) (e : Bool) (b : Word) (planes reader : Bool) : Verdict :=
  let en := s.runEntry x
  ((s.copyWait e x).andThen
    (match s.cb? s.unit cb.toNat with
     | none => .trap .cbBad 0 0
     | some c => need (!(if reader then c.rp else c.wp)) .cbBad 0)).andThen
    (((s.runVerdict x b).andThen (need (!planes || isBlock (tFmt en)) .tileFmt 0)).andThen
      (match s.cb? s.unit cb.toNat with
       | none => .ok
       | some c => need (selCount b * copyStride planes en ≤ 4096 * c.blocks) .cbBad 0))
def execCbwr (planes : Bool) (o : CbEngOp) : State → Host.Outcome State Fault Refusal :=
  slotOp (fun s => s.cbCopyVerdict o.cb o.x o.e (s.cbw o.b) planes false)
    (fun s => s.enqueue (engNo o.e)
      (s.tensorOp (.cbwr planes) o.x (s.cbw o.b) 0 0 o.cb.toNat))
def execCbrd (o : CbEngOp) : State → Host.Outcome State Fault Refusal :=
  slotOp (fun s => (s.cbCopyVerdict o.cb o.x o.e (s.cbw o.b) false true).andThen
      (if s.suppressHere then .ok else s.stageVerdict (s.unitTask s.unit) ((s.runReg o.x).picked (s.cbw o.b))))
    (fun s =>
      let op := s.tensorOp .cbrd o.x (s.cbw o.b) 0 0 o.cb.toNat
      s.enqueueStaged (engNo o.e) op)

/-! ### Banks (R63, R306) -/

def execBankacq (o : BankOp) : State → Host.Outcome State Fault Refusal :=
  slotOp (fun s =>
      let m := s.ca o.a
      (s.waitFor (.bank m.toNat ((s.cbw o.b).truncate 32))).andThen (need (m.toNat < 192) .addrBad 0))
    (fun s =>
      let d := s.dieId
      let m := (s.ca o.a).toNat
      let t := s.dieTask d
      let s : State := match s.bankNow d.die m with
        | .owned u _ => if u = t || !s.diagTask u then s else (s.task u).ctx.elim s s.dropKiln
        | _ => s
      let now := s.bankNow d.die m
      s.updDie d.die (fun x =>
        match now with
        | .owned _ _ => x
        | .free => { (x.clearEng m) with banks := Table.insert x.banks m (.owned t none) }
        | .released u g => { (x.clearEng m) with banks := Table.insert x.banks m (.owned t (some (g, u))) }))

def State.bankrelVerdict (s : State) (m : Word) : Verdict :=
  let d := s.dieId
  if 192 ≤ m.toNat then .trap .addrBad 0 0
  else if !s.ownsBank (s.dieTask d) d.die m.toNat then .trap .bankOwn 0 0
  else if (s.die d.die).eng.any (fun e => e.1 / 256 == m.toNat)
      || (List.range 256).any (fun b => (cbOver (s.dctx d).cbs (256 * m.toNat + b)).isSome) then .trap .ownState 0 0
  else .ok
def execBankrel (o : BankOp) : State → Host.Outcome State Fault Refusal :=
  slotOp (fun s => s.bankrelVerdict (s.ca o.a))
    (fun s =>
      let d := s.dieId
      s.updDie d.die (fun x =>
        { x with banks := Table.insert x.banks (s.ca o.a).toNat (.released (s.dieTask d) ((s.cbw o.b).truncate 32)) }))

/-! ### Engines (R151, R290, R296 to R299, R303) -/

/-- Bytes that an engine writes into its unit's scratchpad. -/
def State.enginePut (s : State) (u : UnitId) (off : Nat) (bs : List Byte) : State :=
  match u with
  | .die d => s.padStore d off bs
  | .core c => s.storeBytes (padKey c.padIdx off) bs

/-- FMT set in the DFLAGS of the die context that issued a copy (R84). -/
def State.noteFmt (s : State) (u : UnitId) : State :=
  match u with
  | .die d => s.updDctx d (fun x => { x with dflags := x.dflags ||| 32 })
  | .core _ => s

/-- Tiles copied in, one image after another from `off` (R296), and whether an uncorrectable word was met. -/
def State.copyIn (s : State) (u : UnitId) (o : CopyOp) (planes : Bool) (off : Nat) : State × Bool :=
  o.tiles.zipIdx.foldl (fun (r : State × Bool) e =>
    let im := s.imageOf o.task o.entry planes (o.first + e.2) e.1
    let t := r.1.enginePut u (off + e.2 * copyStride planes o.entry) im.1
    let t := if im.2 then t.noteFmt u else t
    (t.noteTile o.task o.entry e.1, r.2 || (s.tileUE o.task o.entry e.1).isSome)) (s, false)

/-- Tiles copied out from images at `off` (R297); the images' bytes are the event of the operation (R407). A scale code is
one byte of its word, and an uncorrectable word takes it as any store in part does (R402). -/
def State.copyOut (s : State) (u : UnitId) (o : CopyOp) (off count : Nat) (performs : Bool) : State × Bool :=
  (o.tiles.take count).zipIdx.foldl (fun (r : State × Bool) e =>
    let k := unitPadKey u (off + e.2 * rawStride o.entry)
    let code := frameCode (r.1.writeFrame o.task o.entry e.1) e.1.slot
    let bad := performs && isBlock (tFmt o.entry) && r.1.partialUE code 1
    let r : State × Bool := if bad then (r.1.noteRead .data code 1, true) else r
    let t := if performs then
        r.1.tileWrite o.task o.entry (o.first + e.2) e.1 (BitVec.ofNat 8 (s.loadNat k 1)) (s.loadBytes (k + 64) (tSize o.entry))
      else r.1
    (t.noteRead .data k (rawStride o.entry), r.2 || s.hasUE k (rawStride o.entry))) (s, false)

/-- The event of an engine operation gets its words. -/
def State.foldOp (s : State) (u : UnitId) (no : Nat) (ws : List Word) : State :=
  match u with
  | .die d => s.updDctx d (fun x => x.fillFold no ws)
  | .core _ => s
/-- The words of a TCOUT's or CBRD's event. -/
def State.outWords (s : State) (u : UnitId) (o : CopyOp) (off count : Nat) : List Word :=
  sigTag 4 (o.tid.toNat * 2 ^ 32 + o.first)
    :: (List.range count).flatMap (fun i => wordsOfBytes (s.loadBytes (unitPadKey u (off + i * rawStride o.entry)) (rawStride o.entry)))

def State.unitSuppressed (s : State) (u : UnitId) : Bool :=
  match u with
  | .die d => s.suppressed d
  | .core _ => false

/-- A flat read by a copy engine: a die's at the L2, a cellar core's in DRAM below it (R105, R298). -/
def State.copyRead (s : State) (u : UnitId) (t : TaskId) (pl : Place) (n : Nat) : List Byte :=
  match u, pl with
  | .core _, .hbm p => (List.range n).map (fun i => s.homeByte t (hbmKey (p + i)))
  | _, pl => s.flatRead t pl n

/-- A flat write by a copy engine: a cellar core's, where it is not staged, reaches DRAM and invalidates the L2's bytes
(R105). -/
def State.copyWrite (s : State) (u : UnitId) (t : TaskId) (pl : Place) (bs : List Byte) : State :=
  match u, pl with
  | .core _, .hbm p => if s.nonidem t then s.dramWrite p bs else s.stageBytes t (hbmKey p) bs
  | _, pl => s.flatWrite t pl bs

/-- Whether a flat read by a copy engine meets an uncorrectable word. -/
def State.copyUE (s : State) (u : UnitId) (t : TaskId) (pl : Place) (n : Nat) : Bool :=
  match u, pl with
  | .core _, .hbm p =>
    s.dramUE (fun q => (s.stagedByte t (hbmKey q)).isSome) p n
  | _, pl => s.flatUE t pl n

/-- What a flat read by a copy engine logs (R401). -/
def State.noteCopy (s : State) (u : UnitId) (t : TaskId) (pl : Place) (n : Nat) : State :=
  match u, pl with
  | .core _, .hbm p =>
    if (List.range n).all (fun i => (s.stagedByte t (hbmKey (p + i))).isSome) then s else s.noteRead .data (hbmKey p) n
  | _, pl => s.noteFlat t pl n

/-- The data of an operation moves; the Bool says that it met an uncorrectable word. -/
def State.moveData (s : State) (u : UnitId) (o : CopyOp) : State × Bool :=
  let performs := !s.unitSuppressed u
  let key := unitPadKey u o.off
  match o.kind with
  | .tcin planes => s.copyIn u o planes o.off
  | .tcout =>
    let r := s.copyOut u o o.off o.tiles.length performs
    (r.1.foldOp u o.no (s.outWords u o o.off o.tiles.length), r.2)
  | .flatIn =>
    let pl := placeOfKey o.flat
    let t := s.enginePut u o.off (s.copyRead u o.task pl o.len)
    let t := match pl with
      | .host a => (match s.hostError a o.len with
          | some cpl => t.hostFailed (s.unitLaunch u).func a cpl
          | none => t)
      | _ => t
    (t.noteCopy u o.task pl o.len, s.copyUE u o.task pl o.len)
  | .flatOut =>
    let bs := s.loadBytes key o.len
    let t := if performs then s.copyWrite u o.task (placeOfKey o.flat) bs else s
    let t := t.foldOp u o.no (sigTag 3 o.addr.toNat :: wordsOfBytes bs)
    (t.noteRead .data key o.len, s.hasUE key o.len)
  | .cbwr _ | .cbrd => (s, false)

/-- The head of a queue. -/
def State.headOp (s : State) (u : UnitId) (e : Nat) : Option CopyOp := (s.engineQ u e).head?
def State.setHead (s : State) (u : UnitId) (e : Nat) (o : CopyOp) : State :=
  s.setEngineQ u e (o :: (s.engineQ u e).drop 1)
def State.popHead (s : State) (u : UnitId) (e : Nat) : State := (s.setEngineQ u e ((s.engineQ u e).drop 1)).freeLimbo

/-- The queue entry of an operation (R398). -/
def opCells (u : UnitId) (o : CopyOp) : Cell → Bool
  | .file v .copies n => v == u && n == o.no
  | _ => false

/-- COPY_START: the head of a queue begins, and its bytes move. -/
def execCopyStart (u : UnitId) (e : Nat) : State → Host.Outcome State Fault Refusal :=
  eventOp (fun s => match s.headOp u e with
      | some o => !o.started && !(match o.kind with | .cbwr _ | .cbrd => true | _ => false) && s.canStart u o
      | none => false)
    (fun s =>
      match s.headOp u e with
      | none => s
      | some o =>
        s.asUnit u (fun s =>
          let bad := s.cellUE (opCells u o)
          let s := s.noteCells .data (opCells u o)
          let r := if bad then (s, true) else s.moveData u o
          (r.1.setHead u e { o with started := true, ue := o.ue || r.2 }).payOwed u o.no))

/-- COPY_COMPLETE: the operation leaves its queue (R299). -/
def execCopyComplete (u : UnitId) (e : Nat) : State → Host.Outcome State Fault Refusal :=
  eventOp (fun s => match s.headOp u e with | some o => o.started | none => false)
    (fun s =>
      match s.headOp u e with
      | none => s
      | some o =>
        let s := s.popHead u e
        if o.ue then s.engineFault u o.no .ue else s)

/-- CBWR in its engine: the next slot is taken, filled and given (R153, R303). -/
def State.cbWrite (s : State) (u : UnitId) (e : Nat) (o : CopyOp) (c : Cb) (planes : Bool) : State :=
  let r := s.copyIn u o planes (c.base + 4096 * c.blocks * c.wpos)
  let s := (r.1.setCb u o.cb { c with free := c.free - 1, filled := c.filled + 1, wpos := (c.wpos + 1) % c.n }).popHead u e
  (if r.2 then s.engineFault u o.no .ue else s).payOwed u o.no

/-- Images from the first one whose header does not match are not written (R303). -/
def State.goodImages (s : State) (u : UnitId) (o : CopyOp) (off : Nat) : Nat :=
  ((List.range o.tiles.length).find? (fun i => !s.imagesOk u o.entry (off + i * rawStride o.entry) 1)).getD o.tiles.length

/-- CBRD in its engine: the slot is taken and read; a header that does not match stops it. -/
def State.cbRead (s : State) (u : UnitId) (e : Nat) (o : CopyOp) (c : Cb) : State :=
  let off := c.base + 4096 * c.blocks * c.rpos
  let good := s.goodImages u o off
  let r := s.copyOut u o off good (!s.unitSuppressed u)
  let t := r.1.foldOp u o.no (s.outWords u o off o.tiles.length)
  if good < o.tiles.length then
    ((t.setCb u o.cb { c with filled := c.filled - 1, rpos := (c.rpos + 1) % c.n }).popHead u e).engineFault u o.no .tileFmt
  else
    let t := (t.setCb u o.cb { c with free := c.free + 1, filled := c.filled - 1, rpos := (c.rpos + 1) % c.n }).popHead u e
    if r.2 || o.ue then t.engineFault u o.no .ue else t

/-- CB_ENGINE_STEP: the CBWR or CBRD at the head of a queue finds its counter and performs. -/
def execCbEngineStep (u : UnitId) (e : Nat) : State → Host.Outcome State Fault Refusal :=
  eventOp (fun s => match s.headOp u e with
      | some o => (match o.kind, s.cb? u o.cb with
          | .cbwr _, some c => 0 < c.free && s.canStart u o
          | .cbrd, some c => 0 < c.filled && s.canStart u o
          | _, _ => false)
      | none => false)
    (fun s =>
      match s.headOp u e with
      | none => s
      | some o =>
        s.asUnit u (fun s =>
          let bad := s.cellUE (opCells u o)
          let s := s.noteCells .data (opCells u o)
          if bad then (s.popHead u e).engineFault u o.no .ue else
          match o.kind, s.cb? u o.cb with
          | .cbwr planes, some c => s.cbWrite u e o c planes
          | .cbrd, some c => s.cbRead u e o c
          | _, _ => s))

end Sys2Proof.Machine
end

