-- ==== Sys2Proof/Machine/Frames.lean ====
section
/-! DEFINITION. The frames that a switch out writes: their layout, their places, and what they hold (R111, R338, R395 to
R397; log 11). -/

namespace Sys2Proof.Machine

/-! ### A context's frame (R395) -/

/-- A loop counter's 24 bytes in a frame: START, END, then st, active and exit-pending. -/
def loopWord (x : Ctx) (k part : Nat) : Word :=
  match Table.find? x.loops k with
  | none => 0
  | some l =>
    match part with
    | 0 => l.start
    | 1 => l.stop
    | _ => BitVec.ofNat 64 (l.st + (if l.exitPending then 3 else 1) * 256)

/-- A word of 64 bits of a vector, at byte `off`. -/
def vecWord (v : CelVec) (off : Nat) : Word := BitVec.ofNat 64 (v.toNat >>> (8 * off))

/-- A latch as the next bundle reads it: l0 to l3 take what was delivered last, l4 to l7 the old l0 to l3 (R167, R385). -/
def Ctx.nextLatch (x : Ctx) (i : Nat) : Word := if i < 4 then Table.get 0 x.delivered i else x.latch (i - 4)
/-- The 8 bytes at an offset of a context's frame (R395), as they stand; none where the manual gives no layout inside a
field, or outside the frame. -/
def Ctx.frameWord (x : Ctx) (cellar : Bool) (off : Nat) : Option Word :=
  let i := off / 8
  if off < 512 then some (if i = 0 then 0 else Table.get 0 x.regs i)
  else if off = 512 then
    some (BitVec.ofNat 64 (1 + ((List.range 16).foldl (fun a n => if n ≠ 0 && Table.get false x.preds n then a + 2 ^ n else a) 0)))
  else if off < 552 then some (Table.get 0 x.lc (i - 65))
  else if off < 648 then some (loopWord x ((i - 69) / 3) ((i - 69) % 3))
  else if off = 648 then some (match x.rep with | some r => BitVec.ofNat 64 r.left | none => 0)
  else if off = 656 then some (match x.rep with | some r => r.addr | none => 0)
  else if off = 664 then some x.epcOf
  else if off = 672 then some x.epc1Of
  else if off = 680 then some x.n2
  else if off < 720 then some (Table.get 0 x.holds (i - 86))
  else if off = 720 then some x.fpctl
  else if off = 728 then some (x.ftabLen.zeroExtend 64)
  else if off = 736 then some (if cellar then 0 else x.dieEn.zeroExtend 64)
  else if off = 744 then some (if cellar then 0 else BitVec.ofNat 64 x.instNo)
  else if off < 784 then some (if cellar then 0 else Table.get 0 x.rt (i - 94))
  else if off = 784 then
    some (if cellar then 0 else BitVec.ofNat 64 ((List.range 4).foldl (fun a n =>
      if (Table.find? x.rtWait n).isNone then a + 2 ^ n else a) 0))
  else if off < 848 then some 0
  else if off < 2896 then none
  else if off < 2960 then some (x.nextLatch (i - 362))
  else if off < 4240 then none
  else if off = 4240 then some (BitVec.ofNat 64 (x.snap.getD x.takeSnap).pending.length)
  else if off = 4248 then some (match x.run with | .drained false => 1 | _ => 0)
  else if cellar then
    if off < 6304 then some (vecWord (Table.get 0 x.w ((off - 4256) / 64)) ((off - 4256) % 64))
    else if off < 6320 then
      some (BitVec.ofNat 64 ((List.range 4).foldl (fun a j =>
        a + (x.celLanes ((off - 6304) / 2 + j)).toNat * 2 ^ (16 * j)) 0))
    else if off = 6320 then some (BitVec.ofNat 64 x.ticket)
    else if off < 7352 then none
    else some 0
  else if off < 5280 then
    let n := (off - 4256) / 4
    some ((Table.get 0 x.flagsFile n).zeroExtend 64 ||| ((Table.get 0 x.flagsFile (n + 1)).zeroExtend 64 <<< 32))
  else some 0

/-- Bytes of a context's frame (R395). -/
def frameSize (c : CoreId) : Nat := if c.isCellar then 65536 else 8192

/-- The bytes of a word list's entries, each at its offset, zero bytes not listed. -/
def bytesAt (off : Nat) (l : List Byte) : PMap Byte := (l.zipIdx.filter (fun e => e.1 != 0)).map (fun e => (off + e.2, e.1))
def wordsAt (off : Nat) (n : Nat) (w : Nat → Word) : PMap Byte :=
  (List.range n).flatMap (fun i => bytesAt (off + 8 * i) (bytesOfNat (w i).toNat 8))
/-- Words that the manual gives no layout: free values (log 7, log 11). -/
def State.freeCells (s : State) (off n : Nat) : PMap Byte × State :=
  (wordsAt off n (fun i => Config.freeWord (s.free + i)), { s with free := s.free + n })

/-- The bytes of a context's frame. -/
def State.frameCells (s : State) (c : CoreId) (x : Ctx) : PMap Byte × State :=
  let size := if c.isCellar then 7352 else 5280
  (List.range (size / 8)).foldl (fun (a : PMap Byte × State) i =>
    match x.frameWord c.isCellar (8 * i) with
    | some w => (a.1 ++ bytesAt (8 * i) (bytesOfNat w.toNat 8), a.2)
    | none => let (l, t) := a.2.freeCells (8 * i) 1; (a.1 ++ l, t)) ([], s)

/-! ### The fixed part of a die context (R397) -/

/-- Offsets of the items of the fixed part, one after another in the order of R397. -/
def fixSlices : Nat := 16384
def fixAcc : Nat := fixSlices + 262144
def fixSmall : Nat := fixAcc + 67584
def fixTables : Nat := fixSmall + 272
def fixX : Nat := fixTables + 1056
def fixFlags : Nat := fixX + 2048 + 1024
def fixEnd : Nat := fixFlags + 1024

/-- The bytes of the fixed part; x registers, buffers and queues have no layout (log 11). -/
def DieCtx.fixedCells (x : DieCtx) (free : PMap Byte) : PMap Byte :=
  x.v.flatMap (fun e => bytesAt (512 * e.1) (bytesOfNat e.2.toNat 512))
    ++ x.slices.map (fun e => (fixSlices + e.1, e.2))
    ++ (List.range 256).flatMap (fun i => bytesAt (fixAcc + 264 * i) (x.accRow (i / 32) (i % 32)).rawImage)
    ++ (List.range 8).flatMap (fun i => bytesAt (fixSmall + 16 * i) (bytesOfNat (x.mask (BitVec.ofNat 3 i)).toNat 16))
    ++ wordsAt (fixSmall + 128) 8 (Table.get 0 x.k) ++ wordsAt (fixSmall + 192) 4 (Table.get 0 x.holds)
    ++ wordsAt (fixSmall + 224) 2 (fun i => if i = 0 then x.dflags else x.sig) ++ wordsAt (fixSmall + 240) 4 (Table.get 0 x.chk)
    ++ wordsAt fixTables 68 (fun i => nestWord x.shadow (i / 17) (i % 17))
    ++ (List.range 8).flatMap (fun i => bytesAt (fixTables + 544 + 64 * i) (bytesOfNat (Table.get (0 : BitVec 512) x.pt i).toNat 64))
    ++ free
    ++ (List.range 256).flatMap (fun i => bytesAt (fixFlags + 4 * i) (bytesOfNat (Table.get (0 : Word32) x.flagsFile i).toNat 4))

/-! ### Places of frames (R110, R111, R395, R397; log 23) -/

/-- The cask slot `k`, counted over all stacks: its stack, and its first HBM byte (R111). -/
def caskBase (k : Nat) : Nat := k / 256 * 2 ^ 36 + 48 * 2 ^ 30 - 2 ^ 29 + k % 256 * 2 ^ 20
/-- Frames of sequencer contexts, in the reserved area of stack 0: its last 64 MiB. -/
def seqFrame (k : Nat) : Nat := 48 * 2 ^ 30 - 2 ^ 26 + k * 8192
/-- The ring of the error log, in the reserved area of stack 0 between the tile tables and the frames (R110, R412). -/
def logRing : Nat := 48 * 2 ^ 30 - 2 ^ 27
/-- Every saved task. -/
def State.allSaved (s : State) : List Saved := s.launches.flatMap (fun l => l.2.tasks.filterMap (fun t => t.2.saved))
/-- The first sequencer frame not in use. -/
def State.freeSeqFrame (s : State) : Option Nat :=
  let used := s.allSaved.map (·.frame)
  ((List.range (used.length + 1)).map seqFrame).find? (fun f => !used.contains f)

/-- Bytes of HBM replaced, with clean check bits; no cache keeps older ones. Firmware has their layers powered on (R449). -/
def State.putHbm (s : State) (p n : Nat) (m : PMap Byte) : State :=
  let s := s.powerOn p n
  let s := s.putCells (hbmKey p) n m []
  s.setL2 (s.l2.filter (fun e => !(p ≤ e.1 && e.1 < p + n)))

/-- Words of a range whose code is not clean. -/
def State.uncleanIn (s : State) (key n : Nat) : List Nat :=
  (s.ecc.filter (fun e => key ≤ 8 * e.1 && 8 * e.1 < key + n)).map Prod.fst
/-- An uncorrectable word of a range, as the save or the restore of its bytes meets it (R381, R397). -/
def State.rangeUE (s : State) (key n : Nat) : Bool :=
  (s.uncleanIn key n).any (fun wk => match s.eccWord wk with | .bad _ => true | _ => false)
/-- A range read: what the read meets is logged, and corrected words get clean codes (R401, R412). -/
def State.readRange (s : State) (key n : Nat) : State :=
  (s.uncleanIn key n).foldl (fun (s : State) wk =>
    match s.eccWord wk with
    | .bad _ => s.noteWord .data wk
    | _ => s.cleanWord .data false wk) s

/-- Bytes spread over 64 KiB frames of a tensor store, in order. -/
def State.putFrames (s : State) (fs : List (BitVec 24)) (m : PMap Byte) : State :=
  fs.zipIdx.foldl (fun (s : State) e =>
    s.putHbm (frameBase e.1) 65536 ((m.filter (fun b => b.1 / 65536 == e.2)).map (fun b => (b.1 % 65536, b.2)))) s
/-- Frames taken from a stack's pool. -/
def State.poolTakeN (s : State) (stack : Nat) : Nat → List (BitVec 24) → List (BitVec 24) × State
  | 0, acc => (acc, s)
  | n + 1, acc =>
    match s.poolTake stack with
    | some (f, s') => s'.poolTakeN stack n (acc ++ [f])
    | none => (acc, s)
end Sys2Proof.Machine
end

