-- ==== Sys2Proof/Machine/Contexts.lean ====
section
/-! DEFINITION. What happens to a core context between its issue steps: unblocking, results that arrive, current-limit
freezes, interrupts, drain requests and the switch out, and the resolution of a frozen stream
(R186 to R189, R373 to R376, R380 to R397, R450, R455). -/

namespace Sys2Proof.Machine

/-! ### Unblocking and results -/

/-- The condition a blocked context waits for, when it now holds (R60). -/
def State.unblocks (s : State) (c : CoreId) : Bool :=
  match (s.ctx c).run with
  | .blocked w => s.waitMet (.core c) w
  | _ => false

/-- CONTEXT_UNBLOCK: the context is ready; it executes its bundle whole, or the next one after a CWAIT.s (R60, R299). -/
def execContextUnblock (c : CoreId) : State → Host.Outcome State Fault Refusal :=
  eventOp (·.unblocks c) (·.updCtx c (fun x =>
    { x with run := .ready, awaited := match x.run with | .blocked (.reports _) => none | _ => x.awaited }))

/-- The first result on its way has arrived. -/
def markArrived : List Flight → List Flight
  | [] => []
  | f :: rest => if f.arrived then f :: markArrived rest else { f with arrived := true } :: rest

/-- Whether a context awaits a result, and one that arrives: a late one first, whose freeze ends with the last of them, and an
interlocked one reaches its register (R186, R188). -/
def Ctx.awaitsResult (x : Ctx) : Bool := x.late != 0 || x.inflight.any (fun f => !f.arrived) || !x.interlocked.isEmpty
def Ctx.arrive (x : Ctx) : Ctx :=
  if x.late ≠ 0 then { x with late := x.late - 1 }
  else if x.inflight.any (fun f => !f.arrived) then { x with inflight := markArrived x.inflight }
  else
    match x.interlocked with
    | [] => x
    | d :: rest => ({ x with interlocked := rest } : Ctx).deliver d

/-- The interlocked result that an arrival delivers. -/
def Ctx.lands (x : Ctx) : List Deliver :=
  if x.late ≠ 0 || x.inflight.any (fun f => !f.arrived) then [] else x.interlocked.take 1

/-- Whether the freeze line of a context's core is held: for a late result of any of its contexts, or for an interlocked
one that the bundle at N0 of the context that has the core names (R186, R188). -/
def State.held (s : State) (c : CoreId) : Bool :=
  s.frozen c || (s.mayIssue c && (match s.readBundle c with
    | .error _ => false
    | .ok (hd, _, is) =>
      let pred := hd.extractLsb' 16 4
      (s.ctx c).awaits [] pred || (!(s.ctx c).mark0 && (s.ctx c).qreg pred && (s.ctx c).awaits (is.map Prod.snd) pred)))
/-- A frozen cycle of a core, of weight 0 (R189). -/
def State.idleCycle (s : State) (c : CoreId) : State :=
  let r := s.coreRec c
  s.setCoreRec c { r with window := (0 :: r.window).take 63 }

/-- RESULT_ARRIVAL; a core that its freeze line has held has spent a frozen cycle. -/
def execResultArrival (c : CoreId) : State → Host.Outcome State Fault Refusal :=
  eventOp (fun s => (s.ctx c).awaitsResult)
    (fun s => ((if s.held c then s.idleCycle c else s).mend (deliverCells c (s.ctx c).lands)).updCtx c Ctx.arrive)

/-! ### Current-limit freezes (R189) -/

/-- The first context of core `k`: cellar cores 0-191, then sequencer cores. -/
def coreFirst (k : Nat) : CoreId := if k < 192 then .cel (4 * k) else .seq (4 * (k - 192))

/-- Whether a context would issue a bundle whose weight passes its core's limit. -/
def State.limitHolds (s : State) (c : CoreId) : Bool :=
  s.mayIssue c && (match s.readBundle c with
    | .error _ => false
    | .ok (_, _, is) => (s.coreRec c).overLimit (bundleWeight c.isCellar is))

/-- CURRENT_LIMIT_FREEZE: one frozen cycle, counted by CUR_FRZ; the context whose bundle is held back has the core (R60). -/
def execCurrentLimitFreeze (core : Nat) : State → Host.Outcome State Fault Refusal :=
  eventOp (fun s => (CoreId.mates (coreFirst core)).any s.limitHolds)
    (fun s =>
      let s := match (CoreId.mates (coreFirst core)).find? s.limitHolds with
        | some c => s.takeCore c
        | none => s
      let s := s.idleCycle (coreFirst core)
      let r := s.coreRec (coreFirst core)
      s.setCoreRec (coreFirst core) { r with curFrz := r.curFrz + 1 })

/-! ### Interrupts and debug stops -/

/-- A context that something is delivered to between issue steps leaves its wait (R380); the bundle it waits at
executes afterwards. -/
def Ctx.wake (x : Ctx) : Ctx :=
  match x.run with
  | .blocked _ => if x.handler then x else { x with run := .ready }
  | _ => x

/-- TIMER: firmware posts an interrupt to a context that runs a task (R380). -/
def execTimer (c : CoreId) : State → Host.Outcome State Fault Refusal :=
  eventOp (fun s => (s.ctx c).task.isSome && (s.ctx c).run != .halted)
    (·.updCtx c (fun x => ({ x with irq := true } : Ctx).wake))

/-- DBG_STEP_STOP: the stop after an issue step while DBG_EN.STEP is 1 (R450, R452). -/
def execDbgStepStop (c : CoreId) : State → Host.Outcome State Fault Refusal :=
  eventOp (fun s => (s.ctx c).stepStop) (·.updCtx c (fun x => { x with stopped := true, stepStop := false }))

/-! ### Gangs and drain requests (R338, R373, R375, R394) -/

/-- Contexts that leave with a context: its cellar core's, and those of its task's co-resident group. -/
def State.gangNear (s : State) (c : CoreId) : List CoreId :=
  let near := (if c.isCellar then CoreId.mates c else [c])
    ++ (s.groupOthers (s.taskId c)).filterMap (fun u => (s.task u).ctx)
  near.filter (fun m => (s.ctx m).task.isSome && (s.taskOf m).state != .committing)
def State.gangGrow (s : State) : Nat → List CoreId → List CoreId
  | 0, l => l
  | n + 1, l =>
    let l' := (l ++ l.flatMap s.gangNear).eraseDups
    if l'.length = l.length then l else s.gangGrow n l'
def State.gangOf (s : State) (c : CoreId) : List CoreId := s.gangGrow 200 [c]

/-- A drain request reaches one context. -/
def State.drainOne (s : State) (c : CoreId) (why : DrainBy) : State :=
  let x := s.ctx c
  match x.run with
  | .halted | .drained _ | .idle => s
  | _ =>
    (s.setCtx c { x with drain := some (x.drain.getD why) }).settleDrain c

/-- A drain request on a context reaches its whole gang; only the context whose deadline has expired counts as a forced
pre-emption (R373, R375, log 22). -/
def State.requestDrain (s : State) (c : CoreId) (why : DrainBy) : State :=
  (s.gangOf c).foldl (fun (s : State) m => s.drainOne m (if m = c then why else .record)) s

/-- YIELD_DEADLINE_EXPIRY (R375). -/
def execYieldDeadlineExpiry (c : CoreId) : State → Host.Outcome State Fault Refusal :=
  eventOp (fun s =>
      let x := s.ctx c
      x.task.isSome && x.drain.isNone && x.yieldDl != BitVec.allOnes 64 && x.yieldDl.toNat ≤ s.timeCnt.toNat)
    (·.requestDrain c .expiry)

/-! ### The switch out (R392 to R397) -/

/-- Whether a drained context and its die contexts are complete (R272, R312, R338, R392); on a cellar core the commands and
copies of every context of the core are. -/
def State.still (s : State) (c : CoreId) : Bool :=
  let x := s.ctx c
  (match x.run with | .drained _ => true | _ => false) && !x.stopped && x.sent.isEmpty && x.frozenAt.isNone
    && x.notice.isNone && x.xregs.all (fun r => r.2.filled)
    && (if c.isCellar then (CoreId.mates c).all (fun m => (s.ctx m).nmq.isEmpty && (s.ctx m).engine.isEmpty) else x.engine.isEmpty)
    && x.dieIds.all (fun d =>
      let y := s.dctx d
      y.nests.isEmpty && y.fault.isNone && y.engFault.isNone && y.xregs.all (fun r => r.2.filled)
        && y.engines.all (fun e => e.2.all (fun o => !o.started)))

/-- Banks of a die that a task owns. -/
def State.banksOf (s : State) (t : TaskId) (die : Nat) : PMap BankState :=
  (s.die die).banks.filter (fun b => match b.2 with | .owned u _ => u == t | _ => false)

/-- Frames that a die context's save takes: six for the fixed part, sixteen for each owned bank (R397). -/
def dieFrames (banks : Nat) : Nat := 6 + 16 * banks

/-- A die context saved into frames of its cluster's stack: its state, and its owned banks with their owner bits (R397).
Errors that the save meets are logged and corrected (R401). The active nest sets go with it (log 11). -/
def State.saveDie (s : State) (d : DieId) : SavedDie × State :=
  let banks := s.banksOf (s.dieTask d) d.die
  let at_ (b : Nat) : Nat := dieMemKey d.die (b * 2 ^ 20)
  let s := banks.foldl (fun (s : State) b => s.readRange (at_ b.1) (2 ^ 20)) s
  let (free, s) := s.freeCells fixX 384
  let (frames, s) := s.poolTakeN (d.die / 4) (dieFrames banks.length) []
  let body := (s.dctx d).fixedCells free
    ++ banks.zipIdx.flatMap (fun b => (s.cells (at_ b.1.1) (2 ^ 20)).map (fun e => (6 * 65536 + b.2 * 2 ^ 20 + e.1, e.2)))
  ({ frames, ctx := { s.dctx d with part := none }, banks,
     bytes := banks.flatMap (fun b => (s.cells (at_ b.1) (2 ^ 20)).map (fun e => (b.1 * 2 ^ 20 + e.1, e.2))),
     eng := (s.die d.die).eng.filter (fun e => banks.any (fun b => b.1 == e.1 / 256)) },
   s.putFrames frames body)
def State.saveDies (s : State) : List (DieId × Nat) → List (Nat × SavedDie) × State
  | [] => ([], s)
  | (d, r) :: rest =>
    let (v, s) := s.saveDie d
    let (vs, s) := s.saveDies rest
    ((r, v) :: vs, s)

/-- Where the frame of a context is written: its part of its group's cask slot, or a sequencer frame (R111, R395). -/
def State.framePlace (s : State) (c : CoreId) : Option Nat :=
  if c.isCellar then (s.taskOf c).cask.map (fun k => caskBase k + c.num % 4 * 65536) else s.freeSeqFrame
/-- A cellar group's scratchpad written into its cask slot, whose last part is zero (R111). -/
def State.saveScratch (s : State) (c : CoreId) : State :=
  match (s.taskOf c).cask with
  | some k =>
    let s := s.readRange (padKey c.padIdx 0) c.padSize
    s.putHbm (caskBase k + 2 ^ 18) (3 * 2 ^ 18) (s.cells (padKey c.padIdx 0) c.padSize)
  | none => s

/-- What the frames of a context hold, as they are written (R395 to R397); results on their way are kept as in the snapshot
buffer (R382, R385). -/
def State.saveOf (s : State) (c : CoreId) (mates : List TaskId) : Saved × State :=
  let x := (s.ctx c).settle
  let (dies, s) := s.saveDies x.dieIds.zipIdx
  let s := if c.isCellar then s.saveScratch c else s
  let (m, s) := s.frameCells c x
  let (frame, s) := match s.framePlace c with
    | some f => (f, s.putHbm f (frameSize c) m)
    | none => (0, s)
  ({ frame, ctx := x, dies, count := x.dieIds.length, hwctx := c.num % 4, stack := c.stack,
     scratch := if c.isCellar then s.cells (padKey c.padIdx 0) c.padSize else [], mates }, s)

/-- An uncorrectable word among what a context's save reads: its owned banks, or its core's scratchpad (R381). -/
def State.saveUE (s : State) (c : CoreId) : Option (Nat × Nat) :=
  let l := (if c.isCellar then [(padKey c.padIdx 0, c.padSize)] else [])
    ++ (s.ctx c).dieIds.flatMap (fun d => (s.banksOf (s.taskId c) d.die).map (fun b => (dieMemKey d.die (b.1 * 2 ^ 20), 2 ^ 20)))
  l.find? (fun e => s.rangeUE e.1 e.2)
/-- Whether firmware has room for the frames of some contexts that leave together: sequencer frames, and tensor-store
frames in the stacks of their dies (R395, R397). -/
def State.saveRoom (s : State) (g : List CoreId) : Bool :=
  let need (stack : Nat) : Nat := (g.flatMap (fun c => (s.ctx c).dieIds.filterMap (fun d =>
    if d.die / 4 = stack then some (dieFrames (s.banksOf (s.taskId c) d.die).length) else none))).foldl (· + ·) 0
  (List.range 12).all (fun k => need k ≤ s.poolFree k)
    && (s.allSaved.filter (fun v => seqFrame 0 ≤ v.frame && v.frame < seqFrame 8192)).length
      + (g.filter (fun c => !c.isCellar)).length ≤ 8192

/-- The parity cells and the words of slices that a context's save reads (R381, R398). -/
def State.saveCells (s : State) (c : CoreId) : Cell → Bool := fun e =>
  unitCells (.core c) e || (s.ctx c).dieIds.any (fun d => unitCells (.die d) e)
/-- One context switched out: dirty L1 bytes leave, the frames are written, the task is PREEMPTED, and a pre-emption by
expiry is counted (R155, R375, R392). -/
def State.saveCtx (s : State) (c : CoreId) (mates : List TaskId) : State :=
  let t := s.taskId c
  let s := s.cleanL1 c
  let s := { s with core := c, onDie := none }
  let (v, s) := (s.noteCells .data (s.saveCells c)).saveOf c mates
  let s := s.updTask t (fun x => { x with saved := some v })
  let s := if (s.ctx c).drain = some .expiry then
      s.updQueue (s.launch t.lid).queue (fun q => { q with forced := q.forced + 1 }) else s
  let s := (s.endBanks t true).tidyDies
  (s.unbind c).updTask t (fun x => { x with state := .preempted, ctx := none })

/-- The tasks that a cellar core's group saves together (R338). -/
def State.savedWith (s : State) (c : CoreId) (g : List CoreId) : List TaskId :=
  if c.isCellar then (g.filter (fun m => m.isCellar && m.coreNo == c.coreNo)).map s.taskId else []

/-- What of a gang meets an uncorrectable error at its save ends there (R381, R390). -/
def State.abortSave (s : State) (m : CoreId) : State :=
  let s := { s with core := m, onDie := none }
  match (s.ctx m).task, s.saveUE m with
  | some t, some (key, n) => (s.readRange key n).abort t ((s.ctx m).ending 0 .ue 0)
  | some t, none =>
    if s.cellUE (s.saveCells m) then (s.noteCells .data (s.saveCells m)).abort t ((s.ctx m).ending 0 .ue 0) else s
  | none, _ => s

/-- SWITCH_OUT: a gang leaves once all of it is drained and complete and its frames have room; until then the request
reaches its members. -/
def State.switchOut (s : State) (c : CoreId) : State :=
  let g := s.gangOf c
  if g.all s.still && g.any (fun m => (s.saveUE m).isSome || s.cellUE (s.saveCells m)) then g.foldl State.abortSave s
  else if g.all s.still && s.saveRoom g then
    (g.map (fun m => (m, s.savedWith m g))).foldl (fun (s : State) e => s.saveCtx e.1 e.2) s
  else g.foldl (fun (s : State) m => s.drainOne m .record) s

/-- SWITCH_OUT. -/
def execSwitchOut (c : CoreId) : State → Host.Outcome State Fault Refusal :=
  eventOp (fun s => (s.ctx c).task.isSome && (match (s.ctx c).run with | .drained _ => true | _ => false))
    (·.acting c none (·.switchOut c))

/-! ### Frozen streams (R387 to R389, R455) -/

/-- The fate of a die fault: what a running nest or a started CBRD raises aborts the task (R271, R303, R380). -/
def DieFault.fate (f : DieFault) : Fate :=
  match f.cause with
  | .bankOwn | .ownState | .tileFmt => if f.slot = 15 then .a else f.cause.fate
  | c => c.fate

/-- The fault of a die context at a number. -/
def DieCtx.faultAt (x : DieCtx) (f : Nat) : Option DieFault := [x.fault, x.engFault].reduceOption.find? (fun y => y.no == f)
/-- The fault of the lowest rank that faults at F. -/
def State.leadFault (s : State) (c : CoreId) (f : Nat) : Option DieFault :=
  ((s.ctx c).dieIds.filterMap (fun d => (s.dctx d).faultAt f)).head?

/-- The freeze is complete: every die has retired all below F, or has faulted, and ended what it had begun. A freeze whose
notice is out or whose handler runs is resolved again only by a fate that ends the task, at a lower F (R387, R388). -/
def State.freezeDone (s : State) (c : CoreId) : Bool :=
  let x := s.ctx c
  match x.frozenAt with
  | none => false
  | some f => (!x.resolved || (match s.leadFault c f with | some y => y.fate == .a | none => false))
      && x.dieIds.all (fun d => !(s.dctx d).half && ((s.dctx d).fault.isSome || f ≤ (s.dctx d).retired + 1))

/-- The notice of a die fault (R384, R388). -/
def State.noticeOf (s : State) (c : CoreId) (f : Nat) (lead : DieFault) : Notice :=
  let ds := (s.ctx c).dieIds
  let ranks := ds.zipIdx.filter (fun e => ((s.dctx e.1).faultAt f).isSome)
  { f, slot := lead.slot, cause := lead.cause, tval := lead.tval,
    dies := BitVec.ofNat 48 (ranks.foldl (fun a e => a + 2 ^ e.2) 0),
    pd := ds.foldl (fun a d => min a (s.dctx d).retired) f }

/-- A context that a die-fault notice reaches: a blocked one leaves its wait, a drained one its stop, with the request
standing again (R388, log 22). -/
def Ctx.reach (x : Ctx) : Ctx :=
  match x.run with
  | .drained _ => { x.refillDrained with run := .ready, drain := some (x.drain.getD .record) }
  | _ => x.wake

/-- The ending of a task whose stream faulted at F. -/
def dieEnding (f : Nat) (lead : DieFault) : Ending :=
  { kind := 2, cause := lead.cause, code := lead.cause.code, tval := lead.tval, at_ := BitVec.ofNat 64 f }

/-- A die fault delivered as H: to the handler between issue steps, or, after a HALT, the end of the task (R388,
R455). -/
def State.resolveH (s : State) (c : CoreId) (f : Nat) (lead : DieFault) : State :=
  if (s.ctx c).run = .halted then s.faultTask (s.taskId c) (dieEnding f lead)
  else s.updCtx c (fun x => ({ x with notice := some (s.noticeOf c f lead) } : Ctx).reach)

/-- The freeze is complete: no die starts a number any more (R387); the stream is resolved by the fate of the fault at F
(R388), a fate S when FAULT_SERVICE comes. -/
def State.resolveFreeze (s : State) (c : CoreId) : State :=
  let s := s.updCtx c (fun x => { x with freezeOver := true })
  match (s.ctx c).frozenAt with
  | none => s
  | some f =>
    match s.leadFault c f with
    | none => s
    | some lead =>
      match lead.fate with
      | .h => s.resolveH c f lead
      | .s => s
      | .a => s.abort (s.taskId c) (dieEnding f lead)
      | .f => s.faultTask (s.taskId c) (dieEnding f lead)

/-- STREAM_FREEZE_COMPLETE. -/
def execStreamFreezeComplete (c : Nat) : State → Host.Outcome State Fault Refusal :=
  eventOp (·.freezeDone (.seq c)) (·.resolveFreeze (.seq c))

/-- The fault of fate S that firmware is to service: of the context itself, or of its frozen stream. -/
def State.serviced (s : State) (c : CoreId) : Bool :=
  match (s.ctx c).run with
  | .service _ _ _ _ => true
  | _ => s.freezeDone c && (s.ctx c).freezeOver && !(s.ctx c).replayDue && (match ((s.ctx c).frozenAt).bind (s.leadFault c) with
      | some lead => lead.fate == .s
      | none => false)

/-- FAULT_SERVICE: mapped, the bundle executes again or the stream is replayed; declined, the cause is delivered as H
(R380, R388). -/
def State.service (s : State) (c : CoreId) (mapped : Bool) (pteAddr : Nat) (pte : BitVec 64) : State :=
  let s := if mapped then s.writePte pteAddr pte else s
  match (s.ctx c).run with
  | .service cause slot tval tdata =>
    let s := s.updCtx c (fun x => { x with run := .ready })
    if mapped then s else s.deliverH c 0 slot.toNat cause tval tdata 0 0 (s.ctx c).epcOf
  | _ =>
    if mapped then s.startReplay c else
    match (s.ctx c).frozenAt with
    | none => s
    | some f => match s.leadFault c f with
      | none => s
      | some lead => s.resolveH c f lead

/-- FAULT_SERVICE. -/
def execFaultService (c : CoreId) (mapped : Bool) (pteAddr : Nat) (pte : BitVec 64) :
    State → Host.Outcome State Fault Refusal :=
  eventOp (·.serviced c) (·.service c mapped pteAddr pte)

end Sys2Proof.Machine
end

