-- ==== Sys2Proof/Machine/Firmware.lean ====
section
/-! DEFINITION. What management-core firmware and the host port read and write in flat memory (R110 to R114, R133, R359 to
R361, R419 to R429). -/

namespace Sys2Proof.Machine

/-! ### Flat memory as firmware reaches it -/

/-- The place of a flat byte of a function's address space: regions 0x0 to 0x8 translated, and the landing. -/
def State.fwPlace (s : State) (func a : Nat) (store : Bool) : Option Place :=
  if 2 ^ 56 ≤ a then none
  else if a / 2 ^ 52 ≤ 8 then
    match (s.walk func a store).place 0 with
    | .ok pl => some pl
    | .error _ => none
  else if a / 2 ^ 52 = 9 then landPlace a
  else none

/-- A byte at a place, at its home for the control die (R133); none when it is uncorrectable. -/
def State.fwByte (s : State) (pl : Place) : Option Byte :=
  match pl with
  | .hbm p =>
    match Table.find? s.l2 p with
    | some v => if s.cellUE (· == .l2 (p / 8)) then none else some v
    | none => if s.hasUE (hbmKey p) 1 then none else some (s.memByte (hbmKey p))
  | pl => if s.hasUE pl.key 1 then none else some (s.memByte pl.key)

/-- `n` bytes at a flat address, when every one can be read. -/
def State.fwRead (s : State) (func a n : Nat) : Option (List Byte) :=
  (List.range n).mapM (fun i => (s.fwPlace func (a + i) false).bind s.fwByte)

/-- What such a read logs, and the walks for it: the words whose bytes come from storage (R401). -/
def State.fwNote (s : State) (func a n : Nat) : State :=
  if s.ecc.isEmpty && s.layers.isEmpty then s else
  let words := ((List.range n).filterMap (fun i =>
    match s.fwPlace func (a + i) false with
    | some (.hbm p) => if (Table.find? s.l2 p).isSome then none else some (hbmKey p / 8)
    | some pl => some (pl.key / 8)
    | none => none)).eraseDups
  let s := (pagesOf a n).foldl (fun (s : State) p => s.noteWalkBy .idle func p) s
  let s := words.foldl (fun (s : State) wk => s.noteRead .idle (8 * wk) 8) s
  s.noteCells .idle (fun e => match e with
    | .l2 wk => (List.range n).any (fun i => match s.fwPlace func (a + i) false with
        | some (.hbm p) => p / 8 == wk
        | _ => false)
    | _ => false)

/-- A byte written at its home. -/
def State.fwPut (s : State) (pl : Place) (b : Byte) : State :=
  match pl with
  | .hbm p => s.l2Write p [b]
  | pl => s.storeBytes pl.key [b]

/-- Bytes written at a flat address, when every one can be. -/
def State.fwWrite (s : State) (func a : Nat) (bs : List Byte) : Option State :=
  match (List.range bs.length).mapM (fun i => s.fwPlace func (a + i) true) with
  | none => none
  | some pls => some ((pls.zip bs).foldl (fun (s : State) e => s.fwPut e.1 e.2) s)

/-- A 64-byte block as a 512-bit value. -/
def State.fwRead64 (s : State) (func a : Nat) : Option (BitVec 512) :=
  (s.fwRead func a 64).map (fun bs => BitVec.ofNat 512 (natOfBytes bs))

end Sys2Proof.Machine
end

