-- ==== Sys2Proof/Machine/Sha384.lean ====
section
/-! DEFINITION. SHA-384 of a list of bytes, which R425 names and takes from FIPS 180-4. The constants are computed from what they
are: digits of roots of primes. -/

namespace Sys2Proof.Machine

abbrev ShaWord := BitVec 64

/-! ### Constants -/

/-- The primes below 410: the first 80. -/
def shaPrimes : List Nat :=
  (List.range 410).filter (fun n => 2 ≤ n && (List.range 21).all (fun d => d < 2 || n ≤ d || n % d ≠ 0))

/-- The greatest `r` whose `deg`-th power is at most `n`, bit after bit from bit `k - 1` down. -/
def rootBits (deg n : Nat) : Nat → Nat → Nat
  | 0, r => r
  | k + 1, r => rootBits deg n k (if (r + 2 ^ k) ^ deg ≤ n then r + 2 ^ k else r)

/-- The first 64 bits after the point of the root of a small number. -/
def rootFraction (deg p : Nat) : ShaWord := BitVec.ofNat 64 (rootBits deg (p * 2 ^ (64 * deg)) 69 0)

/-- One constant for each round: of the cube roots of the first 80 primes. -/
def shaRoundConsts : List ShaWord := shaPrimes.map (rootFraction 3)
/-- Where SHA-384 starts: of the square roots of the ninth to the sixteenth prime. -/
def shaStart : List ShaWord := ((shaPrimes.drop 8).take 8).map (rootFraction 2)

/-! ### The message -/

/-- The padded message as one number, the first byte the most significant: a bit 1, zeros up to 16 bytes before the end of a
block, and the length in bits. -/
def shaMessage (b : List (BitVec 8)) : Nat :=
  let body := b.foldl (fun m x => m * 256 + x.toNat) 0
  (body * 256 + 128) * 256 ^ ((239 - b.length % 128) % 128) * 2 ^ 128 + 8 * b.length
/-- Blocks of 128 bytes that it takes. -/
def shaCount (b : List (BitVec 8)) : Nat := (b.length + 17 + 127) / 128
/-- The sixteen words of block `j` of `n`, the last one first. -/
def shaBlockWords (m n j : Nat) : List ShaWord :=
  (List.range 16).map (fun i => BitVec.ofNat 64 (m >>> (64 * (16 * (n - 1 - j) + i))))

/-! ### Rounds -/

/-- Rotations of a word added without carries, and the same with one of them a shift. -/
def turns (w : ShaWord) (l : List Nat) : ShaWord := l.foldl (fun x r => x ^^^ w.rotateRight r) 0
def turnsShift (w : ShaWord) (l : List Nat) (k : Nat) : ShaWord := turns w l ^^^ (w >>> k)

/-- The message schedule, the newest word first. -/
def shaExpand : Nat → List ShaWord → List ShaWord
  | 0, w => w
  | k + 1, w =>
    let back (i : Nat) : ShaWord := w.getD (i - 1) 0
    shaExpand k ((back 16 + turnsShift (back 15) [1, 8] 7 + back 7 + turnsShift (back 2) [19, 61] 6) :: w)

/-- The two histories of a block's rounds, the newest word first: of the first working word and of the fifth. The other six
are their earlier values. -/
structure ShaTrack where
  a : List ShaWord
  e : List ShaWord
  deriving DecidableEq, Repr

/-- One round with the sum of its constant and its word of the schedule. -/
def ShaTrack.round (t : ShaTrack) (kw : ShaWord) : ShaTrack :=
  let a (i : Nat) : ShaWord := t.a.getD i 0
  let e (i : Nat) : ShaWord := t.e.getD i 0
  let step := kw + e 3 + turns (e 0) [14, 18, 41] + (e 2 ^^^ (e 0 &&& (e 1 ^^^ e 2)))
  { a := (step + turns (a 0) [28, 34, 39] + ((a 0 &&& a 1) ||| (a 2 &&& (a 0 ||| a 1)))) :: t.a.take 3
    e := (a 3 + step) :: t.e.take 3 }

/-- The hash value after a block: what the rounds leave, added to what they began with. -/
def shaAbsorb (h : List ShaWord) (block : List ShaWord) : List ShaWord :=
  let kws := List.zipWith (· + ·) shaRoundConsts (shaExpand 64 block).reverse
  let t := kws.foldl ShaTrack.round { a := h.take 4, e := h.drop 4 }
  List.zipWith (· + ·) h (t.a ++ t.e)

/-- SHA-384: the first six words of the hash value after the last block. -/
def sha384 (b : List (BitVec 8)) : BitVec 384 :=
  let n := shaCount b
  let h := (List.range n).foldl (fun h j => shaAbsorb h (shaBlockWords (shaMessage b) n j)) shaStart
  BitVec.ofNat 384 ((h.take 6).foldl (fun v x => v * 2 ^ 64 + x.toNat) 0)

end Sys2Proof.Machine
end

