-- ==== Sys2Proof/Machine/Loading.lean ====
section
/-! DEFINITION. Code objects: the image, its checks and relocations, where the loader places it, and the translation of
Merlet functions (R190, R191, R419 to R429, R436; log 23 for the addresses firmware chooses, log 24 for readings, log 42 for
translations). -/

namespace Sys2Proof.Machine

/-! ### The image (R419 to R421) -/

/-- A load status with its INDEX (R423). -/
structure LoadErr where
  status : Nat
  index : Nat
  deriving DecidableEq, Repr

def objBad (i : Nat) : LoadErr := { status := 0x10, index := i }
def relocBad (i : Nat) : LoadErr := { status := 0x11, index := i }
def relocRange (i : Nat) : LoadErr := { status := 0x12, index := i }

/-- A section, with its bytes. -/
structure Sect where
  ty : Nat
  align : Nat
  link : Nat
  size : Nat
  bytes : List Byte
  deriving DecidableEq, Repr

/-- A function record. -/
structure FRec where
  name : Nat
  sect : Nat
  kind : BitVec 16
  off : Nat
  size : Nat
  sig : Nat
  ftIdx : Nat
  handler : Nat
  deriving DecidableEq, Repr

/-- A parsed image. -/
structure Image where
  latClass : Nat
  ftLen : Nat
  stack : Nat
  tls : Nat
  sects : List Sect
  funcs : List FRec
  deriving DecidableEq, Repr

/-- `n` bytes at an offset. -/
def slice (b : List Byte) (off n : Nat) : List Byte := (b.drop off).take n
/-- Bytes of a run replaced. -/
def patchAt (b : List Byte) (off : Nat) (v : List Byte) : List Byte := b.take off ++ v ++ b.drop (off + v.length)

/-- Section `i` of a table at `off` (R420). -/
def parseSect (img : List Byte) (off : Nat) : Except LoadErr Sect :=
  let ty := numAt img off 1
  let align := numAt img (off + 1) 1
  let link := numAt img (off + 4) 4
  let so := numAt img (off + 8) 8
  let size := numAt img (off + 16) 8
  if numAt img (off + 2) 2 ≠ 0 || numAt img (off + 24) 8 ≠ 0 || ty = 0 || 7 < ty
      || (ty = 1 && (align < 6 || size % 64 ≠ 0)) || (ty = 2 && align < 2) || (ty ≠ 5 && link ≠ 0)
      || (ty = 5 && size % 24 ≠ 0) || (ty = 6 && size % 64 ≠ 0)
      || (ty = 7 && size ≠ 0 && numAt img (so + size - 1) 1 ≠ 0)
      || (if ty = 4 then so ≠ 0 else img.length < so + size) then .error (objBad 0)
  else .ok { ty, align, link, size, bytes := if ty = 4 then List.replicate size 0 else slice img so size }

/-- Function record `i` at `off` (R421). -/
def parseFunc (img : List Byte) (ss : List Sect) (ftLen nfunc i off : Nat) : Except LoadErr FRec :=
  let f : FRec :=
    { name := numAt img off 4, sect := numAt img (off + 4) 2, kind := BitVec.ofNat 16 (numAt img (off + 6) 2),
      off := numAt img (off + 8) 8, size := numAt img (off + 16) 8, sig := numAt img (off + 24) 2,
      ftIdx := numAt img (off + 26) 2, handler := numAt img (off + 28) 4 }
  match ss[f.sect]? with
  | none => .error (objBad i)
  | some s =>
    if !(s.ty = 1 || s.ty = 2) || 16 ≤ f.kind.toNat || s.size < f.off + f.size
        || !(ss.any (fun x => x.ty = 7 && f.name < x.size))
        || (s.ty = 1 && (f.off % 64 ≠ 0 || f.size % 64 ≠ 0)) || (s.ty = 2 && f.off % 4 ≠ 0)
        || (f.ftIdx ≠ 0xFFFF && (ftLen ≤ f.ftIdx || f.sig = 0))
        || (f.kind.getLsbD 1 && f.handler ≠ 0xFFFFFFFF && nfunc ≤ f.handler) then .error (objBad i)
    else .ok f

/-- A list of checked parts, in order. -/
def gather {α : Type} (f : Nat → Except LoadErr α) : Nat → Nat → Except LoadErr (List α)
  | _, 0 => .ok []
  | i, n + 1 =>
    match f i with
    | .error e => .error e
    | .ok a =>
      match gather f (i + 1) n with
      | .error e => .error e
      | .ok as => .ok (a :: as)

/-- The handler that each kernel names is a handler record (R421). -/
def handlerBad (fs : List FRec) : Option Nat :=
  (fs.zipIdx.find? (fun e => e.1.kind.getLsbD 1 && e.1.handler ≠ 0xFFFFFFFF
    && !((fs[e.1.handler]?).any (fun h => h.kind.getLsbD 3)))).map Prod.snd

/-- A launch template that breaks R360 or R420: no LAUNCH, a field that must be zero, or an ENTRY that indexes no function
record. -/
def templateBad (nfunc : Nat) (r : List Byte) : Bool :=
  let v := BitVec.ofNat 512 (numAt r 0 64)
  recType v ≠ 1 || recZeroBad v true || 4096 < recTcount v || nfunc ≤ recEntry v

/-- The image of a load request, checked (R419 to R421, LATENCY of R423). -/
def parseImage (img : List Byte) : Except LoadErr Image :=
  let nsect := numAt img 8 2
  let nfunc := numAt img 10 2
  let ftLen := numAt img 12 2
  let secOff := numAt img 16 8
  let funcOff := numAt img 24 8
  if img.length < 64 || numAt img 0 4 ≠ 0x314B564F || numAt img 4 2 ≠ 1 || nsect = 0 || 256 < nsect
      || nfunc = 0 || numAt img 14 2 ≠ 0 || secOff % 8 ≠ 0 || funcOff % 8 ≠ 0 || numAt img 32 4 % 64 ≠ 0
      || numAt img 36 4 % 64 ≠ 0 || numAt img 40 24 ≠ 0 || img.length < secOff + 32 * nsect
      || img.length < funcOff + 32 * nfunc then .error (objBad 0)
  else
    match gather (fun i => parseSect img (secOff + 32 * i)) 0 nsect with
    | .error e => .error e
    | .ok ss =>
      let text := ss.any (fun s => s.ty = 1)
      if ss.any (fun s => (s.ty = 5 && nsect ≤ s.link)
          || (s.ty = 6 && (List.range (s.size / 64)).any (fun i => templateBad nfunc (slice s.bytes (64 * i) 64))))
          || (!text && 1 < numAt img 6 2) then .error (objBad 0)
      else
        match gather (fun i => parseFunc img ss ftLen nfunc i (funcOff + 32 * i)) 0 nfunc with
        | .error e => .error e
        | .ok fs =>
          match handlerBad fs with
          | some i => .error (objBad i)
          | none =>
            if text && numAt img 6 2 ≠ 1 then .error { status := 0x13, index := 0 }
            else .ok { latClass := numAt img 6 2, ftLen, stack := numAt img 32 4, tls := numAt img 36 4,
                       sects := ss, funcs := fs }

/-! ### Places (R423; log 23) -/

/-- The addresses of an object: TEXT, MERLET and stubs from `base`, then the other sections and the function table, all
within 2^31 bytes (R423); a replica for each stack at a multiple of 2^31 above, and translations 2^35 above. -/
def objBase (k : Nat) : Nat := 2 ^ 34 + k * 2 ^ 36
def xlateBase (k : Nat) : Nat := objBase k + 2 ^ 35
def alignUp (n k : Nat) : Nat := (n + 2 ^ k - 1) / 2 ^ k * 2 ^ k

/-- Addresses of sections whose type satisfies `p`, one after another; 0 for the others; and the first free address. -/
def placeSects (p : Nat → Bool) : Nat → List Sect → List Nat × Nat
  | a, [] => ([], a)
  | a, s :: rest =>
    if p s.ty then
      let b := alignUp a s.align
      let (bs, e) := placeSects p (b + s.size) rest
      (b :: bs, e)
    else
      let (bs, e) := placeSects p a rest
      (0 :: bs, e)

/-- Where an object lies: section addresses, the end of its code, the start of its data, its function table and the end of its
data. -/
structure Layout where
  addrs : List Nat
  codeEnd : Nat
  data : Nat
  table : Nat
  dataEnd : Nat
  deriving DecidableEq, Repr

def layoutOf (k : Nat) (m : Image) : Layout :=
  let (ta, te) := placeSects (· = 1) (objBase k) m.sects
  let (ma, me) := placeSects (· = 2) (alignUp te 6) m.sects
  let codeEnd := alignUp me 6
  let data := alignUp (codeEnd + 64 * m.funcs.length) 12
  let (da, de) := placeSects (fun t => t ≠ 1 && t ≠ 2) data m.sects
  let table := alignUp de 4
  { addrs := ((ta.zip ma).zip da).map (fun e => e.1.1 + e.1.2 + e.2), codeEnd, data, table,
    dataEnd := table + 16 * m.ftLen }

/-- The loaded address of a function record (R429). -/
def fnAddr (m : Image) (l : Layout) (i : Nat) : Nat :=
  match m.funcs[i]? with
  | none => 0
  | some f => l.addrs.getD f.sect 0 + f.off + (if ((m.sects[f.sect]?).any (fun s => s.ty = 1)) then 4 else 0)

/-! ### Relocations (R422) -/

/-- A TEXT line as 512 bits. -/
def lineOfBytes (b : List Byte) (off : Nat) : BitVec 512 := BitVec.ofNat 512 (numAt b (off / 64 * 64) 64)

/-- The head word at or below word `w` of a line. -/
def headOf (l : BitVec 512) : Nat → Option Nat
  | 0 => none
  | w + 1 => if isHead l (w + 1) then some (w + 1) else headOf l w

/-- What stands in a word of code: a head, or a slot's word; with the offset of its bundle. -/
inductive CodeWord where
  | head (bundle : Nat)
  | slot (bundle : Nat) (sl : Slot) (w : Word32)
  | other
  deriving DecidableEq, Repr

/-- The code word at an offset of a TEXT section, or of a MERLET function that starts at `start`. -/
def codeWord (text : Bool) (b : List Byte) (start off : Nat) : CodeWord :=
  if off % 4 ≠ 0 then .other
  else if text then
    let l := lineOfBytes b off
    let w := off % 64 / 4
    match headOf l w with
    | none => .other
    | some h =>
      let bundle := off / 64 * 64 + 4 * h
      if h = w then .head bundle
      else match (slotWords l (lineWord l h) (h + 1) slotOrder)[w - h - 1]? with
        | some (sl, v) => .slot bundle sl v
        | none => .other
  else
    let bundle := start + (off - start) / 20 * 20
    let i := (off - start) % 20 / 4
    let h : Word32 := BitVec.ofNat 32 (numAt b bundle 4)
    if i = 0 then .head bundle
    else match merletSlot h i with
      | some sl => .slot bundle sl (BitVec.ofNat 32 (numAt b off 4))
      | none => .other

/-- A bundle head of a function at an address (R423). -/
def headAt (m : Image) (l : Layout) (cs : List (List Byte)) (fi : Nat) (a : Int) : Bool :=
  match m.funcs[fi]? with
  | none => false
  | some f =>
    let base := l.addrs.getD f.sect 0
    let o := a - (base : Int)
    if o < (f.off : Int) || (f.off + f.size : Nat) ≤ o then false
    else
      let n := o.toNat
      if (m.sects[f.sect]?).any (fun s => s.ty = 1) then n % 4 = 0 && isHead (lineOfBytes (cs.getD f.sect []) n) (n % 64 / 4)
      else (n - f.off) % 20 = 0

/-- The function record that holds an offset of a section. -/
def funcHolding (m : Image) (sect off : Nat) : Option Nat :=
  (m.funcs.zipIdx.find? (fun e => e.1.sect = sect && e.1.off ≤ off && off < e.1.off + e.1.size)).map Prod.snd

/-- Forms that BC20, BJ26 and IMM12 name, by a slot's opcode (R170, R172, R174). -/
def isBC (sl : Slot) (w : Word32) : Bool := sl == .b && opOf w == 0x00#6
def isBJ (sl : Slot) (w : Word32) : Bool := sl == .b && (opOf w == 0x01#6 || opOf w == 0x02#6)
def isRI (sl : Slot) (w : Word32) : Bool :=
  match sl with
  | .s0 | .s1 => (0x10 ≤ (opOf w).toNat && (opOf w).toNat ≤ 0x17) || [0x19#6, 0x1C#6, 0x1D#6].contains (opOf w)
  | .b => [0x0C#6, 0x10#6, 0x15#6].contains (opOf w)
  | _ => false

/-- A relocation entry. -/
structure Reloc where
  off : Nat
  ty : Nat
  target : Nat
  addend : Int
  base : Nat
  deriving DecidableEq, Repr

def parseReloc (b : List Byte) (i : Nat) : Reloc :=
  { off := numAt b (24 * i) 8, ty := numAt b (24 * i + 8) 1 + 256 * numAt b (24 * i + 9) 1,
    target := numAt b (24 * i + 10) 2, addend := sext 32 (numAt b (24 * i + 12) 4), base := numAt b (24 * i + 16) 8 }

/-- Bytes of the field a type places. -/
def relocBytes (ty : Nat) : Nat := if ty = 1 then 8 else 4

/-- The low `n` bits of the word at an offset replaced. -/
def patchLow (b : List Byte) (off n : Nat) (v : Int) : List Byte :=
  let w := numAt b off 4
  patchAt b off (bytesOfNat (w / 2 ^ n * 2 ^ n + (v % (2 ^ n : Nat)).toNat) 4)

/-- Whether a value lies in a signed field. -/
def fitsSigned (v : Int) (n : Nat) : Bool := -(2 ^ (n - 1) : Nat) ≤ v && v < (2 ^ (n - 1) : Nat)

/-- One relocation applied to the contents of the sections (R422). -/
def applyReloc (m : Image) (l : Layout) (cs : List (List Byte)) (link idx : Nat) (r : Reloc) :
    Except LoadErr (List (List Byte)) :=
  let b := cs.getD link []
  let ty := (m.sects[link]?).elim 0 (·.ty)
  let n := relocBytes r.ty
  if r.ty = 0 || 0xA < r.ty || (r.ty ≠ 9 && r.ty ≠ 0xA && r.base ≠ 0) then .error (relocBad idx)
  else if b.length < r.off + n then .error (objBad idx)
  else
    let isSect := 2 ^ 15 ≤ r.target
    let k := r.target % 2 ^ 15
    let addr := if isSect then l.addrs.getD k 0 else fnAddr m l k
    if (if isSect then m.sects.length else m.funcs.length) ≤ k then .error (relocBad idx)
    else
      let sa : Int := addr + r.addend
      let done (c : List Byte) : Except LoadErr (List (List Byte)) := .ok (cs.set link c)
      let fi := funcHolding m link r.off
      let start := ((fi.bind (fun i => m.funcs[i]?)).map (·.off)).getD 0
      let cw := if ty = 1 || ty = 2 then codeWord (ty = 1) b start r.off else .other
      let unit : Int := if ty = 1 then 4 else 20
      let branch (p : Slot → Word32 → Bool) (w : Nat) : Except LoadErr (List (List Byte)) :=
        match cw with
        | .slot bundle sl word =>
          let d := sa - ((l.addrs.getD link 0 + bundle : Nat) : Int)
          if !p sl word then .error (relocBad idx)
          else if !(match fi with | some i => headAt m l cs i sa | none => false) then .error (relocBad idx)
          else if d % unit ≠ 0 || !fitsSigned (d / unit) w then .error (relocRange idx)
          else done (patchLow b r.off w (d / unit))
        | _ => .error (relocBad idx)
      match r.ty with
      | 1 => done (patchAt b r.off (bytesOfNat (sa % (2 ^ 64 : Nat)).toNat 8))
      | 2 => if sa < 0 || (2 ^ 32 : Nat) ≤ sa then .error (relocRange idx) else done (patchAt b r.off (bytesOfNat sa.toNat 4))
      | 3 => branch isBC 20
      | 4 => branch isBJ 26
      | 9 =>
        match (m.sects.zipIdx.find? (fun e => e.1.ty = 3)), cw with
        | none, _ => .error (relocBad idx)
        | some g, .slot _ sl word =>
          let v := sa - ((l.addrs.getD g.2 0 + r.base : Nat) : Int)
          if !isRI sl word then .error (relocBad idx)
          else if !fitsSigned v 12 then .error (relocRange idx) else done (patchLow b r.off 12 v)
        | _, _ => .error (relocBad idx)
      | 0xA =>
        let v := sa - ((l.addrs.getD link 0 + r.base : Nat) : Int)
        if !(List.range m.funcs.length).any (fun i => headAt m l cs i sa) then .error (relocBad idx)
        else if !fitsSigned v 32 then .error (relocRange idx) else done (patchLow b r.off 32 v)
      | h =>
        match cw with
        | .head _ => done (patchLow b r.off 16 (sa / (2 ^ (16 * (8 - h)) : Nat)))
        | _ => .error (relocBad idx)

/-- The relocations of section `self`, in entry order, and those of every RELOC section, in section order; `seen` holds the
fields placed so far: section, offset, length. -/
def relocEntries (m : Image) (l : Layout) (self link : Nat) :
    Nat → Nat → Nat → List (Nat × Nat × Nat) → List (List Byte) → Except LoadErr (Nat × List (Nat × Nat × Nat) × List (List Byte))
  | 0, _, idx, seen, cs => .ok (idx, seen, cs)
  | n + 1, i, idx, seen, cs =>
    let r := parseReloc (cs.getD self []) i
    let len := relocBytes r.ty
    if seen.any (fun e => e.1 = link && e.2.1 < r.off + len && r.off < e.2.1 + e.2.2) then .error (relocBad idx)
    else match applyReloc m l cs link idx r with
      | .error e => .error e
      | .ok cs => relocEntries m l self link n (i + 1) (idx + 1) ((link, r.off, len) :: seen) cs
def relocSects (m : Image) (l : Layout) :
    List (Sect × Nat) → Nat → List (Nat × Nat × Nat) → List (List Byte) → Except LoadErr (List (List Byte))
  | [], _, _, cs => .ok cs
  | (s, i) :: rest, idx, seen, cs =>
    if s.ty ≠ 5 then relocSects m l rest idx seen cs
    else match relocEntries m l i s.link (s.size / 24) 0 idx seen cs with
      | .error e => .error e
      | .ok (idx, seen, cs) => relocSects m l rest idx seen cs

/-! ### Merlet (R190, R191) -/

/-- Whether an instruction is one that Merlet code may hold at bundle `i` of `n`: no latch, no held value, no annul bit,
and targets inside the function (R191, R424). A loop whose body would run past the function's end counts as one whose target
lies outside (log 39). -/
def merletOk (n i : Nat) (x : Instr) : Bool :=
  let inside (d : Int) : Bool := 0 ≤ (i : Int) + d && (i : Int) + d < (n : Int)
  x.srcs.all (fun a => match a with | .reg _ => true | _ => false)
    && (match x with
        | .br _ _ an off => !an && inside (sext 20 off.toNat)
        | .jmp off | .jmpl off => inside (sext 26 off.toNat)
        | .loop _ len _ _ | .loopi _ len _ _ => inside (len.toNat + 1)
        | _ => true)

/-- A Merlet bundle that breaks R190, R191 or R181. -/
def merletBad (cellar : Bool) (n i : Nat) (b : List Byte) : Bool :=
  let h : Word32 := BitVec.ofNat 32 (numAt b 0 4)
  let ws := merletWords b
  let heads := (ws.filter (fun e => consumesHead cellar e.1 e.2)).length
  field h 20 6 ≠ 0
    || (List.range 4).any (fun j => (merletSlot h (j + 1)).isNone && numAt b (4 * (j + 1)) 4 ≠ 0)
    || 1 < heads || (heads = 0 && field h 0 16 ≠ 0)
    || (match decodeWords cellar (h.extractLsb' 0 16) ws with
        | .error _ => true
        | .ok is => (destClash is []).isSome || !(is.all (fun e => merletOk n i e.2)))

/-- MERLET_BAD for a function's relocated bytes. -/
def merletFuncBad (cellar : Bool) (b : List Byte) : Bool :=
  b.length % 20 ≠ 0 || (List.range (b.length / 20)).any (fun i => merletBad cellar (b.length / 20) i (slice b (20 * i) 20))

/-! ### Loading (R423, R429, R436) -/

/-- Bytes that the loader places in HBM pages: they perform at DRAM, and no cache keeps older ones (log 23). -/
def State.placeBytes (s : State) (func a : Nat) (bs : List Byte) : State :=
  bs.zipIdx.foldl (fun (s : State) e =>
    match s.walk func (a + e.2) false with
    | .page false p =>
      let s := s.dramWrite p [e.1]
      { s with l1Seq := s.l1Seq.map (fun x => (x.1, Table.erase x.2 p)),
               l1Cel := s.l1Cel.map (fun x => (x.1, Table.erase x.2 p)) }
    | _ => s) s

/-- The line of the translate-on-call stub: one bundle, TRAP 4095 (R428). -/
def stubLine : BitVec 512 := BitVec.ofNat 512 (2 + 2 ^ 28 * 2 ^ 32 + (encode (.trap 4095)).toNat * 2 ^ 64)

/-- A line put into the code heap, of every version. -/
def State.addLine (s : State) (a : Nat) (l : BitVec 512) : State :=
  { s.mend (fun e => match e with | .code wk => wk / 8 == a / 64 | _ => false) with
    code := s.code ++ [{ addr := a, ver := 0, line := l }] }

/-- A function-table entry: target and signature (R224, R429). -/
def ftEntry (target sig : Nat) : List Byte := bytesOfNat target 8 ++ bytesOfNat sig 8

/-- The translation of a function that launches admitted now execute (R377, R424). -/
def State.xlationOf (s : State) (f : Func) : Option Xlation :=
  s.xlations.find? (fun x => x.base = f.xbase.toNat && x.dropped.isNone)
/-- The address by which a function is entered through the table or as a kernel: its translation's, or its own. -/
def State.codeEntry (s : State) (f : Func) : Word :=
  if !f.portable then f.addr
  else if (s.xlationOf f).isSome then f.xbase + 4 else f.stub + 4

/-- The bases of the function table, or of the data, that a context of a stack uses: index 12 is the primary copy. -/
def replicaOf (c : CoreId) : Nat := if c.isCellar then c.stack else 12

/-- Every copy of an object's entry of a function rewritten. -/
def State.writeEntry (s : State) (f : Func) : State :=
  let o := (Table.find? s.objs f.obj).getD { func := 0, ftBase := [], ftLen := 0, dataBase := [], stackSize := 0, tlsSize := 0, codeSize := 0 }
  if f.ftIdx = 0xFFFF then s
  else o.ftBase.foldl (fun (s : State) b =>
    s.placeBytes o.func (b.toNat + 16 * f.ftIdx.toNat) (ftEntry (s.codeEntry f).toNat f.sig.toNat)) s

/-- Records of the loaded functions. -/
def loadedFuncs (k : Nat) (m : Image) (l : Layout) (cs : List (List Byte)) : List Func :=
  let body (f : FRec) : List Byte :=
    if (m.sects[f.sect]?).any (fun s => s.ty = 2) then slice (cs.getD f.sect []) f.off f.size else []
  let xoff (i : Nat) : Nat := ((m.funcs.take i).map (fun f => alignUp (64 + 96 * ((body f).length / 20)) 6)).foldl (· + ·) 0
  m.funcs.zipIdx.map (fun e =>
    { obj := k, addr := BitVec.ofNat 64 (fnAddr m l e.2), stub := BitVec.ofNat 64 (l.codeEnd + 64 * e.2),
      xbase := BitVec.ofNat 64 (xlateBase k + xoff e.2), kind := e.1.kind, sig := BitVec.ofNat 16 e.1.sig,
      ftIdx := BitVec.ofNat 16 e.1.ftIdx,
      handler := if e.1.kind.getLsbD 1 && e.1.handler ≠ 0xFFFFFFFF then BitVec.ofNat 64 (fnAddr m l e.1.handler) else 0,
      portable := (m.sects[e.1.sect]?).any (fun s => s.ty = 2), merlet := body e.1, cellar := e.1.kind.getLsbD 0 })

/-- Where the copies of an object's data stand, by stack, the primary copy last: one for each stack when it holds a cellar
function, at the primary's place modulo 2^31, so that every section keeps its alignment (R420, R429). -/
def dataCopies (l : Layout) (fs : List Func) : List (Nat × Nat) :=
  (List.range 12).map (fun c => (c, if fs.any (·.cellar) then l.data + 2 ^ 31 * (c + 1) else l.data)) ++ [(0, l.data)]
/-- The copies that are placed, each once. -/
def dataPlaced (l : Layout) (fs : List Func) : List (Nat × Nat) :=
  if fs.any (·.cellar) then dataCopies l fs else [(0, l.data)]
/-- Pages for every copy of an object's data; none when firmware has not enough of them. -/
def State.mapData (s : State) (func : Nat) (l : Layout) (fs : List Func) : Option State :=
  let n := l.dataEnd - l.data
  let s := (dataPlaced l fs).foldl (fun (s : State) e => s.mapRange func e.1 e.2 n) s
  if (dataPlaced l fs).all (fun e => (pagesOf e.2 n).all (fun a => match s.walk func a false with
    | .page _ _ => true
    | _ => false)) then some s else none

/-- A checked and relocated object placed, in a state that has its data's pages: TEXT lines and stubs, data with its replicas,
and its function table, whose entries are zero where no record names them. -/
def State.install (s : State) (func k : Nat) (m : Image) (l : Layout) (cs : List (List Byte)) : State :=
  let fs := loadedFuncs k m l cs
  let lo := l.data
  let bases := dataCopies l fs
  let secs := (m.sects.zip cs).zip l.addrs
  let firstData := ((secs.find? (fun e => e.1.1.ty = 3)).map (fun e => e.2))
  let s := secs.foldl (fun (s : State) e =>
    if e.1.1.ty = 1 then
      (List.range (e.1.1.size / 64)).foldl (fun (s : State) i => s.addLine (e.2 + 64 * i) (lineOfBytes e.1.2 (64 * i))) s
    else s) s
  let s := fs.foldl (fun (s : State) f => if f.portable then s.addLine f.stub.toNat stubLine else s) s
  let s := (dataPlaced l fs).foldl (fun (s : State) e =>
    let s := s.placeBytes func (e.2 + (l.table - lo)) (List.replicate (16 * m.ftLen) 0)
    secs.foldl (fun (s : State) x =>
      if x.1.1.ty = 3 || x.1.1.ty = 4 || (e.2 = lo && 5 ≤ x.1.1.ty) then s.placeBytes func (e.2 + (x.2 - lo)) x.1.2 else s) s) s
  let o : Obj :=
    { func, ftBase := bases.map (fun e => BitVec.ofNat 64 (e.2 + (l.table - lo))), ftLen := m.ftLen,
      dataBase := bases.map (fun e => match firstData with
        | some a => BitVec.ofNat 64 (e.2 + (a - lo))
        | none => 0),
      stackSize := m.stack, tlsSize := m.tls, codeSize := l.data - objBase k }
  let s : State := { s with objs := Table.insert s.objs k o, funcs := s.funcs ++ fs, objNext := k + 1 }
  fs.foldl State.writeEntry s

/-- A load as a whole: the new state and the first TEXT section's address, or the failure with nothing loaded. An object that
does not fit the places and pages that firmware has for one is OBJ_BAD (log 24). -/
def State.loadObject (s : State) (func obj size : Nat) : Except LoadErr (State × Nat × List Nat) :=
  match s.fwRead func obj size with
  | none => .error (objBad 0)
  | some img =>
    match parseImage img with
    | .error e => .error e
    | .ok m =>
      let l := layoutOf s.objNext m
      if objBase s.objNext + 2 ^ 31 < l.dataEnd || 2 ^ 53 < objBase s.objNext then .error (objBad 0)
      else
        match relocSects m l m.sects.zipIdx 0 [] (m.sects.map (·.bytes)) with
        | .error e => .error e
        | .ok cs =>
          match (loadedFuncs s.objNext m l cs).zipIdx.find? (fun e => e.1.portable && merletFuncBad e.1.cellar e.1.merlet) with
          | some e => .error { status := 0x0B, index := e.2 }
          | none =>
            match s.mapData func l (loadedFuncs s.objNext m l cs) with
            | none => .error (objBad 0)
            | some s => .ok (s.install func s.objNext m l cs,
                ((m.sects.zip l.addrs).find? (fun e => e.1.ty = 1)).elim 0 Prod.snd,
                (List.range m.funcs.length).map (fnAddr m l))

/-- The 16-byte load result (R423). -/
def loadResult (status index first : Nat) : List Byte := bytesOfNat status 4 ++ bytesOfNat index 4 ++ bytesOfNat first 8

/-- A write by firmware that may fail for want of a page, in which case nothing is written (log 24). -/
def State.tryWrite (s : State) (func a : Nat) (bs : List Byte) : State := (s.fwWrite func a bs).getD s

/-- One load request served: FADDR words, then the result, then the event (R436). -/
def State.serveLoad (s : State) (func : Nat) (r : BitVec 512) : State :=
  let result := recField r 16 8
  let sig := recField r 24 2
  let fa := recField r 32 8
  let s := s.fwNote func (recField r 0 8) (recField r 8 8)
  match s.loadObject func (recField r 0 8) (recField r 8 8) with
  | .error e => (s.tryWrite func result (loadResult e.status e.index 0)).changeEvent func sig 2
  | .ok (s, first, addrs) =>
    let s := if fa = 0 then s else
      addrs.zipIdx.foldl (fun (s : State) e => s.tryWrite func (fa + 8 * e.2) (bytesOfNat e.1 8)) s
    (s.tryWrite func result (loadResult 0 0 first)).changeEvent func sig 1

/-- LOAD_REQUEST: requests are served in the order in which they arrived. -/
def execLoadRequest : State → Host.Outcome State Fault Refusal :=
  eventOp (fun s => !s.loads.isEmpty) (fun s =>
    match s.loads with
    | [] => s
    | r :: rest => State.serveLoad { s with loads := rest } r.1 r.2)

/-! ### Translation (R424 to R428) -/

/-- Bytes of the code heap (log 23), and bytes in use. -/
def codeHeap : Nat := 2 ^ 30
def State.heapUsed (s : State) : Nat := 64 * s.code.length + (s.xlations.map (·.size)).foldl (· + ·) 0

/-- The upper bound that the translator reserves (R427). -/
def xlateBound (b : List Byte) : Nat := 64 + 96 * (b.length / 20)
/-- The key of a function's translation (R28, R425). -/
def xKey (b : List Byte) : XKey :=
  { digest := sha384 b, stepping := 1, version := Config.translatorVersion }
/-- Heap bytes of a translation made anew: the tail of the reservation is returned (R427). -/
def XKey.size (k : XKey) (b : List Byte) : Nat := min (Config.xlateSize k.digest k.stepping k.version) (xlateBound b)

/-- A translation in the Rolian store, and the store with a key as its most recent use; it keeps the last ones used, as many as
its region holds (R426). -/
def State.storedSize (s : State) (k : XKey) : Option Nat := (s.rolian.find? (fun e => e.1 = k)).map Prod.snd
def State.useStored (s : State) (k : XKey) (n : Nat) : State :=
  let l := s.rolian.filter (fun e => e.1 != k) ++ [(k, n)]
  { s with rolian := l.drop (l.length - Config.rolianRoom) }

/-- Whether a launch that names an object is admitted and not complete. -/
def State.objInUse (s : State) (k : Nat) : Bool := s.launches.any (fun e => e.2.obj = k && !e.2.complete)

/-- A translation evicted: its bytes leave, and the stub stands in the table again (R428). -/
def State.evict (s : State) (f : Func) : State :=
  State.writeEntry { s with xlations := s.xlations.filter (fun x => x.base != f.xbase.toNat) } f

/-- The least recently used translation that no launch in flight, and not the launch that is being admitted for object `k`,
references (R427). -/
def State.lruTranslation (s : State) (k : Nat) : Option Func :=
  let fs := s.funcs.filterMap (fun f =>
    if f.obj = k || s.objInUse f.obj then none
    else (s.xlations.find? (fun x => x.base = f.xbase.toNat)).map (fun x => (f, x.used)))
  let oldest := fs.foldl (fun (m : Nat) e => min m e.2) s.nextLid
  (fs.find? (fun e => e.2 = oldest)).map Prod.fst

/-- Whether a reservation fits, and the state with the evictions made for it, at most `fuel`; they stay when it does not. -/
def State.reserve (s : State) (k n : Nat) : Nat → Bool × State
  | 0 => (s.heapUsed + n ≤ codeHeap, s)
  | fuel + 1 =>
    if s.heapUsed + n ≤ codeHeap then (true, s)
    else match s.lruTranslation k with
      | none => (false, s)
      | some f => (s.evict f).reserve k n fuel

/-- One function translated into the heap, or its translation copied there from the Rolian store, and its table entry
written; or the failure's status beside the evictions made (R424 to R428). -/
def State.translate1 (s : State) (f : Func) : State × Option (BitVec 8) :=
  match s.xlationOf f with
  | some x => ({ s with xlations := s.xlations.map (fun y => if y = x then { y with used := s.nextLid } else y) }, none)
  | none =>
    if merletFuncBad f.cellar f.merlet then (s, some 0x0B)
    else match s.reserve f.obj (xlateBound f.merlet) s.xlations.length with
      | (false, s) => (s, some 0x0C)
      | (true, s) =>
        let k := xKey f.merlet
        let n := min ((s.storedSize k).getD (k.size f.merlet)) (xlateBound f.merlet)
        let x : Xlation := { base := f.xbase.toNat, placed := f.addr.toNat, code := f.merlet, ver := s.codeVer, dropped := none,
                             size := n, used := s.nextLid }
        (State.writeEntry { s.useStored k n with xlations := s.xlations ++ [x] } f, none)

/-- Every Merlet function of an object in record order; a failure leaves the translations and evictions already made, and its
status (R424, R427). -/
def State.translateAll (s : State) : List Func → State × Option (BitVec 8)
  | [] => (s, none)
  | f :: rest =>
    if !f.portable then s.translateAll rest
    else match s.translate1 f with
      | (s, some st) => (s, some st)
      | (s, none) => s.translateAll rest

end Sys2Proof.Machine
end

