-- ==== Sys2Proof/Machine/Admission.lean ====
section
/-! DEFINITION. Records: the launch windows, admission with its statuses, patches, resets, tensors, and code versions
(R34 to R40, R117, R121, R337, R359 to R367, R377 to R379, R429). -/

namespace Sys2Proof.Machine

/-! ### Launch windows (R359) -/

/-- LAUNCH_WINDOW_WRITE: a posted write of `size` bytes at `off` of a queue's window by a function. A write that is no
record leaves its status and COOKIE but no event (log 25). -/
def State.windowWrite (s : State) (func q off size : Nat) (rec : BitVec 512) : State :=
  if 64 ≤ q then s
  else if off ≠ 0 || size ≠ 64 then
    s.updQueue q (fun x => { x with last := 0x02, cookie := BitVec.ofNat 32 (recCookie rec), notAcc := x.notAcc + 1 })
  else if (s.queue q).func ≠ func then s.notAccepted q func rec 0x02
  else if 256 ≤ (s.queue q).recs.length then s.notAccepted q func rec 0x03
  else s.updQueue q (fun x =>
    { x with recs := x.recs ++ [{ record := rec, device := false, name := 0, admitted := false, waits := [], failed := false }] })
def execLaunchWindowWrite (func q off size : Nat) (rec : BitVec 512) : State → Host.Outcome State Fault Refusal :=
  eventOp (·.hasFunc func) (·.windowWrite func q off size rec)

/-! ### The checks of R361 -/

def product (l : List Nat) : Nat := l.foldl (· * ·) 1
/-- Tasks of the groups at level `j` (R39). -/
def groupSize (fmt lim j : Nat) : Nat := product (((List.range (widNf fmt)).drop j).map (widExtent fmt lim))

/-- Stacks that a stack mask names, ascending. -/
def stacksOf (mask : Nat) : List Nat := (List.range 12).filter (fun i => mask.testBit i)

/-- The kernel at an entry address (R429). -/
def State.kernelAt (s : State) (a : Nat) : Option Func :=
  s.funcs.find? (fun f => f.addr.toNat = a && f.kind.getLsbD 1)

/-- The block of ARGS, or zeros (R360). -/
def State.argsOf (s : State) (func : Nat) (r : BitVec 512) : Option (BitVec 512) :=
  if recArgs r = 0 then some 0
  else if recArgs r % 64 ≠ 0 then none
  else s.fwRead64 func (recArgs r)

/-- REC_BAD (R359, R360, R361, R429). -/
def State.recBad (s : State) (q : Nat) (r : BitVec 512) (device : Bool) : Bool :=
  let ty := recType r
  ty = 0 || 5 < ty || recZeroBad r device || (device && (ty = 2 || ty = 4 || ty = 5))
    || recPrio r < (s.queue q).ceiling
    || (ty = 1 && ((match s.kernelAt (recEntry r) with
            | none => true
            | some f => recKind r ≠ 3 && f.cellar != (recKind r == 2))
        || (s.argsOf (s.queue q).func r).isNone))

/-- WID_BAD (R34, R36 to R38, R337). -/
def widBad (r : BitVec 512) : Bool :=
  let fmt := recWidf r
  let lim := recWidl r
  let nf := widNf fmt
  let ws := widWidths fmt
  let sum := ws.foldl (· + ·) 0
  recKind r = 3 || nf = 0 || 6 < nf || (ws.take nf).any (fun w => w = 0 || 64 < w) || (ws.drop nf).any (· ≠ 0) || 64 < sum
    || widCor fmt / 2 ^ nf ≠ 0 || fmt / 2 ^ 51 ≠ 0 || lim / 2 ^ sum ≠ 0 || 2 ^ 40 < groupSize fmt lim 0
    || (recKind r = 2 && 2 ≤ (stacksOf (recShape r)).length
        && widExtent fmt lim 0 ≠ (stacksOf (recShape r)).length)

/-- Die counts of R47, in table order. -/
def shapeCounts : List Nat := [1, 2, 3, 4, 8, 12, 24, 36, 48]
/-- Counts that an allowed-count mask names. -/
def countsOf (mask : Nat) : List Nat := ((List.range 9).filter (fun i => mask.testBit i)).map (fun i => shapeCounts.getD i 0)

/-- SHAPE_BAD (R38, R47, R337, R367, R405). -/
def State.shapeBad (s : State) (q : Nat) (r : BitVec 512) : Bool :=
  let sh := recShape r
  let twin := (s.kernelAt (recEntry r)).any (fun f => f.kind.getLsbD 2)
  (recKind r = 0 && (sh = 0 || 2 ^ 9 ≤ sh || (twin && (sh.testBit 0 || sh.testBit 2))))
    || (recKind r = 2 && (sh = 0 || 2 ^ 12 ≤ sh))
    || (recFollow r && (match (s.queue q).lastLaunch with
        | none => false
        | some lid =>
          let l := (s.launch lid).record
          recKind r ≠ 0 || recKind l ≠ 0 || (countsOf sh).length ≠ 1 || recShape l ≠ sh))

/-- GROUP_TOO_BIG (R40): every level whose COR bit is set. -/
def groupTooBig (r : BitVec 512) : Bool :=
  let fmt := recWidf r
  (List.range 6).any (fun j => (widCor fmt).testBit j &&
    (let n := groupSize fmt (recWidl r) j
     if recKind r = 2 then 64 * (stacksOf (recShape r)).length < n
     else 32 < n || (recKind r = 0 && 96 < n * (countsOf (recShape r)).headD 0)))

/-- A tensor-table entry that keeps R117, apart from its handle; `desc` for a descriptor of TNEW (R379). -/
def tensorOk (e : BitVec 512) (desc : Bool) : Bool :=
  let nd := recField e 5 1 % 8
  1 ≤ tFmt e && tFmt e ≤ 9 && 1 ≤ nd && nd ≤ 5 && recField e 5 1 < 16
    && (if desc then recField e 0 4 = 0 && recField e 6 2 < 2 ^ 12 && tTtp e = 0
        else recField e 6 2 = 0 && tTtp e % 64 = 0 && tTtp e < 2 ^ 40)
    && recField e 12 4 = 0 && recField e 36 4 = 0 && recField e 48 16 = 0
    && (List.range 5).all (fun i => 1 ≤ tExt e i && tExt e i ≤ 2 ^ 31 && (i < nd || tExt e i = 1))

/-- The entries of a launch's tensor list (R117, R360): none is TENSOR_BAD. -/
def State.tensorList (s : State) (func : Nat) (r : BitVec 512) : Option (List (BitVec 512)) :=
  let n := recTcount r
  if 4096 < n || recTlist r % 64 ≠ 0 || (n ≠ 0 && recTlist r = 0) then none
  else
    match (List.range n).mapM (fun i => s.fwRead64 func (recTlist r + 64 * i)) with
    | none => none
    | some es => if es.all (fun e => tFmt e = 0 || (tensorOk e false && s.handleCurrent (tHandle e))) then some es else none

/-- EVENT_BAD (R361, R367). -/
def State.eventBad (s : State) (q : Nat) (r : BitVec 512) : Bool :=
  if recType r = 1 then recFollow r && (s.queue q).lastLaunch.isNone else recSignal r = 0

/-- Events of the WAITs that are not SET, and whether one is FAILED (R366). -/
def State.openWaits (s : State) (func : Nat) (r : BitVec 512) : List Nat :=
  (recWaits r).filter (fun e => (s.event func e).st != 1)
def State.waitFailed (s : State) (func : Nat) (r : BitVec 512) : Bool := (recWaits r).any (fun e => (s.event func e).st == 2)

/-- Whether bytes lie in the code heap: among a loaded object's code and stubs, or its translations (R377, log 23). -/
def State.inHeap (s : State) (a n : Nat) : Bool :=
  s.objs.any (fun o => (objBase o.1 ≤ a && a + n ≤ objBase o.1 + o.2.codeSize)
    || (xlateBase o.1 ≤ a && a + n ≤ xlateBase o.1 + codeHeap))

/-- PATCH_BAD: LEN out of range, DST outside the code heap or, by log 35, no multiple of 64, or SRC unreadable. -/
def State.patchBad (s : State) (func : Nat) (r : BitVec 512) : Bool :=
  let len := recEntry r
  let dst := recWidl r
  len % 64 ≠ 0 || len = 0 || 2 ^ 20 < len || dst % 64 ≠ 0 || !s.inHeap dst len || (s.fwRead func (recWidf r) len).isNone

/-- The descriptor of a TNEW, when it can be read and keeps R379; checked at admission, and read again when the record
performs (log 25). -/
def State.newDescriptor (s : State) (func : Nat) (r : BitVec 512) : Option (BitVec 512) :=
  if recWidf r % 64 ≠ 0 then none
  else (s.fwRead64 func (recWidf r)).bind (fun d => if tensorOk d true then some d else none)

/-- The status of the first check that a record fails, in the order of R361. -/
def State.admissionStatus (s : State) (q : Nat) (r : BitVec 512) (device : Bool) : Option (BitVec 8) :=
  let func := (s.queue q).func
  let launch := recType r = 1
  if s.recBad q r device then some 0x02
  else if launch && widBad r then some 0x04
  else if launch && s.shapeBad q r then some 0x05
  else if launch && groupTooBig r then some 0x06
  else if launch && (s.tensorList func r).isNone then some 0x07
  else if recType r = 4 && (s.newDescriptor func r).isNone then some 0x07
  else if s.eventBad q r then some 0x08
  else if s.waitFailed func r then some 0x09
  else if recType r = 2 && s.patchBad func r then some 0x0A
  else none

/-! ### Which queue is served (R66, R362) -/

/-- Launches admitted and not complete: while there are 4,096, admission pauses. -/
def State.openLaunches (s : State) : List Launch := (s.launches.map Prod.snd).filter (fun l => !l.complete)
def State.admitPaused (s : State) : Bool := 4096 ≤ s.openLaunches.length

/-- Whether the head of a queue is a record of one of some types that can go on now. -/
def State.servable (s : State) (p : Nat → Bool) (q : Nat) : Bool :=
  match (s.queue q).recs with
  | [] => false
  | r :: _ => p (recType r.record) && (if r.admitted then r.failed || r.waits.isEmpty else !s.admitPaused)

/-- The next queue to serve: round-robin after the last one served. -/
def State.serveQueue (s : State) (p : Nat → Bool) : Option Nat :=
  ((List.range 64).map (fun i => (s.admitQ + 1 + i) % 64)).find? (s.servable p)

/-- The head of a queue leaves. -/
def State.popQueue (s : State) (q : Nat) : State := s.updQueue q (fun x => { x with recs := x.recs.drop 1 })

/-- A head record that is not accepted. -/
def State.refuseHead (s : State) (q : Nat) (r : BitVec 512) (status : BitVec 8) : State :=
  (s.popQueue q).notAccepted q (s.queue q).func r status

/-- What the reads for a record log: its ARGS, and where its checks come so far its tensor list, its SRC or its descriptor
(R360, R361, R401). -/
def State.noteRecord (s : State) (q : Nat) (r : QRec) : State :=
  if s.ecc.isEmpty && s.layers.isEmpty then s else
  let func := (s.queue q).func
  let st := if r.admitted then none else s.admissionStatus q r.record r.device
  let far := match st with | some st => ([0x07, 0x08, 0x09, 0x0A] : List (BitVec 8)).contains st | none => true
  match recType r.record with
  | 1 =>
    let s := if recArgs r.record % 64 = 0 && recArgs r.record ≠ 0 then s.fwNote func (recArgs r.record) 64 else s
    if far && recTlist r.record % 64 = 0 then s.fwNote func (recTlist r.record) (64 * min 4096 (recTcount r.record)) else s
  | 2 => if far then s.fwNote func (recWidf r.record) (min (2 ^ 20) (recEntry r.record)) else s
  | 4 => if far && recWidf r.record % 64 = 0 then s.fwNote func (recWidf r.record) 64 else s
  | _ => s

/-- One step of admission on the queue whose turn it is. -/
def serveOp (p : Nat → Bool) (f : State → Nat → QRec → State) : State → Host.Outcome State Fault Refusal :=
  eventOp (fun s => (s.serveQueue p).isSome) (fun s =>
    match s.serveQueue p with
    | none => s
    | some q =>
      match (s.queue q).recs with
      | [] => s
      | r :: _ => f (State.noteRecord { s with admitQ := q } q r) q r)

/-! ### LAUNCH records -/

/-- The lowest launch number that no open launch has (R368). -/
def State.freeLaunchNum (s : State) : Nat :=
  ((List.range 4096).find? (fun n => s.openLaunches.all (fun l => l.num != n))).getD 0

/-- The place of a launch's private pages: the one that its name gives, the host's launches in the lower half and those of
LAUNCH instructions in the upper one, else the next that no open launch has (log 23). -/
def State.launchPlace (s : State) (device : Bool) (name : Nat) : Nat :=
  let at_ (i : Nat) : Nat := (if device then 2 ^ 17 else 0) + (name + i) % 2 ^ 17
  (((List.range 4097).map at_).find? (fun p => s.openLaunches.all (fun l => l.place != p))).getD (at_ 0)

/-- A LAUNCH record of the host's that admission has taken from its queue, accepted or not, counts for the names of those
after it: whether one is refused, or accepted and fails, can depend on time (R67, R69; log 23). -/
def State.countLaunch (s : State) (q : Nat) (e : QRec) : State :=
  if e.device || recType e.record ≠ 1 then s else s.updQueue q (fun x => { x with admits := x.admits + 1 })

/-- An accepted launch: its tasks exist, WAITING until its events are SET (R37, R41, R366). -/
def State.admitLaunch (s : State) (q : Nat) (e : QRec) (k : Func) : State :=
  let r := e.record
  let func := (s.queue q).func
  let lid := s.nextLid
  let args := (s.argsOf func r).getD 0
  let waits := s.openWaits func r
  let h := (s.funcs.find? (fun f => f.addr = k.handler && k.handler ≠ 0)).elim (0 : Word) s.codeEntry
  let name := if e.device then e.name else hostName q (s.queue q).admits
  let l : Launch :=
    { num := s.freeLaunchNum, queue := q, name, place := s.launchPlace e.device name, func, record := r,
      args := (List.range 8).map (fun i => BitVec.ofNat 64 (recField args (8 * i) 8)),
      tensors := (s.tensorList func r).getD [], waits, started := false, failed := false,
      codeVer := s.codeVer, entry := s.codeEntry k, obj := k.obj, twin := k.kind.getLsbD 2, hasHandler := h,
      leader := if recFollow r then (s.queue q).lastLaunch else none,
      total := groupSize (recWidf r) (recWidl r) 0, ended := 0, faulted := 0, complete := false, doneAt := 0, tasks := [] }
  let s := ((s.popQueue q).updQueue q (fun x => { x with lastLaunch := some lid })).countLaunch q e
  State.setLaunch { s with nextLid := lid + 1 } lid l

/-- LAUNCH_RECORD: the checks, the translation of the object's Merlet functions (R424), then the tasks. -/
def State.serveLaunch (s : State) (q : Nat) (r : QRec) : State :=
  let refuse (s : State) (st : BitVec 8) : State := (s.refuseHead q r.record st).countLaunch q r
  match s.admissionStatus q r.record r.device, s.kernelAt (recEntry r.record) with
  | some st, _ => refuse s st
  | none, none => refuse s 0x02
  | none, some k =>
    match s.translateAll (s.funcs.filter (fun f => f.obj = k.obj)) with
    | (s, none) => s.admitLaunch q r k
    | (s, some st) => refuse s st

/-- LAUNCH_RECORD serves heads of TYPE LAUNCH, and refuses heads of no TYPE. -/
def execLaunchRecord : State → Host.Outcome State Fault Refusal :=
  serveOp (fun ty => ty < 2 || 5 < ty) State.serveLaunch

/-- TASK_READY: a launch leaves WAITING, or fails with DEP_FAILED and none of its tasks runs (R41, R366). -/
def State.launchReady (s : State) (lid : Nat) : State :=
  let l := s.launch lid
  if l.failed then
    (s.setLaunch lid { l with complete := true, doneAt := s.nextLid }).notAccepted l.queue l.func l.record 0x09
  else s.setLaunch lid { l with started := true }
def execTaskReady (lid : Nat) : State → Host.Outcome State Fault Refusal :=
  eventOp (fun s =>
      let l := s.launch lid
      !l.complete && !l.started && (l.failed || l.waits.isEmpty))
    (·.launchReady lid)

/-! ### Serialised records (R362): admitted first, performed when their WAITs are satisfied -/

/-- A serialised record at the head of its queue: admission, failure of a WAIT, or its performance; `perform` answers a
status when it fails. While it waits for its events it keeps its entry (log 35). -/
def serveSerial (perform : State → Nat → BitVec 512 → Except (BitVec 8) State) (s : State) (q : Nat) (r : QRec) : State :=
  let func := (s.queue q).func
  let go (s : State) : State :=
    match perform s func r.record with
    | .ok s => s.popQueue q
    | .error st => s.refuseHead q r.record st
  if r.admitted then
    if r.failed then s.refuseHead q r.record 0x09 else go s
  else
    match s.admissionStatus q r.record r.device with
    | some st => s.refuseHead q r.record st
    | none =>
      let w := s.openWaits func r.record
      if w.isEmpty then go s
      else s.updQueue q (fun x => { x with recs := { r with admitted := true, waits := w } :: x.recs.drop 1 })

/-- The signal of a record that has performed. -/
def State.signalDone (s : State) (func : Nat) (r : BitVec 512) (st : BitVec 2) : State := s.changeEvent func (recSignal r) st

/-- A function's Merlet bytes where a patch meets them. -/
def Func.patched (f : Func) (dst : Nat) (bs : List Byte) : Func :=
  let a := f.addr.toNat
  { f with merlet := f.merlet.zipIdx.map (fun e => if dst ≤ a + e.2 then bs.getD (a + e.2 - dst) e.1 else e.1) }
/-- A new version of bytes of the code heap: its native lines, the Merlet bytes of functions, and for launches admitted later no
translation of the bytes replaced (R377). -/
def State.patchCode (s : State) (dst : Nat) (bs : List Byte) : State :=
  let meets (a n b m : Nat) : Bool := a < b + m && b < a + n
  let hit (a n : Nat) : Bool := meets dst bs.length a n
  { s.mend (fun e => match e with | .code wk => hit (8 * wk) 8 | _ => false) with
    codeVer := s.codeVer + 1,
    code := s.code ++ ((List.range (bs.length / 64)).filter (fun i =>
        !s.funcs.any (fun f => f.portable && meets (dst + 64 * i) 64 f.addr.toNat f.merlet.length))).map (fun i =>
      { addr := dst + 64 * i, ver := s.codeVer + 1, line := lineOfBytes bs (64 * i) }),
    funcs := s.funcs.map (fun f => if f.portable then f.patched dst bs else f),
    xlations := s.xlations.map (fun x =>
      if x.dropped.isNone && (hit x.placed x.code.length || hit x.base (xlateBound x.code)) then
        { x with dropped := some (s.codeVer + 1) } else x) }

def State.performPatch (s : State) (func : Nat) (r : BitVec 512) : Except (BitVec 8) State :=
  match s.fwRead func (recWidf r) (recEntry r) with
  | none => .error 0x0A
  | some bs => .ok ((s.patchCode (recWidl r) bs).signalDone func r 1)
/-- PATCH (R377). -/
def execPatch : State → Host.Outcome State Fault Refusal := serveOp (· = 2) (serveSerial State.performPatch)

/-- RESET_RECORD (R365): the event becomes CLEAR. -/
def execResetRecord : State → Host.Outcome State Fault Refusal :=
  serveOp (· = 3) (serveSerial (fun s func r => .ok (s.signalDone func r 0)))

/-- Whether an open launch names a slot in its tensor list (R379). -/
def State.slotNamed (s : State) (n : Nat) : Bool :=
  s.openLaunches.any (fun l => l.tensors.any (fun e => tFmt e ≠ 0 && handleSlot (tHandle e) = n))
/-- The lowest slot that TNEW may take, from `n` on. -/
def State.freeSlot (s : State) : Nat → Nat → Option Nat
  | 0, _ => none
  | fuel + 1, n => if (s.tslot n).used || s.slotNamed n then s.freeSlot fuel (n + 1) else some n

/-- Frames taken in rounds, one from each named stack in ascending order, dry stacks skipped (R379). -/
def State.takeFrames (s : State) (sts : List Nat) : Nat → Nat → List (BitVec 24) → List (BitVec 24) × State
  | 0, _, acc => (acc, s)
  | n + 1, k, acc =>
    let live := ((List.range sts.length).map (fun i => sts.getD ((k + i) % sts.length) 0)).find?
      (fun c => 0 < s.poolFree c)
    match live with
    | none => (acc, s)
    | some c =>
      match s.poolTake c with
      | none => (acc, s)
      | some (f, s') => s'.takeFrames sts n (sts.findIdx (· = c) + 1) (acc ++ [f])

/-- Tile tables of a stack stand above the cask, in the reserved area, below the error log (R110, R111, R379, R412; log
23). -/
def tableFloor (stack : Nat) : Nat := stack * 2 ^ 36 + 48 * 2 ^ 30 - 2 ^ 28
def tableRoof (stack : Nat) : Nat := tableFloor stack + 2 ^ 27
/-- Where a tile table of `n` entries can stand: the first gap between those in use. -/
def State.tableGap (s : State) (stack n : Nat) : Option Nat :=
  let live := (s.slots.map Prod.snd).filter (fun x => x.used && x.stack = stack)
  (tableFloor stack :: live.map (fun x => alignUp (x.table + 8 * x.size) 6)).find? (fun a =>
    a + 8 * n ≤ tableRoof stack && live.all (fun x => a + 8 * n ≤ x.table || x.table + 8 * x.size ≤ a))

/-- A frame of zeros. -/
def State.zeroFrame (s : State) (f : BitVec 24) : State :=
  s.dramWrite (frameBase f) (List.replicate 65536 0)

/-- The tensor made of a checked descriptor in a free slot, and its table entry (R379). -/
def State.makeTensor (s : State) (d : BitVec 512) (sts : List Nat) (slot n table : Nat) : State × BitVec 512 :=
  let low := sts.headD 0
  let g := (s.tslot slot).gen
  let (fs, s) := s.takeFrames sts n 0 []
  let s := fs.foldl State.zeroFrame s
  let s := s.powerOn table (8 * n)
  let s := fs.zipIdx.foldl (fun (s : State) e => s.setTtEntry (table + 8 * e.2) (ttMake 0 e.1)) s
  let entry : TensorSlot := { gen := g, used := true, freed := false, stack := low, table, size := n }
  let s := { s with slots := Table.set TensorSlot.unused s.slots slot entry }
  (s, (d &&& ~~~(BitVec.ofNat 512 ((2 ^ 16 - 1) * 2 ^ 48))) ||| BitVec.ofNat 512 (slot + g.toNat * 2 ^ 20 + table * 2 ^ 320))

/-- A TNEW performed; without room for its tile table it takes POOL_EMPTY as without frames (log 25), and its WIDL is looked
at after the pool (log 35). -/
def State.performTnew (s : State) (func : Nat) (r : BitVec 512) : Except (BitVec 8) State :=
  match s.newDescriptor func r with
  | none => .error 0x07
  | some d =>
    let mask := recField d 6 2
    let sts := stacksOf (if mask = 0 then 0xFFF else mask)
    let n := (tTiles d + tPerFrame d - 1) / max 1 (tPerFrame d)
    match s.freeSlot (2 ^ 20) 0, s.tableGap (sts.headD 0) n with
    | some slot, some table =>
      if (sts.map s.poolFree).foldl (· + ·) 0 < n then .error 0x0E
      else
        let (s', e) := s.makeTensor d sts slot n table
        if recWidl r % 64 ≠ 0 then .error 0x07 else
        match s'.fwWrite func (recWidl r) (bytesOfNat e.toNat 64) with
        | none => .error 0x07
        | some s' => .ok (s'.signalDone func r 1)
    | _, _ => .error 0x0E
/-- TNEW (R379). -/
def execTnew : State → Host.Outcome State Fault Refusal := serveOp (· = 4) (serveSerial State.performTnew)

def State.performTfree (s : State) (func : Nat) (r : BitVec 512) : Except (BitVec 8) State :=
  let h : BitVec 32 := BitVec.ofNat 32 (recWidf r)
  if !s.handleCurrent h then .error 0x0D
  else
    let x := s.tslot (handleSlot h)
    let s := { s with slots := Table.set TensorSlot.unused s.slots (handleSlot h) { x with gen := x.gen + 1, freed := x.used } }
    .ok (s.signalDone func r 1)
/-- TFREE: the generation advances at once (R379); the frames return by FRAMES_RETURN (R123). -/
def execTfree : State → Host.Outcome State Fault Refusal := serveOp (· = 5) (serveSerial State.performTfree)

/-- The frames that a freed tensor's tile table holds. -/
def State.tableFrames (s : State) (x : TensorSlot) : List (BitVec 24) :=
  (List.range x.size).map (fun i => ttFrame (s.ttEntry (x.table + 8 * i)))

/-- FRAMES_RETURN: once nothing counts them, a freed tensor's frames and tile table return to their pools (R123). -/
def execFramesReturn (slot : Nat) : State → Host.Outcome State Fault Refusal :=
  eventOp (fun s => (s.tslot slot).freed && !s.inFlight slot)
    (fun s =>
      let x := s.tslot slot
      let s := (s.tableFrames x).foldl State.poolAdd s
      let free : TensorSlot := { x with used := false, freed := false, stack := 0, table := 0, size := 0 }
      { s with slots := Table.set TensorSlot.unused s.slots slot free })

/-! ### Code versions -/

/-- A line of the heap that no open launch uses and none will: a newer version of it stands, and no open launch was
admitted between the two (R377, R378). -/
def State.deadLine (s : State) (l : CodeLine) : Bool :=
  let next := (s.code.filter (fun m => m.addr = l.addr && l.ver < m.ver)).map (·.ver)
  !next.isEmpty && s.openLaunches.all (fun x => x.codeVer < l.ver || next.any (· ≤ x.codeVer))

/-- A translation that a patch has dropped and that no open launch was admitted early enough to execute. -/
def State.deadXlation (s : State) (x : Xlation) : Bool :=
  match x.dropped with
  | some d => s.openLaunches.all (fun l => l.codeVer < x.ver || d ≤ l.codeVer)
  | none => false

/-- CODE_VERSION_FREE. -/
def execCodeVersionFree : State → Host.Outcome State Fault Refusal :=
  eventOp (fun s => s.code.any s.deadLine || s.xlations.any s.deadXlation) (fun s =>
    { s with code := s.code.filter (fun l => !s.deadLine l), xlations := s.xlations.filter (fun x => !s.deadXlation x) })

end Sys2Proof.Machine
end

