-- ==== Sys2Proof/Machine/Dispatcher.lean ====
section
/-! DEFINITION. Dispatch: batches of bind records, their checks, binding, resuming and draining; the commit of a task; and
banks that return to FREE (R42, R47 to R50, R63, R337, R338, R367 to R369, R374, R392 to R397, R414, R417, R429, R430). -/

namespace Sys2Proof.Machine

/-! ### What a bind record names -/

/-- The open launch with a number (R368). -/
def State.launchByNum (s : State) (n : Nat) : Option Nat :=
  (s.launches.find? (fun e => e.2.num = n && !e.2.complete)).map Prod.fst
/-- The task of a record, and the context it names. -/
def State.recTask (s : State) (r : BindRec) : Option TaskId :=
  (s.launchByNum r.lnch).map (fun lid => { lid, wid := r.wid.toNat })
def State.recCtx (s : State) (r : BindRec) : CoreId :=
  if ((s.recTask r).map (fun t => (s.launch t.lid).kind)) = some .cellar then .cel r.ctx else .seq r.ctx
/-- The die contexts of a record, in rank order. -/
def recDies (r : BindRec) : List DieId := (diesOf r.mask).map (fun i => { die := i, k := if r.dctx.getLsbD i then 1 else 0 })

/-- A work identifier of a launch's geometry (R37). -/
def widInside (l : Launch) (wid : Nat) : Bool :=
  let fmt := recWidf l.record
  wid < 2 ^ ((widWidths fmt).foldl (· + ·) 0)
    && (List.range (widNf fmt)).all (fun i => wid / 2 ^ widShift fmt (i + 1) % 2 ^ widW fmt i < widExtent fmt (recWidl l.record) i)

/-! ### Shapes and units -/

/-- Whether a die mask has one of the shapes of R47: 1 to 4 dies of one cluster, or whole clusters under one branch hub,
or whole branch hubs. -/
def canonicalMask (m : BitVec 48) : Bool :=
  let ds := diesOf m
  let clusters := (ds.map (· / 4)).eraseDups
  let hubs := (clusters.map (· / 3)).eraseDups
  match ds.length with
  | 1 | 2 | 3 | 4 => clusters.length = 1
  | 8 => clusters.length = 2 && hubs.length = 1
  | 12 => hubs.length = 1
  | 24 => hubs.length = 2
  | 36 => hubs.length = 3
  | 48 => true
  | _ => false

/-- HEALTH entries of units of a class range at a place. -/
def State.healthIn (s : State) (lo hi place : Nat) : List (Nat × HealthEntry) :=
  s.health.filter (fun e => lo ≤ e.1 / 2 ^ 24 && e.1 / 2 ^ 24 ≤ hi && e.1 / 2 ^ 16 % 256 = place)
/-- A die, or a core, to which dispatch binds no task (R414); a task that a detection rolled back also keeps off SUSPECT
units (R417). -/
def State.dieBarred (s : State) (d : Nat) (wary : Bool) : Bool :=
  (s.healthIn 1 5 d).any (fun e =>
    (e.2.st = .suspect && (wary || e.1 / 2 ^ 24 = 5)) || (e.2.st = .retired && !e.2.spare))
def State.coreBarred (s : State) (c : CoreId) : Bool :=
  let u := match c with
    | .seq n => unitCode 0x10 0 (n / 4)
    | .cel n => unitCode 0x20 (n / 64) (n / 4 % 16)
  let h := s.healthOf u
  h.st = .suspect || (h.st = .retired && !h.spare)

/-! ### The checks of a batch (R369) -/

/-- The record's context and die contexts are of its launch's kind, free, and may be bound. -/
def State.placeOk (s : State) (r : BindRec) (l : Launch) (wary : Bool) : Bool :=
  let c := s.recCtx r
  (s.ctx c).task.isNone && !s.coreBarred c
    && (match l.kind with
        | .partition => r.ctx < 32 && canonicalMask r.mask
            && (countsOf (recShape l.record)).contains (diesOf r.mask).length
            && (recDies r).all (fun d => (s.dctx d).part.isNone && !s.dieBarred d.die wary)
        | .scalar => r.ctx < 32 && r.mask = 0
        | .cellar => r.ctx < 768 && r.mask = 0 && (stacksOf (recShape l.record)).contains c.stack)

/-- A stack mask of two or more stacks gives each value of field 0 its stack (R337). -/
def stackOk (l : Launch) (wid stack : Nat) : Bool :=
  let st := stacksOf (recShape l.record)
  l.kind ≠ .cellar || st.length < 2 || st[wid / 2 ^ widShift (recWidf l.record) 1]? = some stack

/-- The follower's rule (R367). -/
def State.followOk (s : State) (r : BindRec) (l : Launch) : Bool :=
  match l.leader with
  | none => true
  | some lead =>
    !widInside (s.launch lead) r.wid.toNat ||
      (let t := s.task { lid := lead, wid := r.wid.toNat }
       t.everBound && t.mask = r.mask && (diesOf r.mask).all (fun i => r.dctx.getLsbD i != t.dctx.getLsbD i))

/-- The cask slots in use, and the slot of a task's group on a core: the one its mates there hold, else the one that it has held
since an earlier bind, where no task of that group goes on elsewhere, else a free one of the stack (R111). -/
def State.casksUsed (s : State) : List Nat := s.launches.flatMap (fun l => l.2.tasks.filterMap (fun t => t.2.cask))
def State.coreCask (s : State) (c : CoreId) : Option Nat :=
  ((CoreId.mates c).filterMap (fun m => (s.ctx m).task)).findSome? (fun u => (s.task u).cask)
def State.caskFor (s : State) (c : CoreId) (t : TaskId) : Option Nat :=
  let own := (s.task t).cask.filter (fun k => k / 256 = c.stack
    && s.launches.all (fun l => l.2.tasks.all (fun e => e.2.cask != some k || e.2.state == .ready)))
  match s.coreCask c, own with
  | some k, _ | none, some k => some k
  | none, none =>
    let used := s.casksUsed
    ((List.range 256).map (256 * c.stack + ·)).find? (fun k => !used.contains k)

/-- A BIND record by itself; a task's private pages stand where no other task's do (log 23). -/
def State.bindOk (s : State) (r : BindRec) (t : TaskId) : Bool :=
  let l := s.launch t.lid
  let x := s.task t
  l.started && !l.failed && widInside l t.wid && x.state = .ready && s.placeOk r l x.wary
    && stackOk l t.wid (s.recCtx r).stack && s.followOk r l && s.privateFree t

/-- A RESUME record by itself (R49, R338, R397): the saved die count, or the same stack and hardware context of a free core;
the saved banks free on their new dies; a follower where its leader's task was last bound (R367). -/
def State.resumeOk (s : State) (r : BindRec) (t : TaskId) : Bool :=
  let l := s.launch t.lid
  let x := s.task t
  let c := s.recCtx r
  match x.saved with
  | none => false
  | some v => x.state = .preempted && s.placeOk r l x.wary && (diesOf r.mask).length = v.count
      && (!c.isCellar || (c.stack = v.stack && c.num % 4 = v.hwctx && (CoreId.mates c).all (fun m => (s.ctx m).task.isNone)))
      && s.followOk r l && ((recDies r).zip v.dies).all (fun e =>
        e.2.2.banks.all (fun b => s.bankNow e.1.die b.1 = .free))

def State.drainOk (s : State) (r : BindRec) (t : TaskId) : Bool := (s.ctx (s.recCtx r)).task = some t

/-- One record of a batch by itself. -/
def State.recordOk (s : State) (a : BindAct) (r : BindRec) : Bool :=
  match s.recTask r with
  | none => false
  | some t =>
    match a with
    | .bind => s.bindOk r t
    | .resume => s.resumeOk r t
    | .drain => s.drainOk r t

/-- The state of the tasks that an ACT concerns. -/
def actState (a : BindAct) (st : TaskState) : Bool :=
  match a with
  | .bind => st == .ready
  | .resume => st == .preempted
  | .drain => st == .bound || st == .running

/-- The batch holds every member of a co-resident group that its ACT concerns (R40, R369), and every task that was
saved with a resumed one, and binds no other to their cellar core (R338). -/
def State.groupWhole (s : State) (b : List (BindAct × BindRec)) (a : BindAct) (r : BindRec) : Bool :=
  match s.recTask r with
  | none => false
  | some t =>
    let l := s.launch t.lid
    let fmt := recWidf l.record
    let mine := (b.filter (fun e => e.1 = a)).filterMap (fun e => s.recTask e.2)
    let group := match groupKeyOf fmt t.wid, (List.range 6).find? (fun j => (widCor fmt).testBit j) with
      | some k, some j =>
        let here := mine.filter (fun u => u.lid = t.lid && groupKeyOf fmt u.wid = some k)
        let others := l.tasks.filter (fun e => groupKeyOf fmt e.1 = some k)
        let want := if a = .bind then groupSize fmt (recWidl l.record) j - (others.filter (fun e => e.2.state ≠ .ready)).length
          else (others.filter (fun e => actState a e.2.state)).length
        here.length = want
      | _, _ => true
    let saved := match a, (s.task t).saved with
      | .resume, some v => v.mates.all (fun u => b.any (fun e => e.1 = .resume && s.recTask e.2 = some u
          && (s.recCtx e.2).coreNo = (s.recCtx r).coreNo))
          && (!(s.recCtx r).isCellar || b.all (fun e => e.1 = .drain || !(s.recCtx e.2).isCellar
            || (s.recCtx e.2).coreNo ≠ (s.recCtx r).coreNo || s.recTask e.2 = some t
            || (match s.recTask e.2 with | some u => e.1 = .resume && v.mates.contains u | none => false)))
      | _, _ => true
    group && saved

/-- Contexts, die contexts and tasks that a batch binds are all different. -/
def State.apart (s : State) (b : List (BindAct × BindRec)) : Bool :=
  let rs := (b.filter (fun e => e.1 ≠ .drain)).map Prod.snd
  let cs := rs.map s.recCtx
  let ds := rs.flatMap recDies
  cs.eraseDups.length = cs.length && ds.eraseDups.length = ds.length
    && (rs.map s.recTask).eraseDups.length = rs.length

/-- The tasks of one cellar core belong to one launch (R337). -/
def State.coreOfOne (s : State) (b : List (BindAct × BindRec)) : Bool :=
  b.all (fun e =>
    let c := s.recCtx e.2
    e.1 = .drain || !c.isCellar || (match s.recTask e.2 with
      | none => false
      | some t => (CoreId.mates c).all (fun m => match (s.ctx m).task with | some u => u.lid = t.lid | none => true)
          && b.all (fun f => f.1 = .drain || (s.recCtx f.2).coreNo ≠ c.coreNo || !(s.recCtx f.2).isCellar
            || (s.recTask f.2).map (·.lid) = some t.lid)))

/-- A cellar task placed on a context with the cask slot of its group there; none when the stack has no slot free (R111). -/
def State.caskPlaced (s : State) (c : CoreId) (t : TaskId) : Option State :=
  if !c.isCellar then some s
  else (s.caskFor c t).map (fun k =>
    (s.updCtx c (fun x => { x with task := some t })).updTask t (fun x => { x with state := .bound, cask := some k }))
/-- Each stack has a cask slot for every group that the batch binds (R111). -/
def State.caskRoom (s : State) (b : List (BindAct × BindRec)) : Bool :=
  ((b.filter (fun e => e.1 = .bind)).foldl (fun (o : Option State) e =>
    o.bind (fun s => (s.recTask e.2).bind (fun t => s.caskPlaced (s.recCtx e.2) t))) (some s)).isSome

/-- The stack whose pages a context's TLS and stack take (R129, R429). -/
def privateStack (c : CoreId) : Nat := if c.isCellar then c.stack else 0
/-- The private pages of a bind mapped; none where another task's stand there or too few pages are left (log 23). -/
def State.privatePlaced (s : State) (c : CoreId) (t : TaskId) : Option State :=
  let s' := s.mapPrivate t (privateStack c)
  if s.privateFree t && s'.privateMapped t then some s' else none
/-- Each bind of the batch finds pages for TLS and stack. -/
def State.pageRoom (s : State) (b : List (BindAct × BindRec)) : Bool :=
  ((b.filter (fun e => e.1 = .bind)).foldl (fun (o : Option State) e =>
    o.bind (fun s => (s.recTask e.2).bind (fun t => s.privatePlaced (s.recCtx e.2) t))) (some s)).isSome

def State.batchOk (s : State) (b : List (BindAct × BindRec)) : Bool :=
  b.all (fun e => s.recordOk e.1 e.2) && b.all (fun e => s.groupWhole b e.1 e.2) && s.apart b && s.coreOfOne b && s.caskRoom b && s.pageRoom b

/-! ### BIND (R429, R430) -/

/-- The deadline that a bind or resume sets (R374). -/
def State.deadline (s : State) (l : Launch) : Word :=
  if recYq l.record = 0 then BitVec.ofNat 64 (2 ^ 64 - 1) else s.timeCnt + BitVec.ofNat 64 (1024 * recYq l.record)

/-- TLS and stack of a bind: pages of the context's own stack, the TLS zero (R429; log 23 for the addresses). -/
def State.givePrivate (s : State) (t : TaskId) (c : CoreId) : State :=
  let l := s.launch t.lid
  let o := s.objOf l
  (s.mapPrivate t (privateStack c)).placeBytes l.func (privateBase l o t.wid) (List.replicate o.tlsSize 0)

/-- The registers that a bind loads (R429). -/
def bindRegs (l : Launch) (o : Obj) (c : CoreId) (wid : Nat) : PMap Word :=
  let i := replicaOf c
  let m := l.args.zipIdx.foldl (fun (m : PMap Word) e => Table.set 0 m (e.2 + 1) e.1) []
  let m := Table.set 0 m 57 (BitVec.ofNat 64 (privateBase l o wid))
  let m := Table.set 0 m 58 (o.ftBase.getD i 0)
  let m := Table.set 0 m 59 (o.dataBase.getD i 0)
  Table.set 0 m 60 (BitVec.ofNat 64 (stackTop l o wid))

/-- A context whose core takes a task up loads nothing that a copy in its L1 holds from before (R134, R145, R155): clean
bytes leave. -/
def State.freshL1 (s : State) (c : CoreId) : State := s.setL1 c ((s.l1 c).filter (fun e => e.2.dirty))

/-- A task bound: every piece of state of its contexts as R429 and R430 give it; DIE_PRES is its address space's (R115). -/
def State.bindTask (s : State) (r : BindRec) (t : TaskId) : State :=
  let l := s.launch t.lid
  let o := s.objOf l
  let c := s.recCtx r
  let s := (s.givePrivate t c).freshL1 c
  let x : Ctx :=
    { Ctx.unbound with
      task := some t, run := .ready, regs := bindRegs l o c t.wid, ftabLen := BitVec.ofNat 32 o.ftLen,
      yieldDl := s.deadline l, n0 := l.entry, n1 := s.nextN l.codeVer l.entry 1, n2 := s.nextN l.codeVer l.entry 2,
      trap := { TrapRec.none with tvec := l.hasHandler }, dieMask := r.mask, dctx := r.dctx &&& r.mask, dieEn := r.mask,
      diePres := if c.isCellar then 0 else s.presIn l.func c.num }
  let slot := if c.isCellar then s.caskFor c t else none
  let s := (s.mendUnits c (recDies r)).setCtx c x
  let s := (recDies r).zipIdx.foldl (fun (s : State) e =>
    s.setDctx e.1 { DieCtx.unbound with part := some c.num, rank := e.2, count := (diesOf r.mask).length }) s
  s.updTask t (fun y =>
    { y with state := .bound, ctx := some c, mask := r.mask, dctx := r.dctx &&& r.mask, everBound := true, cask := slot })

/-! ### RESUME (R49, R54, R392, R395 to R397) -/

/-- DIE_EN of a saved context on its new mask, by rank (R54). -/
def moveMask (old new en : BitVec 48) : BitVec 48 :=
  BitVec.ofNat 48 (((diesOf old).zip (diesOf new)).foldl (fun a e => if en.getLsbD e.1 then a + 2 ^ e.2 else a) 0)

/-- A saved die context returned to a die: its state, its banks with their bytes and owner bits. -/
def State.restoreDie (s : State) (c : CoreId) (d : DieId) (v : SavedDie) : State :=
  let s := s.setDctx d { v.ctx with part := some c.num }
  let lo := dieMemKey d.die 0
  let s := v.banks.foldl (fun (s : State) b =>
    s.putCells (lo + b.1 * 2 ^ 20) (2 ^ 20)
      ((v.bytes.filter (fun e => e.1 / 2 ^ 20 = b.1)).map (fun e => (e.1 % 2 ^ 20, e.2))) []) s
  s.updDie d.die (fun x =>
    { x with banks := v.banks.foldl (fun (m : PMap BankState) b => Table.set .free m b.1 b.2) x.banks,
             eng := v.eng.foldl (fun (m : PMap Unit) e => Table.insert m e.1 ()) x.eng })

/-- The ranges of HBM that a restore reads: the context's frame, its group's scratchpad, and the frames of its die contexts
(R111, R395, R397). -/
def State.restoreReads (s : State) (t : TaskId) (c : CoreId) (v : Saved) : List (Nat × Nat) :=
  [(hbmKey v.frame, frameSize c)]
    ++ (if c.isCellar then ((s.task t).cask.map (fun k => (hbmKey (caskBase k + 2 ^ 18), c.padSize))).toList else [])
    ++ v.dies.flatMap (fun d => d.2.frames.map (fun f => (hbmKey (frameBase f), 65536)))

/-- A preempted task bound again with its saved state (R392); a UE in what is restored aborts it (R397). -/
def State.resumeTask (s : State) (r : BindRec) (t : TaskId) : State :=
  let l := s.launch t.lid
  let c := s.recCtx r
  match (s.task t).saved with
  | none => s
  | some v =>
    let x := v.ctx.refillDrained
    let x : Ctx :=
      { x with
        run := .ready, drain := none, stopped := false, yieldDl := s.deadline l, dieMask := r.mask, dctx := r.dctx &&& r.mask,
        dieEn := moveMask v.ctx.dieMask r.mask v.ctx.dieEn, diePres := if c.isCellar then 0 else s.presIn l.func c.num }
    let reads := s.restoreReads t c v
    let ue := reads.any (fun e => s.rangeUE e.1 e.2)
    let s := ((s.freshL1 c).mendUnits c (recDies r)).setCtx c x
    let s := reads.foldl (fun (s : State) e => s.readRange e.1 e.2) { s with core := c, onDie := none }
    let ds := (recDies r).zip (v.dies.map Prod.snd)
    let s := (ds.foldl (fun (s : State) e => s.restoreDie c e.1 e.2) s).returnFrames v
    let s := if c.isCellar then s.putCells (padKey c.padIdx 0) c.padSize v.scratch [] else s
    let s := s.updTask t (fun y =>
      { y with state := .bound, ctx := some c, mask := r.mask, dctx := r.dctx &&& r.mask, saved := none })
    if ue then s.abort t (x.ending 0 .ue 0) else s

/-! ### Batches -/

/-- One record of an accepted batch. -/
def State.actRecord (s : State) (a : BindAct) (r : BindRec) : State :=
  match s.recTask r with
  | none => s
  | some t =>
    match a with
    | .bind => s.bindTask r t
    | .resume => s.resumeTask r t
    | .drain => s.requestDrain (s.recCtx r) .record

/-- The contexts of kiln runs that stand where a batch binds: on a record's core or dies (R415). -/
def State.kilnsAt (s : State) (b : List (BindAct × BindRec)) : List CoreId :=
  b.flatMap (fun e =>
    if e.1 = .drain then []
    else
      let c := s.recCtx e.2
      (if c.isCellar then CoreId.mates c else [c])
        ++ (recDies e.2).flatMap (fun d => ([0, 1] : List (Fin 2)).filterMap (fun k => (s.dctx { d with k }).part.map .seq)))

/-- A bind record joins the batch; the one with LAST set ends it: dispatch acts on all of it or rejects all of it
(R369). -/
def State.takeRecord (s : State) (a : BindAct) (r : BindRec) : State :=
  let b := s.batch ++ [(a, r)]
  if !r.last then { s with batch := b }
  else
    let s := State.dropKilns { s with batch := [] } (s.kilnsAt b)
    if s.batchOk b then
      let s := match (if a = .drain then none else s.recTask r) with
        | some t => { s with bindQ := Table.insert s.bindQ (recPrio (s.launch t.lid).record) (s.launch t.lid).queue }
        | none => s
      b.foldl (fun (s : State) e => s.actRecord e.1 e.2) s
    else { s with rejected := s.rejected + 1 }

def execBind (r : BindRec) : State → Host.Outcome State Fault Refusal := eventOp (fun _ => true) (·.takeRecord .bind r)
def execResumeBind (r : BindRec) : State → Host.Outcome State Fault Refusal := eventOp (fun _ => true) (·.takeRecord .resume r)
def execDrainBind (r : BindRec) : State → Host.Outcome State Fault Refusal := eventOp (fun _ => true) (·.takeRecord .drain r)

/-! ### Commit (R42) -/

/-- Whether a task has completed, and no stop of the debugger's holds its context (R450): HALT retired, every number retired by every die, every engine operation finished. -/
def State.committable (s : State) (t : TaskId) : Bool :=
  let x := s.task t
  match x.ctx with
  | none => false
  | some c =>
    let y := s.ctx c
    x.state = .committing && y.run = .halted && !y.stopped && !y.stepStop && y.sent.isEmpty && y.frozenAt.isNone && y.engine.isEmpty && y.nmq.isEmpty
      && y.dieIds.all (fun d => (s.dctx d).nests.isEmpty && (s.dctx d).fault.isNone && (s.dctx d).engFault.isNone
        && (s.dctx d).engines.all (fun e => e.2.isEmpty))

/-- The commit as one event; a store over a route that was down is reported at it (R441), and an uncorrectable error that it
would copy into a tensor frame ends the task instead (R381). -/
def State.commitTask (s : State) (t : TaskId) : State :=
  match (s.task t).ctx with
  | none => s
  | some c =>
    if (s.ctx c).peerErr || s.commitUE t then s.abort t ((s.ctx c).ending 0 .ue 0)
    else
      let s := ((s.cleanL1 c).commitStaged t (some c)).releasePending t
      let s := (((s.endBanks t true).tidyDies).unbind c).dropPrivate t
      (s.updTask t (fun x => { x with state := .done, ctx := none, cask := none })).taskEnded t.lid false

/-- TASK_COMMIT. -/
def execTaskCommit (lid : Nat) (wid : BitVec 64) : State → Host.Outcome State Fault Refusal :=
  eventOp (·.committable { lid, wid := wid.toNat }) (fun s =>
    let t : TaskId := { lid, wid := wid.toNat }
    match (s.task t).ctx with
    | some c => s.acting c none (·.commitTask t)
    | none => s.commitTask t)

/-! ### Released banks (R63) -/

/-- BANK_RETURN_FREE: the record of a bank that has returned to FREE follows. -/
def execBankReturnFree (die bank : Nat) : State → Host.Outcome State Fault Refusal :=
  eventOp (·.bankDone die bank)
    (fun s => (s.updDie die (fun x => { x with banks := Table.set .free x.banks bank .free })).tidyDies)

end Sys2Proof.Machine
end

