-- ==== Sys2Proof/Machine/Health.lean ====
section
/-! DEFINITION. Storage codes kept clean, kiln runs, spares, and power (R29, R401 to R403, R413 to R417, R447 to R449). -/

namespace Sys2Proof.Machine

/-! ### Scrubs and rewrites (R401 to R403) -/

/-- The next HBM word from a position on whose code is not clean. -/
def State.nextUnclean (s : State) (wk : Nat) : Option Nat :=
  ((s.ecc.map Prod.fst).filter (fun k => wk ≤ k && isHbm (8 * k))).head?

/-- SCRUB: firmware's pass meets the next HBM word whose code is not clean and logs it (a clean word shows nothing), those of the
code heap last (log 43); at the end of the store the pass ends and the next one begins. -/
def State.scrub (s : State) : State :=
  match s.nextUnclean s.scrubPos with
  | some wk => { s.noteRead .idle (8 * wk) 8 with scrubPos := wk + 1 }
  | none => { s.noteCells .idle (fun e => match e with | .code _ => true | _ => false) with scrubPos := 0, scrubAt := s.timeCnt }
/-- Whether the pass that firmware has begun must end now, SCRUB_INT after its beginning (R403). -/
def State.scrubDue (s : State) : Bool := s.scrubAt.toNat + s.scrubInt ≤ s.timeCnt.toNat
def execScrub : State → Host.Outcome State Fault Refusal := eventOp (fun _ => true) State.scrub

/-- ECC_REWRITE: the oldest scheduled rewrite; a store to the word since has cancelled it (R401). -/
def State.rewriteNext (s : State) : State :=
  match s.rewrites with
  | [] => s
  | wk :: rest =>
    let s := State.raiseLayer { s with rewrites := rest } (8 * wk) 8
    match s.eccWord wk with
    | .corrected d _ => { s with mem := Memory.writeNat s.mem (8 * wk) d 8, ecc := Table.erase s.ecc wk }
    | _ => s
def execEccRewrite : State → Host.Outcome State Fault Refusal := eventOp (fun s => !s.rewrites.isEmpty) State.rewriteNext

/-! ### Units (R411, R415, R416) -/

/-- Class, place and index of a unit. -/
def unitClass (u : UnitCode) : Nat := u.toNat / 2 ^ 24
def unitPlace (u : UnitCode) : Nat := u.toNat / 2 ^ 16 % 256
def unitIndex (u : UnitCode) : Nat := u.toNat % 2 ^ 16

/-- The units of R411 in ascending order: their number in each class and place (log 30 for the L2 slices). -/
def unitClasses : List (Nat × Nat × Nat) :=
  [(0x01, 48, 192), (0x02, 48, 128), (0x03, 48, 4), (0x04, 48, 2), (0x05, 48, 1), (0x10, 1, 8), (0x11, 1, 16), (0x12, 1, 256),
   (0x20, 12, 16), (0x21, 12, 256), (0x22, 12, 256)]
/-- A unit that the part has (R411). -/
def unitReal (u : UnitCode) : Bool :=
  unitClasses.any (fun c => c.1 == unitClass u && unitPlace u < c.2.1 && unitIndex u < c.2.2)

/-- Whether a context runs a task that is no diagnostic launch's. -/
def State.busyCtx (s : State) (c : CoreId) : Bool := (s.ctx c).task.isSome && !(s.ctx c).diag

/-- Whether a task other than a kiln run's holds a context of a die. -/
def State.dieHeld (s : State) (die : Nat) : Bool :=
  ([0, 1] : List (Fin 2)).any (fun k => match (s.dctx { die, k }).part with
    | some n => s.busyCtx (.seq n)
    | none => false)
/-- A unit of the part that no bound task holds: its die contexts, or its core's contexts (R415). -/
def State.unitIdle (s : State) (u : UnitCode) : Bool :=
  let cls := unitClass u
  if !unitReal u then false
  else if cls ≤ 5 then !s.dieHeld (unitPlace u)
  else if cls = 0x10 then (CoreId.mates (.seq (4 * unitIndex u))).all (fun c => !s.busyCtx c)
  else if cls = 0x20 then (CoreId.mates (.cel (64 * unitPlace u + 4 * unitIndex u))).all (fun c => !s.busyCtx c)
  else true

/-- One more of a 16-bit count, saturating (R413). -/
def sat16 (n : Nat) : Nat := min (n + 1) 0xFFFF

/-- The entry of a unit after a kiln run at a time (R413, R414). -/
def HealthEntry.kiln (h : HealthEntry) (now : Word) (pass : Bool) : HealthEntry :=
  let h := { h with lastKiln := now }
  if pass then
    let h := { h with kilnPass := sat16 h.kilnPass, passes := h.passes + 1 }
    if h.st = .suspect && 2 ≤ h.passes then { h with st := .good, passes := 0, lastChange := now } else h
  else
    let h := { h with kilnFail := sat16 h.kilnFail, passes := 0 }
    match h.st with
    | .good => { h with st := .suspect, lastChange := now }
    | .suspect => { h with st := .retired, lastChange := now }
    | .retired => h

/-- The result of a kiln run; a failure is logged (R412), and a retirement is recorded in the repair map (R418). -/
def State.kilnResult (s : State) (u : UnitCode) (pass : Bool) : State :=
  let s := s.setHealth u ((s.healthOf u).kiln s.timeCnt pass)
  let s := if (s.healthOf u).st = .retired && !s.repairs.contains u.toNat then { s with repairs := s.repairs ++ [u.toNat] } else s
  if pass then s
  else s.logError { time := s.timeCnt, unit := u, ty := 8, syn := 0, addr := 0, lnch := 0xFFFF, ctx := 0xFFFF }

/-- Die contexts of a mask and a choice of contexts. -/
def maskDies (mask dctx : BitVec 48) : List DieId := (diesOf mask).map (fun i => { die := i, k := if dctx.getLsbD i then 1 else 0 })

/-- Where a diagnostic launch may be bound: a free context, on a cellar core that nothing else runs on (R337), and free die
contexts of dies that no bound task holds (R415). -/
def State.kilnPlace (s : State) (c : CoreId) (mask dctx : BitVec 48) : Bool :=
  (s.ctx c).task.isNone
    && (match c with
        | .seq _ => c.real
        | .cel _ => c.real && mask == 0 && (CoreId.mates c).all (fun m => (s.ctx m).task.isNone))
    && (maskDies mask dctx).all (fun d => (s.dctx d).part.isNone && !s.dieHeld d.die)

/-- A diagnostic launch: firmware's own (queue 64 is none that a host sees), non-idempotent, numbered 0xFFFF (R412). -/
def kilnLaunch (ver : Nat) (c : CoreId) (mask dctx : BitVec 48) (entry : Word) : Launch :=
  let kind := if c.isCellar then 2 else if mask = 0 then 1 else 0
  { Launch.absent with
    num := 0xFFFF, queue := 64, record := BitVec.ofNat 512 (1 + (16 + 12 + kind) * 256), started := true, codeVer := ver, entry,
    total := 1, complete := false,
    tasks := [(0, { Task.fresh with state := .bound, ctx := some c, mask, dctx := dctx &&& mask, everBound := true })] }

/-- A diagnostic launch of a unit bound with DIAG_CTL.DIAG 1 (R326, R415, R430). -/
def State.startKiln (s : State) (c : CoreId) (mask dctx : BitVec 48) (entry : Word) (u : UnitCode) : State :=
  let lid := s.nextLid
  let s := State.setLaunch { s with nextLid := lid + 1 } lid (kilnLaunch s.codeVer c mask dctx entry)
  let s := (s.mendUnits c (maskDies mask dctx)).setCtx c
    { Ctx.unbound with
      task := some { lid, wid := 0 }, run := .ready, diag := true, testUnit := some u, n0 := entry, n1 := s.nextN s.codeVer entry 1,
      n2 := s.nextN s.codeVer entry 2, dieMask := mask, dctx := dctx &&& mask, dieEn := mask,
      diePres := if c.isCellar then 0 else s.presIn 0 c.num }
  (maskDies mask dctx).zipIdx.foldl (fun (s : State) e =>
    s.setDctx e.1 { DieCtx.unbound with part := some c.num, rank := e.2, count := (diesOf mask).length }) s

/-- KILN_RUN: a part of a kiln run, by firmware. -/
def execKilnRun (a : KilnAct) : State → Host.Outcome State Fault Refusal :=
  eventOp (fun s => match a with
    | .start c mask dctx _ u => s.kilnPlace c mask dctx && s.unitIdle u
    | .finish u _ => s.unitIdle u
    | .drop c => (s.ctx c).diag)
  (fun s => match a with
    | .start c mask dctx entry u => s.startKiln c mask dctx entry u
    | .finish u pass => s.kilnResult u pass
    | .drop c => s.dropKiln c)

/-- Spares of a unit's class and place used so far. -/
def spareKey (u : UnitCode) : Nat := u.toNat / 2 ^ 16
/-- Spares that the image leaves a die's banks, of 200 for 192, its lanes, of 132 for 128, or a stack's cellar cores, of 17
for 16 (R22, R29). -/
def spareTotal (u : UnitCode) : Nat :=
  match unitClass u with
  | 0x01 => min 8 (Config.spareBanks (unitPlace u)).toNat
  | 0x02 => min 4 (Config.spareLanes (unitPlace u)).toNat
  | 0x20 => if Config.spareCores (unitPlace u) then 1 else 0
  | _ => 0
def State.spareLeft (s : State) (u : UnitCode) : Nat := spareTotal u - Table.get 0 s.spares (spareKey u)

/-- A spare bound to a unit (R22, R416). -/
def State.bindSpare (s : State) (u : UnitCode) : State :=
  let s := s.setHealth u { s.healthOf u with spare := true }
  { s with spares := Table.insert s.spares (spareKey u) (Table.get 0 s.spares (spareKey u) + 1) }

/-- SPARE_BIND: at a task boundary a spare replaces a RETIRED bank, lane or cellar core (R22, R416). -/
def execSpareBind (u : UnitCode) : State → Host.Outcome State Fault Refusal :=
  eventOp (fun s => (s.healthOf u).st == .retired && !(s.healthOf u).spare && 0 < s.spareLeft u && s.unitIdle u)
    (·.bindSpare u)

/-- The repair map applied at boot (R22, R418): every unit that it records is RETIRED, with a spare while one is left; dies
withdrawn for want of one are not enabled (R416). -/
def State.applyRepairs (s : State) : State :=
  let s := s.repairs.foldl (fun (s : State) n =>
    let u : UnitCode := BitVec.ofNat 32 n
    let s := s.setHealth u { s.healthOf u with st := .retired }
    if 0 < s.spareLeft u then s.bindSpare u else s) s
  { s with diesOn := ((List.range 48).filter (fun d =>
      !(s.healthIn 1 5 d).any (fun e => e.2.st == .retired && !e.2.spare))).length }

/-- DIE_INFO of a die (R26, R29): spares still unassigned and its place. No row of the table reads it, nor any identity
register or TIME_CNT, from a compute die: R325 gives DIE_INFO no number, and R439 lets no die reach region 0xE (log 41). -/
def State.dieInfo (s : State) (d : Nat) : Word :=
  let c := d / 4
  let i := d % 4
  let left (cls : Nat) : Nat := s.spareLeft (unitCode cls d 0)
  BitVec.ofNat 64 (left 2 * 2 ^ 32 + left 1 * 2 ^ 24 + (2 * (c % 4) + i % 2) * 2 ^ 20 + (2 * (c / 4) + i / 2) * 2 ^ 16
    + c * 2 ^ 10 + i * 2 ^ 8 + d)

/-! ### Power (R447 to R449) -/

/-- CUR_LIM_CHANGE: firmware sets a core's limit (R447). -/
def execCurLimChange (core : Nat) (lim : BitVec 16) : State → Host.Outcome State Fault Refusal :=
  eventOp (fun _ => core < 200) (fun s => s.setCoreRec (coreFirst core) { s.coreRec (coreFirst core) with curLim := lim })

/-- CLOCK_CHANGE: a cluster's clock, between instruction numbers; it alters no exposed latency (R448). -/
def execClockChange (cluster : Nat) (code : BitVec 2) : State → Host.Outcome State Fault Refusal :=
  eventOp (fun _ => cluster < 12) (fun s => { s with clock := Table.set 0 s.clock cluster code })

/-- A new state of a DRAM layer: one that is powered off loses its contents (R449); afterwards its bytes are such as
nothing has written (log 2). -/
def State.setLayer (s : State) (stack layer : Nat) (p : LayerPower) : State :=
  let k := layerKey stack layer
  let here (key : Nat) : Bool := isHbm key && layerOf key == k
  let s := { s with layers := Table.set LayerPower.active s.layers k p }
  if p = .powerGated then
    { s with mem := s.mem.filter (fun e => !here e.1), ecc := s.ecc.filter (fun e => !here (8 * e.1)) }
  else s
/-- Ranges of HBM that firmware has allocated: first byte and length. Pages and frames handed out, casks and sequencer frames in
use, tile tables, and the ring of the error log (R110, R111, R412, R449; log 23, log 40). -/
def State.allocated (s : State) : List (Nat × Nat) :=
  (s.pagesOut.flatMap (fun e => ((List.range e.2).filter (fun p => !(Table.get [] s.pagesFree e.1).contains p)).map (fun p =>
      ((firstPage e.1 + p) * 4096, 4096))))
    ++ (s.framesOut.flatMap (fun e => ((List.range e.2).map (fun n => BitVec.ofNat 24 (e.1 * 2 ^ 20 + n))).filter
        (fun f => !(Table.get [] s.pool e.1).contains f))).map (fun f => (frameBase f, 65536))
    ++ (s.launches.flatMap (fun l => l.2.tasks.filterMap (fun t => t.2.cask))).map (fun k => (caskBase k, 2 ^ 20))
    ++ s.allSaved.map (fun v => (v.frame, 8192))
    ++ ((s.slots.map Prod.snd).filter (·.used)).map (fun x => (x.table, 8 * x.size))
    ++ [(logRing, 32 * 65536)]
/-- Whether a layer holds some of them. -/
def State.layerInUse (s : State) (stack layer : Nat) : Bool :=
  s.allocated.any (fun r => r.1 / 2 ^ 36 == stack && (List.range r.2).any (fun i => layerOf (hbmKey (r.1 + i)) == layerKey stack layer))

/-- LAYER_POWER_STATE: firmware power-gates only a layer that holds nothing allocated (R449). -/
def execLayerPowerState (stack layer : Nat) (p : LayerPower) : State → Host.Outcome State Fault Refusal :=
  eventOp (fun s => stack < 12 && layer < 16 && !(p == .powerGated && s.layerInUse stack layer)) (·.setLayer stack layer p)

end Sys2Proof.Machine
end

