-- ==== Sys2Proof/Machine/Boot.lean ====
section
/-! DEFINITION. Package reset and boot, reset of a die, and the time counter's alignment (R18, R22, R30 to R32, R418, R435,
R442 to R444). -/

namespace Sys2Proof.Machine

/-! ### Boot (R443, R444) -/

/-- What the ROM finds of a copy of an image: usable, or an ERR code of BOOT_STAT. -/
def State.copyErr (s : State) (image copy : Nat) : Nat :=
  let v := Config.imageSecVer image copy
  if !Config.imageVerifies image copy then 1
  else if v < max (Config.acceptedSecVer image) (Table.get 0 s.secVer image) then 2
  else 0

/-- The copy with the higher SEC_VER is tried first, then the other one; an error is the first copy's (R443). -/
def State.bootImage (s : State) (image : Nat) : Except Nat Nat :=
  let first := if Config.imageSecVer image 0 < Config.imageSecVer image 1 then 1 else 0
  if s.copyErr image first = 0 then .ok first
  else if s.copyErr image (1 - first) = 0 then .ok (1 - first)
  else .error (s.copyErr image first)

/-- What boot ends in: the versions accepted, or an ERR code (R418, R435, R443). -/
def State.boot (s : State) : Except Nat (PMap Nat) :=
  if !Config.storeReadable then .error 4
  else match s.bootImage 0, s.bootImage 1 with
    | .error e, _ => .error e
    | _, .error e => .error e
    | .ok c, .ok f =>
      if !Config.repairMapFits c then .error 3
      else .ok [(0, Config.imageSecVer 0 c), (1, Config.imageSecVer 1 f)]

/-- What outlasts a package reset: memory of the host and of peers; in the Rolian store the record of versions (R444), the
repair map (R418) and the translations (R426); and the model's own fields. -/
def State.afterReset (s : State) : State :=
  { State.reset with
    mem := s.mem.filter (fun e => 2 ^ 56 ≤ e.1), secVer := s.secVer, repairs := s.repairs, rolian := s.rolian,
    agenda := s.agenda, free := s.free, pace := s.pace, hostBad := s.hostBad }

/-- PACKAGE_RESET: everything as after reset, then boot to stage 3 with the repair map applied, or to an error outside it
(R22, R418, R435, R443). -/
def State.packageReset (s : State) : State :=
  let r := s.afterReset
  match s.boot with
  | .ok v => { r.applyRepairs with bootStage := 3, secVer := v }
  | .error e => { r with bootErr := BitVec.ofNat 8 e }
def execPackageReset : State → Host.Outcome State Fault Refusal := eventOp (fun _ => true) State.packageReset

/-! ### Reset of a die (R18) -/

/-- Bytes of a die's scratchpad. -/
def dieBytes : Nat := 192 * 2 ^ 20

/-- A die's scratchpad holding no defined value: every word free, with clean check bits (log 7). -/
def State.blurDie (s : State) (d : Nat) : State :=
  let cells : PMap Byte := (List.range dieBytes).map (fun i =>
    (i, (Config.freeWord (s.free + i / 8)).extractLsb' (8 * (i % 8)) 8))
  { s.putCells (dieMemKey d 0) dieBytes cells [] with free := s.free + dieBytes / 8 }

/-- A table of `n` free words, the first of them number `f`. -/
def freeTable {α : Type} [DecidableEq α] (zero : α) (n : Nat) (g : Nat → α) : PMap α :=
  (List.range n).foldl (fun (m : PMap α) i => Table.set zero m i (g i)) []
/-- Free words that the registers of a die context take. -/
def blurWords : Nat := 2048 + 16 + 8 + 4 + 2 + 4 + 32768 + 8448 + 128 + 128 + 64 + 128
/-- A free word of a nest table: words 0 to 15 whole, of PREC the bits that are not reserved (R263). -/
def blurNest (w : Word) (k : Nat) : Word := if k < 16 then w else if k = 16 then w &&& 0x1F else 0
/-- A die context at a reset of its die while its partition goes on: its registers, slices, accumulators, tables and flags
hold no defined value apart from reserved bits, its rank and its queues are lost, and no packet reaches it before its next
bind. What stays is the control die's: the partition that holds it, and the numbers that it has retired (R18, log 17). -/
def DieCtx.blur (x : DieCtx) (f : Nat) : DieCtx :=
  let w (i : Nat) : Word := Config.freeWord (f + i)
  let wide (b n : Nat) : Nat := natOfBytes ((List.range n).flatMap (fun i => bytesOfNat (w (b + i)).toNat 8))
  { DieCtx.unbound with
    part := x.part, retired := x.retired, lost := true,
    v := freeTable 0 32 (fun i => BitVec.ofNat 4096 (wide (64 * i) 64)),
    m := freeTable 0 8 (fun i => BitVec.ofNat 128 (wide (2048 + 2 * i) 2)),
    k := freeTable 0 8 (fun i => w (2064 + i)), holds := freeTable 0 4 (fun i => w (2072 + i)), dflags := w 2076 &&& 0xFFFF003F, sig := w 2077,
    chk := freeTable 0 4 (fun i => w (2078 + i)),
    slices := freeTable 0 262144 (fun i => (w (2082 + i / 8)).extractLsb' (8 * (i % 8)) 8),
    acc := freeTable AccRow.zero 256 (fun i =>
      AccRow.ofRaw (w (34850 + 33 * i)).toNat ((List.range 32).map (fun j => (w (34850 + 33 * i + 1 + j)).toNat))),
    shadow := freeTable 0 128 (fun i => blurNest (w (43298 + i)) (i % 32)),
    active := freeTable 0 128 (fun i => blurNest (w (43426 + i)) (i % 32)),
    pt := freeTable 0 8 (fun i => BitVec.ofNat 512 (wide (43554 + 8 * i) 8)),
    flagsFile := freeTable 0 256 (fun i => (w (43618 + i / 2)).extractLsb' (32 * (i % 2)) 32) }

/-- A die context at a reset of its die. -/
def State.resetDctx (s : State) (d : DieId) : State :=
  let x := s.dctx d
  if x.part.isNone then s.setDctx d DieCtx.unbound
  else ({ s with free := s.free + blurWords }).setDctx d (x.blur s.free)

/-- DIE_RESET: a die loses its scratchpad, the state of both its contexts, the owners of its banks and its copy of the time
counter, which then stands at TIME_CNT (log 17); a later bind gives its registers every value anew (R18, R30, R430). -/
def execDieReset (die : Nat) : State → Host.Outcome State Fault Refusal :=
  eventOp (fun _ => die < 48)
    (fun s =>
      let s := ([0, 1] : List (Fin 2)).foldl (fun (s : State) k => s.resetDctx { die, k }) s
      let s := ((s.blurDie die).setDie die Die.fresh).dropTlb (· == 256 + die) (fun _ => true)
      let s := s.mend (fun e => unitCells (.die { die, k := 0 }) e || unitCells (.die { die, k := 1 }) e)
      { s with copies := Table.erase s.copies (12 + die) })

/-! ### Time (R30 to R32, R442) -/

/-- The copy of the package itself within its pod. -/
def podCopy : Nat := 60
def State.timeCopy (s : State) (i : Nat) : TimeCopy := Table.get TimeCopy.same s.copies i
def State.setTimeCopy (s : State) (i : Nat) (c : TimeCopy) : State :=
  { s with copies := Table.set TimeCopy.same s.copies i c }

/-- The offset of a slave from its master (R31); an odd sum is halved toward zero (log 30). -/
def syncOffset (o : SyncOp) : Int :=
  (((o.t2.toNat : Int) - o.t1.toNat) - ((o.t4.toNat : Int) - o.t3.toNat)).tdiv 2

/-- Ticks between exchanges: of the package, and of a pod (R31). -/
def syncPeriod (pod : Bool) : Nat := if pod then 2 ^ 20 else 2 ^ 14
/-- Whether an exchange's interval has begun, and its times are such as the two copies take: the messages arrive after they
leave, on the slave's clock and on its master's, and nothing is later than now. A pod's master is another package, whose
clock this one does not hold. -/
def State.syncFits (s : State) (o : SyncOp) : Bool :=
  let c := s.timeCopy (if o.pod then podCopy else o.slave)
  let now := s.timeCnt.toNat
  c.last < now / syncPeriod o.pod
    && (!o.ok || (o.t2.toNat ≤ o.t3.toNat && o.t1.toNat ≤ o.t4.toNat
        && (if o.pod then o.t3.toNat ≤ now
            else (o.t1.toNat : Int) ≤ (o.t2.toNat : Int) - c.off && (o.t3.toNat : Int) - c.off ≤ (o.t4.toNat : Int)
              && o.t4.toNat ≤ now)))
/-- How far any two copies of the package stand apart, or come to stand while they slew, and whether a bound holds (R32);
0xFFFF is no bound. -/
def State.timeSpread (s : State) : Nat :=
  let offs := (s.copies.filter (fun e => e.1 < 60)).flatMap (fun e => [e.2.off, e.2.off + e.2.slew])
  (offs.foldl max 0 - offs.foldl min 0).toNat
def State.boundHolds (s : State) (b : BitVec 16) : Bool := b == 0xFFFF || s.timeSpread ≤ b.toNat

/-- The pod bound beside a bound of the package: the hop terms measured at formation are added (R442). -/
def State.podBoundOver (s : State) (pkg : BitVec 16) : BitVec 16 :=
  if s.pod.isSome then BitVec.ofNat 16 (min 0xFFFF (pkg.toNat + s.podHops.toNat)) else s.podBound

/-- Whether what the package has still to slew within its pod lies within the pod bound; 0xFFFF is no bound (R32, R442). -/
def State.podBoundHolds (s : State) : Bool :=
  s.podBound == 0xFFFF || (s.timeCopy podCopy).slew.natAbs ≤ s.podBound.toNat
/-- POD_VALID reads 1 only while POD_BOUND holds (R32). -/
def State.recheckPod (s : State) : State :=
  { s with podValid := s.podValid && s.podBound != 0xFFFF && s.podBoundHolds }

/-- What a completed or failed exchange leaves, before POD_VALID follows. -/
def State.syncCore (s : State) (o : SyncOp) : State :=
  let i := if o.pod then podCopy else o.slave
  let c := s.timeCopy i
  let last := s.timeCnt.toNat / syncPeriod o.pod
  if !o.ok then s.setTimeCopy i { c with ok := 0, fail := c.fail + 1, last }
  else
    -- the master of a pod does not slew
    let slew := if o.pod && s.pod = some s.podMaster then c.slew else - syncOffset o
    let s := s.setTimeCopy i { c with slew, ok := c.ok + 1, fail := 0, last }
    if o.pod then s else { s with pkgBound := o.bound, podBound := s.podBoundOver o.bound }
/-- TIME_SYNC_EXCHANGE: a completed exchange sets what the slave has to slew, and one of the package the bounds that hold;
a failed one counts. POD_VALID falls where the pod's bound holds no longer (R31, R32, R442). -/
def State.syncExchange (s : State) (o : SyncOp) : State := (s.syncCore o).recheckPod
/-- Whether an exchange can happen: its slave exists, its interval and times fit, and the bound that it brings holds from then
on, also while the copies slew. -/
def State.syncOk (s : State) (o : SyncOp) : Bool :=
  (if o.pod then s.pod.isSome else o.slave < 60 && (!o.ok || (s.syncExchange o).boundHolds o.bound)) && s.syncFits o
def execTimeSyncExchange (o : SyncOp) : State → Host.Outcome State Fault Refusal :=
  eventOp (·.syncOk o) (·.syncExchange o)

/-- The exchange that a slave's interval brings when nothing else is said of it: it completes at once (log 30). -/
def State.syncNow (s : State) (i : Nat) : SyncOp :=
  let now := s.timeCnt
  let there : Word := if i = podCopy then now else BitVec.ofInt 64 ((now.toNat : Int) + (s.timeCopy i).off)
  let o : SyncOp := { pod := i = podCopy, slave := i, ok := true, t1 := now, t2 := there, t3 := there, t4 := now, bound := 0xFFFF }
  { o with bound := BitVec.ofNat 16 (min 0xFFFF (s.syncExchange o).timeSpread) }
/-- The slaves whose interval has begun and has had no exchange (R31). -/
def State.syncDue (s : State) : List Nat :=
  (List.range 60 ++ (if s.pod.isSome then [podCopy] else [])).filter (fun i =>
    (s.timeCopy i).last < s.timeCnt.toNat / syncPeriod (i == podCopy))
/-- An interval of a copy that ends without an exchange is a failed one (R31, R32); the first, at reset, has none. -/
def TimeCopy.missed (c : TimeCopy) (a b : Nat) : TimeCopy :=
  let n := b - a - (if a ≤ c.last then 1 else 0)
  if n = 0 then c else { c with ok := 0, fail := c.fail + n }
/-- The intervals that end as TIME_CNT goes from `now` to `next`. -/
def State.endIntervals (s : State) (now next : Nat) : State :=
  let one (s : State) (i : Nat) : State :=
    let p := syncPeriod (i == podCopy)
    s.setTimeCopy i ((s.timeCopy i).missed (now / p) (next / p))
  if now / syncPeriod false = next / syncPeriod false then s
  else (List.range 60 ++ (if s.pod.isSome then [podCopy] else [])).foldl one s

/-- TIME_SYNC_LOST: an exchange has failed for 16 consecutive intervals (R32). -/
def execTimeSyncLost : State → Host.Outcome State Fault Refusal :=
  eventOp (fun s => !s.timeLost && s.copies.any (fun e => 16 ≤ e.2.fail))
    (fun s => { s with timeLost := true, copies := s.copies.map (fun e => (e.1, { e.2 with ok := 0 })) })

/-- Whether 16 consecutive exchanges of every slave that exchanges have succeeded since LOST was set, and the bounds hold again
(R32). -/
def State.timeBack (s : State) : Bool :=
  s.timeLost && s.copies.all (fun e => 16 ≤ e.2.ok) && s.copies.any (fun e => 16 ≤ e.2.ok) && s.boundHolds s.pkgBound
    && (s.pod.isNone || s.podBoundHolds)
/-- TIME_SYNC_RECOVER. -/
def execTimeSyncRecover : State → Host.Outcome State Fault Refusal :=
  eventOp State.timeBack
    (fun s => { s with timeLost := false })

/-- POD_JOIN: before any task is admitted, TIME_CNT steps forward once to the master's value; firmware names the members
and fixes the routes and the window tables (R30, R440 to R442). `extra` is half the worst difference of each hop's directions. -/
def State.joinPod (s : State) (self : Nat) (master : PodMaster) (extra : BitVec 16) (members : List PodMember)
    (pages : List PeerPage) : State :=
  { s with
    pod := some self, podMaster := master.id,
    timeCnt := if self ≠ master.id && s.timeCnt.toNat ≤ master.time.toNat then master.time else s.timeCnt,
    podHops := extra, podBound := BitVec.ofNat 16 (min 0xFFFF (s.pkgBound.toNat + extra.toNat)),
    peers := members.foldl (fun (t : PMap Bool) m => if m.id = self then t else Table.insert t m.id true) [],
    routes := members.foldl (fun (t : PMap Nat) m => if m.id = self then t else Table.insert t m.id m.port) [], windows := pages }
def execPodJoin (self : Nat) (master : PodMaster) (extra : BitVec 16) (members : List PodMember) (pages : List PeerPage) :
    State → Host.Outcome State Fault Refusal :=
  eventOp (fun s => s.pod.isNone && s.launches.isEmpty && self < 4096 && master.id < 4096 && members.all (fun m => m.id < 4096 && m.port < 8))
    (·.joinPod self master extra members pages)

/-- Whether 16 consecutive exchanges of the pod have succeeded and the bound is met (R442): what the package has still to slew
lies within it. -/
def State.podMet (s : State) : Bool :=
  s.pod.isSome && !s.podValid && !s.timeLost && 16 ≤ (s.timeCopy podCopy).ok && s.podBound != 0xFFFF && s.podBoundHolds
/-- POD_VALID_SET. -/
def execPodValidSet : State → Host.Outcome State Fault Refusal :=
  eventOp State.podMet
    (fun s => { s with podValid := true })

/-- One tick of slewing: a copy adds or withholds at most one tick (R30). -/
def TimeCopy.slewOne (c : TimeCopy) : TimeCopy :=
  if 0 < c.slew then { c with off := c.off + 1, slew := c.slew - 1 }
  else if c.slew < 0 then { c with off := c.off - 1, slew := c.slew + 1 }
  else c

/-- Time passes: TIME_CNT advances by the model's pace (log 8); where its count of ticks, less what slewing within the pod has
added, passes a multiple of 1,024, the copies slew by one tick, or the package's own count does within its pod and carries
them along (R30, R31). -/
def State.tick (s : State) : State :=
  let next := s.timeCnt + BitVec.ofNat 64 s.pace
  let s := s.endIntervals s.timeCnt.toNat next.toNat
  let c := s.timeCopy podCopy
  let ticks : Int := (s.timeCnt.toNat : Int) - c.off
  if s.copies.isEmpty || s.pace = 0 || ticks / 1024 = (ticks + (s.pace : Int)) / 1024 then { s with timeCnt := next }
  else
    let d : Int := if 0 < c.slew then 1 else if c.slew < 0 then -1 else 0
    { s with
      timeCnt := BitVec.ofInt 64 ((next.toNat : Int) + d),
      copies := s.copies.map (fun e =>
        if e.1 = podCopy then (e.1, { e.2 with off := e.2.off + d, slew := e.2.slew - d }) else if d = 0 then (e.1, e.2.slewOne) else e) }

end Sys2Proof.Machine
end

