-- ==== Sys2Proof/Machine/HostPort.lean ====
section
/-! DEFINITION. The host port: registers, the load mailbox, event words and logs in BAR 0, errors of host and peer traffic,
translation invalidation, attestation, and the debugger (R10, R11, R115, R363, R433 to R438, R440, R441, R445, R450 to R453). -/

namespace Sys2Proof.Machine

/-! ### Writes to BAR 0 (R10, R11, R434 to R437) -/

/-- Bytes of the low end of a written value, and the one that a write at `off` brings to an offset. -/
def wireBytes (size : Nat) (v : BitVec 512) : List Byte := bytesOfNat v.toNat size
def wireAt (off size : Nat) (v : BitVec 512) (a : Nat) : Option Byte :=
  if off ≤ a && a < off + size then some (BitVec.ofNat 8 (v.toNat >>> (8 * (a - off)))) else none
/-- The bytes of a write that fall on `n` bytes at `base`, each at its place, over what stands there. -/
def wireOver (off size : Nat) (v : BitVec 512) (base n : Nat) (old : Nat) : Nat :=
  natOfBytes ((bytesOfNat old n).zipIdx.map (fun e => (wireAt off size v (base + e.2)).getD e.1))

/-- A load request (R436): its zero fields, and an event number in SIGNAL. -/
def loadFits (r : BitVec 512) : Bool :=
  recField r 26 6 = 0 && recField r 40 24 = 0 && 1 ≤ recField r 24 2 && recField r 24 2 < 4096

/-- HOST_ERR: ones clear bits of COUNT; the rest is RO (R435). -/
def hostErrWrite (old v : Word) : Word := old &&& ~~~(v &&& BitVec.ofNat 64 (0xFFFF * 2 ^ 48))

/-- An event word: VEC and IE are RW, STATE is RO (R437). -/
def Event.word (x : Event) : Nat := x.vec.toNat * 2 ^ 16 + (if x.ie then 256 else 0) + x.st.toNat
def Event.write (x : Event) (v : Nat) : Event := { x with vec := BitVec.ofNat 11 (v / 2 ^ 16), ie := v / 256 % 2 = 1 }

/-- The event words that a write reaches, from event `e` on; word 0 reads zero and ignores writes. -/
def State.eventWrite (s : State) (func off size : Nat) (v : BitVec 512) : State :=
  (List.range (size / 4 + 2)).foldl (fun (s : State) i =>
    let e := (off - 0x140000) / 4 + i
    let a := 0x140000 + 4 * e
    if e = 0 || 4096 ≤ e || off + size ≤ a || a + 4 ≤ off then s
    else s.setEvent func e ((s.event func e).write (wireOver off size v a 4 (s.event func e).word))) s

/-- Mailbox offsets (R445, R452). -/
def mbCmd : Nat := 1024
def mbGo : Nat := 1028
def State.mbByte (s : State) (off : Nat) : Byte := Table.get 0 s.mailbox off
def State.mbNat (s : State) (off n : Nat) : Nat := natOfBytes ((List.range n).map (fun i => s.mbByte (off + i)))
def State.mbPut (s : State) (off : Nat) (bs : List Byte) : State :=
  { s with mailbox := bs.zipIdx.foldl (fun (m : PMap Byte) e => Table.set 0 m (off + e.2) e.1) s.mailbox }

/-- The bytes of the mailbox that a host may write: the nonce, and the fields of the command area. -/
def mbWritable (off : Nat) : Bool := off < 48 || (1024 ≤ off && off < 1048)
/-- A mailbox write; while GO is 1 the command area ignores writes (R452). A command that is none of the six has
finished at once (log 26). -/
def State.mailboxWrite (s : State) (off : Nat) (bs : List Byte) : State :=
  let busy := s.mbNat mbGo 4 = 1
  let s := { s with mailbox := bs.zipIdx.foldl (fun (m : PMap Byte) e =>
    if mbWritable (off + e.2) && !(busy && 1024 ≤ off + e.2) then Table.set 0 m (off + e.2) e.1 else m) s.mailbox }
  let cmd := (s.mbByte mbCmd).toNat
  if s.mbNat mbGo 4 = 1 && (cmd = 0 || 6 < cmd) then s.mbPut mbGo [0, 0, 0, 0] else s

/-- A host write of `size` bytes, at most 64, at an offset of a function's BAR 0, other than to a launch window. Registers take
the bytes that fall on them, at any width (R10, R434). -/
def State.barWrite (s : State) (func off size : Nat) (v : BitVec 512) : State :=
  if off = 0x40 then
    if size = 64 && loadFits v && s.bootStage = 3 then { s with loads := s.loads ++ [(func, v)] } else s
  else if off < 0x10 then
    let new := hostErrWrite (Table.get 0 s.hostErr func) (BitVec.ofNat 64 (wireOver off size v 0x08 8 0))
    { s with hostErr := Table.set 0 s.hostErr func new }
  else if 0x13FFC0 ≤ off && off < 0x144000 then s.eventWrite func off size v
  else if func = 0 && 0x1A00000 ≤ off && off < 0x1A01000 then s.mailboxWrite (off - 0x1A00000) (wireBytes size v)
  else s

/-- REGISTER_WRITE. -/
def execRegisterWrite (func off size : Nat) (v : BitVec 512) : State → Host.Outcome State Fault Refusal :=
  eventOp (·.hasFunc func) (·.barWrite func off size v)

/-! ### Reads of BAR 0 (R363, R412, R413, R434, R435, R437, R438, R445, R452) -/

def State.bootStat (s : State) : Nat := s.bootErr.toNat * 256 + s.bootStage.toNat
/-- Q_STAT and Q_CNT (R363). -/
def Queue.stat (q : Queue) : Nat := q.last.toNat * 2 ^ 56 + (256 - q.recs.length) * 2 ^ 47 + q.cookie.toNat
def Queue.cnt (q : Queue) : Nat := q.notAcc.toNat * 2 ^ 32 + q.forced.toNat

/-- An error record, and a HEALTH entry (R412, R413). -/
def ErrRec.bytes (r : ErrRec) : List Byte :=
  bytesOfNat r.time.toNat 8 ++ bytesOfNat r.unit.toNat 4 ++ [r.ty, r.syn, 0, 0] ++ bytesOfNat r.addr.toNat 8
    ++ bytesOfNat r.lnch.toNat 2 ++ bytesOfNat r.ctx.toNat 2 ++ [0, 0, 0, 0]
def HealthEntry.bytes (u : Nat) (h : HealthEntry) : List Byte :=
  bytesOfNat u 4
    ++ [(match h.st with | .good => (0 : Byte) | .suspect => 1 | .retired => 2), (if h.spare then 1 else 0 : Byte)]
    ++ bytesOfNat h.kilnPass 2 ++ bytesOfNat h.kilnFail 2 ++ [(0 : Byte), 0] ++ bytesOfNat h.ce 4 ++ bytesOfNat h.lastKiln.toNat 8
    ++ bytesOfNat h.lastChange.toNat 8

/-- The unit of entry `n` of the HEALTH table. -/
def healthUnit (n : Nat) : List (Nat × Nat × Nat) → Option UnitCode
  | [] => none
  | (c, p, k) :: rest => if n < p * k then some (unitCode c (n / k) (n % k)) else healthUnit (n - p * k) rest

/-- A byte of a list, or zero beyond it. -/
def byteAt (l : List Byte) (i : Nat) : Byte := l.getD i 0

/-- Record `n` of the error log while the ring holds it: the newest 65,536 are kept (R412, R438). -/
def State.errRecAt (s : State) (slot : Nat) : Option ErrRec :=
  let first := s.errCount - s.errLog.length
  let n := first + (slot + 65536 - first % 65536) % 65536
  if n < s.errCount then s.errLog[n - first]? else none

/-- One byte of a function's BAR 0 as a host reads it; unlisted space reads zero, and no other function has a BAR. -/
def State.barByte (s : State) (func off : Nat) : Byte :=
  if !s.hasFunc func then 0
  else if off < 8 then byteAt (bytesOfNat s.bootStat 8) off
  else if off < 16 then byteAt (bytesOfNat (Table.get 0 s.hostErr func).toNat 8) (off - 8)
  else if off < 24 then byteAt (bytesOfNat (Table.get 0 s.hostErrA func).toNat 8) (off - 16)
  else if 0x100000 ≤ off && off < 0x140000 then
    let q := s.queue ((off - 0x100000) / 4096)
    let o := off % 4096
    if q.func ≠ func then 0
    else if 64 ≤ o && o < 72 then byteAt (bytesOfNat q.stat 8) (o - 64)
    else if 72 ≤ o && o < 80 then byteAt (bytesOfNat q.cnt 8) (o - 72)
    else 0
  else if 0x140000 ≤ off && off < 0x144000 then
    let e := (off - 0x140000) / 4
    if e = 0 then 0 else byteAt (bytesOfNat (s.event func e).word 4) (off % 4)
  else if 0x200000 ≤ off && off < 0x280000 then
    let q := s.queue ((off - 0x200000) / 8192)
    let slot := (off - 0x200000) % 8192 / 32
    if q.func ≠ func then 0
    else if slot = 0 then byteAt (bytesOfNat (q.faultCount % 2 ^ 32) 4) (off % 32)
    else byteAt (bytesOfNat (Table.get 0 q.faultLog slot).toNat 32) (off % 32)
  else if func ≠ 0 then 0
  else if 0x1000000 ≤ off && off < 0x1000040 then byteAt (bytesOfNat s.errCount 8) (off - 0x1000000)
  else if 0x1000040 ≤ off && off < 0x1200040 then
    match s.errRecAt ((off - 0x1000040) / 32) with
    | some r => byteAt r.bytes ((off - 0x1000040) % 32)
    | none => 0
  else if 0x1800000 ≤ off && off < 0x1900000 then
    match healthUnit ((off - 0x1800000) / 32) unitClasses with
    | some u => byteAt (HealthEntry.bytes u.toNat (s.healthOf u)) ((off - 0x1800000) % 32)
    | none => 0
  else if 0x1A00000 ≤ off && off < 0x1A01000 then s.mbByte (off - 0x1A00000)
  else 0

/-! ### Host and peer traffic (R440, R441, R453) -/

/-- HOST_READ_ERROR: host memory completes reads of a range with an error status from now on; no status ends that
(R453). A read that meets the range returns 0xFF bytes and is counted. -/
def execHostReadError (base len : Nat) (cpl : BitVec 3) : State → Host.Outcome State Fault Refusal :=
  eventOp (fun _ => true) (fun s =>
    { s with hostBad := if cpl = 0 then s.hostBad.filter (fun r => r.1 != base) else s.hostBad ++ [(base, len, cpl)] })

/-- FLIT_CRC_RETRY: the link retries a flit; nothing of it is delivered (R440). -/
def execFlitCrcRetry (port : Nat) : State → Host.Outcome State Fault Refusal :=
  eventOp (fun _ => port < 8) (fun s =>
    { s with flitRetries := Table.insert s.flitRetries port (Table.get 0 s.flitRetries port + 1) })

/-- UARUS_LANE_FAIL: the port goes on with four lanes, or is down with every route that leaves by it (R440). -/
def execUarusLaneFail (port lane : Nat) : State → Host.Outcome State Fault Refusal :=
  eventOp (fun _ => port < 8 && lane < 8) (fun s =>
    { s with ports := Table.insert s.ports port (s.failedLanes port ||| 2 ^ lane) })

/-- PEER_ROUTE_DOWN: loads of the peer raise UE at once, stores at the release or commit that waits for them (R441). -/
def execPeerRouteDown (peer : Nat) : State → Host.Outcome State Fault Refusal :=
  eventOp (fun s => (Table.find? s.peers peer).isSome) (fun s => { s with peers := Table.insert s.peers peer false })

/-! ### Translations (R115) -/

/-- The dies that an invalidation for an address space goes to: those in DIE_PRES of any context that runs it. -/
def State.presentDies (s : State) (func : Nat) : BitVec 48 :=
  s.seq.foldl (fun a e => if e.2.task.isSome && (s.launchOf (.seq e.1)).func = func then a ||| e.2.diePres else a) 0

/-- The targets of an invalidation: the control die, the cellar cores that run the address space, and those dies. -/
def State.invalidates (s : State) (func k : Nat) : Bool :=
  (192 ≤ k && k < 256) || (256 ≤ k && (s.presentDies func).getLsbD (k - 256))
    || s.cel.any (fun e => e.2.task.isSome && (CoreId.cel e.1).padIdx == k && (s.launchOf (.cel e.1)).func == func)
/-- Whether a copy engine's operation goes on whose flat address was translated. -/
def CopyOp.translated (o : CopyOp) : Bool := match o.kind with | .flatIn | .flatOut => true | _ => false
/-- Whether every target has finished the accesses that used its entries: those that go on longer than a step are copies. -/
def State.accessesDone (s : State) (func : Nat) : Bool :=
  let busy (o : CopyOp) : Bool := o.translated && (s.launch o.task.lid).func == func
  s.dieCtx.all (fun e => !s.invalidates func (256 + e.1 / 2) || e.2.engines.all (fun q => !q.2.any busy))
    && s.cel.all (fun e => !s.invalidates func (CoreId.cel e.1).padIdx || !e.2.engine.any busy)
/-- TRANSLATION_INVALIDATION completes: every target discards its entries of an address space; dies that are not named keep
theirs (R115). -/
def execTranslationInvalidation (func : Nat) : State → Host.Outcome State Fault Refusal :=
  eventOp (·.accessesDone func) (fun s => s.dropTlb (s.invalidates func) (fun p => p / 2 ^ 44 == func))

/-! ### Attestation (R445) -/

/-- The first 160 bytes of a report, then its signature. -/
def State.report (s : State) : List Byte :=
  let image (i : Nat) : List Byte := bytesOfNat (Config.imageDigest i).toNat 48
  let body := bytesOfNat Config.idSerial.toNat 8 ++ bytesOfNat Config.translatorVersion.toNat 4 ++ [0, 0, 0, 0]
    ++ image 1 ++ image 0 ++ (List.range 48).map s.mbByte
  body ++ bytesOfNat (Config.attestSignature (BitVec.ofNat 1280 (natOfBytes body))).toNat 96
/-- ATTEST_REQUEST: the report for the nonce in the mailbox. -/
def execAttestRequest : State → Host.Outcome State Fault Refusal :=
  eventOp (fun s => s.bootStage == 3) (fun s => s.mbPut 256 s.report)

/-! ### The debugger (R450 to R452) -/

/-- The context that the command names. -/
def State.dbgCtx (s : State) : CoreId :=
  if s.mbByte 1025 = 0 then .seq (s.mbNat 1026 2) else .cel (s.mbNat 1026 2)
/-- Whether it exists. -/
def State.dbgNames (s : State) : Bool :=
  (s.mbByte 1025 = 0 && s.mbNat 1026 2 < 32) || (s.mbByte 1025 = 1 && s.mbNat 1026 2 < 768)
/-- Whether a command has been started and not finished. -/
def State.dbgGo (s : State) (cmd : Nat) : Bool := s.mbNat mbGo 4 = 1 && (s.mbByte mbCmd).toNat = cmd

/-- A command finished with a status; DATA when it returns any. -/
def State.dbgDone (s : State) (status : Byte) (data : Option Word) : State :=
  let s : State := match data with
    | some v => s.mbPut 1040 (bytesOfNat v.toNat 8)
    | none => s
  (s.mbPut 1048 [status]).mbPut mbGo [0, 0, 0, 0]

/-- A command on the context it names; one that names none ends with ADDR_BAD (log 26). -/
def dbgOp (cmd : Nat) (f : State → CoreId → State) : State → Host.Outcome State Fault Refusal :=
  eventOp (·.dbgGo cmd) (fun s => if s.dbgNames then f s s.dbgCtx else s.dbgDone 4 none)

/-- A command that needs a stopped context. -/
def stoppedOp (cmd : Nat) (f : State → CoreId → State) : State → Host.Outcome State Fault Refusal :=
  dbgOp cmd (fun s c => if (s.ctx c).stopped then f s c else s.dbgDone 3 none)

/-- DBG_STOP and DBG_RESUME; with RESUME comes a replay that the stop held back. -/
def execDbgStop : State → Host.Outcome State Fault Refusal :=
  dbgOp 1 (fun s c => (s.updCtx c (fun x => { x with stopped := true })).dbgDone 0 none)
def execDbgResume : State → Host.Outcome State Fault Refusal :=
  dbgOp 2 (fun s c =>
    let s := s.updCtx c (fun x => { x with stopped := false })
    ((if (s.ctx c).replayDue then s.startReplay c else s).settleDrain c).dbgDone 0 none)

/-- DBG_READ_REG: the value is free where the manual gives no layout (log 7); outside the frame the answer is ADDR_BAD
(log 26). -/
def execDbgReadReg : State → Host.Outcome State Fault Refusal :=
  stoppedOp 3 (fun s c =>
    let off := s.mbNat 1032 8
    if off % 8 ≠ 0 || frameSize c ≤ off then s.dbgDone 4 none
    else match (s.ctx c).frameWord c.isCellar off with
      | some v => s.dbgDone 0 (some v)
      | none =>
        let (v, s) := s.freshWord
        s.dbgDone 0 (some v))

/-- What WRITE_REG writes: s, q or FPCTL; s0 and q0 keep their values and reserved bits are ignored (R11, R450). In FPCTL the
flag fields take the bits written, as a frame that is put back does, and are not cleared by ones (log 39); VFLG of a
sequencer context stays 0 (R73). -/
def Ctx.frameWrite (x : Ctx) (cellar : Bool) (off : Nat) (v : Word) : Option Ctx :=
  if off % 8 ≠ 0 then none
  else if off < 512 then some (if off = 0 then x else { x with regs := Table.set 0 x.regs (off / 8) v })
  else if off = 512 then
    some { x with preds := (List.range 16).foldl (fun m n => if n = 0 then m else Table.set false m n (v.getLsbD n)) x.preds }
  else if off = 720 then some { x with fpctl := v &&& (if cellar then 0x1F1F0F else 0x1F0F) }
  else none

/-- DBG_WRITE_REG: the write sets NONIDEM (R127, R450). -/
def execDbgWriteReg : State → Host.Outcome State Fault Refusal :=
  stoppedOp 4 (fun s c =>
    match (s.ctx c).frameWrite c.isCellar (s.mbNat 1032 8) (BitVec.ofNat 64 (s.mbNat 1040 8)) with
    | none => s.dbgDone 4 none
    | some x =>
      let s := if (s.ctx c).task.isSome then s.endIdem (s.taskId c) (some c) else s
      let off := s.mbNat 1032 8
      let s := s.mend (fun e => match e with
        | .file (.core d) .s n => d == c && off == 8 * n
        | .file (.core d) .q _ => d == c && off == 512
        | _ => false)
      (s.updCtx c (fun y => { y with regs := x.regs, preds := x.preds, fpctl := x.fpctl })).dbgDone 0 none)

/-- An HBM byte as the debugger sees it, through the core's L1 and the L2, and whether it comes from above DRAM (R451). -/
def State.dbgByte (s : State) (c : CoreId) (p : Nat) : Byte :=
  match s.stagedByte (s.taskId c) (hbmKey p) with
  | some v => v
  | none => (s.l1Byte c p).getD (s.l2Byte p)
def State.dbgHeld (s : State) (c : CoreId) (p : Nat) : Bool := s.aboveL2 c p || (Table.find? s.l2 p).isSome
/-- The cells of the L1 and of the L2 that it reads 8 bytes from. -/
def State.dbgCells (s : State) (c : CoreId) (p : Nat) : Cell → Bool
  | .l2 wk => (List.range 8).any (fun i => (p + i) / 8 == wk && !s.aboveL2 c (p + i) && (Table.find? s.l2 (p + i)).isSome)
  | e => s.coreCells c p 8 e
/-- What READ_MEM returns: status and data (R451). -/
def State.dbgRead (s : State) (c : CoreId) (a : Word) : Byte × Word :=
  match s.corePlace c a 8 .load with
  | .error _ => (4, 0)
  | .ok (.csr n) => match (s.ctx c).csrCheck c.isCellar n with
    | some _ => (4, 0)
    | none => (0, s.csrRead c n)
  | .ok (.hbm p) =>
    if (List.range 8).any (fun i => Table.get .active s.layers (layerOf (hbmKey (p + i))) == .powerGated) then (1, 0)
    else (if s.dramUE (s.dbgHeld c) p 8 || s.cellUE (s.dbgCells c p) then 2 else 0, BitVec.ofNat 64 (natOfBytes ((List.range 8).map (fun i => s.dbgByte c (p + i)))))
  | .ok pl => (if s.readUE c pl 8 then 2 else 0, BitVec.ofNat 64 (s.coreRead c pl (a.toNat % 4) 8))

/-- DBG_READ_MEM: no coherence order is entered, no error consumed, and a gated layer returns to its state. -/
def execDbgReadMem : State → Host.Outcome State Fault Refusal :=
  stoppedOp 5 (fun s c =>
    let r := s.dbgRead c (BitVec.ofNat 64 (s.mbNat 1032 8))
    s.dbgDone r.1 (some r.2))

/-- DBG_SET_DBG. -/
def execDbgSetDbg : State → Host.Outcome State Fault Refusal :=
  dbgOp 6 (fun s c => (s.updCtx c (fun x => { x with dbgEn := BitVec.ofNat 2 (s.mbNat 1032 8) })).dbgDone 0 none)

end Sys2Proof.Machine
end

