-- ==== Sys2Proof/Machine/Matrix.lean ====
section
/-! DEFINITION. X slots on a die: nest tables, the start, batches and end of a nest, and the accumulator instructions
(R261 to R282). -/

namespace Sys2Proof.Machine

/-! ### Nest tables (R263 to R266) -/

def execNtw (o : NtwOp) : State → Host.Outcome State Fault Refusal :=
  plainOp (fun s =>
    match o with
    | .word n w a => s.updHere (fun x => { x with shadow := Table.set 0 x.shadow (n.toNat * 32 + w.toNat) (s.scalar false a) })
    | .imm n w h himm => s.updHere (fun x =>
        let k := n.toNat * 32 + w.toNat
        let old : Word := Table.get 0 x.shadow k
        { x with
          shadow := Table.set 0 x.shadow k ((old &&& ~~~((0xFFFF : Word) <<< (16 * h.toNat))) ||| (himm.zeroExtend 64 <<< (16 * h.toNat))) }))
def execNtrd (o : NtrdOp) : State → Host.Outcome State Fault Refusal :=
  plainOp (fun s => s.updHere (fun x =>
    x.setK o.kd (nestWord (if o.act then x.active else x.shadow) o.n.toNat o.w.toNat)))
/-- PREC takes the fn of the MPREC (R266). -/
def execMprec (o : MprecOp) : State → Host.Outcome State Fault Refusal :=
  plainOp (fun s => s.updHere (fun x =>
    let p := blkCode o.fa + 4 * blkCode o.fb + (if o.t32 then 16 else 0)
    { x with shadow := Table.set 0 x.shadow (o.n.toNat * 32 + 16) (BitVec.ofNat 64 p) }))

/-! ### MGO (R268, R269) -/

/-- The lowest and highest value that an address takes over every step, from a start. -/
def reachLow (cnt : Nat → Nat) (d : Nat → Int) (base : Int) : Int :=
  (List.range 6).foldl (fun (a : Int) j => a + min 0 ((cnt j - 1 : Nat) * d j)) base
def reachHigh (cnt : Nat → Nat) (d : Nat → Int) (base : Int) : Int :=
  (List.range 6).foldl (fun (a : Int) j => a + max 0 ((cnt j - 1 : Nat) * d j)) base

/-- Every address of an operand in the scratchpad: multiples of 64, ending within it; a negative one is none (log 44). -/
def operandOk (cnt : Nat → Nat) (d : Nat → Int) (base : Int) (size : Nat) : Bool :=
  base % 64 == 0 && (List.range 6).all (fun j => cnt j == 1 || d j % 64 == 0)
    && 0 ≤ reachLow cnt d base && reachHigh cnt d base + size ≤ (192 * 2 ^ 20 : Nat)

/-- Reserved bits of words 0 to 15 are zero (R263). -/
def reservedOk (w : PMap Word) (n : Nat) : Bool :=
  field (nestWord w n 0) 11 53 == 0 && field (nestWord w n 1) 28 36 == 0 && field (nestWord w n 2) 28 36 == 0
    && field (nestWord w n 3) 59 5 == 0 && (List.range 6).all (fun j => field (nestWord w n (4 + 2 * j)) 35 29 == 0)

/-- The checks that MGO makes of its table (R269), the x register of the B run given when BSRC is 1. -/
def nestOk (w : PMap Word) (n : Nat) (xb : Option (Nat × BitVec 512)) : Bool :=
  let p := nestWord w n 16
  let t := precT p
  let arrays := nestArrays w n
  let cnt := levelCnt w n
  let acc : Int := (nestAcc (nestWord w n 0) : Nat)
  let tl (q : Nat) : Int := acc + q * nestDtq w n
  let ao (q : Nat) : Int := (field (nestWord w n 1) 0 28 : Nat) + q * nestDaq w n
  let bo (q : Nat) : Int := (field (nestWord w n 2) 0 28 : Nat) + q * nestDbq w n
  let bSize := stagedSize (precB p) t false * (32 / t)
  p != 0 && !arrays.isEmpty && reservedOk w n
    && (List.range 6).foldl (fun a j => a * cnt j) 1 ≤ 2 ^ 40
    && arrays.all (fun q => 0 ≤ reachLow cnt (levelDt w n) (tl q) && reachHigh cnt (levelDt w n) (tl q) ≤ 7)
    && arrays.all (fun q => operandOk cnt (levelDa w n) (ao q) (stagedSize (precA p) t true * (32 / t)))
    && (match xb with
        | none => arrays.all (fun q => operandOk cnt (levelDb w n) (bo q) bSize)
        | some (c, e) =>
          arrays.all (fun q => 0 ≤ reachLow cnt (levelDb w n) (bo q)
              && reachHigh cnt (levelDb w n) (bo q) + (32 / t : Nat) ≤ (c : Nat))
            && tFmt e == precB p && tSide e == t)

/-- Words of one table. -/
def tableWords (m : PMap Word) (n : Nat) : PMap Word := m.filter (fun e => e.1 / 32 == n)

/-- The x register of a shadow table's B run, when BSRC is 1. -/
def State.nestRun (s : State) (n : Nat) : Option (BitVec 3) :=
  let cfg := nestWord s.curDie.shadow n 0
  if nestBsrc cfg then some (BitVec.ofNat 3 (nestXb cfg)) else none

/-- The checks of MGO; a stale handle of XB comes before NEST_BAD (R269, log 44). -/
def State.mgoVerdict (s : State) (n : Nat) : Verdict :=
  let x := s.curDie
  let u := s.unit
  let w := x.shadow
  let fills := match s.nestRun n with | some b => s.waitFor (.xfill b.toNat) | none => .ok
  ((fills.andThen (s.waitFor (.table n))).andThen (s.waitFor (.arrays (nestAmask (nestWord w n 0))))).andThen
    ((s.waitFor (.tiles (nestTiles w n))).andThen
      (match (s.nestRun n).map (s.xreg? u) with
       | none => need (nestOk w n none) .nestBad 0
       | some none => .trap .xEmpty 0 0
       | some (some r) =>
         let e := s.tensorOf u r.tid
         (s.handleVerdict (tFmt e) r.handle).andThen (need (nestOk w n (some (r.tiles.length, e))) .nestBad 0)))

/-- MGO: the shadow set becomes the active set, and the nest starts. -/
def execMgo (n : BitVec 2) : State → Host.Outcome State Fault Refusal :=
  slotOp (·.mgoVerdict n.toNat)
    (fun s =>
      let k := n.toNat
      let r := (s.nestRun k).bind (s.xreg? s.unit)
      let words := tableWords s.curDie.shadow k
      let nest : Nest := { no := s.curNo, table := k, words, tensor := (r.map (fun r => s.tensorOf s.unit r.tid)).getD 0,
                           first := (r.map (fun (r : XReg) => r.first)).getD 0,
                           tiles := (r.map (fun (r : XReg) => r.tiles)).getD [], t := 0, q := 0, p := 0, i := 0,
                           finished := false }
      s.updHere (fun x =>
        { x with active := words.foldl (fun m e => Table.insert m e.1 e.2) (x.active.filter (fun e => e.1 / 32 != k)),
                 nests := x.nests ++ [nest] }))

/-- MWAIT (R272). -/
def execMwait (n : Option (BitVec 2)) : State → Host.Outcome State Fault Refusal :=
  slotOp (fun s => match n with | some n => s.waitFor (.table n.toNat) | none => s.waitFor .nests) (fun s => s)

/-! ### Batches of a nest (R88, R267 to R271, R273) -/

/-- Iteration numbers of step `t`: level 0 innermost. -/
def stepIndex (cnt : Nat → Nat) (t : Nat) : Nat → Nat
  | 0 => t % cnt 0
  | j + 1 => stepIndex (fun i => cnt (i + 1)) (t / cnt 0) j
def Nest.steps (x : Nest) : Nat := (List.range 6).foldl (fun a j => a * levelCnt x.words x.table j) 1
def Nest.prec (x : Nest) : Word := nestWord x.words x.table 16
def Nest.passes (x : Nest) : Nat := precB x.prec
/-- The array of the batch to apply next. -/
def Nest.array (x : Nest) : Nat := (nestArrays x.words x.table).getD x.q 0
/-- `base + sum of ij * dj + q * dq` at the present step. -/
def Nest.at (x : Nest) (base : Int) (d : Nat → Int) (dq : Int) : Int :=
  (List.range 6).foldl (fun (a : Int) j => a + stepIndex (levelCnt x.words x.table) x.t j * d j) (base + x.array * dq)
def Nest.aAt (x : Nest) : Nat :=
  (x.at (field (nestWord x.words x.table 1) 0 28 : Nat) (levelDa x.words x.table) (nestDaq x.words x.table)).toNat
def Nest.bAt (x : Nest) : Nat :=
  (x.at (field (nestWord x.words x.table 2) 0 28 : Nat) (levelDb x.words x.table) (nestDbq x.words x.table)).toNat
def Nest.tile (x : Nest) : Nat :=
  (x.at (nestAcc (nestWord x.words x.table 0) : Nat) (levelDt x.words x.table) (nestDtq x.words x.table)).toNat
def Nest.bsrc (x : Nest) : Bool := nestBsrc (nestWord x.words x.table 0)

/-- The next batch: rows, then passes, then arrays, then steps (R94, R267). -/
def Nest.advance (x : Nest) : Nest :=
  if x.i + 1 < 32 then { x with i := x.i + 1 }
  else if x.p + 1 < x.passes then { x with i := 0, p := x.p + 1 }
  else if x.q + 1 < (nestArrays x.words x.table).length then { x with i := 0, p := 0, q := x.q + 1 }
  else { x with i := 0, p := 0, q := 0, t := x.t + 1, finished := x.steps ≤ x.t + 1 }

/-- A row of an A operand: its scale code, slot values, and outliers with their positions. -/
structure ARow where
  code : Nat
  vals : List Int
  outs : List (Nat × Nat)
  deriving DecidableEq, Repr

/-- Row `i` of the A block of a nest (R85, R268). -/
def State.nestA (s : State) (d : DieId) (x : Nest) : ARow :=
  let f := precA x.prec
  let t := precT x.prec
  let base := dieMemKey d.die (x.aAt + x.i / t * stagedSize f t true)
  let i := x.i % t
  let n := planesOf f
  let plane (p : Nat) : Nat := s.loadNat (base + 64 + (p * t + i) * t / 8) (t / 8)
  let ps := (List.range n).map plane
  let val (k : Nat) : Int := ps.zipIdx.foldl (fun (a : Int) e =>
    a + (if e.1.testBit k then (if e.2 = n - 1 then -(2 ^ e.2 : Nat) else (2 ^ e.2 : Nat)) else 0)) 0
  let side := if f = 3 then (List.range 8).filterMap (fun e =>
      let w := s.loadNat (base + 64 + n * t * t / 8 + 2 * (8 * i + e)) 2
      if w.testBit 15 then some (w / 256 % 32, w % 256) else none) else []
  { code := s.loadNat base 1, vals := (List.range t).map val, outs := side }

/-- Tile `u` of a nest's B block: its scale code and element bytes; of a staged frame, the task's own shadow (log 44). -/
def State.nestB (s : State) (d : DieId) (x : Nest) (u : Nat) : Nat × List Byte :=
  let f := precB x.prec
  let t := precT x.prec
  if x.bsrc then
    match x.tiles[x.bAt + u]? with
    | some tl => s.tileRead (s.dieTask d) x.tensor (x.first + x.bAt + u) tl
    | none => (0, [])
  else
    let base := dieMemKey d.die (x.bAt + u * stagedSize f t false)
    (s.loadNat base 1, s.loadBytes (base + 64) (fmtBytes f (t * t)))

/-- The value of pass `p` of B element `(k, j)` of a tile (R86). -/
def bValue (fmt t p : Nat) (bs : List Byte) (k j : Nat) : Int :=
  if fmt = 1 then (bs.getD (k * t + j) 0).toInt
  else if p = 0 then ((bs.getD (2 * (k * t + j)) 0).toNat : Int)
  else (bs.getD (2 * (k * t + j) + 1) 0).toInt

/-- Xin and Off of a finite outlier (R88). -/
def outXin (c : Nat) : Int :=
  let m : Int := if c / 8 % 16 = 0 then c % 8 else 8 + c % 8
  if c / 128 = 1 then -m else m
def outOff (c : Nat) : Int := if c / 8 % 16 = 0 then -9 else (c / 8 % 16 : Nat) - 10
def outFinite (c : Nat) : Bool := c / 8 % 16 != 15

/-- The specials among the products of a column (R89). -/
def specialOf (outs : List (Nat × Nat)) (b : Nat → Int) : Option Batch :=
  let one (o : Nat × Nat) : Option Batch :=
    if outFinite o.2 then none
    else if o.2 % 8 != 0 then some .nan
    else if b o.1 = 0 then some .nan
    else some (.inf ((o.2 / 128 == 1) != (b o.1 < 0)))
  let l := outs.filterMap one
  if l.contains .nan || (l.contains (.inf false) && l.contains (.inf true)) then some .nan
  else l.head?

/-- The batch of row `i` at the present step: its columns and exponent (R88, R89). An outlier whose POS is T or more meets a B of
0 (log 44). -/
def State.nestBatchOf (s : State) (d : DieId) (x : Nest) : List Batch × Int :=
  let t := precT x.prec
  let a := s.nestA d x
  let bs := (List.range (32 / t)).map (s.nestB d x)
  let live := (bs.filter (fun b => b.1 != 255)).map (fun b => (b.1 : Int) - 127)
  let eb := live.foldl min (live.headD 0)
  let fin := a.outs.filter (fun o => outFinite o.2 && o.2 % 128 != 0)
  let g := fin.foldl (fun (m : Int) o => min m (outOff o.2)) 0
  let col (j : Nat) : Batch :=
    let b := bs.getD (j / t) (0, [])
    let bp (k : Nat) : Int := bValue (precB x.prec) t x.p b.2 k (j % t)
    if a.code = 255 || b.1 = 255 then .nan
    else match specialOf a.outs bp with
      | some sp => sp
      | none =>
        let plane := a.vals.zipIdx.foldl (fun (z : Int) e => z + e.1 * bp e.2) 0
        let outl := fin.foldl (fun (z : Int) o => z + outXin o.2 * (2 ^ (outOff o.2 - g).toNat : Nat) * bp o.1) 0
        .fin ((2 ^ ((b.1 : Int) - 127 - eb).toNat : Nat) * (plane * (2 ^ (-g).toNat : Nat) + outl))
  ((List.range 32).map col, (a.code : Int) - 127 + eb + g + 8 * x.p)

/-- The checks of a fetched operand block of the scratchpad (R268, R270). -/
def State.fetchBlock (s : State) (d : DieId) (off fmt t : Nat) (isA : Bool) : Verdict :=
  let size := stagedSize fmt t isA
  ((s.dieRange d off (size * (32 / t)) 64 true .reader (BitVec.ofNat 64 off)).andThen
    (s.ueVerdict (dieMemKey d.die off) (size * (32 / t)) (BitVec.ofNat 64 off))).andThen
    ((List.range (32 / t)).foldl (fun v u =>
      let k := dieMemKey d.die (off + u * size)
      v.andThen (need (s.loadNat (k + 1) 1 == fmt && s.loadNat (k + 2) 1 == t) .nestOpnd (BitVec.ofNat 64 (off + u * size)))) .ok)

/-- What stops a nest at its present batch. -/
def State.nestVerdict (s : State) (d : DieId) (x : Nest) : Verdict :=
  let t := precT x.prec
  (s.fetchBlock d x.aAt (precA x.prec) t true).andThen
    (if x.bsrc then
      (List.range (32 / t)).foldl (fun v u =>
        v.andThen (match x.tiles[x.bAt + u]? with
          | some tl =>
            if !tl.v then .trap .ttUnmapped 0 0
            else match s.tileUE (s.dieTask d) x.tensor tl with
              | some (k, n) => .ue k n 0
              | none => .ok
          | none => .ok)) .ok
     else s.fetchBlock d x.bAt (precB x.prec) t false)

/-- A free row of a tile whose contents are undefined (R271, log 7): two free values give it its fields. -/
def freeRow (f : Nat) : AccRow :=
  let w := Config.freeWord f
  let r := AccRow.ofRaw w.toNat ((List.range 32).map (fun j => (Config.freeWord (f + 1 + j)).toNat))
  { r with fresh := w.getLsbD 22, h := w.extractLsb' 16 6 }

/-- A nest stopped: its tiles are undefined and its cause is reported at its MGO's number (R271, R387). -/
def State.stopNest (s : State) (d : DieId) (x : Nest) (cause : Cause) (tval : Word) : State :=
  let tiles := nestTiles x.words x.table
  let f := s.free
  let s := { s with free := f + 8 * 32 * 33 }
  let s := s.updDctx d (fun y =>
    tiles.foldl (fun (y : DieCtx) t => y.mapAcc t (fun i _ => freeRow (f + (32 * t + i) * 33)))
      { y with nests := y.nests.filter (fun n => n.table != x.table) })
  s.dieFault d x.no 15 cause tval

/-- The log of a residue mismatch (R404, R411): the array becomes SUSPECT. -/
def State.noteResidue (s : State) (d : DieId) (x : Nest) (idx : BitVec 8) : State :=
  let c := s.partOf d
  let u := s.blame c (unitCode 0x03 d.die x.array)
  (s.logError { time := s.timeCnt, unit := u, ty := 5, syn := 0, addr := BitVec.ofNat 64 (x.t % 2 ^ 48 + idx.toNat * 2 ^ 48),
                lnch := BitVec.ofNat 16 (s.launchOf c).num, ctx := BitVec.ofNat 16 c.num }).suspectUnit u

/-- The running nest of table `n` of a die context. -/
def State.nestNo (s : State) (d : DieId) (n : Nat) : Option Nest := (s.dctx d).nests.find? (fun x => x.table == n)

/-- What the fetch of a step's operands logs, once for the batches of the step (R401). -/
def State.noteOperands (s : State) (d : DieId) (x : Nest) : State :=
  if x.i ≠ 0 || x.p ≠ 0 then s else
  let t := precT x.prec
  let s := s.noteRead .data (dieMemKey d.die x.aAt) (stagedSize (precA x.prec) t true * (32 / t))
  if x.bsrc then
    (List.range (32 / t)).foldl (fun (s : State) u => match x.tiles[x.bAt + u]? with
      | some tl => s.noteTile (s.dieTask d) x.tensor tl
      | none => s) s
  else s.noteRead .data (dieMemKey d.die x.bAt) (stagedSize (precB x.prec) t false * (32 / t))

/-- The next batch of a nest applied, and counted in CHK. -/
def State.applyBatch (s : State) (d : DieId) (x : Nest) : State :=
  let r := s.nestBatchOf d x
  let s := s.noteOperands d x
  let q := x.array
  let s := s.updDctx d (fun y =>
    { (y.setAccRow x.tile x.i ((y.accRow x.tile x.i).apply r.1 r.2)) with
      chk := Table.set 0 y.chk q (Table.get 0 y.chk q + 1),
      nests := y.nests.map (fun n => if n.table = x.table then x.advance else n) })
  s

/-- The parity cells that a batch reads: the active words of its table, numbered after the shadow words of the four tables, and its
accumulator tile (R398). -/
def nestCells (d : DieId) (x : Nest) : Cell → Bool
  | .file (.die e) .table n => e == d && n / 32 == x.table + 4
  | .file (.die e) .acc n => e == d && n == x.tile
  | _ => false
/-- NEST_BATCH: one batch of the running nest of table `n`, unless an operand or a residue check stops the nest. -/
def execNestBatch (d : DieId) (n : Nat) (residueBad : Option (BitVec 8)) : State → Host.Outcome State Fault Refusal :=
  eventOp (fun s => match s.nestNo d n with
      | some x => !x.finished && !s.nestHeld (.die d) x
      | none => false)
    (fun s =>
      match s.nestNo d n with
      | none => s
      | some x => s.asUnit (.die d) (fun s =>
        if s.cellUE (nestCells d x) then (s.noteCells .data (nestCells d x)).stopNest d x .ue 0 else
        match s.nestVerdict d x with
        | .trap cause tval _ => s.stopNest d x cause tval
        | .ue key k tval => (s.noteRead .data key k).stopNest d x .ue tval
        | _ =>
          match residueBad with
          | some idx => (s.noteResidue d x idx).stopNest d x .residue 0
          | none => s.applyBatch d x))

/-- NEST_COMPLETE: a nest whose last batch has applied ends (R272). -/
def execNestComplete (d : DieId) (n : Nat) : State → Host.Outcome State Fault Refusal :=
  eventOp (fun s => match s.nestNo d n with | some x => x.finished | none => false)
    (fun s => (s.updDctx d (fun y => { y with nests := y.nests.filter (fun x => x.table != n) })).freeLimbo)

/-! ### Accumulator instructions (R274 to R282) -/

/-- An accumulator instruction waits while a nest holds its tile (R95). -/
def accOp (tile : BitVec 3) (chk : State → Verdict) (act : State → State) : State → Host.Outcome State Fault Refusal :=
  slotOp (fun s => (s.waitFor (.tiles [tile.toNat])).andThen (chk s)) act

def execAzero (tile : BitVec 3) : State → Host.Outcome State Fault Refusal :=
  accOp tile (fun _ => .ok) (fun s => s.updHere (·.mapAcc tile.toNat (fun _ _ => AccRow.zero)))

def execAload (o : AloadOp) : State → Host.Outcome State Fault Refusal :=
  accOp o.tile (fun s => s.imageLoadVerdict (s.scalar false o.a) (if o.f32 then 4096 else 8448))
    (fun s =>
      let k := s.dieKey (s.scalar false o.a)
      let row (i : Nat) (r : AccRow) : AccRow :=
        if o.f32 then r.ofF32 ((List.range 32).map (fun j => s.loadNat (k + 4 * (32 * i + j)) 4))
        else AccRow.ofRaw (s.loadNat (k + 264 * i) 8) ((List.range 32).map (fun j => s.loadNat (k + 264 * i + 8 + 8 * j) 8))
      (s.noteRead .data k (if o.f32 then 4096 else 8448)).updHere (·.mapAcc o.tile.toNat row))

def execAstore (o : AstoreOp) : State → Host.Outcome State Fault Refusal :=
  accOp o.tile (fun s => s.imageStoreVerdict (s.scalar false o.a) o.fmt.size)
    (fun s =>
      let rows := (List.range 32).map (fun i => s.curDie.accRow o.tile.toNat i)
      let base := match o.base with | some k => (s.curDie.kreg k).toNat % 2 ^ 32 | none => baseOne
      let r := if o.fmt = .raw then (rows.flatMap AccRow.rawImage, 0) else tileImage rows o.fmt.fmt s.vrm base
      (s.storeImage (s.scalar false o.a) r.1).updHere (·.addFlags r.2))

def execAexp (o : AexpOp) : State → Host.Outcome State Fault Refusal :=
  accOp o.tile (fun _ => .ok) (fun s =>
    let e : BitVec 16 := (s.scalar false o.a).truncate 16
    s.updHere (fun x => x.mapAcc o.tile.toNat (fun i r =>
      match o.row with
      | some w => if i = w.toNat then ({ r with e } : AccRow).refit else r
      | none => ({ r with e } : AccRow).refit)))

def execArenorm (o : ArenormOp) : State → Host.Outcome State Fault Refusal :=
  accOp o.tile (fun _ => .ok) (fun s =>
    let k := (s.scalar false o.a).toNat % 64
    let g := min k 55
    s.updHere (fun x => x.mapAcc o.tile.toNat (fun _ r =>
      if r.fresh then r
      else if o.h then (if r.h.toNat < g then r.renorm (g - r.h.toNat + 1) else r)
      else if k = 0 then r else r.renorm k)))

/-- AHEAD and AEVT read one row, or combine the 32 (R281). -/
def State.accRead (s : State) (o : AccRdOp) (one : AccRow → Nat) (all : List Nat → Nat) : State :=
  let x := s.curDie
  let v := match o.row with
    | some r => one (x.accRow o.tile.toNat r.toNat)
    | none => all ((List.range 32).map (fun i => one (x.accRow o.tile.toNat i)))
  s.updHere (·.setK o.kd (BitVec.ofNat 64 v))
def execAhead (o : AccRdOp) : State → Host.Outcome State Fault Refusal :=
  accOp o.tile (fun _ => .ok) (fun s => s.accRead o (fun r => r.h.toNat) (fun l => l.foldl min 63))
def execAevt (o : AccRdOp) : State → Host.Outcome State Fault Refusal :=
  accOp o.tile (fun _ => .ok) (fun s => s.accRead o (fun r => r.c.toNat) (fun l => l.foldl (· + ·) 0))

def execAres (o : AresOp) : State → Host.Outcome State Fault Refusal :=
  plainOp (fun s => s.updHere (fun x =>
    match o.kd with
    | some k => x.setK k (Table.get 0 x.chk o.q.toNat)
    | none => { x with chk := Table.set 0 x.chk o.q.toNat 0 }))

end Sys2Proof.Machine
end

