-- ==== Sys2Proof/Machine/Sync.lean ====
section
/-! DEFINITION. Fences, releases, acquires, DRAIN and flags of a core context (R140 to R146, R317 to R323). -/

namespace Sys2Proof.Machine

/-- A release that makes the task non-idempotent (R127); on a cellar context .pkg acts as .mem (R142). -/
def wideScope (c : CoreId) (sc : Scope) : Bool :=
  match scopeOn c sc with
  | .pkg | .mem | .sys => true
  | _ => false

/-- UE of an earlier peer store whose route was down, at a release of scope .sys (R441). -/
def State.sysVerdict (s : State) (sc : Scope) : Verdict :=
  if sc = .sys && s.cur.peerErr then .trap .ue 0 0 else .ok

/-- RELEASE: R127 first, then the bytes of R141. -/
def State.releaseNow (s : State) (sc : Scope) : State :=
  let s := if wideScope s.core sc then s.endIdem (s.taskId s.core) (some s.core) else s
  s.releaseBytes s.core sc

def execRelease (sc : Scope) : State → Host.Outcome State Fault Refusal :=
  slotOp (·.sysVerdict sc) (·.releaseNow sc)
def execAcquire (sc : Scope) : State → Host.Outcome State Fault Refusal := plainOp (fun s => s.acquireBytes s.core sc)
/-- FENCE.SC: a release and an acquire together (R146). -/
def execFenceSc (sc : Scope) : State → Host.Outcome State Fault Refusal :=
  slotOp (·.sysVerdict sc) (fun s => (s.releaseNow sc).acquireBytes s.core sc)
/-- DRAIN waits for the near-memory commands and copies of a cellar context (R151, R158, R353); every other earlier access
of the context has performed (log 5), and it moves no data (R140). -/
def execDrain : State → Host.Outcome State Fault Refusal := slotOp (fun s => s.waitFor .accesses) (fun s => s)

/-! ### Flags -/

/-- Whether a flag belongs to the gang of the executing context (R394): its own task, or a task of its co-resident
group. -/
def State.ownFlag (s : State) (k : Nat) : Bool :=
  let file := k / 256
  let holder : Option TaskId :=
    if file < 32 then (s.ctx (.seq file)).task
    else match (Table.get DieCtx.unbound s.dieCtx (file - 32)).part with
      | some n => (s.ctx (.seq n)).task
      | none => none
  match holder with
  | none => false
  | some u =>
    let t := s.taskId s.core
    u == t || s.sameGroup t u

/-- The flag that a flag instruction names, or its fault (R320; in region 0xE R439 gives the order). -/
def State.flagPlace (s : State) (remote : Bool) (a : Word) (off : BitVec 5) : Except Verdict Nat :=
  if !remote then .ok (flagKey s.core.num ((a.toNat + off.toNat) % 256))
  else
    let ea := a + BitVec.ofNat 64 (4 * off.toNat)
    if ea.toNat / 2 ^ 52 = 0x00E && ea.toNat % 4 ≠ 0 then .error (.trap .addrAlign ea 0)
    else if ea.toNat / 2 ^ 52 ≠ 0x00C then .error (.trap .addrBad ea 0)
    else if ea.toNat % 4 ≠ 0 then .error (.trap .addrAlign ea 0)
    else match directPlace ea.toNat with
      | some (.flag k) => if s.ownFlag k then .ok k else .error (.trap .addrBad ea 0)
      | _ => .error (.trap .addrBad ea 0)

def flagVerdict (r : Except Verdict Nat) (f : Nat → Verdict) : Verdict :=
  match r with
  | .error v => v
  | .ok k => f k
def flagOf (r : Except Verdict Nat) : Nat :=
  match r with
  | .ok k => k
  | .error _ => 0

/-- A flag read with a parity error is consumed where its value is used (R381, R398). -/
def State.flagUE (s : State) (remote : Bool) (a : Word) (off : BitVec 5) (k : Nat) : Verdict :=
  if s.cellUE (· == flagCell k) then .ue (flagAt k) 4 (if remote then a + BitVec.ofNat 64 (4 * off.toNat) else 0) else .ok

/-- A flag write: R127, with .rel a RELEASE.pkg, then the write (R321, R322). -/
def State.flagWrite (s : State) (o : FlagWOp) (f : Word32 → Word32) : State :=
  let k := flagOf (s.flagPlace o.remote (s.src o.a) o.off)
  let s := s.endIdem (s.taskId s.core) (some s.core)
  let s := if o.rel then s.releaseNow .pkg else s
  s.setFlagWord k (f (s.flagWord k))

def execFset (o : FlagWOp) : State → Host.Outcome State Fault Refusal :=
  slotOp (fun s => flagVerdict (s.flagPlace o.remote (s.src o.a) o.off) (fun _ => .ok))
    (fun s => s.flagWrite o (fun _ => (s.dreg o.d).truncate 32))
def execFinc (o : FlagWOp) : State → Host.Outcome State Fault Refusal :=
  slotOp (fun s => flagVerdict (s.flagPlace o.remote (s.src o.a) o.off) (s.flagUE o.remote (s.src o.a) o.off))
    (fun s => s.flagWrite o (fun v => v + (s.dreg o.d).truncate 32))

/-- FTEST: the flag after 6 steps; a remote one holds the freeze line until it returns. -/
def execFtest (o : FTestOp) : State → Host.Outcome State Fault Refusal :=
  slotOp (fun s => flagVerdict (s.flagPlace o.remote (s.src o.a) o.off) (s.flagUE o.remote (s.src o.a) o.off))
    (fun s =>
      let f := s.flagWord (flagOf (s.flagPlace o.remote (s.src o.a) o.off))
      let v : Word := if o.sgn then f.signExtend 64 else f.zeroExtend 64
      let s := if o.acq then s.acquireBytes s.core .pkg else s
      s.send (outS false o.d v) v 6 0 0 (!o.remote))

/-- FWAIT's condition (R321). -/
def flagHolds (f v : Word32) (eq sgn : Bool) : Bool :=
  if eq then f == v else if sgn then v.toInt ≤ f.toInt else v.toNat ≤ f.toNat

def execFwait (o : FWaitOp) : State → Host.Outcome State Fault Refusal :=
  slotOp (fun s => flagVerdict (s.flagPlace o.remote (s.src o.a) o.off) (fun k =>
      let v : Word32 := (s.dreg o.d).truncate 32
      (s.flagUE o.remote (s.src o.a) o.off k).andThen
        (if flagHolds (s.flagWord k) v o.eq o.sgn then .ok else .wait (.flag k v o.eq o.sgn))))
    (fun s => if o.acq then s.acquireBytes s.core .pkg else s)

end Sys2Proof.Machine
end

