-- ==== Sys2Proof/Machine/CellarVec.lean ====
section
/-! DEFINITION. The cellar vector slot: sixteen lanes in the issuing context, with exposed latencies (R79, R340 to
R345). -/

namespace Sys2Proof.Machine

/-! ### Registers of a cellar context -/

def State.wreg (s : State) (n : BitVec 5) : CelVec := Table.get 0 s.cur.w n.toNat
def State.celLane (s : State) (n : BitVec 5) (i : Nat) : Nat := laneOf (s.wreg n) i
/-- A lane mask: m0 reads all ones (R340). -/
def State.celMask (s : State) (n : BitVec 3) : BitVec 16 := s.cur.celLanes n.toNat
def State.celOn (s : State) (m : BitVec 3) (i : Nat) : Bool := (s.celMask m).getLsbD i
def State.celLanes (s : State) (m : BitVec 3) : List Nat := (List.range 16).filter (s.celOn m)
/-- FPCTL.VRM of the issuing bundle. -/
def State.celRm (s : State) : Nat := field s.cur.fpctl 2 2

/-- A vector result on its way: enabled lanes of vd after `lat` steps, flags to VFLG at delivery. -/
def State.celSend (s : State) (vd : BitVec 5) (m : BitVec 3) (lat : Nat) (arrived : Bool) (f : Nat → FRes) : State :=
  let r := runLanes 16 (s.celOn m) (fun _ => 0) f
  s.send (.w vd (s.celMask m) (BitVec.ofNat 512 r.v)) 0 lat 0 r.fl arrived

def celBin (o : VBin) (f : State → Nat → Nat → Nat → FRes) : State → Host.Outcome State Fault Refusal :=
  plainOp (fun s => s.celSend o.vd o.m 4 true (fun i => f s (s.celLane o.va i) (s.celLane o.vb i) (s.celLane o.vd i)))
def celArith (o : VBin) (sat : Bool) (g : LaneFn) : State → Host.Outcome State Fault Refusal :=
  celBin o (fun s a b _ => laneBin o.t sat s.celRm g a b)

def execWadd (o : VSatBin) : State → Host.Outcome State Fault Refusal := celArith o.o o.sat fnAdd
def execWsub (o : VSatBin) : State → Host.Outcome State Fault Refusal := celArith o.o o.sat fnSub
def execWmul (o : VSatBin) : State → Host.Outcome State Fault Refusal := celArith o.o o.sat fnMul
def execWfma (o : VFmaBin) : State → Host.Outcome State Fault Refusal :=
  celBin o.o (fun s a b d => laneFma o.o.t o.var s.celRm a b d)
def execWmin (o : VBin) : State → Host.Outcome State Fault Refusal := celArith o false fnMin
def execWmax (o : VBin) : State → Host.Outcome State Fault Refusal := celArith o false fnMax
def execWand (o : VBin) : State → Host.Outcome State Fault Refusal := celBin o (fun _ a b _ => laneBits (fun x y => x &&& y) a b)
def execWor (o : VBin) : State → Host.Outcome State Fault Refusal := celBin o (fun _ a b _ => laneBits (fun x y => x ||| y) a b)
def execWxor (o : VBin) : State → Host.Outcome State Fault Refusal := celBin o (fun _ a b _ => laneBits (fun x y => x ^^^ y) a b)

/-- WCMP writes mask bits of enabled lanes. -/
def execWcmp (o : VCmpOp) : State → Host.Outcome State Fault Refusal :=
  plainOp (fun s =>
    let r := runMask 16 (s.celOn o.m) (fun _ => false) (fun i => laneCmp o.cond o.t (s.celLane o.va i) (s.celLane o.vb i))
    s.send (.m o.md (s.celMask o.m) (BitVec.ofNat 16 r.v)) 0 4 0 r.fl true)
def execWsel (o : VSelOp) : State → Host.Outcome State Fault Refusal :=
  plainOp (fun s => s.celSend o.vd o.m 4 true (fun i =>
    { v := if s.celOn o.sel i then s.celLane o.va i else s.celLane o.vb i, fl := 0 }))
def execWcvt (o : VCvtOp) : State → Host.Outcome State Fault Refusal :=
  plainOp (fun s => s.celSend o.vd o.m 4 true (fun i =>
    laneConv o.t o.dt o.e.toNat s.celRm (s.celLane o.va i) (s.celLane o.vb i)))
def execWbcast (o : VBcastOp) : State → Host.Outcome State Fault Refusal :=
  plainOp (fun s =>
    let a := s.scalar false o.a
    let v := if o.lane then s.celLane o.va (a.toNat % 16) else a.toNat % 2 ^ 32
    s.celSend o.vd o.m 4 true (fun _ => { v, fl := 0 }))

/-- WRED (R343): four levels of the tree; nothing is written when no lane is enabled. -/
def execWred (o : WRedOp) : State → Host.Outcome State Fault Refusal :=
  plainOp (fun s =>
    let ls := (List.range 16).map (fun i => if s.celOn o.m i then some (s.celLane o.va i) else none)
    let r := treeReduce (combine o.kind o.t.signed o.t.isFloat 32 s.celRm) 4 ls
    match r.1 with
    | none => s
    | some v => s.celSend o.vd o.m 8 true (fun _ => { v, fl := r.2 }))

/-! ### WLD and WST (R344) -/

def State.wAddr (s : State) (o : WMemOp) (i : Nat) : Word :=
  s.scalar false o.a + BitVec.ofNat 64 (4 * (if o.x then s.celLane o.va i else i))


/-- One lane's checks. -/
def State.wldLane (s : State) (o : WMemOp) (i : Nat) : Verdict :=
  let ea := s.wAddr o i
  if o.flat then s.loadVerdict ea 4 else s.padVerdict ea 4 false

/-- WLD's latency: 4 steps when every byte comes from the core scratchpad (R185, R344). -/
def State.wldLatency (s : State) (o : WMemOp) : Nat :=
  let ls := s.celLanes o.m
  if !o.flat || (!ls.isEmpty && ls.all (fun i => s.inOwnPad (s.wAddr o i) 4)) then 4 else 6

def execWld (o : WMemOp) : State → Host.Outcome State Fault Refusal :=
  slotOp (fun s => lanesVerdict (s.celLanes o.m) (s.wldLane o))
    (fun s =>
      let ls := s.celLanes o.m
      if o.flat then
        let t := ls.foldl (fun (t : State) i => t.loadEffects (s.wAddr o i) 4) s
        t.celSend o.vd o.m (s.wldLatency o) (ls.all (fun i => s.servedAtOnce (s.wAddr o i) 4))
          (fun i => { v := s.loadValue (s.wAddr o i) 4, fl := 0 })
      else
        let t := ls.foldl (fun (t : State) i => t.noteRead .data (s.padAt (s.wAddr o i)) 4) s
        t.celSend o.vd o.m 4 true (fun i => { v := s.loadNat (s.padAt (s.wAddr o i)) 4, fl := 0 }))

/-- Granules that the enabled lanes up to `i` would stage. -/
def State.wstGranules (s : State) (o : WMemOp) (i : Nat) : List Nat :=
  ((s.celLanes o.m).filter (· ≤ i)).flatMap (fun j => stageKeys (placeOf (s.corePlace s.core (s.wAddr o j) 4 .store)) 4)

def State.wstLane (s : State) (o : WMemOp) (i : Nat) : Verdict :=
  let ea := s.wAddr o i
  if o.flat then
    (s.storeVerdict ea 4).andThen
      (need (s.nonidem (s.taskId s.core) || !s.stageFull (s.taskId s.core) (s.wstGranules o i)) .stageFull ea)
  else s.padVerdict ea 4 true

def execWst (o : WMemOp) : State → Host.Outcome State Fault Refusal :=
  slotOp (fun s => lanesVerdict (s.celLanes o.m) (s.wstLane o))
    (fun s => (s.celLanes o.m).foldl (fun (t : State) i =>
      let bs := bytesOfNat (s.celLane o.vd i) 4
      if o.flat then t.storeTo (placeOf (s.corePlace s.core (s.wAddr o i) 4 .store)) (s.wAddr o i) bs
      else t.storeBytes (s.padAt (s.wAddr o i)) bs) s)

end Sys2Proof.Machine
end

