-- ==== Sys2Proof/Machine/NearMem.lean ====
section
/-! DEFINITION. Near-memory commands of a cellar context: descriptors, the command queue, positions, tickets
(R98, R346 to R356). -/

namespace Sys2Proof.Machine

/-! ### Descriptors (R347) -/

/-- A descriptor's four words. -/
structure NmDesc where
  base : Word
  data : Word
  aux : Word
  ctl : Word
  deriving DecidableEq, Repr

/-- The descriptor at an offset of the core scratchpad. -/
def State.nmDesc (s : State) (a : Word) : NmDesc :=
  let w (i : Nat) : Word := BitVec.ofNat 64 (s.loadNat (s.padAt (a + BitVec.ofNat 64 (8 * i))) 8)
  { base := w 0, data := w 1, aux := w 2, ctl := w 3 }

def ctlLim (c : Word) : Nat := field c 32 32
def ctlStride (c : Word) : Nat := field c 16 16
def ctlCount (c : Word) : Nat := field c 8 8 + 1
def ctlRow (c : Word) : Nat := 64 * 2 ^ field c 4 2
def ctlType (c : Word) : Nat := field c 2 2
def ctlDsp (c : Word) : Bool := c.getLsbD 1

/-- Commands with an index list. -/
def nmIndexed : NmKind → Bool
  | .nired | .ngath | .nscat => true
  | _ => false
/-- Bytes of DATA in the core scratchpad. -/
def nmDataLen (k : NmKind) (c : Word) : Nat := if k = .nired then ctlRow c else ctlCount c * ctlRow c

/-- A flat row address: below region 0x8, aligned. -/
def nmFlat (a : Word) (l : Nat) : Verdict :=
  (need (a.toNat / 2 ^ 55 == 0) .addrBad a).andThen (need (a.toNat % l == 0) .addrAlign a)
/-- A core-scratchpad range. -/
def nmRange (a : Word) (len align : Nat) : Verdict :=
  (need (a.toNat + len ≤ 2 ^ 19) .addrBad a).andThen (need (a.toNat % align == 0) .addrAlign a)

/-- The checks of R348 on a descriptor; within a row of its table address by address (log 14). -/
def nmCheck (k : NmKind) (v : Bool) (a : Word) (d : NmDesc) : Verdict :=
  let c := d.ctl
  let l := ctlRow c
  let ok1 := field c 6 2 == 0 && !c.getLsbD 0 && field c 4 2 != 3 && ctlType c != 3 && ctlStride c != 0
  let plain := k == .nmrow || k == .nstrm
  let ok2 := (!ctlDsp c || k != .nmrow) && (k != .nstrm || ctlDsp c) && (!plain || ctlLim c == 0)
    && (k != .nstrm || d.aux == 0)
  (need (ok1 && ok2) .nmDesc a).andThen
    ((((nmFlat d.base l).andThen (if ctlDsp c then .ok else nmFlat d.data l)).andThen
      (if k = .nmrow && v then nmFlat d.aux l else .ok)).andThen
      ((if nmIndexed k then nmRange d.aux (4 * ctlCount c) 4 else .ok).andThen
        (if ctlDsp c then nmRange d.data (nmDataLen k c) l else .ok)))

/-- A command that writes region 0x0-0x7 (R349). -/
def nmWritesFlat (k : NmKind) (c : Word) : Bool :=
  match k with
  | .nscat => true
  | .nired | .ngath | .nmrow => !ctlDsp c
  | .nstrm => false

/-! ### Entry (R348, R349) -/

def State.nmVerdict (s : State) (k : NmKind) (o : NmOp) : Verdict :=
  let a := s.src o.a
  (need (a.toNat % 32 == 0) .addrAlign a).andThen
    ((need (a.toNat + 32 ≤ 2 ^ 19) .addrBad a).andThen
      ((s.ueVerdict (s.padAt a) 32 a).andThen
        (let d := s.nmDesc a
         ((nmCheck k o.v a d).andThen
          (if nmIndexed k then s.ueVerdict (s.padAt d.aux) (4 * ctlCount d.ctl) d.aux else .ok)).andThen
          ((s.waitFor .nmFull).andThen (need (s.cur.ticket + 1 < 2 ^ 48) .nmTicket 0)))))

/-- The command enters the queue with the next ticket; what the reads of its descriptor and its index list meet is logged
(R401). -/
def State.nmEnter (s : State) (k : NmKind) (o : NmOp) : State :=
  let a := s.src o.a
  let d := s.nmDesc a
  let n := ctlCount d.ctl
  let idx := if nmIndexed k then (List.range n).map (fun i => s.loadNat (s.padAt (d.aux + BitVec.ofNat 64 (4 * i))) 4) else []
  let s := s.noteRead .data (s.padAt a) 32
  let s := if nmIndexed k then s.noteRead .data (s.padAt d.aux) (4 * n) else s
  let s := if nmWritesFlat k d.ctl then s.endIdem (s.taskId s.core) (some s.core) else s
  let t := s.cur.ticket + 1
  let cmd : NmCmd := { kind := k, v := o.v, ticket := t, base := d.base, data := d.data, aux := d.aux, ctl := d.ctl, idx,
                       pos := 0, sum := none, skip := 0 }
  (s.updCtx s.core (fun x => { x with nmq := x.nmq ++ [cmd], ticket := t })).interlock (outS o.nw o.d (BitVec.ofNat 64 t))

def nmCommand (k : NmKind) (o : NmOp) : State → Host.Outcome State Fault Refusal :=
  slotOp (·.nmVerdict k o) (·.nmEnter k o)
def execNired (o : NmOp) : State → Host.Outcome State Fault Refusal := nmCommand .nired o
def execNgath (o : NmOp) : State → Host.Outcome State Fault Refusal := nmCommand .ngath o
def execNscat (o : NmOp) : State → Host.Outcome State Fault Refusal := nmCommand .nscat o
def execNmrow (o : NmOp) : State → Host.Outcome State Fault Refusal := nmCommand .nmrow o
def execNstrm (o : NmOp) : State → Host.Outcome State Fault Refusal := nmCommand .nstrm o

/-- ACQUIRE.mem by the .acq forms (R353). -/
def State.nmAcquire (s : State) (acq : Bool) : State := if acq then s.acquireBytes s.core .mem else s

def execNqst (o : NqstOp) : State → Host.Outcome State Fault Refusal :=
  plainOp (fun s =>
    let v := BitVec.ofNat 64 (s.cur.nmDone * 2 ^ 16 + (16 - s.cur.nmq.length))
    (s.nmAcquire o.acq).interlock (outS o.nw o.d v))

/-- The record of a ticket (R355). -/
def Ctx.nmRecord (x : Ctx) (t : Nat) : Word :=
  if t = 0 then 0 else if t + 64 ≤ x.ticket then 0x10000 else BitVec.ofNat 64 (Table.get 0 x.skips t)
def execNwait (o : NmOp) : State → Host.Outcome State Fault Refusal :=
  slotOp (fun s =>
      let t := (s.src o.a).toNat
      (need (t ≤ s.cur.ticket) .nmTicket 0).andThen (s.waitFor (.nmTicket t)))
    (fun s =>
      let v := s.cur.nmRecord (s.src o.a).toNat
      (s.nmAcquire o.v).interlock (outS o.nw o.d v))

/-! ### Positions (R98, R350 to R352, R356) -/

/-- A row added to another, element by element, RNE (R98). -/
def addElems (w : Nat) (f : Nat → Nat → Nat) : Nat → Nat → Nat → Nat
  | 0, _, _ => 0
  | n + 1, a, b => f (a % 2 ^ w) (b % 2 ^ w) % 2 ^ w + 2 ^ w * addElems w f n (a / 2 ^ w) (b / 2 ^ w)
def addRows (ty l a b : Nat) : Nat :=
  match ty with
  | 0 => addElems 32 (fun x y => (Fmt.f32.add 0 x y).v) (l / 4) a b
  | 1 => addElems 16 (fun x y => (Fmt.bf16.add 0 x y).v) (l / 2) a b
  | _ => addElems 32 (fun x y => (x + y) % 2 ^ 32) (l / 4) a b

/-- Tab(x), Two(x) and the row at DATA + L·STRIDE·x. -/
def NmCmd.row (m : NmCmd) (at_ : Word) (x : Nat) : Word := at_ + BitVec.ofNat 64 (ctlRow m.ctl * ctlStride m.ctl * x)
/-- Dat(i). -/
def NmCmd.dat (m : NmCmd) (i : Nat) : Word := m.data + BitVec.ofNat 64 (ctlRow m.ctl * i)

/-- The storage key of a flat row for a cellar context (R356). -/
def State.nmKey (s : State) (c : CoreId) (a : Word) (store : Bool) : Option Nat :=
  if a.toNat / 2 ^ 52 < 8 then
    match s.walkOn (tlbOf (.core c)) (s.launchOf c).func a.toNat store with
    | .page false p => if p / 2 ^ 36 = c.stack then some (hbmKey p) else none
    | _ => none
  else none

/-- What a position reads and writes: flat rows read, flat row written, whether DATA is in the scratchpad. -/
structure NmMove where
  reads : List Word
  writes : Option Word
  pad : Option Nat
  deriving DecidableEq, Repr

/-- Whether position `pos` is skipped (R350). -/
def NmCmd.skips (m : NmCmd) : Bool := nmIndexed m.kind && m.pos < ctlCount m.ctl && ctlLim m.ctl ≤ m.idx.getD m.pos 0

/-- The rows of the present position. -/
def NmCmd.move (m : NmCmd) : NmMove :=
  let dsp := ctlDsp m.ctl
  let i := m.pos
  let tab := m.row m.base (m.idx.getD i 0)
  let dat (j : Nat) (rd : Bool) : NmMove :=
    if dsp then { reads := [], writes := none, pad := some (m.dat j).toNat }
    else { reads := if rd then [m.dat j] else [], writes := some (m.dat j), pad := none }
  match m.kind with
  | .nired =>
    if i < ctlCount m.ctl then { reads := [tab], writes := none, pad := none } else dat 0 m.v
  | .ngath => { dat i false with reads := [tab] }
  | .nscat =>
    if dsp then { reads := if m.v then [tab] else [], writes := some tab, pad := some (m.dat i).toNat }
    else { reads := if m.v then [m.dat i, tab] else [m.dat i], writes := some tab, pad := none }
  | .nmrow =>
    { reads := if m.v then [m.row m.base i, m.row m.aux i] else [m.row m.base i], writes := some (m.row m.data i), pad := none }
  | .nstrm => { reads := [m.row m.base i], writes := none, pad := some (m.dat i).toNat }

/-- The last position of a command has been applied. -/
def NmCmd.finished (m : NmCmd) : Bool := ctlCount m.ctl + (if m.kind = .nired then 1 else 0) ≤ m.pos

/-- Pseudo-channel of a physical row (R110, R411). -/
def channelOf (key : Nat) : Nat := key / 2 ^ 36 * 256 + key / 256 % 256

/-- The command at the head of a queue replaced. -/
def State.setCmd (s : State) (c : CoreId) (m : NmCmd) : State := s.updCtx c (fun x => { x with nmq := m :: x.nmq.drop 1 })

/-- The value that the position's result has: the rows read, the scratchpad row, and the running sum. -/
def NmCmd.result (m : NmCmd) (rows : List Nat) (padRow : Nat) : Nat :=
  let add := addRows (ctlType m.ctl) (ctlRow m.ctl)
  let r0 := rows.getD 0 0
  let sum := (m.sum.getD 0).toNat
  match m.kind with
  | .nired =>
    if m.pos < ctlCount m.ctl then (match m.sum with | none => r0 | some x => add x.toNat r0)
    else if m.v then add (if ctlDsp m.ctl then padRow else r0) sum else sum
  | .ngath => r0
  | .nscat =>
    if ctlDsp m.ctl then (if m.v then add r0 padRow else padRow) else if m.v then add (rows.getD 1 0) r0 else r0
  | .nmrow => if m.v then add r0 (rows.getD 1 0) else r0
  | .nstrm => r0

/-- One position of the head command (R350). -/
def State.nmApply (s : State) (c : CoreId) (m : NmCmd) : State :=
  let v := m.move
  let l := ctlRow m.ctl
  let rks := v.reads.map (fun a => s.nmKey c a false)
  let wk := v.writes.map (fun a => s.nmKey c a true)
  let badAddr : Option Word :=
    match (v.reads.zip rks).find? (fun e => e.2.isNone), v.writes, wk with
    | some e, _, _ => some e.1
    | none, some a, some none => some a
    | none, _, _ => none
  let s := (v.reads ++ v.writes.toList).foldl (fun (s : State) a => s.noteWalk (s.launchOf c).func a) s
  match badAddr with
  | some a => s.abort (s.taskId c) ((s.ctx c).ending 0 .nmFault a)
  | none =>
    let keys := rks.filterMap id ++ (wk.bind id).toList
    let due := keys.filter (fun k => (Table.find? s.refresh (channelOf k)).isSome)
    if !due.isEmpty then due.foldl (fun (s : State) k => { s with refresh := Table.erase s.refresh (channelOf k) }) s
    else
      let padK := v.pad.map (fun off => padKey c.padIdx off)
      let srcs := rks.filterMap id ++ (if m.kind = .nscat || (m.kind = .nired && m.v) then padK.toList else [])
      match srcs.find? (fun k => s.hasUE k l) with
      | some k => (s.noteRead .data k l).abort (s.taskId c) ((s.ctx c).ending 0 .ue 0)
      | none =>
        let s0 := srcs.foldl (fun (t : State) k => t.noteRead .data k l) s
        let x := m.result ((rks.filterMap id).map (fun k => s.loadNat k l)) ((padK.map (fun k => s.loadNat k l)).getD 0)
        if m.kind = .nired && m.pos < ctlCount m.ctl then
          s0.setCmd c { m with pos := m.pos + 1, sum := some (BitVec.ofNat 2048 x) }
        else
          let s1 : State := match wk.bind id, padK with
            | some k, _ => s0.dramWrite k (bytesOfNat x l)
            | none, some k => s0.storeBytes k (bytesOfNat x l)
            | none, none => s0
          s1.setCmd c { m with pos := m.pos + 1 }

/-- The head command of a context's queue. -/
def State.nmHead (s : State) (c : CoreId) : Option NmCmd := (s.ctx c).nmq.head?

/-- NM_POSITION: one list position or row of the head command, after a refresh that is due on its channels (R352). -/
def execNmPosition (c : Nat) : State → Host.Outcome State Fault Refusal :=
  eventOp (fun s => match s.nmHead (.cel c) with | some m => !m.finished | none => false)
    (fun s =>
      match s.nmHead (.cel c) with
      | none => s
      | some m =>
        if m.skips then s.setCmd (.cel c) { m with pos := m.pos + 1, skip := m.skip + 1 }
        else s.asUnit (.core (.cel c)) (fun s =>
          let cells : Cell → Bool := fun e => match e with
            | .file (.core d) .commands n => d == .cel c && n == m.ticket
            | _ => false
          if s.cellUE cells then (s.noteCells .data cells).abort (s.taskId (.cel c)) ((s.ctx (.cel c)).ending 0 .ue 0)
          else (s.noteCells .data cells).nmApply (.cel c) m))

/-- NM_COMMAND_COMPLETE: the head command leaves the queue; its record is kept among the last 64 (R354, R355). -/
def execNmCommandComplete (c : Nat) : State → Host.Outcome State Fault Refusal :=
  eventOp (fun s => match s.nmHead (.cel c) with | some m => m.finished | none => false)
    (fun s =>
      match s.nmHead (.cel c) with
      | none => s
      | some m => s.updCtx (.cel c) (fun x =>
          { x with nmq := x.nmq.drop 1, nmDone := m.ticket,
                   skips := Table.set 0 (x.skips.filter (fun e => m.ticket < e.1 + 64)) m.ticket m.skip }))

/-- REFRESH_DUE on a pseudo-channel (R352). -/
def execRefreshDue (stack channel : Nat) : State → Host.Outcome State Fault Refusal :=
  eventOp (fun _ => stack < 12 && channel < 256) (fun s => { s with refresh := Table.insert s.refresh (stack * 256 + channel) () })

end Sys2Proof.Machine
end

