-- ==== Sys2Proof/Machine/Place.lean ====
section
/-! DEFINITION. How a program word is put where the next step runs it: a task bound to context 0 of a sequencer or
cellar core, whose code line or broadcast packet holds the word (log 19). -/

namespace Sys2Proof.Machine

/-- The map that a table word is read in (log 13). -/
def tableMap (w : Word32) : List OpMap → Option OpMap
  | [] => none
  | mp :: rest =>
    match decodeMap mp w 0#16 with
    | .ok _ => some mp
    | .error _ => tableMap w rest

/-- The slot of a map. -/
def slotOfMap : OpMap → Slot
  | .s => .s0
  | .m => .m
  | .b => .b
  | .v | .cv => .v
  | .x | .nm => .x
  | .p => .p
  | .c => .c

/-- A line with one bundle of one slot at word 1. -/
def oneBundleLine (sl : Slot) (w : Word32) : BitVec 512 :=
  BitVec.ofNat 512 (2 + 2 ^ (31 - slotNum sl) * 2 ^ 32 + w.toNat * 2 ^ 64)

/-- A launch of one task, for a placed word. -/
def placedLaunch (cellar : Bool) (x : Task) : Launch :=
  { Launch.absent with record := BitVec.ofNat 512 (0x01 + (if cellar then 2 else 0) * 256), complete := false, total := 1,
                       started := true, tasks := [(0, x)] }

/-- A running task of launch `nextLid` on a context, about to issue the bundle at `pc`. -/
def State.placeTask (s : State) (c : CoreId) (pc : Word) : State :=
  let t : TaskId := { lid := s.nextLid, wid := 0 }
  let mask : BitVec 48 := if c.isCellar then 0 else 1
  let slot : Option Nat := if c.isCellar then some 0 else none
  let x : Task := { Task.fresh with state := .running, ctx := some c, mask, everBound := true, cask := slot }
  let s := { s with launches := Table.insert s.launches s.nextLid (placedLaunch c.isCellar x) }
  let s := s.setCtx c { Ctx.unbound with task := some t, run := .ready, n0 := pc, n1 := s.nextN s.codeVer pc 1,
                                         n2 := s.nextN s.codeVer pc 2, dieMask := mask, dieEn := mask }
  if c.isCellar then s
  else s.setDctx { die := 0, k := 0 } { DieCtx.unbound with part := some 0, count := 1 }

/-- The next step runs a slot word: a core's word from a code line at 0, a broadcast word from a packet. -/
def State.placeWord (s : State) (w : Word32) : State :=
  match tableMap w mapOrder with
  | none => s
  | some mp =>
    let sl := slotOfMap mp
    match mp with
    | .v | .x | .p | .c =>
      let p : Packet := { Packet.empty with no := 1, dieEn := 1 }
      let p := match sl with
        | .v => { p with v := some w }
        | .x => { p with x := some w }
        | .p => { p with p := some w }
        | _ => { p with c := some w }
      let s : State := s.placeTask (.seq 0) 4
      let s : State := s.updCtx (.seq 0) (fun x => { x with sent := [p], instNo := 2 })
      { s with agenda := .packetExecute { die := 0, k := 0 } :: s.agenda }
    | mp =>
      let c : CoreId := if mp == .cv || mp == .nm then .cel 0 else .seq 0
      let s : State := { s with code := s.code ++ [{ addr := 0, ver := s.codeVer, line := oneBundleLine sl w }] }
      let s : State := s.placeTask c 4
      { s with agenda := .bundleIssue c :: s.agenda }

end Sys2Proof.Machine
end

