-- ==== Sys2Proof/Machine/Policy.lean ====
section
/-! DEFINITION. Which READY or PREEMPTED task firmware serves next, and the batch of bind records that it writes for it (R37,
R40, R47, R66, R337, R338, R367, R368, R370; log 1 for what the manual leaves to firmware). -/

namespace Sys2Proof.Machine

/-! ### Whose turn it is (R370) -/

/-- The work identifier number `n` of a launch's geometry, in the order of R37. -/
def widOf (fmt lim n : Nat) : Nat :=
  ((List.range (widNf fmt)).reverse.foldl (fun (a : Nat × Nat) i =>
    (a.1 + a.2 % widExtent fmt lim i * 2 ^ widShift fmt (i + 1), a.2 / widExtent fmt lim i)) (0, n)).1

/-- The work identifiers of a launch among which firmware looks for a READY task that has never been bound: the first ones, more
than twice as many as tasks that have been bound, so that one of them is READY and its private pages stand free; of a cellar launch over several
stacks as many for each stack (R337); and for a follower those that its leader has bound and those that its leader has not (R367,
R372). A task of other numbers waits for the same contexts as one of these. -/
def State.offered (s : State) (l : Launch) : List Nat :=
  let fmt := recWidf l.record
  let lim := recWidl l.record
  let some_ := 2 * l.tasks.length + 1
  let wids (first n : Nat) : List Nat := (List.range n).map (fun i => widOf fmt lim (first + i))
  match l.leader with
  | none =>
    if l.kind = .cellar && 2 ≤ (stacksOf (recShape l.record)).length then
      let g := groupSize fmt lim 1
      (List.range (l.total / max 1 g)).flatMap (fun v => wids (v * g) (min g some_))
    else wids 0 (min l.total some_)
  | some lead =>
    let x := s.launch lead
    ((x.tasks.map Prod.fst).filter (widInside l))
      ++ (if recWidf x.record = fmt && recWidl x.record = lim then [] else (wids 0 l.total).filter (fun w => !widInside x w))

/-- Tasks of a launch that wait for a context: those PREEMPTED, and READY ones. -/
def State.waitingTasks (s : State) (lid : Nat) : List TaskId :=
  let l := s.launch lid
  if !l.started || l.failed || l.complete then [] else
  ((l.tasks.filter (fun e => e.2.state == .preempted)).map (fun e => ({ lid, wid := e.1 } : TaskId)))
    ++ ((l.tasks.map Prod.fst ++ s.offered l).eraseDups.map (fun w => ({ lid, wid := w } : TaskId))).filter (fun t => (s.task t).state == .ready)

/-- Every task that waits, in the order in which firmware serves them: by priority, then the queues of one priority in
turn. -/
def State.serviceOrder (s : State) : List TaskId :=
  (List.range 4).flatMap (fun p => (List.range 64).flatMap (fun i =>
    let q := (Table.get 63 s.bindQ p + 1 + i) % 64
    (s.launches.filter (fun e => e.2.queue == q && recPrio e.2.record == p)).flatMap (fun e => s.waitingTasks e.1)))

/-! ### What goes with a task -/

/-- The tasks that one batch must hold with a task: its co-resident group, and on a resume the tasks saved with one of them
(R40, R338). -/
def State.batchGrow (s : State) (st : TaskState) : Nat → List TaskId → List TaskId
  | 0, l => l
  | n + 1, l =>
    let more (t : TaskId) : List TaskId :=
      let la := s.launch t.lid
      let fmt := recWidf la.record
      let group := match (List.range 6).find? (fun j => (widCor fmt).testBit j) with
        | some j =>
          let g := groupSize fmt (recWidl la.record) j
          (List.range g).map (fun i => ({ lid := t.lid, wid := widOf fmt (recWidl la.record) (widIndex fmt (recWidl la.record) t.wid / g * g + i) } : TaskId))
        | none => []
      (group ++ (match (s.task t).saved with | some v => v.mates | none => [])).filter (fun u => (s.task u).state == st)
    let l' := (l ++ l.flatMap more).eraseDups
    if l'.length = l.length then l else s.batchGrow st n l'

/-! ### Places -/

/-- Die masks of a count that have one of the shapes of R47. -/
def masksOf (n : Nat) : List (BitVec 48) :=
  let bits (w : Nat) (l : List Nat) : Nat := (l.map (fun i => (2 ^ w - 1) * 2 ^ (w * i))).foldl (· + ·) 0
  let subsets (k : Nat) : List (List Nat) := ((List.range 16).map (fun b => (List.range 4).filter (fun i => b.testBit i))).filter (fun l => l.length = k)
  let nums : List Nat :=
    if n ≤ 4 then (List.range 12).flatMap (fun c => (subsets n).map (fun l => bits 1 (l.map (· + 4 * c))))
    else if n = 8 then (List.range 4).flatMap (fun h => [[0, 1], [0, 2], [1, 2]].map (fun l => bits 4 (l.map (· + 3 * h))))
    else (subsets (n / 12)).map (fun l => bits 12 l)
  nums.map (BitVec.ofNat 48)

/-- The stream of a launch: the leader that its chain of FOLLOWs ends in (R370). -/
def State.streamOf (s : State) : Nat → Nat → Nat
  | 0, lid => lid
  | n + 1, lid => match (s.launch lid).leader with
    | some l => s.streamOf n l
    | none => lid
/-- Branch hubs above the dies of a mask. -/
def hubsOf (m : BitVec 48) : List Nat := ((diesOf m).map (· / 12)).eraseDups
/-- At most one stream of each priority stands under any one branch hub or cluster hub (R370). -/
def State.hubsFree (s : State) (t : TaskId) (m : BitVec 48) : Bool :=
  let mine := s.streamOf 4096 t.lid
  s.seq.all (fun e => match e.2.task with
    | none => true
    | some u => recPrio (s.launch u.lid).record != recPrio (s.launch t.lid).record || s.streamOf 4096 u.lid == mine
        || (hubsOf e.2.dieMask).all (fun h => !(hubsOf m).contains h))

/-- The records that could place a task beside the ones chosen so far; cellar cores that have a cask slot come first (R111). -/
def State.candidates (s : State) (a : BindAct) (t : TaskId) (acc : List BindRec) : List BindRec :=
  let l := s.launch t.lid
  let rec_ (ctx : Nat) (mask dctx : BitVec 48) : BindRec :=
    { wid := BitVec.ofNat 64 t.wid, lnch := l.num, last := false, ctx, mask, dctx }
  let free (n : Nat) : Bool := (s.ctx (.seq n)).task.isNone && !acc.any (fun r => r.ctx == n) && !s.coreBarred (.seq n)
  match l.kind, (List.range 32).find? free with
  | .cellar, _ =>
    let held (n : Nat) : Bool := (s.coreCask (.cel n)).isSome || acc.any (fun r => r.ctx / 4 == n / 4)
    ((List.range 768).filter held ++ (List.range 768).filter (fun n => !held n)).map (fun n => rec_ n 0 0)
  | .scalar, some n => [rec_ n 0 0]
  | .partition, some n =>
    let used := acc.flatMap recDies
    let pick (m : BitVec 48) : BindRec :=
      rec_ n m (BitVec.ofNat 48 ((diesOf m).foldl (fun x i =>
        if (s.dctx { die := i, k := 0 }).part.isNone && !used.contains { die := i, k := 0 } then x else x + 2 ^ i) 0))
    let led : Option BindRec := match l.leader with
      | some lead =>
        let u := s.task { lid := lead, wid := t.wid }
        if widInside (s.launch lead) t.wid then some (rec_ n u.mask (u.mask &&& ~~~u.dctx)) else none
      | none => none
    match led with
    | some r => [r].filter (fun r => s.hubsFree t r.mask)
    | none =>
      let counts := match a, (s.task t).saved with
        | .resume, some v => [v.count]
        | _, _ => countsOf (recShape l.record)
      ((counts.flatMap masksOf).filter (s.hubsFree t)).map pick
  | _, none => []

/-- Whether a record could stand in a batch beside those chosen so far: tasks saved on one core together, and no others with
them (R338). -/
def State.fits (s : State) (a : BindAct) (t : TaskId) (acc : List BindRec) (r : BindRec) : Bool :=
  let b := (acc ++ [r]).map (fun x => (a, x))
  s.recordOk a r && s.apart b && s.coreOfOne b
    && (match (s.task t).saved with
        | some v => !(s.recCtx r).isCellar || acc.all (fun x => match s.recTask x with
          | some u => v.mates.contains u == ((s.recCtx x).coreNo == (s.recCtx r).coreNo)
          | none => true)
        | none => true)

/-- Records for some tasks, one after another; none when no choice serves them all. A choice of dies is taken back where it
leaves a later task no place; contexts of cellar cores that fit are as good as one another. -/
def State.placeAll (s : State) (a : BindAct) : List TaskId → List BindRec → Option (List BindRec)
  | [], acc => some acc
  | t :: rest, acc =>
    let places := (s.candidates a t acc).filter (s.fits a t acc)
    (if (s.launch t.lid).kind = .cellar then places.take 1 else places).findSome? (fun r => s.placeAll a rest (acc ++ [r]))

/-- The batch that serves a task, if one would be accepted. -/
def State.planFor (s : State) (t : TaskId) : Option (List (BindAct × BindRec)) :=
  let st := (s.task t).state
  let a : BindAct := if st = .preempted then .resume else .bind
  match s.placeAll a (s.batchGrow st 200 [t]) [] with
  | none => none
  | some rs =>
    let b := rs.zipIdx.map (fun e => (a, { e.1 with last := e.2 + 1 == rs.length }))
    if s.batchOk b then some b else none

/-- What firmware would bind now: the batch of the first task in turn that finds a place, where no kiln run stands if it can,
else where dispatch drains one (R415). -/
def State.bindPlan (s : State) : List (BindAct × BindRec) :=
  let kilns := (s.seq.filter (fun e => e.2.diag)).map (fun e => CoreId.seq e.1) ++ (s.cel.filter (fun e => e.2.diag)).map (fun e => CoreId.cel e.1)
  match s.serviceOrder.findSome? s.planFor with
  | some b => b
  | none => if kilns.isEmpty then [] else (s.serviceOrder.findSome? (s.dropKilns kilns).planFor).getD []

/-- A bind record as the row that writes it. -/
def bindRow (e : BindAct × BindRec) : Instr :=
  match e.1 with
  | .bind => .bind e.2
  | .resume => .resumeBind e.2
  | .drain => .drainBind e.2

/-- The next bind record that firmware writes: the batch that it has begun goes on, and one that no longer stands is ended. -/
def State.nextBind (s : State) : Option Instr :=
  let b := { s with batch := [] }.bindPlan
  if b.take s.batch.length = s.batch then (b[s.batch.length]?).map bindRow
  else (s.batch.head?).map (fun e => bindRow (e.1, { e.2 with last := true }))

end Sys2Proof.Machine
end

