-- ==== Sys2Proof/Machine/Tree.lean ====
section
/-! DEFINITION. P slots: permutations, reductions and SIGCHK. A die stops at its barrier-class operation, and
BARRIER_COMPLETE gives it its effect once every enabled die has reached it (R62, R97, R257 to R260, R307 to R310,
R333). -/

namespace Sys2Proof.Machine

/-- A barrier-class operation: its checks, then the die stands at the barrier (R62). -/
def barrierOp (chk : State → Verdict) : State → Host.Outcome State Fault Refusal :=
  slotOp chk (fun s => s.updHere (fun x => { x with atBarrier := true }))

/-! ### Permutations (R307 to R310) -/

/-- L of a permutation. -/
def permSize (sz : BitVec 2) : Nat := 1024 * 4 ^ sz.toNat
/-- Source and destination offsets of field a. -/
def permSrc (a : Word) : Nat := field a 0 28
def permDst (a : Word) : Nat := field a 32 28

/-- The entry of rank `r` in a table. -/
def ptEntry (t : BitVec 512) (r : Nat) : Nat := field t (8 * r) 8

/-- The source rank of a die, none when it does not receive (R309). -/
def sourceRank (x : DieCtx) (i : Instr) (d : Word) : Option Nat :=
  match i with
  | .perm pt _ _ =>
    let e := ptEntry (Table.get 0 x.pt pt.toNat) x.rank
    if e / 128 = 1 then some (e % 64) else none
  | .pshr _ => some (((x.rank : Int) - d.toInt) % (max 1 x.count : Nat)).toNat
  | .pxch _ =>
    let r := x.rank ^^^ (d.toNat % 64)
    if r < x.count then some r else none
  | .pbcd _ => some d.toNat
  | _ => none

/-- The wait for earlier engine operations in conflict (R151, R454), then PERM_BAD of the die, then its two ranges
(R309). Whether some die reads its source is known when every die has reached the barrier, and so is an error that it
consumes (R310, R381). -/
def State.permVerdict (s : State) (i : Instr) (sz : BitVec 2) (a d : Word) : Verdict :=
  let x := s.curDie
  let n := permSize sz
  let rng (off : Nat) : Verdict := s.dieRange s.dieId off n (min n 4096) true .prog (BitVec.ofNat 64 off)
  let bad : Bool := match i with
    | .perm _ _ _ | .pbcd _ => (match sourceRank x i d with | some r => x.count ≤ r | none => false)
    | _ => false
  ((s.waitFor (.perm (permSrc a) (permDst a) n)).andThen (need (!bad) .permBad 0)).andThen
    ((rng (permSrc a)).andThen (rng (permDst a)))

def execPtld (_pt : BitVec 3) (a : Src) : State → Host.Outcome State Fault Refusal :=
  barrierOp (fun s =>
    let off := permSrc (s.scalar false a)
    (s.dieRange s.dieId off 64 64 false .prog (BitVec.ofNat 64 off)).andThen
      (s.ueVerdict (dieMemKey s.dieId.die off) 64 (BitVec.ofNat 64 off)))
def execPerm (pt : BitVec 3) (sz : BitVec 2) (a : Src) : State → Host.Outcome State Fault Refusal :=
  barrierOp (fun s => s.permVerdict (.perm pt sz a) sz (s.scalar false a) 0)
def execPshr (o : PermOp) : State → Host.Outcome State Fault Refusal :=
  barrierOp (fun s => s.permVerdict (.pshr o) o.sz (s.scalar false o.a) (s.scalar true o.b))
def execPxch (o : PermOp) : State → Host.Outcome State Fault Refusal :=
  barrierOp (fun s => s.permVerdict (.pxch o) o.sz (s.scalar false o.a) (s.scalar true o.b))
def execPbcd (o : PermOp) : State → Host.Outcome State Fault Refusal :=
  barrierOp (fun s => s.permVerdict (.pbcd o) o.sz (s.scalar false o.a) (s.scalar true o.b))
def execRred (_o : RredOp) : State → Host.Outcome State Fault Refusal := barrierOp (fun _ => .ok)
def execRsync (_rt : BitVec 2) : State → Host.Outcome State Fault Refusal := barrierOp (fun _ => .ok)
/-- SIGCHK waits for the events of earlier engine operations (R407). -/
def execSigchk (_o : SigchkOp) : State → Host.Outcome State Fault Refusal := barrierOp (·.waitFor .fold)

/-! ### Completion of a barrier -/

/-- A scalar of a die's P slot: the packet's, or the die context's hp (R168). -/
def pScalar (x : DieCtx) (p : Packet) (second : Bool) (a : Src) : Word :=
  match a with
  | .held => Table.get 0 x.holds 2
  | _ => if second then p.pb else p.pa

/-- PTLD on one die. -/
def State.loadTable (s : State) (d : DieId) (p : Packet) (pt : BitVec 3) (a : Src) : State :=
  let off := permSrc (pScalar (s.dctx d) p false a)
  let v := s.loadNat (dieMemKey d.die off) 64
  (s.noteRead .data (dieMemKey d.die off) 64).updDctx d (fun x =>
    { x with pt := Table.set 0 x.pt pt.toNat (BitVec.ofNat 512 v) })

/-- The receivers of a permutation, each with the enabled die that it receives from (R309, R310). -/
def State.permPairs (s : State) (ds : List DieId) (p : Packet) (i : Instr) (b : Option Src) : List (DieId × DieId) :=
  let bv (d : DieId) : Word := match b with | some b => pScalar (s.dctx d) p true b | none => 0
  ds.filterMap (fun d => (sourceRank (s.dctx d) i (bv d)).bind (fun r =>
    (ds.find? (fun e => (s.dctx e).rank == r)).map (fun e => (d, e))))
/-- A permutation over the enabled dies: every source is read before any destination is written (R310). An uncorrectable
word of a source that some die receives is a UE of the die that holds it, and no destination is written; one of a source
that none receives is only logged (R381). -/
def State.permute (s : State) (ds : List DieId) (p : Packet) (i : Instr) (sz : BitVec 2) (a : Src) (b : Option Src) : State :=
  let n := permSize sz
  let av (d : DieId) : Word := pScalar (s.dctx d) p false a
  let src (d : DieId) : Nat := dieMemKey d.die (permSrc (av d))
  let pairs := s.permPairs ds p i b
  let taken (d : DieId) : Bool := pairs.any (fun e => e.2 == d)
  let moves := pairs.map (fun e => (e.1, permDst (av e.1), s.loadBytes (src e.2) n))
  let bad := ds.filter (fun d => taken d && s.hasUE (src d) n)
  let s := ds.foldl (fun (s : State) d => s.noteRead (if taken d then .data else .walk) (src d) n) s
  if bad.isEmpty then moves.foldl (fun (s : State) m => s.padStore m.1 m.2.1 m.2.2) s
  else bad.foldl (fun (s : State) d => s.dieFault d p.no 6 .ue (BitVec.ofNat 64 (permSrc (av d)))) s

/-- Contributions folded from left to right. -/
def foldLeft (f : Nat → Nat → FRes) : List Nat → Option Nat
  | [] => none
  | x :: rest => some (rest.foldl (fun a b => (f a b).v) x)
/-- R97: clusters of four dies, then branch hubs, then the root. -/
def treeFold (f : Nat → Nat → FRes) (cs : List (Nat × Nat)) (branch : Nat → Nat) : Option Nat :=
  let clusters := (List.range 12).filterMap (fun c =>
    (foldLeft f ((cs.filter (fun e => e.1 / 4 == c)).map Prod.snd)).map (fun v => (c, v)))
  let hubs := (List.range 12).filterMap (fun h =>
    foldLeft f ((clusters.filter (fun e => branch e.1 == h)).map Prod.snd))
  foldLeft f hubs

/-- Result of a reduction as rt holds it (R257). -/
def rredResult (o : RredOp) (v : Nat) : Word :=
  if o.big then BitVec.ofNat 64 v else if o.cls = .s then wrap 64 (sext 32 v) else BitVec.ofNat 64 v

/-- The contribution of a die. -/
def rredValue (o : RredOp) (x : DieCtx) : Nat := (x.kreg o.k).toNat % 2 ^ (if o.big then 64 else 32)

/-- An rt register filled, and one awaited result less (R260). -/
def Ctx.fillRt (x : Ctx) (r : BitVec 2) (v : Word) : Ctx :=
  let n := Table.get 0 x.rtWait r.toNat
  { x with rt := Table.set 0 x.rt r.toNat v,
           rtWait := if n ≤ 1 then Table.erase x.rtWait r.toNat else Table.insert x.rtWait r.toNat (n - 1) }

/-- RRED over the enabled dies: each folds its contribution into SIG; an odd rank of a twin launch contributes nothing
(R257, R406, R407). -/
def State.reduceTree (s : State) (c : Nat) (ds : List DieId) (p : Packet) (o : RredOp) (branch : Nat → Nat) : State :=
  let w := if o.big then 64 else 32
  let f := combine o.kind (o.cls == .s) (o.cls == .f) w p.vrm.toNat
  let cs := (ds.filter (fun d => !s.suppressed d)).map (fun d => (d.die, rredValue o (s.dctx d)))
  let v := (treeFold f cs branch).getD (redIdentity o.kind (o.cls == .s) (o.cls == .f) w)
  let s := ds.foldl (fun (s : State) d => s.updDctx d (fun x =>
    x.foldEvent p.no [sigTag 0x10 p.no, BitVec.ofNat 64 (rredValue o x)])) s
  s.updCtx (.seq c) (·.fillRt o.rt (rredResult o v))

/-- Pairs of ranks with both dies enabled whose SIG differs (R333). -/
def State.sigPairs (s : State) (ds : List DieId) (count : Nat) : List (Nat × DieId × DieId) :=
  (List.range (count / 2)).filterMap (fun i =>
    match ds.find? (fun d => (s.dctx d).rank == 2 * i), ds.find? (fun d => (s.dctx d).rank == 2 * i + 1) with
    | some a, some b => if (s.dctx a).sig = (s.dctx b).sig then none else some (i, a, b)
    | _, _ => none)

/-- A die of a differing pair: logged, SUSPECT (R408). -/
def State.noteSig (s : State) (c : Nat) (d : DieId) : State :=
  let u := s.blame (.seq c) (unitCode 0x05 d.die 0)
  (s.logError { time := s.timeCnt, unit := u, ty := 6, syn := 0, addr := 0,
                lnch := BitVec.ofNat 16 (s.launchOf (.seq c)).num, ctx := BitVec.ofNat 16 c }).suspectUnit u

/-- SIGCHK over the enabled dies. -/
def State.checkSig (s : State) (c : Nat) (ds : List DieId) (p : Packet) (o : SigchkOp) : State :=
  let bad := s.sigPairs ds (diesOf (s.ctx (.seq c)).dieMask).length
  let s := bad.foldl (fun (s : State) e => (s.noteSig c e.2.1).noteSig c e.2.2) s
  if o.t && !bad.isEmpty then
    bad.foldl (fun (s : State) e => (s.dieFault e.2.1 p.no 6 .sigMismatch 0).dieFault e.2.2 p.no 6 .sigMismatch 0) s
  else
    let s := if o.clr then ds.foldl (fun (s : State) d => s.updDctx d (fun x => { x with sig := 0 })) s else s
    s.updCtx (.seq c) (·.fillRt o.rt (BitVec.ofNat 64 (bad.foldl (fun v e => v + 2 ^ e.1) 0)))

/-- The branch hub of a cluster (R23). -/
def branchHub (c : Nat) : Nat := c / 3

/-- The effect of a packet's barrier-class operation over the enabled dies. -/
def State.barrierEffect (s : State) (c : Nat) (ds : List DieId) (p : Packet) (i : Instr) : State :=
  match i with
  | .ptld pt a => ds.foldl (fun (s : State) d => s.loadTable d p pt a) s
  | .perm _ sz a => s.permute ds p i sz a none
  | .pshr o | .pxch o | .pbcd o => s.permute ds p i o.sz o.a (some o.b)
  | .rred o => s.reduceTree c ds p o branchHub
  | .rsync rt => s.updCtx (.seq c) (·.fillRt rt (BitVec.ofNat 64 ds.length))
  | .sigchk o => s.checkSig c ds p o
  | _ => s

/-- The packet of a partition whose barrier is the next to complete. -/
def Ctx.nextBarrier (x : Ctx) : Option Packet := x.sent.find? (fun p => p.p.isSome && !p.barrier)

/-- Whether every enabled die stands at it (R62). -/
def State.barrierReady (s : State) (c : Nat) : Bool :=
  let x := s.ctx (.seq c)
  match x.nextBarrier with
  | none => false
  | some p =>
    (match x.frozenAt with | some f => p.no < f | none => true)
      && (x.enabledIds p.dieEn).all (fun d =>
        (s.dctx d).atBarrier && (match (s.dctx d).packet with | some q => q.no == p.no | none => false))

/-- The barrier completes: dies without a C slot retire the number, the others act on it next. -/
def State.completeBarrier (s : State) (c : Nat) : State :=
  let x := s.ctx (.seq c)
  match x.nextBarrier with
  | none => s
  | some p =>
    let ds := x.enabledIds p.dieEn
    let i := ((packetWork p).find? (fun e => e.1 == .p)).map Prod.snd
    let s := match i with | some i => s.barrierEffect c ds p i | none => s
    let s := (s.payOwed (.core (.seq c)) 0)
    if ds.any (fun d => (s.dctx d).fault.isSome) then s
    else
      let s := s.updCtx (.seq c) (fun x =>
        { x with sent := x.sent.map (fun q => if q.no = p.no then { q with barrier := true } else q) })
      let s := ds.foldl (fun (s : State) d =>
        if p.c.isSome then s.updDctx d (fun x => { x with atBarrier := false }) else s.retire d) s
      s.pruneSent (.seq c) (s.ctx (.seq c)).sent

/-- BARRIER_COMPLETE. -/
def execBarrierComplete (c : Nat) : State → Host.Outcome State Fault Refusal :=
  eventOp (·.barrierReady c) (·.acting (.seq c) none (·.completeBarrier c))

end Sys2Proof.Machine
end

