-- ==== Sys2Proof/Machine/Arbiter.lean ====
section
/-! DEFINITION. The model's own choice of the next activity when the agenda holds none (log 1): every activity that the part
carries on by itself and that can go on now is listed, and TIME_CNT picks one of them. -/

namespace Sys2Proof.Machine

/-- An activity when it can go on. -/
def offer (b : Bool) (i : Instr) : List Instr := if b then [i] else []

/-- What a holder of x registers and copy engines can go on with. -/
def State.unitOffers (s : State) (u : UnitId) : List Instr :=
  ((s.xregs u).filter (fun e => !e.2.filled)).map (fun e => .xlateFill u e.1)
    ++ [0, 1].flatMap (fun e =>
      match s.headOp u e with
      | none => []
      | some o =>
        if o.started then [.copyComplete u e]
        else match o.kind with
          | .cbwr _ => offer (match s.cb? u o.cb with | some c => 0 < c.free && s.canStart u o | none => false) (.cbEngineStep u e)
          | .cbrd => offer (match s.cb? u o.cb with | some c => 0 < c.filled && s.canStart u o | none => false) (.cbEngineStep u e)
          | _ => offer (s.canStart u o) (.copyStart u e))

/-- What happens at a core context. -/
def State.ctxOffers (s : State) (c : CoreId) : List Instr :=
  let x := s.ctx c
  offer (s.unblocks c) (.contextUnblock c)
    ++ offer x.awaitsResult (.resultArrival c)
    ++ offer (s.mayIssue c && !s.limitHolds c) (.bundleIssue c)
    ++ offer (s.limitHolds c) (.currentLimitFreeze (match c with | .cel n => n / 4 | .seq n => 192 + n / 4))
    ++ offer x.stepStop (.dbgStepStop c)
    ++ offer (x.task.isSome && x.drain.isNone && x.yieldDl != BitVec.allOnes 64 && x.yieldDl.toNat ≤ s.timeCnt.toNat)
        (.yieldDeadlineExpiry c)
    ++ offer (s.still c && (s.gangOf c).all s.still) (.switchOut c)
    ++ offer (s.serviced c) (.faultService c false 0 0)
    ++ s.unitOffers (.core c)

/-- What only a sequencer context, or only a cellar context, has. -/
def State.seqOffers (s : State) (n : Nat) : List Instr :=
  offer (s.freezeDone (.seq n) && !s.serviced (.seq n) && (s.ctx (.seq n)).dieIds.all (fun d => !s.canPacket d))
      (.streamFreezeComplete n) ++ offer (s.barrierReady n) (.barrierComplete n)
def State.celOffers (s : State) (n : Nat) : List Instr :=
  match s.nmHead (.cel n) with
  | some m => if m.finished then [.nmCommandComplete n] else [.nmPosition n]
  | none => []

/-- What a die context can go on with. -/
def State.dieOffers (s : State) (d : DieId) : List Instr :=
  offer (s.packetTurn d) (.packetExecute d)
    ++ ((s.dctx d).nests.filter (fun x => x.finished || !s.nestHeld (.die d) x)).map (fun x => if x.finished then .nestComplete d x.table else .nestBatch d x.table none)
    ++ s.unitOffers (.die d)

/-- Launches and tasks that can go on. -/
def State.launchOffers (s : State) : List Instr :=
  s.launches.flatMap (fun e =>
    offer (!e.2.complete && !e.2.started && (e.2.failed || e.2.waits.isEmpty)) (.taskReady e.1)
      ++ (e.2.tasks.filter (fun t => s.committable { lid := e.1, wid := t.1 })).map (fun t => .taskCommit e.1 (BitVec.ofNat 64 t.1)))

/-- What dispatch, firmware and the host port have left to do. -/
def State.serviceOffers (s : State) : List Instr :=
  s.launchOffers
    ++ s.dies.flatMap (fun e => (e.2.banks.filter (fun b => s.bankDone e.1 b.1)).map (fun b => .bankReturnFree e.1 b.1))
    ++ (s.slots.filter (fun e => e.2.freed && !s.inFlight e.1)).map (fun e => .framesReturn e.1)
    ++ offer (s.serveQueue (fun ty => ty < 2 || 5 < ty)).isSome .launchRecord
    ++ offer (s.serveQueue (· = 2)).isSome .patch ++ offer (s.serveQueue (· = 3)).isSome .resetRecord
    ++ offer (s.serveQueue (· = 4)).isSome .tnew ++ offer (s.serveQueue (· = 5)).isSome .tfree
    ++ offer (!s.loads.isEmpty) .loadRequest ++ offer (!s.rewrites.isEmpty) .eccRewrite
    ++ offer (s.code.any s.deadLine || s.xlations.any s.deadXlation) .codeVersionFree
    ++ (s.nextBind.toList)
    ++ offer (s.dbgGo 1) .dbgStop ++ offer (s.dbgGo 2) .dbgResume ++ offer (s.dbgGo 3) .dbgReadReg
    ++ offer (s.dbgGo 4) .dbgWriteReg ++ offer (s.dbgGo 5) .dbgReadMem ++ offer (s.dbgGo 6) .dbgSetDbg
    ++ offer (!s.timeLost && s.copies.any (fun e => 16 ≤ e.2.fail)) .timeSyncLost
    ++ offer s.timeBack .timeSyncRecover ++ offer s.podMet .podValidSet

/-- Everything that can go on now. -/
def State.offers (s : State) : List Instr :=
  s.seq.flatMap (fun e => s.ctxOffers (.seq e.1) ++ s.seqOffers e.1)
    ++ s.cel.flatMap (fun e => s.ctxOffers (.cel e.1) ++ s.celOffers e.1)
    ++ s.dieCtx.flatMap (fun e => s.dieOffers { die := e.1 / 2, k := Fin.ofNat 2 e.1 })
    ++ s.serviceOffers

/-- The activity of a step whose agenda is empty: boot first; a scrub whose period ends (R403); the exchanges of
timestamps whose interval has begun (R31); a batch of bind records that
has begun; then what TIME_CNT picks; a scrub when nothing else can go on. -/
def State.nextActivity (s : State) : Instr :=
  if s.bootStage = 0 && s.bootErr = 0 then .packageReset
  else if s.scrubDue then .scrub
  else match s.syncDue.head?, (if s.batch.isEmpty then none else s.nextBind) with
    | some i, _ => .timeSyncExchange (s.syncNow i)
    | none, some i => i
    | none, none =>
      let l := s.offers
      l.getD (s.timeCnt.toNat % l.length) .scrub

end Sys2Proof.Machine
end

