-- ==== Sys2Proof/Machine/Dispatch.lean ====
section
/-! DEFINITION. The dispatcher: one arm per constructor of `Instr`, each a direct call of that row's meaning. -/

namespace Sys2Proof.Machine

/-- The meaning of an instruction or event. -/
def exec (i : Instr) (s : State) : Host.Outcome State Fault Refusal :=
  match i with
  | .dieReset die => Sys2Proof.Machine.execDieReset die s
  | .timeSyncExchange o => Sys2Proof.Machine.execTimeSyncExchange o s
  | .podJoin self master extra members pages => Sys2Proof.Machine.execPodJoin self master extra members pages s
  | .launchWindowWrite func q off size rec => Sys2Proof.Machine.execLaunchWindowWrite func q off size rec s
  | .taskReady lid => Sys2Proof.Machine.execTaskReady lid s
  | .bind r => Sys2Proof.Machine.execBind r s
  | .resumeBind r => Sys2Proof.Machine.execResumeBind r s
  | .drainBind r => Sys2Proof.Machine.execDrainBind r s
  | .yieldDeadlineExpiry c => Sys2Proof.Machine.execYieldDeadlineExpiry c s
  | .switchOut c => Sys2Proof.Machine.execSwitchOut c s
  | .contextUnblock c => Sys2Proof.Machine.execContextUnblock c s
  | .resultArrival c => Sys2Proof.Machine.execResultArrival c s
  | .currentLimitFreeze core => Sys2Proof.Machine.execCurrentLimitFreeze core s
  | .packetExecute d => Sys2Proof.Machine.execPacketExecute d s
  | .barrierComplete c => Sys2Proof.Machine.execBarrierComplete c s
  | .xlateFill u x => Sys2Proof.Machine.execXlateFill u x s
  | .copyStart u e => Sys2Proof.Machine.execCopyStart u e s
  | .copyComplete u e => Sys2Proof.Machine.execCopyComplete u e s
  | .cbEngineStep u e => Sys2Proof.Machine.execCbEngineStep u e s
  | .nestBatch d n residueBad => Sys2Proof.Machine.execNestBatch d n residueBad s
  | .nestComplete d n => Sys2Proof.Machine.execNestComplete d n s
  | .nmPosition c => Sys2Proof.Machine.execNmPosition c s
  | .nmCommandComplete c => Sys2Proof.Machine.execNmCommandComplete c s
  | .refreshDue stack channel => Sys2Proof.Machine.execRefreshDue stack channel s
  | .kilnRun a => Sys2Proof.Machine.execKilnRun a s
  | .spareBind u => Sys2Proof.Machine.execSpareBind u s
  | .timer c => Sys2Proof.Machine.execTimer c s
  | .streamFreezeComplete c => Sys2Proof.Machine.execStreamFreezeComplete c s
  | .faultService c mapped pteAddr pte => Sys2Proof.Machine.execFaultService c mapped pteAddr pte s
  | .taskCommit lid wid => Sys2Proof.Machine.execTaskCommit lid wid s
  | .bankReturnFree die bank => Sys2Proof.Machine.execBankReturnFree die bank s
  | .framesReturn slot => Sys2Proof.Machine.execFramesReturn slot s
  | .hostReadError base len cpl => Sys2Proof.Machine.execHostReadError base len cpl s
  | .flitCrcRetry port => Sys2Proof.Machine.execFlitCrcRetry port s
  | .uarusLaneFail port lane => Sys2Proof.Machine.execUarusLaneFail port lane s
  | .peerRouteDown peer => Sys2Proof.Machine.execPeerRouteDown peer s
  | .clockChange cluster code => Sys2Proof.Machine.execClockChange cluster code s
  | .layerPowerState stack layer p => Sys2Proof.Machine.execLayerPowerState stack layer p s
  | .dbgStepStop c => Sys2Proof.Machine.execDbgStepStop c s
  | .dieEnWrite c v => Sys2Proof.Machine.execDieEnWrite c v s
  | .fpctlWrite c v => Sys2Proof.Machine.execFpctlWrite c v s
  | .registerWrite func off size v => Sys2Proof.Machine.execRegisterWrite func off size v s
  | .add o => Sys2Proof.Machine.execAdd o s
  | .sub o => Sys2Proof.Machine.execSub o s
  | .mul o => Sys2Proof.Machine.execMul o s
  | .mulh o => Sys2Proof.Machine.execMulh o s
  | .div o => Sys2Proof.Machine.execDiv o s
  | .rem o => Sys2Proof.Machine.execRem o s
  | .and o => Sys2Proof.Machine.execAnd o s
  | .or o => Sys2Proof.Machine.execOr o s
  | .xor o => Sys2Proof.Machine.execXor o s
  | .andn o => Sys2Proof.Machine.execAndn o s
  | .shl o => Sys2Proof.Machine.execShl o s
  | .shr o => Sys2Proof.Machine.execShr o s
  | .sar o => Sys2Proof.Machine.execSar o s
  | .ror o => Sys2Proof.Machine.execRor o s
  | .min o => Sys2Proof.Machine.execMin o s
  | .max o => Sys2Proof.Machine.execMax o s
  | .addi o => Sys2Proof.Machine.execAddi o s
  | .andi o => Sys2Proof.Machine.execAndi o s
  | .ori o => Sys2Proof.Machine.execOri o s
  | .xori o => Sys2Proof.Machine.execXori o s
  | .shli o => Sys2Proof.Machine.execShli o s
  | .shri o => Sys2Proof.Machine.execShri o s
  | .sari o => Sys2Proof.Machine.execSari o s
  | .lih o => Sys2Proof.Machine.execLih o s
  | .cmp o => Sys2Proof.Machine.execCmp o s
  | .cmpi o => Sys2Proof.Machine.execCmpi o s
  | .plog o => Sys2Proof.Machine.execPlog o s
  | .sel o => Sys2Proof.Machine.execSel o s
  | .bext o => Sys2Proof.Machine.execBext o s
  | .bins o => Sys2Proof.Machine.execBins o s
  | .bcnt o => Sys2Proof.Machine.execBcnt o s
  | .lea o => Sys2Proof.Machine.execLea o s
  | .fadd o => Sys2Proof.Machine.execFadd o s
  | .fsub o => Sys2Proof.Machine.execFsub o s
  | .fmul o => Sys2Proof.Machine.execFmul o s
  | .fma o => Sys2Proof.Machine.execFma o s
  | .fdiv o => Sys2Proof.Machine.execFdiv o s
  | .fsqrt o => Sys2Proof.Machine.execFsqrt o s
  | .fmin o => Sys2Proof.Machine.execFmin o s
  | .fmax o => Sys2Proof.Machine.execFmax o s
  | .fcmp o => Sys2Proof.Machine.execFcmp o s
  | .fclass o => Sys2Proof.Machine.execFclass o s
  | .fsgn o => Sys2Proof.Machine.execFsgn o s
  | .cvtif o => Sys2Proof.Machine.execCvtif o s
  | .cvtfi o => Sys2Proof.Machine.execCvtfi o s
  | .cvtff o => Sys2Proof.Machine.execCvtff o s
  | .ld o => Sys2Proof.Machine.execLd o s
  | .st o => Sys2Proof.Machine.execSt o s
  | .lds o => Sys2Proof.Machine.execLds o s
  | .sts o => Sys2Proof.Machine.execSts o s
  | .aadd o => Sys2Proof.Machine.execAadd o s
  | .aand o => Sys2Proof.Machine.execAand o s
  | .aor o => Sys2Proof.Machine.execAor o s
  | .axor o => Sys2Proof.Machine.execAxor o s
  | .amin o => Sys2Proof.Machine.execAmin o s
  | .amax o => Sys2Proof.Machine.execAmax o s
  | .axch o => Sys2Proof.Machine.execAxch o s
  | .acas o => Sys2Proof.Machine.execAcas o s
  | .afadd o => Sys2Proof.Machine.execAfadd o s
  | .afmax o => Sys2Proof.Machine.execAfmax o s
  | .fenceSc sc => Sys2Proof.Machine.execFenceSc sc s
  | .release sc => Sys2Proof.Machine.execRelease sc s
  | .acquire sc => Sys2Proof.Machine.execAcquire sc s
  | .fset o => Sys2Proof.Machine.execFset o s
  | .ftest o => Sys2Proof.Machine.execFtest o s
  | .fwait o => Sys2Proof.Machine.execFwait o s
  | .finc o => Sys2Proof.Machine.execFinc o s
  | .csrr d n => Sys2Proof.Machine.execCsrr d n s
  | .csrw n a => Sys2Proof.Machine.execCsrw n a s
  | .csrs n a => Sys2Proof.Machine.execCsrs n a s
  | .csrc n a => Sys2Proof.Machine.execCsrc n a s
  | .dstchk d a b => Sys2Proof.Machine.execDstchk d a b s
  | .drdchk chk d a => Sys2Proof.Machine.execDrdchk chk d a s
  | .cmpt big a b => Sys2Proof.Machine.execCmpt big a b s
  | .br q n an off => Sys2Proof.Machine.execBr q n an off s
  | .jmp off => Sys2Proof.Machine.execJmp off s
  | .jmpl off => Sys2Proof.Machine.execJmpl off s
  | .jr a => Sys2Proof.Machine.execJr a s
  | .jrl d nw a => Sys2Proof.Machine.execJrl d nw a s
  | .jt len a b => Sys2Proof.Machine.execJt len a b s
  | .callf sig a => Sys2Proof.Machine.execCallf sig a s
  | .ret a => Sys2Proof.Machine.execRet a s
  | .loop lc len st a => Sys2Proof.Machine.execLoop lc len st a s
  | .loopi lc len st cnt => Sys2Proof.Machine.execLoopi lc len st cnt s
  | .lexit lc => Sys2Proof.Machine.execLexit lc s
  | .rep a => Sys2Proof.Machine.execRep a s
  | .repi cnt => Sys2Proof.Machine.execRepi cnt s
  | .trap code => Sys2Proof.Machine.execTrap code s
  | .launch d nw a => Sys2Proof.Machine.execLaunch d nw a s
  | .bkpt code => Sys2Proof.Machine.execBkpt code s
  | .vadd o => Sys2Proof.Machine.execVadd o s
  | .vsub o => Sys2Proof.Machine.execVsub o s
  | .vmul o => Sys2Proof.Machine.execVmul o s
  | .vmulh o => Sys2Proof.Machine.execVmulh o s
  | .vfma o => Sys2Proof.Machine.execVfma o s
  | .vdiv o => Sys2Proof.Machine.execVdiv o s
  | .vmin o => Sys2Proof.Machine.execVmin o s
  | .vmax o => Sys2Proof.Machine.execVmax o s
  | .vand o => Sys2Proof.Machine.execVand o s
  | .vor o => Sys2Proof.Machine.execVor o s
  | .vxor o => Sys2Proof.Machine.execVxor o s
  | .vshl o => Sys2Proof.Machine.execVshl o s
  | .vshr o => Sys2Proof.Machine.execVshr o s
  | .vsar o => Sys2Proof.Machine.execVsar o s
  | .vuna o => Sys2Proof.Machine.execVuna o s
  | .vqadd o => Sys2Proof.Machine.execVqadd o s
  | .vadds o => Sys2Proof.Machine.execVadds o s
  | .vsubs o => Sys2Proof.Machine.execVsubs o s
  | .vmuls o => Sys2Proof.Machine.execVmuls o s
  | .vfmas o => Sys2Proof.Machine.execVfmas o s
  | .vmins o => Sys2Proof.Machine.execVmins o s
  | .vmaxs o => Sys2Proof.Machine.execVmaxs o s
  | .vshls o => Sys2Proof.Machine.execVshls o s
  | .vbcast o => Sys2Proof.Machine.execVbcast o s
  | .vcmp o => Sys2Proof.Machine.execVcmp o s
  | .vcmps o => Sys2Proof.Machine.execVcmps o s
  | .vsel o => Sys2Proof.Machine.execVsel o s
  | .vmlog o => Sys2Proof.Machine.execVmlog o s
  | .vcvt o => Sys2Proof.Machine.execVcvt o s
  | .vspec o => Sys2Proof.Machine.execVspec o s
  | .vred o => Sys2Proof.Machine.execVred o s
  | .vkset o => Sys2Proof.Machine.execVkset o s
  | .vld o => Sys2Proof.Machine.execVld o s
  | .vst o => Sys2Proof.Machine.execVst o s
  | .vldl o => Sys2Proof.Machine.execVldl o s
  | .vstl o => Sys2Proof.Machine.execVstl o s
  | .vgath o => Sys2Proof.Machine.execVgath o s
  | .vscat o => Sys2Proof.Machine.execVscat o s
  | .vldc o => Sys2Proof.Machine.execVldc o s
  | .vstc o => Sys2Proof.Machine.execVstc o s
  | .vard o => Sys2Proof.Machine.execVard o s
  | .vawr o => Sys2Proof.Machine.execVawr o s
  | .vqnt o => Sys2Proof.Machine.execVqnt o s
  | .vdqnt o => Sys2Proof.Machine.execVdqnt o s
  | .vbscl o => Sys2Proof.Machine.execVbscl o s
  | .vflg o => Sys2Proof.Machine.execVflg o s
  | .vsig o => Sys2Proof.Machine.execVsig o s
  | .vlane o => Sys2Proof.Machine.execVlane o s
  | .vldf o => Sys2Proof.Machine.execVldf o s
  | .vstf o => Sys2Proof.Machine.execVstf o s
  | .vamo o => Sys2Proof.Machine.execVamo o s
  | .ntw o => Sys2Proof.Machine.execNtw o s
  | .ntrd o => Sys2Proof.Machine.execNtrd o s
  | .mgo n => Sys2Proof.Machine.execMgo n s
  | .mwait n => Sys2Proof.Machine.execMwait n s
  | .mprec o => Sys2Proof.Machine.execMprec o s
  | .azero tile => Sys2Proof.Machine.execAzero tile s
  | .aload o => Sys2Proof.Machine.execAload o s
  | .astore o => Sys2Proof.Machine.execAstore o s
  | .aexp o => Sys2Proof.Machine.execAexp o s
  | .arenorm o => Sys2Proof.Machine.execArenorm o s
  | .ahead o => Sys2Proof.Machine.execAhead o s
  | .aevt o => Sys2Proof.Machine.execAevt o s
  | .ares o => Sys2Proof.Machine.execAres o s
  | .ptld pt a => Sys2Proof.Machine.execPtld pt a s
  | .perm pt sz a => Sys2Proof.Machine.execPerm pt sz a s
  | .pshr o => Sys2Proof.Machine.execPshr o s
  | .pxch o => Sys2Proof.Machine.execPxch o s
  | .pbcd o => Sys2Proof.Machine.execPbcd o s
  | .rred o => Sys2Proof.Machine.execRred o s
  | .rsync rt => Sys2Proof.Machine.execRsync rt s
  | .sigchk o => Sys2Proof.Machine.execSigchk o s
  | .xlate o => Sys2Proof.Machine.execXlate o s
  | .tcin planes o => Sys2Proof.Machine.execTcin planes o s
  | .tcout o => Sys2Proof.Machine.execTcout o s
  | .hcopy o => Sys2Proof.Machine.execHcopy o s
  | .lcopy o => Sys2Proof.Machine.execLcopy o s
  | .cwait o => Sys2Proof.Machine.execCwait o s
  | .townP a => Sys2Proof.Machine.execTownP a s
  | .townE a => Sys2Proof.Machine.execTownE a s
  | .cbinit o => Sys2Proof.Machine.execCbinit o s
  | .cbwr planes o => Sys2Proof.Machine.execCbwr planes o s
  | .cbrd o => Sys2Proof.Machine.execCbrd o s
  | .cbtake o => Sys2Proof.Machine.execCbtake o s
  | .cbgive o => Sys2Proof.Machine.execCbgive o s
  | .bankacq o => Sys2Proof.Machine.execBankacq o s
  | .bankrel o => Sys2Proof.Machine.execBankrel o s
  | .wadd o => Sys2Proof.Machine.execWadd o s
  | .wsub o => Sys2Proof.Machine.execWsub o s
  | .wmul o => Sys2Proof.Machine.execWmul o s
  | .wfma o => Sys2Proof.Machine.execWfma o s
  | .wmin o => Sys2Proof.Machine.execWmin o s
  | .wmax o => Sys2Proof.Machine.execWmax o s
  | .wand o => Sys2Proof.Machine.execWand o s
  | .wor o => Sys2Proof.Machine.execWor o s
  | .wxor o => Sys2Proof.Machine.execWxor o s
  | .wcmp o => Sys2Proof.Machine.execWcmp o s
  | .wsel o => Sys2Proof.Machine.execWsel o s
  | .wcvt o => Sys2Proof.Machine.execWcvt o s
  | .wld o => Sys2Proof.Machine.execWld o s
  | .wst o => Sys2Proof.Machine.execWst o s
  | .wred o => Sys2Proof.Machine.execWred o s
  | .wbcast o => Sys2Proof.Machine.execWbcast o s
  | .nired o => Sys2Proof.Machine.execNired o s
  | .ngath o => Sys2Proof.Machine.execNgath o s
  | .nscat o => Sys2Proof.Machine.execNscat o s
  | .nmrow o => Sys2Proof.Machine.execNmrow o s
  | .nstrm o => Sys2Proof.Machine.execNstrm o s
  | .nqst o => Sys2Proof.Machine.execNqst o s
  | .nwait o => Sys2Proof.Machine.execNwait o s
  | .bundleIssue c => Sys2Proof.Machine.execBundleIssue c s
  | .translationInvalidation func => Sys2Proof.Machine.execTranslationInvalidation func s
  | .curLimChange core lim => Sys2Proof.Machine.execCurLimChange core lim s
  | .drain => Sys2Proof.Machine.execDrain s
  | .eret => Sys2Proof.Machine.execEret s
  | .yieldCore => Sys2Proof.Machine.execYieldCore s
  | .yieldSched => Sys2Proof.Machine.execYieldSched s
  | .halt => Sys2Proof.Machine.execHalt s
  | .packageReset => Sys2Proof.Machine.execPackageReset s
  | .timeSyncLost => Sys2Proof.Machine.execTimeSyncLost s
  | .timeSyncRecover => Sys2Proof.Machine.execTimeSyncRecover s
  | .podValidSet => Sys2Proof.Machine.execPodValidSet s
  | .launchRecord => Sys2Proof.Machine.execLaunchRecord s
  | .patch => Sys2Proof.Machine.execPatch s
  | .resetRecord => Sys2Proof.Machine.execResetRecord s
  | .tnew => Sys2Proof.Machine.execTnew s
  | .tfree => Sys2Proof.Machine.execTfree s
  | .scrub => Sys2Proof.Machine.execScrub s
  | .eccRewrite => Sys2Proof.Machine.execEccRewrite s
  | .codeVersionFree => Sys2Proof.Machine.execCodeVersionFree s
  | .loadRequest => Sys2Proof.Machine.execLoadRequest s
  | .attestRequest => Sys2Proof.Machine.execAttestRequest s
  | .dbgStop => Sys2Proof.Machine.execDbgStop s
  | .dbgResume => Sys2Proof.Machine.execDbgResume s
  | .dbgReadReg => Sys2Proof.Machine.execDbgReadReg s
  | .dbgWriteReg => Sys2Proof.Machine.execDbgWriteReg s
  | .dbgReadMem => Sys2Proof.Machine.execDbgReadMem s
  | .dbgSetDbg => Sys2Proof.Machine.execDbgSetDbg s

end Sys2Proof.Machine
end

