-- ==== Sys2Proof/Machine/Step.lean ====
section
/-! DEFINITION. One step: the next row of the agenda, or the arbiter's choice, with the slot operations that a bundle
or packet leaves run in two passes, all checks before any effect (R154, R184, R454). -/

namespace Sys2Proof.Machine

/-- The slot operations of a bundle or packet, one after another in the slot each stands in. -/
def runSlots (l : List (Slot × Instr)) (s : State) : Host.Outcome State Fault Refusal :=
  match l with
  | [] => .next s
  | (sl, i) :: rest =>
    if s.heldBack sl i then .next s.holdBack
    else match exec i { s with slot := sl } with
      | .next s' => runSlots rest s'
      | .fault r => .fault r
      | .refused r => .refused r

/-- The slot operations in `work`: a pass of checks, then the effects; `s` is the state before the bundle or packet. -/
def runWork (s : State) (w : State) : Host.Outcome State Fault Refusal :=
  let l := workOrder w.work
  let b := { w with work := [] }
  if w.actOnly then
    match runSlots l { b with phase := .commit } with
    | .fault r => .fault r
    | .refused r => .refused r
    | .next q => .next (State.finishWork { q with phase := .whole, work := [] })
  else
  match runSlots l { b with phase := .probe, verdict := .ok, emptied := none } with
  | .fault r => .fault r
  | .refused r => .refused r
  | .next p =>
    match p.verdict with
    | .stop f => .fault f
    | .ok =>
      if w.noticeFirst then .next (s.beforeBundle w.core) else
      match runSlots l { b with phase := .commit } with
      | .fault r => .fault r
      | .refused r => .refused r
      | .next q => .next (State.finishWork { q with phase := .whole, work := [] })
    | _ => .next (s.failWork p)

/-- An instruction or event run as one step. -/
def runRow (i : Instr) (s : State) : Host.Outcome State Fault Refusal :=
  match exec i { s with phase := .whole, verdict := .ok, work := [] } with
  | .next s' => if s'.work.isEmpty then .next s' else runWork s s'
  | .fault r => .fault r
  | .refused r => .refused r

/-- One step of the part. -/
def step (s : State) : Host.Outcome State Fault Refusal :=
  match s.agenda with
  | i :: rest => runRow i (State.tick { s with agenda := rest })
  | [] => runRow s.nextActivity s.tick

/-- The state in which the next step runs a table word (log 19). -/
def State.withFetchWord (s : State) (_nbits w : Nat) : State := s.placeWord (BitVec.ofNat 32 w)

end Sys2Proof.Machine
end

