-- ==== Sys2Proof/Safety.lean ====
section
/-! DEFINITION. The terms in which claims about the machine are stated: when a slot instruction acts, what it may leave
changed, and what a run of the part always keeps. -/

namespace Sys2Proof.Machine

/-! ### Outcomes -/

/-- A step that goes on to a state. -/
def goesTo (o : Host.Outcome State Fault Refusal) (t : State) : Prop := o = .next t

/-- A slot instruction acts: in the effect pass of a bundle or packet whose checks have passed, or run alone with its
own check passed. -/
def State.acts (s : State) (v : Verdict) : Prop := s.phase = .commit ∨ (s.phase = .whole ∧ v = .ok)

/-- A slot instruction without a check of its own acts outside the pass of checks. -/
def State.effective (s : State) : Prop := s.phase ≠ .probe

/-- A precise trap of an instruction of a core: run alone, at its slot. -/
def State.trapsWith (i : Instr) (s : State) (c : Cause) (tval tdata : Word) : Prop :=
  exec i s = .next (s.slotTrap c tval tdata)

/-! ### What a step leaves as it was -/

/-- Every byte of every memory reads as before. -/
def SameMemory (s t : State) : Prop := ∀ k, Memory.readByte t.mem k = Memory.readByte s.mem k

/-- Every byte of memory outside `n` bytes at a key reads as before. -/
def SameMemoryBut (s t : State) (key n : Nat) : Prop :=
  ∀ k, (k < key ∨ key + n ≤ k) → Memory.readByte t.mem k = Memory.readByte s.mem k

/-- Nothing but the record of one core context has changed. -/
def OnlyCtx (c : CoreId) (s t : State) : Prop :=
  { t with seq := s.seq, cel := s.cel } = s ∧ ∀ d, d ≠ c → t.ctx d = s.ctx d

/-- Nothing but the record of one die context has changed. -/
def OnlyDie (d : DieId) (s t : State) : Prop :=
  { t with dieCtx := s.dieCtx } = s ∧ ∀ e : DieId, e.key ≠ d.key → t.dctx e = s.dctx e

/-- A core context has nothing but one more result on its way. -/
def MoreInFlight (x y : Ctx) : Prop :=
  ∃ f : Flight, f.issued = x.stepNo ∧ y = { x with inflight := x.inflight ++ [f] }

/-! ### What every step keeps -/

/-- Memory stands in its one canonical form. -/
def State.memCanonical (s : State) : Prop := Memory.wf s.mem = true

/-- Every cache names its bytes in rising order, each once. -/
def State.cachesCanonical (s : State) : Prop :=
  Table.risingFrom 0 s.l2 = true ∧ (∀ e ∈ s.l1Seq, Table.risingFrom 0 e.2 = true)
    ∧ (∀ e ∈ s.l1Cel, Table.risingFrom 0 e.2 = true)

/-- What every step keeps of the forms in which memory and caches are held. -/
def State.Inv (s : State) : Prop := s.memCanonical ∧ s.cachesCanonical

/-! ### Runs -/

/-- A run of `n` steps from a state to a state, none of which stops. -/
def runs : Nat → State → State → Prop
  | 0, s, t => t = s
  | n + 1, s, t => ∃ u, step s = .next u ∧ runs n u t

/-- A safe state: no run from it stops in a fault or a refusal. -/
def State.safe (s : State) : Prop := ∀ n t, runs n s t → ∃ u, step t = .next u

end Sys2Proof.Machine
end

