-- ==== Sys2Proof/Certificates/Slice0/Obligations.lean ====
section
/-! DEFINITION. What the provers are asked to prove of the model, in the terms of the manual's rules. The readings of the
manual that the statements are written in stand first, in namespace `Sys2Proof.Claims`; they share nothing with the
model's own arithmetic. -/

namespace Sys2Proof.Claims

open Sys2Proof Sys2Proof.Machine

/-! ### Scalar results -/

/-- The instruction answers a next state that differs from `s` in one thing: the executing slot has one more result on
its way, with its register write, its latch value, its latency and its flags (R167, R169, R186). -/
def Gives (i : Instr) (s : State) (out : Deliver) (lv : Word) (lat : Nat) (fl : BitVec 5) : Prop :=
  let x := s.ctx s.core
  let f : Flight :=
    { slot := s.slot, out := out, lv := lv, due := x.stepNo + lat - 1, issued := x.stepNo, flags := fl, vflags := 0,
      arrived := true }
  exec i s = .next (s.setCtx s.core { x with inflight := x.inflight ++ [f] })

/-- A result for s register `d`: nw suppresses the register write, and the latch has the value all the same (R169). -/
def GivesS (i : Instr) (s : State) (nw : Bool) (d : BitVec 6) (v : Word) (lat : Nat) (fl : BitVec 5) : Prop :=
  Gives i s (if nw then .none else .s d v) v lat fl

/-- A result for predicate `q`; the latch has 0 or 1 (R201). -/
def GivesQ (i : Instr) (s : State) (nw : Bool) (q : BitVec 4) (v : Bool) (lat : Nat) (fl : BitVec 5) : Prop :=
  Gives i s (if nw then .none else .q q v) (if v then 1 else 0) lat fl

/-- The width of R196. -/
def width (w : BitVec 2) : Nat := match w with
  | 0 => 64
  | 1 => 32
  | 2 => 16
  | _ => 8

/-- `Opnd(v)` of R197. -/
def operand (sgn : Bool) (w : BitVec 2) (v : Word) : Int :=
  if sgn then (v.setWidth (width w)).toInt else (v.setWidth (width w)).toNat

/-- `v` is `Res(x)` of R197 modulo 2^64. -/
def IsRes (sgn : Bool) (w : BitVec 2) (x : Int) (v : Word) : Prop :=
  if sgn then v.toInt = x.bmod (2 ^ width w) else (v.toNat : Int) = x.emod (2 ^ width w)

/-- An integer operation gives `Res(x)` after `lat` steps, and no flag. -/
def GivesRes (i : Instr) (s : State) (o : IntRR) (lat : Nat) (x : Int) : Prop :=
  ∃ v, GivesS i s o.nw o.d v lat 0 ∧ IsRes o.sgn o.w x v

/-- A condition of R201 on two fields of one width. -/
def condHolds {n : Nat} (c : BitVec 3) (a b : BitVec n) : Bool := match c with
  | 0 => a == b
  | 1 => a != b
  | 2 => a.slt b
  | 3 => b.sle a
  | 4 => a.ult b
  | 5 => b.ule a
  | 6 => a.sle b
  | _ => b.slt a

/-- Ones of a field. -/
def ones {n : Nat} (v : BitVec n) : Nat := ((List.range n).filter (fun i => v.getLsbD i)).length

/-- `k` zeros stand above the highest one of a field; a zero field has its width. -/
def Leading {n : Nat} (v : BitVec n) (k : Nat) : Prop :=
  (v = 0 ∧ k = n) ∨ (k < n ∧ v.getLsbD (n - 1 - k) = true ∧ ∀ i, n - 1 - k < i → v.getLsbD i = false)

/-- `k` zeros stand below the lowest one of a field; a zero field has its width. -/
def Trailing {n : Nat} (v : BitVec n) (k : Nat) : Prop :=
  (v = 0 ∧ k = n) ∨ (v.getLsbD k = true ∧ ∀ i, i < k → v.getLsbD i = false)

/-! ### Floating point, read on the bits and on rational numbers (R71, R74) -/

/-- The widths of the two scalar precisions: 8 exponent and 23 fraction bits, or 11 and 52. -/
def form (dbl : Bool) : Fmt := if dbl then { eb := 11, mb := 52 } else { eb := 8, mb := 23 }

/-- Exponent bias of a format; fraction and exponent of a pattern; its sign and its kind. -/
def biasOf (f : Fmt) : Int := 2 ^ (f.eb - 1) - 1
def fracOf (f : Fmt) (v : Nat) : Nat := v % 2 ^ f.mb
def expOf (f : Fmt) (v : Nat) : Nat := v / 2 ^ f.mb % 2 ^ f.eb
def negOf (f : Fmt) (v : Nat) : Bool := v / 2 ^ (f.mb + f.eb) % 2 == 1
def finiteOf (f : Fmt) (v : Nat) : Bool := expOf f v != 2 ^ f.eb - 1
def infOf (f : Fmt) (v : Nat) : Bool := !finiteOf f v && fracOf f v == 0
def nanOf (f : Fmt) (v : Nat) : Bool := !finiteOf f v && fracOf f v != 0
/-- A signalling NaN: the top fraction bit is 0. -/
def sigOf (f : Fmt) (v : Nat) : Bool := nanOf f v && fracOf f v < 2 ^ (f.mb - 1)

/-- The value of a finite pattern. -/
def valOf (f : Fmt) (v : Nat) : Rat :=
  let sg : Rat := if negOf f v then -1 else 1
  if expOf f v = 0 then sg * (fracOf f v : Nat) * (2 : Rat) ^ (1 - biasOf f - (f.mb : Int))
  else sg * ((2 ^ f.mb + fracOf f v : Nat) : Rat) * (2 : Rat) ^ ((expOf f v : Int) - biasOf f - (f.mb : Int))

/-- A pattern of the format, finite. -/
def FinitePattern (f : Fmt) (y : Nat) : Prop := y < 2 ^ (1 + f.eb + f.mb) ∧ finiteOf f y = true

/-- The finite pattern `r` is `x` rounded by mode `rm` (R74): nearest with ties to even, toward zero, down, up. -/
def RoundsIn (f : Fmt) (rm : Nat) (x : Rat) (r : Nat) : Prop :=
  FinitePattern f r ∧
  ∀ y, FinitePattern f y →
    match rm with
    | 0 => |valOf f r - x| ≤ |valOf f y - x| ∧
        (|valOf f r - x| = |valOf f y - x| → valOf f y ≠ valOf f r → r % 2 = 0)
    | 1 => 0 ≤ valOf f r * x ∧ |valOf f r| ≤ |x| ∧
        (0 ≤ valOf f y * x → |valOf f y| ≤ |x| → |valOf f y| ≤ |valOf f r|)
    | 2 => valOf f r ≤ x ∧ (valOf f y ≤ x → valOf f y ≤ valOf f r)
    | _ => x ≤ valOf f r ∧ (x ≤ valOf f y → valOf f r ≤ valOf f y)

/-- The largest finite magnitude of a format, and the magnitude that the first exponent above its range begins with. -/
def maxOf (f : Fmt) : Rat := (2 - (2 : Rat) ^ (-(f.mb : Int))) * (2 : Rat) ^ biasOf f
def topOf (f : Fmt) : Rat := (2 : Rat) ^ (biasOf f + 1)

/-- Rounded with an exponent without bound, `x` lies beyond the largest finite magnitude (R71, R74): OF. -/
def Overflows (f : Fmt) (rm : Nat) (x : Rat) : Prop :=
  match rm with
  | 0 => (maxOf f + topOf f) / 2 ≤ |x|
  | 1 => topOf f ≤ |x|
  | 2 => topOf f ≤ x ∨ x < -maxOf f
  | _ => maxOf f < x ∨ x ≤ -topOf f

/-- The smallest normal magnitude of a format, and the one below it of a format whose exponent had no bound. -/
def minNormal (f : Fmt) : Rat := (2 : Rat) ^ (1 - biasOf f)
def belowMin (f : Fmt) : Rat := minNormal f * (1 - (2 : Rat) ^ (-(f.mb : Int) - 1))

/-- Rounded with an exponent without bound, `x` lies below the smallest normal magnitude: UF, where it is inexact (R71). -/
def Underflows (f : Fmt) (rm : Nat) (x : Rat) : Prop :=
  match rm with
  | 0 => |x| < (minNormal f + belowMin f) / 2
  | 1 => |x| < minNormal f
  | 2 => -belowMin f ≤ x ∧ x < minNormal f
  | _ => -minNormal f < x ∧ x ≤ belowMin f

/-- An overflow gives an infinity, or the largest finite number, by the mode and the sign (R74). -/
def overflowsToInf (rm : Nat) (neg : Bool) : Bool := rm == 0 || (rm == 2 && neg) || (rm == 3 && !neg)

/-- What a pattern and its flags are of `x` rounded once (R71, R74): the number and its sign, an exact zero having the sign
`zneg`; an infinity exactly where the mode makes one of an overflow; OF and UF by what the rounding would be without a bound
on the exponent; NX exactly where the result differs from `x`; no NV or DZ. -/
def RoundedOnce (f : Fmt) (rm : Nat) (x : Rat) (zneg : Bool) (v : Nat) (fl : BitVec 5) : Prop :=
  v < 2 ^ (1 + f.eb + f.mb) ∧ negOf f v = (if x = 0 then zneg else decide (x < 0)) ∧
    (finiteOf f v = true → RoundsIn f rm x v ∧ (fl.getLsbD 0 = true ↔ valOf f v ≠ x)) ∧
    (finiteOf f v = false → infOf f v = true ∧ fl.getLsbD 0 = true) ∧
    (finiteOf f v = false ↔ Overflows f rm x ∧ overflowsToInf rm (decide (x < 0)) = true) ∧
    (fl.getLsbD 2 = true ↔ Overflows f rm x) ∧
    (fl.getLsbD 1 = true ↔ fl.getLsbD 0 = true ∧ Underflows f rm x) ∧
    fl.getLsbD 4 = false ∧ fl.getLsbD 3 = false

/-- A pattern and its flags are of the real number `x` rounded once: of `x` itself where it is rational, else of every rational
number close enough to it. -/
def RoundedReal (f : Fmt) (rm : Nat) (x : ℝ) (v : Nat) (fl : BitVec 5) : Prop :=
  (∀ q : Rat, (q : ℝ) = x → RoundedOnce f rm q false v fl)
  ∧ ((∀ q : Rat, (q : ℝ) ≠ x) → ∃ ε : ℝ, 0 < ε ∧ ∀ q : Rat, |(q : ℝ) - x| < ε → RoundedOnce f rm q false v fl)

/-- The same of the scalar precisions. -/
def fracBits (dbl : Bool) : Nat := (form dbl).mb
def expBits (dbl : Bool) : Nat := (form dbl).eb
def fpExp (dbl : Bool) (v : Nat) : Nat := expOf (form dbl) v
def fpNeg (dbl : Bool) (v : Nat) : Bool := negOf (form dbl) v
def fpFinite (dbl : Bool) (v : Nat) : Bool := finiteOf (form dbl) v
def fpInf (dbl : Bool) (v : Nat) : Bool := infOf (form dbl) v
def fpNan (dbl : Bool) (v : Nat) : Bool := nanOf (form dbl) v
def fpSig (dbl : Bool) (v : Nat) : Bool := sigOf (form dbl) v
def fpZero (dbl : Bool) (v : Nat) : Bool := expOf (form dbl) v == 0 && fracOf (form dbl) v == 0
def fpVal (dbl : Bool) (v : Nat) : Rat := valOf (form dbl) v
def FpPattern (dbl : Bool) (y : Nat) : Prop := FinitePattern (form dbl) y
def Rounds (dbl : Bool) (rm : Nat) (x : Rat) (r : Nat) : Prop := RoundsIn (form dbl) rm x r

/-- The bits of an operand: an f32 operand is bits 31:0 of its register (R71). -/
def fpBits (dbl : Bool) (v : Word) : Nat := if dbl then v.toNat else v.toNat % 2 ^ 32

/-- The canonical quiet NaN (R72), an infinity and a zero of a sign. -/
def canonNan (dbl : Bool) : Nat := if dbl then 0x7FF8000000000000 else 0x7FC00000
def fpInfinity (dbl neg : Bool) : Word :=
  BitVec.ofNat 64 ((if neg then 2 ^ (fracBits dbl + expBits dbl) else 0) + (2 ^ expBits dbl - 1) * 2 ^ fracBits dbl)
def fpZeroOf (dbl neg : Bool) : Word := BitVec.ofNat 64 (if neg then 2 ^ (fracBits dbl + expBits dbl) else 0)

/-- The rounding mode in force for scalar operations: FPCTL.RM (R73). -/
def scalarRm (s : State) : Nat := (s.ctx s.core).fpctl.toNat % 4

/-- The instruction gives a floating-point pattern that is `x` rounded once by FPCTL.RM. -/
def GivesRounded (i : Instr) (s : State) (dbl nw : Bool) (d : BitVec 6) (lat : Nat) (x : Rat) (zneg : Bool) : Prop :=
  ∃ v : Word, ∃ fl : BitVec 5, GivesS i s nw d v lat fl ∧ RoundedOnce (form dbl) (scalarRm s) x zneg v.toNat fl

/-- The sign of an exact zero sum of two operands (R74): their own where they agree, else negative by RDN alone. -/
def zeroSumNeg (s : State) (a b : Bool) : Bool := if a = b then a else scalarRm s == 2

/-- `a` is below `b`: neither is NaN, and infinities lie outside every number (R210). -/
def fpLess (dbl : Bool) (a b : Nat) : Prop :=
  fpNan dbl a = false ∧ fpNan dbl b = false ∧
  ((fpInf dbl a = true ∧ fpNeg dbl a = true ∧ ¬(fpInf dbl b = true ∧ fpNeg dbl b = true)) ∨
   (fpInf dbl b = true ∧ fpNeg dbl b = false ∧ ¬(fpInf dbl a = true ∧ fpNeg dbl a = false)) ∨
   (fpFinite dbl a = true ∧ fpFinite dbl b = true ∧ fpVal dbl a < fpVal dbl b))

/-- Neither is NaN and they compare equal. -/
def fpSame (dbl : Bool) (a b : Nat) : Prop :=
  fpNan dbl a = false ∧ fpNan dbl b = false ∧ ¬fpLess dbl a b ∧ ¬fpLess dbl b a

/-- `n` is `x` rounded to an integer by a mode (R74). -/
def RoundsInt (rm : Nat) (x : Rat) (n : Int) : Prop :=
  match rm with
  | 0 => |(n : Rat) - x| ≤ 1 / 2 ∧ (|(n : Rat) - x| = 1 / 2 → n % 2 = 0)
  | 1 => if 0 ≤ x then n = x.floor else n = x.ceil
  | 2 => n = x.floor
  | _ => n = x.ceil

/-- The range of an integer type. -/
def rangeLo (sgn : Bool) (w : BitVec 2) : Int := if sgn then -(2 ^ (width w - 1)) else 0
def rangeHi (sgn : Bool) (w : BitVec 2) : Int := if sgn then 2 ^ (width w - 1) - 1 else 2 ^ width w - 1

/-! ### Memory accesses of a core -/

/-- Byte `i` of a 64-bit value. -/
def byteOf (v : Word) (i : Nat) : Byte := v.extractLsb' (8 * i) 8

/-- `EA := (a + SignExt(imm9, 9) * z) mod 2^64` (R214). -/
def effective (a : Word) (imm : BitVec 9) (z : Nat) : Word := a + imm.signExtend 64 * BitVec.ofNat 64 z

/-- Bytes of a load type and whether it extends the sign (R171, R214). -/
def loadBytes (t : LdType) : Nat := match t with
  | .z8 | .s8 => 1
  | .z16 | .s16 => 2
  | .z32 | .s32 => 4
  | .z64 => 8
def loadSigned (t : LdType) : Bool := match t with
  | .s8 | .s16 | .s32 => true
  | _ => false

/-- A loaded value: its low bytes are the given ones, and its high bits extend them. -/
def Extends (t : LdType) (b : Nat → Byte) (v : Word) : Prop :=
  (∀ i, i < loadBytes t → byteOf v i = b i)
  ∧ if loadSigned t then v.toInt = (v.setWidth (8 * loadBytes t)).toInt else v.toNat < 2 ^ (8 * loadBytes t)

/-- Byte `i` from a place on, as a context's load finds it: staged bytes and caches first (R104, R126). -/
def placeByte (s : State) (pl : Place) (i : Nat) : Byte := match pl with
  | .hbm p => s.coreHbmByte s.core (p + i)
  | .host a => s.memByte (hostKey a + i)
  | pl => s.homeByte (s.taskId s.core) (pl.key + i)

/-- Steps of a load from a place: its own scratchpad answers after 4 (R185, R215). -/
def loadSteps (s : State) : Place → Nat
  | .pad i _ => if i = s.core.padIdx then 4 else 6
  | _ => 6

/-- A place whose bytes stand in storage that the program's context reaches without a cache. -/
def storagePlace : Place → Bool
  | .pad _ _ | .bank _ _ | .window _ | .host _ => true
  | _ => false

/-- The executing context's task is non-idempotent: nothing is staged for it any more (R127). -/
def taskNonidem (s : State) : Bool := s.nonidem (s.taskId s.core)

/-- The executing context has one more result on its way, of latency `lat`, and is else as it was. -/
def FlightTo (s t : State) (d : BitVec 6) (v : Word) (lat : Nat) : Prop :=
  ∃ f : Flight, f.slot = s.slot ∧ f.out = .s d v ∧ f.lv = v ∧ f.due = (s.ctx s.core).stepNo + lat - 1
    ∧ f.issued = (s.ctx s.core).stepNo ∧ f.flags = 0 ∧ f.vflags = 0
    ∧ t.ctx s.core = { s.ctx s.core with inflight := (s.ctx s.core).inflight ++ [f] }

/-- Contexts other than the executing one are as they were. -/
def OtherContexts (s t : State) : Prop := ∀ c, c ≠ s.core → t.ctx c = s.ctx c

/-- Everything but contexts, caches, translations, stored bytes, codes and parity, and what reads of storage log, is as it
was. -/
def OnlyAccess (s t : State) : Prop :=
  ({ t with seq := s.seq, cel := s.cel, l1Seq := s.l1Seq, l1Cel := s.l1Cel, tlb := s.tlb, l2 := s.l2, mem := s.mem, ecc := s.ecc,
            rewrites := s.rewrites, errLog := s.errLog, errCount := s.errCount, health := s.health, layers := s.layers,
            flaws := s.flaws, hostErr := s.hostErr, hostErrA := s.hostErrA } : State) = s

/-- Every byte of storage outside `n` bytes at a key reads as before, as a read delivers it (R401). -/
def ReadsSameBut (s t : State) (key n : Nat) : Prop := ∀ k, (k < key ∨ key + n ≤ k) → t.memByte k = s.memByte k

/-- The new value of an integer atomic (R314), and whether it writes. -/
inductive AtomKind where
  | add | and | or | xor | min | max | xch | cas
  deriving DecidableEq, Repr

def AtomKind.instr (k : AtomKind) (o : AtomOp) : Instr := match k with
  | .add => .aadd o
  | .and => .aand o
  | .or => .aor o
  | .xor => .axor o
  | .min => .amin o
  | .max => .amax o
  | .xch => .axch o
  | .cas => .acas o

/-- `f(old, B)` of R314 on fields of `n` bits; `d` is the comparand of ACAS; none where nothing is written. -/
def AtomKind.new {n : Nat} (k : AtomKind) (sgn : Bool) (old b d : BitVec n) : Option (BitVec n) := match k with
  | .add => some (old + b)
  | .and => some (old &&& b)
  | .or => some (old ||| b)
  | .xor => some (old ^^^ b)
  | .min => some (if (if sgn then old.slt b else old.ult b) then old else b)
  | .max => some (if (if sgn then old.slt b else old.ult b) then b else old)
  | .xch => some b
  | .cas => if old = d then some b else none

/-- Bytes of an atomic. -/
def atomBytes (big : Bool) : Nat := if big then 8 else 4

/-- `n` bytes as the number they hold, little-endian. -/
def fromBytes (b : Nat → Byte) : Nat → Nat
  | 0 => 0
  | n + 1 => fromBytes b n + (b n).toNat * 256 ^ n

/-- The executing context is sequencer context `c`. -/
def onSeq (s : State) (c : Nat) : Prop := s.core = .seq c ∧ c < 32

/-- The check bits of a stored word, which are those of its data where none stand beside it (R399). -/
def StoredCheck (s : State) (key data : Nat) : Nat := match Table.find? s.ecc (key / 8) with
  | some c => c.toNat
  | none => eccByte data

/-- The flag that a flag instruction of the executing context names (R320). -/
def FlagNamed (s : State) (remote : Bool) (a : Word) (off : BitVec 5) (k : Nat) : Prop :=
  s.flagPlace remote a off = .ok k

/-! ### Sequencing -/

/-- A context with the given chain, marks and delay bundles to come, no transfer pending. -/
def chained (x : Ctx) (n0 n1 n2 : Word) (mark0 mark1 : Bool) (delay : Nat) : Ctx :=
  { x with n0 := n0, n1 := n1, n2 := n2, mark0 := mark0, mark1 := mark1, delay := delay, transfer := .none }

/-- The instruction answers a next state that differs from `s` only in the transfer its context will make. -/
def Transfers (i : Instr) (s : State) (tr : Transfer) : Prop :=
  exec i s = .next (s.setCtx s.core { s.ctx s.core with transfer := tr })

/-- The link of R221 at the executing bundle: Next(N2), the address that the target replaces in the chain. In Merlet code,
where no delay bundles stand between, it is the bundle after this one, the model's choice (log 42). -/
def linkAt (s : State) : Word :=
  let x := s.ctx s.core
  let ver := (s.launchOf s.core).codeVer
  if s.portable ver x.n0 then s.nextOf ver x.n0 else s.nextOf ver x.n2

/-- A taken transfer that also has a link on its way with latency 1 (R221). -/
def Links (i : Instr) (s : State) (nw : Bool) (d : BitVec 6) (target : Word) : Prop :=
  ∃ t, exec i s = .next t ∧ OnlyCtx s.core s t
    ∧ ∃ f : Flight, f.out = (if nw then .none else .s d (linkAt s)) ∧ f.lv = linkAt s ∧ f.due = (s.ctx s.core).stepNo
      ∧ t.ctx s.core = { s.ctx s.core with inflight := (s.ctx s.core).inflight ++ [f], transfer := .to target }

/-! ### Vector operations of a die -/

/-- What an operation makes of a lane: its operands a and b, the old lane d, its result and its flags. -/
abbrev LaneRel := Nat → Nat → Nat → Nat → BitVec 5 → Prop

/-- One register and DFLAGS of the executing die context change: lanes whose mask bit is 1 hold a result related to their
operands, the others are kept, and the flags of enabled lanes are added to DFLAGS (R77, R236, R239). -/
def LanesBecome (s t : State) (vd : BitVec 5) (m : BitVec 3) (a b : Nat → Nat) (R : LaneRel) : Prop :=
  let x := s.dctx s.dieId
  ∃ fl : Nat → BitVec 5,
    (∀ n, n < 128 → laneOf ((t.dctx s.dieId).vreg vd) n < 2 ^ 32)
    ∧ (∀ n, n < 128 → (x.mask m).getLsbD n = true →
        R (a n) (b n) (laneOf (x.vreg vd) n) (laneOf ((t.dctx s.dieId).vreg vd) n) (fl n))
    ∧ (∀ n, n < 128 → (x.mask m).getLsbD n = false → laneOf ((t.dctx s.dieId).vreg vd) n = laneOf (x.vreg vd) n)
    ∧ (∀ r, r ≠ vd → (t.dctx s.dieId).vreg r = x.vreg r)
    ∧ (∀ j, j < 64 → (t.dctx s.dieId).dflags.getLsbD j = (x.dflags.getLsbD j ||
        (List.range 128).any (fun n => (x.mask m).getLsbD n && (fl n).getLsbD j)))
    ∧ ({ t.dctx s.dieId with v := x.v, dflags := x.dflags } : DieCtx) = x

/-- The instruction answers a next state that differs from `s` in those lanes and flags alone. -/
def GivesLanes (i : Instr) (s : State) (vd : BitVec 5) (m : BitVec 3) (a b : Nat → Nat) (R : LaneRel) : Prop :=
  ∃ t, exec i s = .next t ∧ OnlyDie s.dieId s t ∧ LanesBecome s t vd m a b R

/-- Lane `n` of a register of the executing die, and the low 32 bits of a scalar source (R233). -/
def lanes (s : State) (v : BitVec 5) (n : Nat) : Nat := ((s.dctx s.dieId).vreg v).toNat / 2 ^ (32 * n) % 2 ^ 32
def scalar32 (s : State) (a : Src) (_n : Nat) : Nat := (s.scalar false a).toNat % 2 ^ 32

/-- Bits of an element (R76), element `e` of a lane, and its value as the type reads it. -/
def elemBits (t : VType) : Nat := match t with
  | .i32 | .z32 | .f32 => 32
  | .bf16x2 | .i16x2 | .f16x2 => 16
  | .i8x4 => 8
def elemOf (t : VType) (lane e : Nat) : Nat := lane / 2 ^ (elemBits t * e) % 2 ^ elemBits t
def elemVal (t : VType) (v : Nat) : Int := match t with
  | .z32 => v
  | _ => if 2 * v < 2 ^ elemBits t then v else v - 2 ^ elemBits t

/-- An exact integer narrowed to an element: modulo its width, or clamped to the type's range (R239). -/
def elemLo (t : VType) : Int := match t with
  | .z32 => 0
  | _ => -(2 ^ (elemBits t - 1))
def elemHi (t : VType) : Int := match t with
  | .z32 => 2 ^ 32 - 1
  | _ => 2 ^ (elemBits t - 1) - 1
def narrowed (t : VType) (sat : Bool) (x : Int) : Int :=
  (if sat then max (elemLo t) (min (elemHi t) x) else x) % 2 ^ elemBits t

/-- An integer operation on every element of a lane, exact and then narrowed; it sets no flag. -/
def intLanes (t : VType) (sat : Bool) (f : Int → Int → Int) : LaneRel := fun a b _ r fl =>
  fl = 0 ∧ ∀ e, e < 32 / elemBits t →
    (elemOf t r e : Int) = narrowed t sat (f (elemVal t (elemOf t a e)) (elemVal t (elemOf t b e)))

/-- A floating-point operation on every element of a lane, in the element's own format; the lane has the flags of its
elements. -/
def floatLanes (t : VType) (f : Nat → Nat → Nat → FRes) : LaneRel := fun a b d r fl =>
  (∀ e, e < 32 / elemBits t →
      elemOf t r e = (f (elemOf t a e) (elemOf t b e) (elemOf t d e)).v % 2 ^ elemBits t)
  ∧ ∀ j, j < 5 → fl.getLsbD j = (List.range (32 / elemBits t)).any (fun e =>
      (f (elemOf t a e) (elemOf t b e) (elemOf t d e)).fl.getLsbD j)

/-- An operation that the type decides: on integers exact and narrowed, on floats rounded once in the format. -/
def arithLanes (t : VType) (sat : Bool) (rm : Nat) (f : Int → Int → Int) (g : Fmt → Nat → Nat → Nat → FRes) : LaneRel :=
  if t.isFloat then floatLanes t (fun a b _ => g t.fmt rm a b) else intLanes t sat f

/-- A bitwise operation on whole lanes. -/
def bitLanes (f : Nat → Nat → Nat) : LaneRel := fun a b _ r fl => fl = 0 ∧ r = f a b

/-- The format of a floating-point element, and its canonical quiet NaN (R72). -/
def elemForm (t : VType) : Fmt := match t with
  | .bf16x2 => { eb := 8, mb := 7 }
  | .f16x2 => { eb := 5, mb := 10 }
  | _ => { eb := 8, mb := 23 }
def elemNan (t : VType) : Nat := match t with
  | .bf16x2 => 0x7FC0
  | .f16x2 => 0x7E00
  | _ => 0x7FC00000

/-- Element `x` of one type converted to another (R75, R243): between floats and from integers rounded once; to an integer
rounded and then clamped to the type's range; between integers exact and clamped. -/
def Converts (src dst : VType) (rm x r : Nat) (fl : BitVec 5) : Prop :=
  let f := elemForm src
  if src.isFloat then
    if dst.isFloat then
      (nanOf f x = true → r = elemNan dst ∧ fl = if sigOf f x then 16 else 0)
      ∧ (infOf f x = true → infOf (elemForm dst) r = true ∧ negOf (elemForm dst) r = negOf f x ∧ fl = 0)
      ∧ (finiteOf f x = true → RoundedOnce (elemForm dst) rm (valOf f x) (negOf f x) r fl)
    else
      (nanOf f x = true → r = 0 ∧ fl = 16)
      ∧ (infOf f x = true → (r : Int) = (if negOf f x then elemLo dst else elemHi dst) % 2 ^ elemBits dst ∧ fl = 16)
      ∧ (finiteOf f x = true → ∃ n : Int, RoundsInt rm (valOf f x) n
          ∧ (r : Int) = narrowed dst true n
          ∧ fl = if n < elemLo dst ∨ elemHi dst < n then 16 else if (n : Rat) = valOf f x then 0 else 1)
  else if dst.isFloat then RoundedOnce (elemForm dst) rm (elemVal src x) false r fl
  else (r : Int) = narrowed dst true (elemVal src x) ∧ fl = 0

/-- A lane of a conversion (R243): one destination element is made of the selected source element, two of one-element lanes
va and vb, or element by element. -/
def convLanes (src dst : VType) (e rm : Nat) : LaneRel := fun a b _ r fl =>
  let source (i : Nat) : Nat :=
    if elemBits dst = 32 then elemOf src a e
    else if elemBits src = 32 then (if i = 0 then a else b)
    else elemOf src a i
  ∃ g : Nat → BitVec 5, (∀ i, i < 32 / elemBits dst → Converts src dst rm (source i) (elemOf dst r i) (g i))
    ∧ ∀ j, j < 5 → fl.getLsbD j = (List.range (32 / elemBits dst)).any (fun i => (g i).getLsbD j)

/-- Node `i` of a level of the balanced tree over lanes (R96): two neighbours of the level below combined, the lower-numbered
on the left; a skipped one passes the other on. -/
def laneTree (f : Nat → Nat → FRes) (l : Nat → Option Nat) : Nat → Nat → Option Nat × BitVec 5
  | 0, i => (l i, 0)
  | k + 1, i =>
    let a := laneTree f l k (2 * i)
    let b := laneTree f l k (2 * i + 1)
    match a.1, b.1 with
    | some x, some y => (some (f x y).v, a.2 ||| b.2 ||| (f x y).fl)
    | some x, none => (some x, a.2 ||| b.2)
    | none, y => (y, a.2 ||| b.2)

/-- A shift of every element by the amount that b's element gives modulo the width (R237). -/
def shiftLanes (t : VType) (k : ShKind) : LaneRel := fun a b _ r fl =>
  fl = 0 ∧ ∀ e, e < 32 / elemBits t →
    let sh := elemOf t b e % elemBits t
    elemOf t r e = match k with
      | .l => elemOf t a e * 2 ^ sh % 2 ^ elemBits t
      | .r => elemOf t a e / 2 ^ sh
      | .a => ((BitVec.ofNat (elemBits t) (elemOf t a e)).sshiftRight sh).toNat

/-- A dot-accumulate of floats (R72, R237): the old lane, an f32, plus the products of the lane's elements, exact and rounded
once. A NaN operand or zero times infinity gives NaN, with NV for a signalling operand and for that product; infinities of both
signs are invalid; a quiet NaN beside infinities of both signs is the one case left out, where the order of the terms decides
(log 39). An exact zero sum has the sign of its terms where they agree, else that of R74. -/
def dotLanes (t : VType) (rm : Nat) : LaneRel := fun a b d r fl =>
  let f := elemForm t
  let n := 32 / elemBits t
  let x (e : Nat) : Nat := elemOf t a e
  let y (e : Nat) : Nat := elemOf t b e
  let zero (v : Nat) : Prop := expOf f v = 0 ∧ fracOf f v = 0
  let nan : Prop := fpNan false d = true ∨ ∃ e, e < n ∧ (nanOf f (x e) = true ∨ nanOf f (y e) = true)
  let invalid : Prop := fpSig false d = true ∨ ∃ e, e < n ∧ (sigOf f (x e) = true ∨ sigOf f (y e) = true
    ∨ (infOf f (x e) = true ∧ zero (y e)) ∨ (zero (x e) ∧ infOf f (y e) = true))
  let inf (neg : Bool) : Prop := (fpInf false d = true ∧ fpNeg false d = neg)
    ∨ ∃ e, e < n ∧ (infOf f (x e) = true ∨ infOf f (y e) = true) ∧ (negOf f (x e) ^^ negOf f (y e)) = neg
  let signs : List Bool := fpNeg false d :: (List.range n).map (fun e => negOf f (x e) ^^ negOf f (y e))
  (invalid → r = canonNan false ∧ fl = 16)
  ∧ (nan → ¬invalid → r = canonNan false ∧ (¬(inf false ∧ inf true) → fl = 0))
  ∧ (¬nan → ¬invalid → inf false → inf true → r = canonNan false ∧ fl = 16)
  ∧ (∀ neg, ¬nan → ¬invalid → inf neg → ¬inf (!neg) → r = (fpInfinity false neg).toNat ∧ fl = 0)
  ∧ (¬nan → ¬inf false → ¬inf true →
      RoundedOnce (form false) rm
        (fpVal false d + ((List.range n).map (fun e => valOf f (x e) * valOf f (y e))).sum)
        (if signs.all id then true else if signs.all (!·) then false else rm == 2) r fl)

/-- A condition of R240 between two 32-bit lanes, and whether it is invalid for f32 operands (R210). -/
def laneHolds (c : VCond) (t : VType) (a b : Nat) : Prop :=
  if t = .f32 then
    match c with
    | .eq => fpSame false a b
    | .ne => ¬fpSame false a b
    | .lt => fpLess false a b
    | .le => fpLess false a b ∨ fpSame false a b
    | .gt => fpLess false b a
    | .un => (fpNan false a || fpNan false b) = true
  else
    let x := elemVal t a
    let y := elemVal t b
    match c with
    | .eq => x = y
    | .ne => x ≠ y
    | .lt => x < y
    | .le => x ≤ y
    | .gt => y < x
    | .un => False
def laneInvalid (c : VCond) (a b : Nat) : Bool := match c with
  | .lt | .le | .gt => fpNan false a || fpNan false b
  | _ => fpSig false a || fpSig false b

/-- The instruction answers a next state that differs from `s` in a mask register and DFLAGS of the executing die context:
bits of enabled lanes are `f`, the others are kept; m0 keeps reading all ones (R56, R240). -/
def GivesMask (i : Instr) (s : State) (md m : BitVec 3) (f : Nat → Bool) (fl : Nat → BitVec 5) : Prop :=
  let x := s.dctx s.dieId
  ∃ t, exec i s = .next t ∧ OnlyDie s.dieId s t
    ∧ (∀ n, n < 128 → ((t.dctx s.dieId).mask md).getLsbD n =
        if md = 0 then true else if (x.mask m).getLsbD n then f n else (x.mask md).getLsbD n)
    ∧ (∀ r, r ≠ md → (t.dctx s.dieId).mask r = x.mask r)
    ∧ (∀ j, j < 64 → (t.dctx s.dieId).dflags.getLsbD j = (x.dflags.getLsbD j ||
        (List.range 128).any (fun n => (x.mask m).getLsbD n && (fl n).getLsbD j)))
    ∧ ({ t.dctx s.dieId with m := x.m, dflags := x.dflags } : DieCtx) = x

/-- The instruction answers a next state that differs from `s` in condition register `kd`, with value `v`, and in DFLAGS,
which gain `fl`. -/
def GivesK (i : Instr) (s : State) (kd : BitVec 3) (v : Word) (fl : BitVec 5) : Prop :=
  let x := s.dctx s.dieId
  ∃ t, exec i s = .next t ∧ OnlyDie s.dieId s t ∧ (t.dctx s.dieId).kreg kd = v
    ∧ (∀ r, r ≠ kd → (t.dctx s.dieId).kreg r = x.kreg r)
    ∧ (t.dctx s.dieId).dflags = x.dflags ||| fl.setWidth 64
    ∧ ({ t.dctx s.dieId with k := x.k, dflags := x.dflags } : DieCtx) = x

/-- The values of the enabled lanes of a register, lane 0 first. -/
def enabledLanes (s : State) (va : BitVec 5) (m : BitVec 3) : List Nat :=
  ((List.range 128).filter (fun n => ((s.dctx s.dieId).mask m).getLsbD n)).map (lanes s va)

/-- The instruction answers a next state that differs from `s` only in the record `y` of the executing die context. -/
def GivesDie (i : Instr) (s : State) (y : DieCtx) : Prop := exec i s = .next (s.setDctx s.dieId y)

/-- Everything but die contexts, memory, codes and parity, and what reads of storage log, is as it was. -/
def OnlyDieAccess (s t : State) : Prop :=
  ({ t with dieCtx := s.dieCtx, mem := s.mem, ecc := s.ecc, rewrites := s.rewrites, errLog := s.errLog,
            errCount := s.errCount, health := s.health, layers := s.layers, flaws := s.flaws } : State) = s

/-- The lanes' addresses: S + 4n, or S + scale * index (R249). -/
def lanePlus (s : State) (a : Src) (n : Nat) : Word := s.scalar false a + BitVec.ofNat 64 (4 * n)
def laneScaled (s : State) (a : Src) (va : BitVec 5) (k n : Nat) : Word :=
  s.scalar false a + BitVec.ofNat 64 (k * lanes s va n)

/-- The last enabled lane whose word covers a byte: its bytes remain (R135). -/
def lastLane (s : State) (m : BitVec 3) (key : Nat → Nat) (k : Nat) : Option Nat :=
  (((List.range 128).filter (fun n => ((s.dctx s.dieId).mask m).getLsbD n)).filter
    (fun n => decide (key n ≤ k ∧ k < key n + 4))).getLast?

/-- What a VAMO makes of a word (R313). -/
def amoNew (k : AmoKind) (sgn : Bool) (rm old b : Nat) : Nat :=
  let less (x y : Nat) : Bool := if sgn then (BitVec.ofNat 32 x).slt (BitVec.ofNat 32 y) else decide (x < y)
  match k with
  | .add => (old + b) % 2 ^ 32
  | .and => old &&& b
  | .or => old ||| b
  | .xor => old ^^^ b
  | .xch => b
  | .min => if less b old then b else old
  | .max => if less old b then b else old
  | .fadd => (Fmt.f32.add rm old b).v % 2 ^ 32

/-- The word at a place as a die's atomic finds it: HBM at the L2 (R147). -/
def wordAt (s : State) (p : Place) : Nat := match p with
  | .hbm a => fromBytes (fun i => s.l2Byte (a + i)) 4
  | p => fromBytes (fun i => s.memByte (p.key + i)) 4

/-! ### Nests, accumulators and block formats -/

/-- The executing slot waits for no nest that holds a tile. -/
def tileFree (s : State) (tile : BitVec 3) : Prop := s.acts (s.waitFor (.tiles [tile.toNat]))

/-- The record `y` of a die context differs from `x` in rows of accumulator tile `tile` only, row `i` being `f i`. -/
def RowsBecome (x y : DieCtx) (tile : Nat) (f : Nat → AccRow) : Prop :=
  (∀ i, i < 32 → y.accRow tile i = f i)
  ∧ (∀ u i, u ≠ tile → i < 32 → y.accRow u i = x.accRow u i)
  ∧ ({ y with acc := x.acc } : DieCtx) = x

/-- The bound that headroom `h` puts on the mantissas of a row's finite elements (R87). -/
def Holds55 (r : AccRow) (h : Nat) : Prop :=
  ∀ j, j < 32 → (r.elem j).tag = 0 → -(2 : Int) ^ (55 - h) ≤ (r.elem j).m.toInt ∧ (r.elem j).m.toInt < (2 : Int) ^ (55 - h)

/-- A row after a write other than a batch (R92): FRESH is clear, and H is the largest that its elements allow. -/
def Rewritten (r : AccRow) : Prop :=
  r.fresh = false ∧ r.h.toNat ≤ 55 ∧ Holds55 r r.h.toNat ∧ ∀ h, h ≤ 55 → Holds55 r h → h ≤ r.h.toNat

/-- `r'` is `r` after a renormalisation event with shift `k` (R91). -/
def Renormed (r r' : AccRow) (k : Nat) : Prop :=
  r'.c.toNat = min (r.c.toNat + 1) 0xFFFFFFFF ∧ r'.fresh = r.fresh
  ∧ (∀ j, j < 32 → (r.elem j).tag ≠ 0 → r'.elem j = r.elem j)
  ∧ if 32767 < r.e.toInt + k then
      r'.e.toInt = 32767 ∧ r'.h.toNat = 55
      ∧ ∀ j, j < 32 → (r.elem j).tag = 0 → (r'.elem j).m = 0
          ∧ (r'.elem j).tag = (if 0 < (r.elem j).m.toInt then 1 else if (r.elem j).m.toInt < 0 then 2 else 0)
    else
      r'.e.toInt = r.e.toInt + k ∧ r'.h.toNat = min 55 (r.h.toNat + k - 1)
      ∧ ∀ j, j < 32 → (r.elem j).tag = 0 → (r'.elem j).tag = 0
          ∧ RoundsInt 0 (((r.elem j).m.toInt : Rat) / (2 : Rat) ^ k) (r'.elem j).m.toInt

/-- `r'` is `r` set from 32 f32 values (R254): the exponent by the largest finite magnitude, each element its value in units
of it, to nearest even. -/
def SetFromF32 (r r' : AccRow) (v : Nat → Nat) : Prop :=
  let number (j : Nat) : Prop := fpFinite false (v j) = true ∧ fpVal false (v j) ≠ 0
  r'.c = r.c ∧ Rewritten r'
  ∧ ((∀ j, j < 32 → ¬number j) → r'.e = 0)
  ∧ ((∃ j, j < 32 ∧ number j) →
      (∀ j, j < 32 → number j → |fpVal false (v j)| < (2 : Rat) ^ (r'.e.toInt + 54))
      ∧ ∃ j, j < 32 ∧ number j ∧ (2 : Rat) ^ (r'.e.toInt + 53) ≤ |fpVal false (v j)|)
  ∧ ∀ j, j < 32 →
      if fpNan false (v j) then r'.elem j = { m := 0, tag := 3 }
      else if fpInf false (v j) then r'.elem j = { m := 0, tag := if fpNeg false (v j) then 2 else 1 }
      else (r'.elem j).tag = 0 ∧ RoundsInt 0 (fpVal false (v j) / (2 : Rat) ^ r'.e.toInt) (r'.elem j).m.toInt

/-- What one lane of VAWR, with value `v`, makes of the element `x` of column `j` in a mode that writes lane by lane, and of the
row's exponent (R254); none where the lane is ignored. -/
def laneWritten (mode : AccMode) (j : Nat) (x : AccElem) (e : BitVec 16) (v : BitVec 32) : Option (AccElem × BitVec 16) :=
  match mode with
  | .mlo => if x.tag = 0 then some ({ x with m := x.m.extractLsb' 32 24 ++ v }, e) else none
  | .mhi => if x.tag = 0 then some ({ x with m := v.extractLsb' 0 24 ++ x.m.extractLsb' 0 32 }, e) else none
  | _ => some ({ m := if v.extractLsb' 16 2 = 0 then x.m else 0, tag := v.extractLsb' 16 2 },
               if j = 0 then v.extractLsb' 0 16 else e)

/-- A row that VAWR has written lane by lane, `lane j` the value of column `j` where its lane is enabled. -/
def LanesWritten (mode : AccMode) (r r' : AccRow) (lane : Nat → Option (BitVec 32)) : Prop :=
  let out (j : Nat) : Option (AccElem × BitVec 16) := (lane j).bind (laneWritten mode j (r.elem j) r.e)
  ((∀ j, j < 32 → out j = none) → r' = r)
  ∧ ((∃ j, j < 32 ∧ (out j).isSome = true) → r'.c = r.c ∧ Rewritten r' ∧ r'.e = ((out 0).map Prod.snd).getD r.e
      ∧ ∀ j, j < 32 → r'.elem j = ((out j).map Prod.fst).getD (r.elem j))

/-- A value that a base multiplies: a number, of which 0 counts as positive, an infinity or NaN. -/
inductive Quantity where
  | num (x : Rat)
  | inf (neg : Bool)
  | nan
  deriving DecidableEq

/-- The canonical quiet NaN of a format (R72). -/
def nanIn (f : Fmt) : Nat := (2 ^ f.eb - 1) * 2 ^ f.mb + 2 ^ (f.mb - 1)

/-- A value times an f32 base, rounded once to a format (R80, R93): NaN by a NaN or by zero times infinity, with NV for a
signalling base and for that product; an infinity and a zero by the exclusive or of the signs. -/
def TimesBase (f : Fmt) (rm : Nat) (x : Quantity) (base v : Nat) (fl : BitVec 5) : Prop :=
  let infinity (neg : Bool) : Prop := v < 2 ^ (1 + f.eb + f.mb) ∧ infOf f v = true ∧ negOf f v = neg ∧ fl = 0
  if fpNan false base then v = nanIn f ∧ fl = if fpSig false base then 16 else 0
  else match x with
    | .nan => v = nanIn f ∧ fl = 0
    | .inf n => if fpZero false base then v = nanIn f ∧ fl = 16 else infinity (n ^^ fpNeg false base)
    | .num q =>
      if fpInf false base then if q = 0 then v = nanIn f ∧ fl = 16 else infinity (decide (q < 0) ^^ fpNeg false base)
      else RoundedOnce f rm (q * fpVal false base) (decide (q < 0) ^^ fpNeg false base) v fl

/-- The value that an element of a row reads as (R93). -/
def elemNum (r : AccRow) (j : Nat) : Quantity := match (r.elem j).tag.toNat with
  | 0 => .num (((r.elem j).m.toInt : Rat) * (2 : Rat) ^ r.e.toInt)
  | 1 => .inf false
  | 2 => .inf true
  | _ => .nan

/-- DFLAGS gain the flags that `n` elements raise. -/
def Gains (fl fl' : Word) (n : Nat) (g : Nat → BitVec 5) : Prop :=
  ∀ b, b < 64 → fl'.getLsbD b = (fl.getLsbD b || (List.range n).any (fun k => (g k).getLsbD b))

/-- A little-endian number in a list of bytes. -/
def leAt (bs : List Byte) (off n : Nat) : Nat := fromBytes (fun i => bs.getD (off + i) 0) n

/-- The element words of a tile's group of vector registers, row-major (R283). -/
def groupLane (s : State) (va : BitVec 5) (k : Nat) : Nat := lanes s (va + BitVec.ofNat 5 (k / 128)) (k % 128)

/-- A number rounded to nearest, a tie to the even integer. -/
def nearest (y : Rat) : Int :=
  let n := (y + 1 / 2).floor
  if (n : Rat) - y = 1 / 2 ∧ n % 2 ≠ 0 then n - 1 else n

/-- What a slot of an N4X segment is: a value of its own, an outlier, one of an outlier's two payload slots, or an escape with no
room for a payload. -/
inductive SlotKind where
  | plain
  | outlier
  | payload
  | escape
  deriving DecidableEq

/-- The slots of a segment from slot `i` on, as R82 and R286 scan them: `plain` says which stand for themselves, the first
number bounds the scan. -/
def segmentKinds (plain : Nat → Bool) : Nat → Nat → List SlotKind
  | 0, _ => []
  | n + 1, i =>
    if plain i then .plain :: segmentKinds plain n (i + 1)
    else if i ≤ 5 then .outlier :: .payload :: .payload :: segmentKinds plain n (i + 3)
    else .escape :: segmentKinds plain n (i + 1)

/-- The kind of slot `j` of a tile, whose segments are 8 slots each. -/
def slotKind (plain : Nat → Bool) (j : Nat) : SlotKind :=
  (segmentKinds (fun i => plain (8 * (j / 8) + i)) 8 0).getD (j % 8) .escape

/-- The X8 code that two slots after slot `j` hold, and the form of X8 (R82, R83). -/
def x8At (slot : Nat → Nat) (j : Nat) : Nat := 16 * slot (j + 1) + slot (j + 2)
def x8 : Fmt := { eb := 4, mb := 3 }

/-- The value of an X8 code (R83). -/
def x8Num (c : Nat) : Quantity := if nanOf x8 c then .nan else if infOf x8 c then .inf (negOf x8 c) else .num (valOf x8 c)

/-- Format codes of R85, and the elements of a tile of block format `f` in scale units, its bytes given (R80, R82). -/
def blockCode (f : BlkFmt) : Nat := match f with
  | .b8 => 1
  | .b16 => 2
  | .n4x => 3
def slotAt (b : Nat → Nat) (j : Nat) : Nat := b (j / 2) / 16 ^ (j % 2) % 16
def tileKind (b : Nat → Nat) (j : Nat) : SlotKind := slotKind (fun i => slotAt b i != 8) j
def tileNum (f : Nat) (b : Nat → Nat) (j : Nat) : Quantity := match f with
  | 1 => .num (BitVec.ofNat 8 (b j)).toInt
  | 2 => .num (BitVec.ofNat 16 (b (2 * j) + 256 * b (2 * j + 1))).toInt
  | _ => match tileKind b j with
    | .plain => .num (BitVec.ofNat 4 (slotAt b j)).toInt
    | .outlier => x8Num (x8At (slotAt b) j)
    | _ => .num 0
def Quantity.times (x : Quantity) (k : Rat) : Quantity := match x with
  | .num q => .num (q * k)
  | x => x

/-- `X8Enc` of R286: the code of `v`, an f32 pattern whose value in scale units is `y` where it is finite. -/
def X8Encodes (v : Nat) (y : Rat) (c : Nat) : Prop :=
  if fpNan false v then c = 0x7F
  else if fpInf false v then c = (if fpNeg false v then 0xF8 else 0x78)
  else if 240 < |y| then c = (if y < 0 then 0xF7 else 0x77)
  else RoundsIn x8 0 y c

/-- What VQNT makes of the f32 elements `v` of a tile of `n` elements in format `f` with scale code `c` (R286): the code written,
the element bytes `b`, the length of those, and the elements counted in SATCNT. -/
def Quantised (f : BlkFmt) (n c : Nat) (v : Nat → Nat) (code len : Nat) (b : Nat → Nat) (sat : Nat) : Prop :=
  let y (j : Nat) : Rat := fpVal false (v j) / (2 : Rat) ^ ((c : Int) - 127)
  let q (j : Nat) : Int := nearest (y j)
  let finite (j : Nat) : Bool := fpFinite false (v j)
  let kind (j : Nat) : SlotKind := slotKind (fun i => finite i && decide (|q i| ≤ 7)) j
  let poison : Prop := c = 255 ∨ ∃ j, j < n ∧ finite j = false ∧ (f = .n4x → kind j ≠ .outlier)
  let outside (w : Nat) (j : Nat) : Bool := decide (q j < -(2 ^ (w - 1)) ∨ 2 ^ (w - 1) ≤ q j)
  let lost (j : Nat) : Bool := match f with
    | .b8 => outside 8 j
    | .b16 => outside 16 j
    | .n4x => match kind j with
      | .plain => false
      | .outlier => finite j && decide (240 < |y j|)
      | .payload => q j != 0
      | .escape => true
  len = (match f with | .b8 => n | .b16 => 2 * n | .n4x => n / 2)
  ∧ (poison → code = 255 ∧ sat = 0 ∧ ∀ j, j < len → b j = 0)
  ∧ (¬poison → code = c ∧ sat = ((List.range n).filter lost).length ∧ ∀ j, j < n → match f with
      | .b8 => (BitVec.ofNat 8 (b j)).toInt = max (-128) (min 127 (q j))
      | .b16 => (BitVec.ofNat 16 (b (2 * j) + 256 * b (2 * j + 1))).toInt = max (-32768) (min 32767 (q j))
      | .n4x => match kind j with
        | .plain => (slotAt b j : Int) = q j % 16
        | .outlier => slotAt b j = 8 ∧ X8Encodes (v j) (y j) (x8At (slotAt b) j)
        | .payload => True
        | .escape => (slotAt b j : Int) = max (-7) (min 7 (q j)) % 16)

/-- Bytes stored by a die at a place of its scratchpad: those given, and no other byte of memory changes; of die contexts
only the executing one's `sig`, `folds`, `k` and `dflags` may. -/
def StoresImage (i : Instr) (s : State) (d : DieId) (off : Word) (bs : List Byte) (k : PMap Word) (fl : Word) : Prop :=
  ∃ t, exec i s = .next t ∧ OnlyDieAccess s t ∧ (∀ e : DieId, e.key ≠ d.key → t.dctx e = s.dctx e)
    ∧ (t.dctx d).k = k ∧ (t.dctx d).dflags = fl
    ∧ ({ t.dctx d with sig := (s.dctx d).sig, folds := (s.dctx d).folds, k := (s.dctx d).k,
                       dflags := (s.dctx d).dflags } : DieCtx) = s.dctx d
    ∧ SameMemoryBut s t (dieMemKey d.die off.toNat) bs.length
    ∧ ∀ j, j < bs.length → Memory.readByte t.mem (dieMemKey d.die off.toNat + j) = bs.getD j 0

/-- A die that executes on clean storage whose banks were not taken by hand-over. -/
def plainDie (s : State) (d : DieId) : Prop :=
  s.onDie = some d ∧ s.ecc = [] ∧ s.layers = []
    ∧ ∀ b, (Table.get .free (s.die d.die).banks b).handed (s.dieTask d) = false

/-! ### Cellar cores -/

/-- Lane `n` of a w register of the executing cellar context. -/
def celLanes (s : State) (v : BitVec 5) (n : Nat) : Nat :=
  (Table.get 0 (s.ctx s.core).w v.toNat : CelVec).toNat / 2 ^ (32 * n) % 2 ^ 32

/-- The mask that an operation names: m0 is all ones (R340). -/
def celMaskOf (s : State) (m : BitVec 3) : BitVec 16 :=
  if m = 0 then BitVec.allOnes 16 else Table.get 0 (s.ctx s.core).m m.toNat

/-- The enabled lanes of a cellar operation, ascending. -/
def celEnabled (s : State) (m : BitVec 3) : List Nat := (List.range 16).filter (fun n => (celMaskOf s m).getLsbD n)

/-- A result on its way to the enabled lanes of register `vd` after `lat` steps: each is related to its operands and the
old lane, and the flags of the enabled lanes go to VFLG at its delivery (R79, R340). -/
def CelResult (s : State) (f : Flight) (vd : BitVec 5) (m : BitVec 3) (lat : Nat) (a b : Nat → Nat) (R : LaneRel) : Prop :=
  f.slot = s.slot ∧ f.lv = 0 ∧ f.flags = 0 ∧ f.issued = (s.ctx s.core).stepNo ∧ f.due = (s.ctx s.core).stepNo + lat - 1
  ∧ ∃ (v : CelVec) (fl : Nat → BitVec 5), f.out = .w vd (celMaskOf s m) v
    ∧ (∀ n ∈ celEnabled s m, R (a n) (b n) (celLanes s vd n) (v.toNat / 2 ^ (32 * n) % 2 ^ 32) (fl n))
    ∧ ∀ j, j < 5 → f.vflags.getLsbD j = (celEnabled s m).any (fun n => (fl n).getLsbD j)

/-- The executing context has one more result on its way, and else the state is `s`. -/
def GivesCel (i : Instr) (s : State) (vd : BitVec 5) (m : BitVec 3) (lat : Nat) (a b : Nat → Nat) (R : LaneRel) : Prop :=
  ∃ f : Flight, CelResult s f vd m lat a b R ∧ f.arrived = true
    ∧ exec i s = .next (s.setCtx s.core { s.ctx s.core with inflight := (s.ctx s.core).inflight ++ [f] })

/-- The address of lane `n` of WLD and WST (R344). -/
def celAddr (s : State) (o : WMemOp) (n : Nat) : Word :=
  s.scalar false o.a + BitVec.ofNat 64 (4 * (if o.x then celLanes s o.va n else n))

/-- The last of some lanes whose word covers a byte (R135). -/
def lastOf (l : List Nat) (key : Nat → Nat) (k : Nat) : Option Nat :=
  (l.filter (fun n => decide (key n ≤ k ∧ k < key n + 4))).getLast?

/-- Rows of `n` 32-bit words from a key on, as numbers. -/
def rowWord (s : State) (k j : Nat) : Nat := fromBytes (fun i => s.memByte (k + 4 * j + i)) 4

/-! ### Trees and permutations -/

/-- The barrier of packet `p` of sequencer context `c` can complete over the die contexts `ds`, its P slot holding `i`: each
of them stands at it, without a fault and with a rank of its own. -/
def BarrierAt (s : State) (c : Nat) (p : Packet) (i : Instr) (ds : List DieId) : Prop :=
  (s.ctx (.seq c)).nextBarrier = some p ∧ s.barrierReady c = true ∧ ds = (s.ctx (.seq c)).enabledIds p.dieEn
  ∧ ((packetWork p).find? (fun e => e.1 == .p)).map Prod.snd = some i
  ∧ (∀ d ∈ ds, (s.dctx d).fault = none ∧ (s.dctx d).part = some c)
  ∧ ∀ d ∈ ds, ∀ e ∈ ds, (s.dctx d).rank = (s.dctx e).rank → d = e

/-- The rank whose bytes a die receives: by its permutation table, by a shift, by an exchange or by a broadcast (R309). -/
def permFrom (x : DieCtx) (i : Instr) (b : Word) : Option Nat := match i with
  | .perm pt _ _ =>
    let e := (Table.get 0 x.pt pt.toNat : BitVec 512).toNat / 256 ^ x.rank % 256
    if 128 ≤ e then some (e % 64) else none
  | .pshr _ => some (((x.rank : Int) - b.toInt) % (x.count : Int)).toNat
  | .pxch _ => if x.rank ^^^ (b.toNat % 64) < x.count then some (x.rank ^^^ (b.toNat % 64)) else none
  | .pbcd _ => some b.toNat
  | _ => none

/-- The length and the source fields of a permutation. -/
def permForm (i : Instr) (n : Nat) (a : Src) (b : Option Src) : Prop := match i with
  | .perm _ sz a' => n = 1024 * 4 ^ sz.toNat ∧ a = a' ∧ b = none
  | .pshr o | .pxch o | .pbcd o => n = 1024 * 4 ^ o.sz.toNat ∧ a = o.a ∧ b = some o.b
  | _ => False

/-- Contributions folded from left to right; none where there is none. -/
def foldUp (f : Nat → Nat → Nat) : List Nat → Option Nat
  | [] => none
  | x :: rest => some (rest.foldl f x)

/-- A reduction across dies, `v` the contribution of each (R97): a cluster's four dies, a branch's three clusters, the four
branches, each from left to right. -/
def acrossDies (f : Nat → Nat → Nat) (v : Nat → Option Nat) : Option Nat :=
  let cluster (c : Nat) : Option Nat := foldUp f ((List.range 4).filterMap (fun k => v (4 * c + k)))
  let branch (h : Nat) : Option Nat := foldUp f ((List.range 3).filterMap (fun k => cluster (3 * h + k)))
  foldUp f ((List.range 4).filterMap branch)

/-- The contribution of a die to a reduction, and a contribution as its class orders it. -/
def treeBits (o : RredOp) : Nat := if o.big then 64 else 32
def treeValue (o : RredOp) (x : DieCtx) : Nat := (x.kreg o.k).toNat % 2 ^ treeBits o
def treeOrder (o : RredOp) (v : Nat) : Int := if o.cls = .s then (BitVec.ofNat (treeBits o) v).toInt else v

/-! ### Copies, buffers and engines -/

/-- Contexts other than the executing unit's own are as they were. -/
def OtherUnits (s t : State) : Prop := match s.onDie with
  | some d => t.seq = s.seq ∧ t.cel = s.cel ∧ ∀ e : DieId, e.key ≠ d.key → t.dctx e = s.dctx e
  | none => t.dieCtx = s.dieCtx ∧ OtherContexts s t

/-- An operation enters the queue of the engine that the instruction names, behind those that stand there, and no other unit
changes; a die names two engines, a cellar core has one. -/
def Enqueues (i : Instr) (s t : State) (e : Bool) (op : CopyOp) : Prop :=
  exec i s = .next t ∧ OtherUnits s t
  ∧ t.engineQ s.unit (if e then 1 else 0) = s.engineQ s.unit (if e then 1 else 0) ++ [op]
  ∧ op.started = false ∧ op.task = s.unitTask s.unit
  ∧ op.no = (match s.onDie with
      | some _ => s.curNo
      | none => (s.ctx s.core).copySerial)

/-- The tiles that a selector picks of a run: from its bits 3:0 on, bits 7:4 plus one of them (R295). -/
def selected (r : XReg) (b : Word) : List Tile := (r.tiles.drop (b.toNat % 16)).take (b.toNat / 16 % 16 + 1)

/-- The entry of the tensor that x register `x` names, and the bytes of an image with or without planes. -/
def runTensor (s : State) (r : XReg) : BitVec 512 := s.tensorOf s.unit r.tid

/-- A circular buffer of the executing unit becomes `c`; nothing else changes. -/
def GivesCb (i : Instr) (s : State) (n : BitVec 3) (c : Option Cb) : Prop :=
  ∃ t, exec i s = .next t ∧ Table.find? (t.cbTable s.unit) n.toNat = c
    ∧ (∀ k, k ≠ n.toNat → Table.find? (t.cbTable s.unit) k = Table.find? (s.cbTable s.unit) k)
    ∧ (match s.onDie with
      | some d => OnlyDie d s t ∧ ({ t.dctx d with cbs := (s.dctx d).cbs } : DieCtx) = s.dctx d
      | none => OnlyCtx s.core s t ∧ ({ t.ctx s.core with cbs := (s.ctx s.core).cbs } : Ctx) = s.ctx s.core)

/-- Nothing but the record of one die changes. -/
def OnlyDieRecord (n : Nat) (s t : State) : Prop :=
  ({ t with dies := s.dies } : State) = s ∧ ∀ m, m ≠ n → t.die m = s.die m

/-- An element after its column of a batch has been combined with it (R90); `q` is the aligned product of a finite column. -/
def Combined (x x' : AccElem) (p : Batch) (q : Int) : Prop := match p with
  | .nan => x' = { m := 0, tag := 3 }
  | .inf neg =>
    if x.tag = 0 then x' = { m := 0, tag := if neg then 2 else 1 }
    else if x.tag = 3 ∨ x.tag = (if neg then 2 else 1) then x' = x
    else x' = { m := 0, tag := 3 }
  | .fin _ => if x.tag = 0 then x' = { m := x.m + BitVec.ofInt 56 q, tag := 0 } else x' = x

/-- `w` is the Wb of R90: the least width that holds the aligned products of the finite columns. -/
def IsWidth (p : Nat → Batch) (q : Nat → Int) (w : Nat) : Prop :=
  let holds (w : Nat) : Prop := ∀ j x, j < 32 → p j = .fin x → -(2 : Int) ^ w ≤ q j ∧ q j < (2 : Int) ^ w
  holds w ∧ ∀ v, holds v → w ≤ v

/-- `ApplyBatch(row, P, e)` of R89 and R90: alignment truncates toward minus infinity, a renormalisation makes room first where
headroom or width ask for it, and the columns are combined; a batch of special columns leaves the row's fields alone. -/
def BatchApplied (r r' : AccRow) (p : Nat → Batch) (e : Int) : Prop :=
  let aligned (row : Int) (j : Nat) : Int := match p j with
    | .fin x => ((x : Rat) * (2 : Rat) ^ (e - row)).floor
    | _ => 0
  let combined (row : Int) : Prop := ∀ j, j < 32 → Combined (r.elem j) (r'.elem j) (p j) (aligned row j)
  ((∀ j, j < 32 → ∀ x, p j ≠ .fin x) →
    r'.e = r.e ∧ r'.h = r.h ∧ r'.c = r.c ∧ r'.fresh = r.fresh ∧ combined 0)
  ∧ ((∃ j x, j < 32 ∧ p j = .fin x) → ∃ r₀ r₁ : AccRow, ∃ w₀ w : Nat,
      r₀ = (if r.fresh then { r with e := BitVec.ofInt 16 e, fresh := false } else r)
      ∧ IsWidth p (aligned r₀.e.toInt) w₀
      ∧ (if r₀.h.toNat < 1 ∨ 54 < w₀ then Renormed r₀ r₁ (max (1 - r₀.h.toNat) (w₀ - 54) + 4) else r₁ = r₀)
      ∧ IsWidth p (aligned r₁.e.toInt) w
      ∧ r'.e = r₁.e ∧ r'.c = r₁.c ∧ r'.fresh = false ∧ r'.h.toNat = min r₁.h.toNat (55 - w) - 1
      ∧ ∀ j, j < 32 → Combined (r₁.elem j) (r'.elem j) (p j) (aligned r₁.e.toInt j))

/-- The staged operands of a batch as R85, R86 and R268 lay them out, B from the scratchpad: the formats and the tile side of
PREC, the slot values of the row of A, its outliers with their positions and X8 codes, and the value of B in the batch's
pass. -/
structure Operands where
  side : Nat
  planes : Nat
  codeA : Nat
  ain : Nat → Int
  outs : List (Nat × Nat)
  codeB : Nat → Nat
  bp : Nat → Nat → Int

def staged (s : State) (d : DieId) (x : Nest) : Operands :=
  let prec := nestWord x.words x.table 16
  let t := if prec.getLsbD 4 then 32 else 16
  let fa := prec.toNat % 4
  let fb := prec.toNat / 4 % 4
  let n := match fa with
    | 1 => 8
    | 2 => 16
    | _ => 4
  let byte (base off : Nat) : Nat := (Memory.readByte s.mem (dieMemKey d.die base + off)).toNat
  let sizeA := 64 + n * t * t / 8 + (if fa = 3 then 16 * t else 0)
  let sizeB := 64 + fb * t * t
  let a := x.aAt + x.i / t * sizeA
  let b (j : Nat) : Nat := x.bAt + j / t * sizeB
  let row := x.i % t
  { side := t, planes := n, codeA := byte a 0,
    ain := fun k => ((List.range n).map (fun q =>
      if (byte a (64 + (q * t + row) * t / 8 + k / 8)).testBit (k % 8) then (if q + 1 = n then -(2 : Int) ^ q else 2 ^ q) else 0)).sum,
    outs := if fa = 3 then ((List.range 8).map (fun w =>
        let at_ := 64 + n * t * t / 8 + 2 * (8 * row + w)
        (byte a (at_ + 1), byte a at_))).filterMap (fun e => if e.1.testBit 7 then some (e.1 % 32, e.2) else none) else [],
    codeB := fun j => byte (b j) 0,
    bp := fun k j =>
      if fb = 1 then (BitVec.ofNat 8 (byte (b j) (64 + k * t + j % t))).toInt
      else if x.p = 0 then (byte (b j) (64 + 2 * (k * t + j % t)) : Nat)
      else (BitVec.ofNat 8 (byte (b j) (64 + 2 * (k * t + j % t) + 1))).toInt }

/-- The columns `p` and the exponent `e` of a batch of staged operands in pass `pass` (R88, R89): a finite column has the exact
value of the two scales, the pass and the sum of its products; `e` is that of the least scale of B and the least offset of a
finite outlier. -/
def BatchOf (o : Operands) (pass : Nat) (p : Nat → Batch) (e : Int) : Prop :=
  let special (c : Nat) : Bool := c / 8 % 16 == 15
  let offset (c : Nat) : Int := if c / 8 % 16 = 0 then -9 else (c / 8 % 16 : Nat) - 10
  let counts (c : Nat) : Bool := !special c && c % 128 != 0
  let sum (j : Nat) : Rat :=
    (((List.range o.side).map (fun k => o.ain k * o.bp k j)).sum : Int)
      + ((o.outs.filter (fun w => counts w.2)).map (fun w => valOf x8 w.2 * (o.bp w.1 j : Rat))).sum
  let nanAt (j : Nat) : Prop := o.codeA = 255 ∨ o.codeB j = 255
    ∨ ∃ w ∈ o.outs, special w.2 = true ∧ (w.2 % 8 ≠ 0 ∨ o.bp w.1 j = 0)
  let infAt (j : Nat) (neg : Bool) : Prop :=
    ∃ w ∈ o.outs, special w.2 = true ∧ w.2 % 8 = 0 ∧ o.bp w.1 j ≠ 0 ∧ (w.2.testBit 7 ^^ decide (o.bp w.1 j < 0)) = neg
  (∀ j, j < 32 →
    (nanAt j ∨ (infAt j false ∧ infAt j true) → p j = .nan)
    ∧ (∀ neg, ¬nanAt j → infAt j neg → ¬infAt j (!neg) → p j = .inf neg)
    ∧ (¬nanAt j → ¬infAt j false → ¬infAt j true → ∃ x : Int, p j = .fin x
        ∧ (x : Rat) * (2 : Rat) ^ e = (2 : Rat) ^ ((o.codeA : Int) - 127 + ((o.codeB j : Int) - 127) + 8 * pass) * sum j))
  ∧ ∀ eb g : Int,
      ((∃ j, j < 32 ∧ o.codeB j ≠ 255 ∧ eb = (o.codeB j : Int) - 127)
        ∧ ∀ j, j < 32 → o.codeB j ≠ 255 → eb ≤ (o.codeB j : Int) - 127) →
      (g ≤ 0 ∧ (∀ w ∈ o.outs, counts w.2 = true → g ≤ offset w.2)
        ∧ (g = 0 ∨ ∃ w ∈ o.outs, counts w.2 = true ∧ g = offset w.2)) →
      e = (o.codeA : Int) - 127 + eb + g + 8 * pass

/-- Bytes of a tile of format `f` and side `t` (R118, R120). -/
def tileBytes (f t : Nat) : Nat := match f with
  | 1 | 9 => t * t
  | 3 => t * t / 2
  | 4 | 7 => 4 * (t * t)
  | _ => 2 * (t * t)

/-- Element `k` of tile `n` of a tensor lies inside EXT0 and EXT1 (R119). -/
def inExtents (e : BitVec 512) (n k : Nat) : Prop :=
  let t := tSide e
  let cols := (tExt e 0 + t - 1) / t
  let rows := (tExt e 1 + t - 1) / t
  n % cols * t + k % t < tExt e 0 ∧ n / cols % rows * t + k / t < tExt e 1

/-- `out` holds the elements of tile `n` as `raw` does, those beyond the extents as zero (R119); an outlier's payload goes with
the outlier (R82). -/
def Edged (e : BitVec 512) (n : Nat) (raw out : Nat → Nat) : Prop :=
  let t := tSide e
  let size := tileBytes (tFmt e) t
  if tFmt e = 3 then
    let owner (k : Nat) : Nat := if tileKind raw k ≠ .payload then k else if tileKind raw (k - 1) = .outlier then k - 1 else k - 2
    ∀ k, k < t * t → (inExtents e n (owner k) → slotAt out k = slotAt raw k) ∧ (¬inExtents e n (owner k) → slotAt out k = 0)
  else
    ∀ b, b < size → (inExtents e n (b / (size / (t * t))) → out b = raw b) ∧ (¬inExtents e n (b / (size / (t * t))) → out b = 0)

/-- The plane form of R85 of the elements `el` of a tile of block format `f` and side `t`, from byte 64 of an image on. -/
def PlaneForm (f t : Nat) (el img : Nat → Nat) : Prop :=
  let n := match f with
    | 1 => 8
    | 2 => 16
    | _ => 4
  let value (k : Nat) : Nat := match f with
    | 1 => el k
    | 2 => el (2 * k) + 256 * el (2 * k + 1)
    | _ => if tileKind el k = .plain then slotAt el k else 0
  let outliers (i : Nat) : List Nat := (List.range t).filter (fun k => tileKind el (i * t + k) == .outlier)
  (∀ p i k, p < n → i < t → k < t →
    (img (64 + (p * t + i) * t / 8 + k / 8)).testBit (k % 8) = (value (i * t + k)).testBit p)
  ∧ (f = 3 → ∀ i w, i < t → w < 8 →
      img (64 + n * t * t / 8 + 2 * (8 * i + w)) + 256 * img (64 + n * t * t / 8 + 2 * (8 * i + w) + 1)
        = match (outliers i)[w]? with
          | some k => 2 ^ 15 + k * 256 + x8At (slotAt el) (i * t + k)
          | none => 0)

/-- A unit on whose scratchpad an engine writes plainly: clean storage, no bank taken by hand-over. -/
def plainUnit (s : State) (u : UnitId) : Prop := s.ecc = [] ∧ match u with
  | .die d => ∀ b, (Table.get .free (s.die d.die).banks b).handed (s.dieTask d) = false
  | .core _ => True

/-! ### Near-memory commands (R346 to R356) -/

/-- A little-endian number in the executing core's scratchpad. -/
def padNum (s : State) (off : Word) (n : Nat) : Nat :=
  fromBytes (fun i => s.memByte (padKey s.core.padIdx off.toNat + i)) n

/-- Word `j` of the descriptor at an offset. -/
def nmWord (s : State) (a : Word) (j : Nat) : Word := BitVec.ofNat 64 (padNum s (a + BitVec.ofNat 64 (8 * j)) 8)

/-- The fields of a CTL word (R347). -/
def nmLim (c : Word) : Nat := c.toNat / 2 ^ 32
def nmStride (c : Word) : Nat := c.toNat / 2 ^ 16 % 2 ^ 16
def nmCount (c : Word) : Nat := c.toNat / 256 % 256 + 1
def nmRow (c : Word) : Nat := 64 * 2 ^ (c.toNat / 16 % 4)
def nmType (c : Word) : Nat := c.toNat / 4 % 4
def nmDsp (c : Word) : Bool := c.getLsbD 1

/-- The instructions that enter commands. -/
def nmForm (o : NmOp) : NmKind → Instr
  | .nired => .nired o
  | .ngath => .ngath o
  | .nscat => .nscat o
  | .nmrow => .nmrow o
  | .nstrm => .nstrm o

/-- Commands that write flat rows, and commands with an index list. -/
def nmStoresFlat (k : NmKind) (c : Word) : Bool := k == .nscat || (k != .nstrm && !nmDsp c)
def nmList (k : NmKind) : Bool := k == .nired || k == .ngath || k == .nscat

/-- A CTL word that no command may have, for its own fields. -/
def nmBadFields (k : NmKind) (aux c : Word) : Prop :=
  c.getLsbD 0 = true ∨ c.toNat / 64 % 4 ≠ 0 ∨ c.toNat / 16 % 4 = 3 ∨ nmType c = 3 ∨ nmStride c = 0
  ∨ (k = .nmrow ∧ nmDsp c = true) ∨ (k = .nstrm ∧ nmDsp c = false)
  ∨ ((k = .nmrow ∨ k = .nstrm) ∧ nmLim c ≠ 0) ∨ (k = .nstrm ∧ aux ≠ 0)

/-- Bytes of an element, and the sum of two elements (R98, R347). -/
def elemBytes (ty : Nat) : Nat := if ty = 1 then 2 else 4
def elemAdd (ty a b : Nat) : Nat := match ty with
  | 0 => (Fmt.f32.add 0 a b).v % 2 ^ 32
  | 1 => (Fmt.bf16.add 0 a b).v % 2 ^ 16
  | _ => (a + b) % 2 ^ 32

/-- Element `j` of the row at a key. -/
def rowElem (s : State) (ty k j : Nat) : Nat := fromBytes (fun i => s.memByte (k + elemBytes ty * j + i)) (elemBytes ty)

/-- Flat rows of table or data, where their page is the context's own and no refresh is due on their channel. -/
def nmAt (s : State) (c : Nat) (a : Word) (store : Bool) (k : Nat) : Prop :=
  s.nmKey (.cel c) a store = some k ∧ Table.find? s.refresh (channelOf k) = none
def nmTable (s : State) (c : Nat) (m : NmCmd) (at_ : Word) (x : Nat) (store : Bool) (k : Nat) : Prop :=
  nmAt s c (at_ + BitVec.ofNat 64 (nmRow m.ctl * nmStride m.ctl * x)) store k
/-- Row `i` of DATA: in the scratchpad with DSP, else a flat row. -/
def nmData (s : State) (c : Nat) (m : NmCmd) (i : Nat) (store : Bool) (k : Nat) : Prop :=
  let a := m.data + BitVec.ofNat 64 (nmRow m.ctl * i)
  if nmDsp m.ctl then k = padKey (CoreId.cel c).padIdx a.toNat else nmAt s c a store k

/-- A position ends: its command counts it, and no other context changes. -/
def NmStep (c : Nat) (s t : State) (m : NmCmd) : Prop :=
  exec (.nmPosition c) s = .next t
  ∧ ({ t with cel := s.cel, mem := s.mem, rewrites := s.rewrites, layers := s.layers, l2 := s.l2, tlb := s.tlb } : State) = s
  ∧ (∀ d, d ≠ .cel c → t.ctx d = s.ctx d)
  ∧ t.ctx (.cel c) = { s.ctx (.cel c) with nmq := m :: (s.ctx (.cel c)).nmq.drop 1 }

/-- A position writes the row at key `k`, its element `j` being `f j`; a flat row leaves no older byte in the L2 (R105). -/
def NmWrites (c : Nat) (s : State) (m : NmCmd) (k : Nat) (flat : Bool) (f : Nat → Nat) : Prop :=
  ∃ t, NmStep c s t { m with pos := m.pos + 1 } ∧ SameMemoryBut s t k (nmRow m.ctl)
    ∧ (∀ j, elemBytes (nmType m.ctl) * j < nmRow m.ctl → rowElem t (nmType m.ctl) k j = f j)
    ∧ (if flat then ∀ p, Table.find? t.l2 p = (if k ≤ p ∧ p < k + nmRow m.ctl then none else Table.find? s.l2 p)
       else t.l2 = s.l2)

/-- The checks of R348 after the fields' own, in their order: where one fails, its cause and its TVAL. -/
def nmAddressChecks (k : NmKind) (v : Bool) (b d x c : Word) : List (Bool × Cause × Word) :=
  let l := nmRow c
  let n := nmCount c
  let two := k == .nmrow && v
  let len := if k == .nired then l else n * l
  [(decide (2 ^ 55 ≤ b.toNat), .addrBad, b), (b.toNat % l != 0, .addrAlign, b),
   (!nmDsp c && decide (2 ^ 55 ≤ d.toNat), .addrBad, d), (!nmDsp c && d.toNat % l != 0, .addrAlign, d),
   (two && decide (2 ^ 55 ≤ x.toNat), .addrBad, x), (two && x.toNat % l != 0, .addrAlign, x),
   (nmList k && decide (2 ^ 19 < x.toNat + 4 * n), .addrBad, x), (nmList k && x.toNat % 4 != 0, .addrAlign, x),
   (nmDsp c && decide (2 ^ 19 < d.toNat + len), .addrBad, d), (nmDsp c && d.toNat % l != 0, .addrAlign, d)]

/-- A blocking instruction leaves its context blocked at its bundle, its queue and memory as they were (R59). -/
def Waits (i : Instr) (s : State) (w : Wait) : Prop :=
  ∃ t, exec i s = .next t ∧ (t.ctx s.core).run = .blocked w ∧ (t.ctx s.core).nmq = (s.ctx s.core).nmq ∧ SameMemory s t

/-! ### Events of a context -/

/-- A context leaves its wait, outside a handler (R380). -/
def awake (x : Ctx) : Ctx := match x.run with
  | .blocked _ => if x.handler then x else { x with run := .ready }
  | _ => x

/-- Nothing but the record of one core changes. -/
def GivesCore (i : Instr) (s : State) (c : CoreId) (r : Core) : Prop :=
  ∃ t, exec i s = .next t ∧ ({ t with seqCore := s.seqCore, celCore := s.celCore } : State) = s ∧ t.coreRec c = r
    ∧ ∀ d, (d.isCellar ≠ c.isCellar ∨ d.num / 4 ≠ c.num / 4) → t.coreRec d = s.coreRec d

/-- Nothing but the record of a context and of its core has changed. -/
def OnlyCtxAndCore (c : CoreId) (s t : State) : Prop :=
  ({ t with seq := s.seq, cel := s.cel, seqCore := s.seqCore, celCore := s.celCore } : State) = s ∧ ∀ d, d ≠ c → t.ctx d = s.ctx d

/-- RESULT_ARRIVAL leaves context `c` as `y`, and a register that it writes has good parity; a core whose freeze line is held has
spent a frozen cycle of weight 0 (R188, R189, R398). -/
def Arrives (s : State) (c : CoreId) (y : Ctx) : Prop :=
  let r := s.coreRec c
  ∃ t, exec (.resultArrival c) s = .next t ∧ (∃ f, OnlyCtxAndCore c s { t with flaws := f }) ∧ (∀ e ∈ t.flaws, e ∈ s.flaws)
    ∧ t.ctx c = y
    ∧ t.coreRec c = (if s.held c then { r with window := (0 :: r.window).take 63 } else r)

/-! ### Requests, ends and faults of tasks -/

/-- A drain request reaches a context that has no companions: with an active loop, in a handler, on a frozen stream, or held by
the debugger it stands; else the context, also one that waits or awaits a fault's service, stops between issue steps, and its
core goes on with another (R375, R392, R450). -/
def DrainsOne (i : Instr) (s : State) (c : CoreId) (why : DrainBy) : Prop :=
  let x := s.ctx c
  let goesOn : Prop := x.run = .ready ∨ (∃ w, x.run = .blocked w) ∨ ∃ a b v d, x.run = .service a b v d
  (x.loops ≠ [] ∨ x.handler = true ∨ x.frozenAt ≠ none ∨ x.stopped = true ∨ x.stepStop = true → goesOn →
    exec i s = .next (s.setCtx c { x with drain := some (x.drain.getD why) }))
  ∧ (x.loops = [] → x.handler = false → x.frozenAt = none → x.stopped = false → x.stepStop = false → goesOn →
    ∃ t, exec i s = .next t ∧ OnlyCtxAndCore c s t
      ∧ t.ctx c = { x with run := .drained false, drain := some (x.drain.getD why) }
      ∧ (t.coreRec c).running = if (s.coreRec c).running = some c.num then none else (s.coreRec c).running)

/-- A task whose context is let go: the context and its die contexts have no task, and no bank is the task's. -/
def LeavesContext (s t : State) (u : TaskId) (c : CoreId) : Prop :=
  (t.ctx c).task = none ∧ (t.ctx c).run = .idle ∧ (∀ d ∈ (s.ctx c).dieIds, c.isCellar = false → t.dctx d = DieCtx.unbound)
  ∧ ∀ m b h, Table.get .free (t.die m).banks b ≠ .owned u h

/-- A die context has faulted at a number: a packet's slot has, or an operation or nest that the packet began (R387). -/
def FaultsAt (s : State) (d : DieId) (f : Nat) : Prop :=
  ∃ h, ((s.dctx d).fault = some h ∨ (s.dctx d).engFault = some h) ∧ h.no = f

/-- The notice of a die fault at number `f` (R384, R388): the fault of the lowest rank that faults there, the ranks that fault
there, and how far every die has retired. -/
def IsNotice (s : State) (c : CoreId) (f : Nat) (g : DieFault) (n : Notice) : Prop :=
  let ds := (s.ctx c).dieIds
  n.f = f ∧ n.slot = g.slot ∧ n.cause = g.cause ∧ n.tval = g.tval
  ∧ (∀ r, r < 48 → (n.dies.getLsbD r = true ↔ ∃ d, ds[r]? = some d ∧ FaultsAt s d f))
  ∧ n.pd ≤ f ∧ (∀ d ∈ ds, n.pd ≤ (s.dctx d).retired) ∧ (n.pd = f ∨ ∃ d ∈ ds, n.pd = (s.dctx d).retired)

/-- The fault that decides for a frozen stream: of the dies that have faulted at `f`, the one of the lowest rank; of a die's
two, its packet's. -/
def DecidingFault (s : State) (c : CoreId) (f : Nat) (g : DieFault) : Prop :=
  g.no = f ∧ ∃ r d, (s.ctx c).dieIds[r]? = some d
    ∧ ((s.dctx d).fault = some g ∨ (s.dctx d).engFault = some g ∧ ∀ h, (s.dctx d).fault = some h → h.no ≠ f)
    ∧ ∀ (k : Nat) (e : DieId), k < r → (s.ctx c).dieIds[k]? = some e → ¬ FaultsAt s e f

/-- The stream of a partition is frozen at `f`, and every die has ended what it had begun and has come to `f` or has
faulted. -/
def FrozenAt (s : State) (c : CoreId) (f : Nat) : Prop :=
  (s.ctx c).frozenAt = some f ∧ (s.ctx c).notice = none ∧ ((s.ctx c).handler = false ∨ (s.ctx c).trap.kind ≠ 2)
  ∧ ∀ d ∈ (s.ctx c).dieIds, (s.dctx d).half = false ∧ ((s.dctx d).fault ≠ none ∨ f ≤ (s.dctx d).retired + 1)

/-- Bytes of HBM that the frames of a save do not take. -/
def OutsideFrames (v : Saved) (k : Nat) : Prop :=
  (k < hbmKey v.frame ∨ hbmKey v.frame + 8192 ≤ k)
  ∧ ∀ e ∈ v.dies, ∀ f ∈ (e.2 : SavedDie).frames, k < hbmKey (frameBase f) ∨ hbmKey (frameBase f) + 65536 ≤ k

/-! ### Launches and their tasks -/

/-- Record `r`, of a type that `p` takes, stands at the head of the queue whose turn it is (R362). -/
def HeadServed (s : State) (p : Nat → Bool) (q : Nat) (r : QRec) (rest : List QRec) : Prop :=
  s.serveQueue p = some q ∧ (s.queue q).recs = r :: rest

/-- A record is turned away with a status (R361, R363): Q_STAT has it, NOTACC counts it, and its SIGNAL event is FAILED. -/
def TurnedAway (s t : State) (q f : Nat) (r : BitVec 512) (status : BitVec 8) : Prop :=
  (t.queue q).last = status ∧ (t.queue q).cookie = BitVec.ofNat 32 (recCookie r)
  ∧ (t.queue q).notAcc = (s.queue q).notAcc + 1
  ∧ (recSignal r ≠ 0 → recSignal r < 4096 → t.event f (recSignal r) = { s.event f (recSignal r) with st := 2 })
  ∧ t.nextLid = s.nextLid ∧ SameMemory s t

/-- The records that are performed when their WAITs are satisfied, and their TYPEs (R362). -/
def serialRows : List (Instr × Nat) := [(.patch, 2), (.resetRecord, 3), (.tnew, 4), (.tfree, 5)]

/-- No diagnostic program runs where the records of a batch want to bind (R415). -/
def NoKiln (s : State) (b : List (BindAct × BindRec)) : Prop := ∀ k ∈ s.kilnsAt b, (s.ctx k).diag = false

/-- The SIGNAL event of a performed record gets a state. -/
def Signals (s t : State) (f : Nat) (r : BitVec 512) (st : BitVec 2) : Prop :=
  recSignal r ≠ 0 → recSignal r < 4096 → t.event f (recSignal r) = { s.event f (recSignal r) with st := st }

/-! ### The package -/

/-- Bytes of a mailbox, from an offset on. -/
def MailHas (t : State) (off : Nat) (n : Nat) (v : Nat) : Prop :=
  ∀ i, i < n → Table.get 0 t.mailbox (off + i) = BitVec.ofNat 8 (v / 256 ^ i)

/-- A number in the mailbox. -/
def mailNum (s : State) (off n : Nat) : Nat := fromBytes (fun i => Table.get 0 s.mailbox (off + i)) n

/-- The mailbox holds a started debugger command for a context that exists (R452). -/
def DbgAsks (s : State) (cmd : Nat) (c : CoreId) : Prop :=
  mailNum s 1028 4 = 1 ∧ mailNum s 1024 1 = cmd
  ∧ match c with
    | .seq n => n < 32 ∧ mailNum s 1025 1 = 0 ∧ mailNum s 1026 2 = n
    | .cel n => n < 768 ∧ mailNum s 1025 1 = 1 ∧ mailNum s 1026 2 = n

/-- A debugger command has finished with a status: GO is 0 and STATUS holds it; without data DATA stands as it was. -/
def DbgDone (s t : State) (status : Nat) (data : Option Word) : Prop :=
  MailHas t 1028 4 0 ∧ MailHas t 1048 1 status ∧ MailHas t 1040 8 (match data with | some v => v.toNat | none => mailNum s 1040 8)
  ∧ ∀ k, ¬(1028 ≤ k ∧ k < 1032) → ¬(1040 ≤ k ∧ k < 1049) → Table.get 0 t.mailbox k = Table.get 0 s.mailbox k

/-- The entry of a unit in the HEALTH table after a kiln run (R413, R414). -/
def afterKiln (h : HealthEntry) (now : Word) (pass : Bool) : HealthEntry :=
  let st := if pass then (if h.st = .suspect ∧ 2 ≤ h.passes + 1 then .good else h.st)
    else match h.st with
      | .good => .suspect
      | _ => .retired
  { h with
    st, lastKiln := now, lastChange := if st = h.st then h.lastChange else now,
    kilnPass := if pass then min (h.kilnPass + 1) 65535 else h.kilnPass,
    kilnFail := if pass then h.kilnFail else min (h.kilnFail + 1) 65535,
    passes := if pass then (if st = h.st then h.passes + 1 else 0) else 0 }

/-- Nothing but the mailbox and the record of one core context changes. -/
def OtherThan (c : CoreId) (s t : State) : Prop :=
  ({ t with seq := s.seq, cel := s.cel, mailbox := s.mailbox } : State) = s ∧ ∀ d, d ≠ c → t.ctx d = s.ctx d

/-! ### Steps -/

/-- The state in which the row at the head of the agenda runs: it has left the agenda, and time has passed. -/
def rowState (s : State) (rest : List Instr) : State :=
  { State.tick { s with agenda := rest } with phase := .whole, verdict := .ok, work := [] }

/-- How the one slot operation of a bundle or packet ends a step: its checks are made first, on state `v`, from which the
effect then starts; a check that fails leaves `u` but for what its failure does (R154, R184). -/
def OneSlotRuns (s u v : State) (sl : Slot) (i : Instr) : Prop :=
  ∀ p, exec i { v with work := [], slot := sl, phase := .probe, verdict := .ok, emptied := none } = .next p →
    (p.verdict = .ok → ∀ t, exec i { v with work := [], slot := sl, phase := .commit } = .next t →
      step s = .next (State.finishWork { t with phase := .whole, work := [] }))
    ∧ (∀ c x y, p.verdict = .trap c x y → step s = .next (u.failWork p))
    ∧ (∀ k n x, p.verdict = .ue k n x → step s = .next (u.failWork p))
    ∧ (∀ w, p.verdict = .wait w → step s = .next (u.failWork p))

/-- The context issues the bundle at its N0, which holds the one word `w` of slot `sl`, decoded as `i`: nothing is delivered
first, nothing waits or traps, what it reads is free of errors, and the bundle's predicate lets it run (R217). -/
def IssuesOne (u : State) (c : CoreId) (hd w : Word32) (sl : Slot) (i : Instr) : Prop :=
  let x := u.ctx c
  u.mayIssue c = true ∧ x.pending = false ∧ x.stopsHere = false ∧ (x.handler = true ∨ x.awaited = none)
  ∧ u.fetch (u.launchOf c).codeVer x.n0 = .bundle hd [(sl, w)] ∧ checkHead c.isCellar hd [(sl, w)] = none
  ∧ decodeSlot c.isCellar sl w (hd.extractLsb' 0 16) = .ok i
  ∧ x.interlocked = [] ∧ x.mark0 = false ∧ x.qreg (hd.extractLsb' 16 4) = true ∧ x.rep = none
  ∧ latchHazard x.hazard [(sl, i)] = false
  ∧ (u.coreRec c).overLimit (bundleWeight c.isCellar [(sl, i)]) = false ∧ u.flaws = []

end Sys2Proof.Claims

section

open Sys2Proof Sys2Proof.Machine Sys2Proof.Claims

/-! ### Scalar integer operations -/

/-- R162, R164, R166 and R169: what each scalar source code reads, s0 as 0; a delivery to s0 or q0 writes nothing, one to another
register writes it and no other, and q0 always reads as true. -/
def Obligations.ScalarSourceReads : Prop :=
  ∀ (x : Ctx) (sl : Slot) (n : BitVec 6) (l : BitVec 3),
    x.src sl (.reg 0) = 0
    ∧ (n ≠ 0 → x.src sl (.reg n) = Table.get 0 x.regs n.toNat)
    ∧ x.src sl (.latch l) = Table.get 0 x.latches l.toNat
    ∧ x.src .v .held = Table.get 0 x.holds 0 ∧ x.src .x .held = Table.get 0 x.holds 1
    ∧ x.src .p .held = Table.get 0 x.holds 2 ∧ x.src .c .held = Table.get 0 x.holds 3
    ∧ (∀ v, (x.deliver (.s 0 v)) = x) ∧ (∀ v, (x.deliver (.q 0 v)) = x) ∧ x.qreg 0 = true
    ∧ (∀ v, n ≠ 0 → (x.deliver (.s n v)).src sl (.reg n) = v)
    ∧ (∀ v m, m ≠ n → (x.deliver (.s m v)).src sl (.reg n) = x.src sl (.reg n))
    ∧ (∀ v (p : BitVec 4), p ≠ 0 → (x.deliver (.q p v)).qreg p = v)

/-- R197: the integer operations of two registers, at every width and sign, with the latencies of R185. -/
def Sys2Proof.Claims.integerOperations : Prop :=
  ∀ (o : IntRR) (s : State), s.effective →
    let a := s.src o.a
    let b := s.src o.b
    let A := operand o.sgn o.w a
    let B := operand o.sgn o.w b
    let sh := b.toNat % width o.w
    GivesRes (.add o) s o 1 (A + B)
    ∧ GivesRes (.sub o) s o 1 (A - B)
    ∧ GivesRes (.mul o) s o 3 (A * B)
    ∧ GivesRes (.mulh o) s o 3 ((A * B).fdiv (2 ^ width o.w))
    ∧ (B ≠ 0 → GivesRes (.div o) s o 20 (A.tdiv B))
    ∧ (B ≠ 0 → GivesRes (.rem o) s o 20 (A - B * A.tdiv B))
    ∧ GivesRes (.and o) s o 1 ((a.setWidth (width o.w)) &&& (b.setWidth (width o.w))).toNat
    ∧ GivesRes (.or o) s o 1 ((a.setWidth (width o.w)) ||| (b.setWidth (width o.w))).toNat
    ∧ GivesRes (.xor o) s o 1 ((a.setWidth (width o.w)) ^^^ (b.setWidth (width o.w))).toNat
    ∧ GivesRes (.andn o) s o 1 ((a.setWidth (width o.w)) &&& ~~~(b.setWidth (width o.w))).toNat
    ∧ GivesRes (.shl o) s o 1 (A * 2 ^ sh)
    ∧ GivesRes (.shr o) s o 1 ((a.setWidth (width o.w)) >>> sh).toNat
    ∧ GivesRes (.sar o) s o 1 ((a.setWidth (width o.w)).sshiftRight sh).toInt
    ∧ GivesRes (.ror o) s o 1 ((a.setWidth (width o.w)).rotateRight sh).toNat
    ∧ GivesRes (.min o) s o 1 (if A ≤ B then A else B)
    ∧ GivesRes (.max o) s o 1 (if A ≤ B then B else A)

/-- R198: division by zero, and the most negative number divided by −1. -/
def Sys2Proof.Claims.divisionCorners : Prop :=
  ∀ (o : IntRR) (s : State), s.effective →
    let A := operand o.sgn o.w (s.src o.a)
    let B := operand o.sgn o.w (s.src o.b)
    (B = 0 → GivesRes (.div o) s o 20 (-1) ∧ GivesRes (.rem o) s o 20 A
      ∧ ∃ v, GivesS (.div o) s o.nw o.d v 20 0 ∧ v.setWidth (width o.w) = BitVec.allOnes (width o.w))
    ∧ (o.sgn = true → A = -(2 ^ (width o.w - 1)) → B = -1 →
        GivesRes (.div o) s o 20 A ∧ GivesS (.rem o) s o.nw o.d 0 20 0)

/-- R197 and R198: the integer operations of two registers. -/
def Obligations.IntegerOperations : Prop := integerOperations ∧ divisionCorners

/-- R199: the immediate forms on 64 bits. -/
def Obligations.ImmediateOperations : Prop :=
  ∀ (s : State), s.effective →
    (∀ o : IntRI,
      GivesS (.addi o) s o.nw o.d (s.src o.a + o.imm.signExtend 64) 1 0
      ∧ GivesS (.andi o) s o.nw o.d (s.src o.a &&& o.imm.signExtend 64) 1 0
      ∧ GivesS (.ori o) s o.nw o.d (s.src o.a ||| o.imm.signExtend 64) 1 0
      ∧ GivesS (.xori o) s o.nw o.d (s.src o.a ^^^ o.imm.signExtend 64) 1 0)
    ∧ (∀ o : ShiftRI, ∃ l r a : Word,
      GivesS (.shli o) s o.nw o.d l 1 0 ∧ GivesS (.shri o) s o.nw o.d r 1 0 ∧ GivesS (.sari o) s o.nw o.d a 1 0
      ∧ (∀ i, i < 64 → l.getLsbD i = (decide (o.sh.toNat ≤ i) && (s.src o.a).getLsbD (i - o.sh.toNat)))
      ∧ (∀ i, i < 64 → r.getLsbD i = (s.src o.a).getLsbD (i + o.sh.toNat))
      ∧ (∀ i, i < 64 → a.getLsbD i
          = if i + o.sh.toNat < 64 then (s.src o.a).getLsbD (i + o.sh.toNat) else (s.src o.a).getLsbD 63))

/-- R200 to R206: LIH, compares, predicate logic, SEL, bit fields, counts and LEA. -/
def Obligations.FieldAndPredicateOperations : Prop :=
  ∀ (s : State), s.effective →
    (∀ o : LihOp, ∃ v, GivesS (.lih o) s o.nw o.d v 1 0
      ∧ v.toNat = (s.src o.a).toNat * 2 ^ 16 % 2 ^ 64 + o.himm.toNat)
    ∧ (∀ o : CmpRR, GivesQ (.cmp o) s o.nw o.q
        (condHolds o.cond ((s.src o.a).setWidth (width o.w)) ((s.src o.b).setWidth (width o.w))) 1 0)
    ∧ (∀ o : CmpRI, GivesQ (.cmpi o) s o.nw o.q (condHolds o.cond (s.src o.a) (o.imm.signExtend 64)) 1 0)
    ∧ (∀ o : PlogOp, GivesQ (.plog o) s o.nw o.q
        (o.tt.getLsbD (2 * ((s.src o.b).toNat % 2) + (s.src o.a).toNat % 2)) 1 0)
    ∧ (∀ o : SelOp, GivesS (.sel o) s o.nw o.d
        (if ((s.ctx s.core).qreg o.q ^^ o.neg) = true then s.src o.a else s.src o.b) 1 0)
    ∧ (∀ o : FieldOp, ∃ v, GivesS (.bext o) s o.nw o.d v 1 0
        ∧ ∀ i, v.getLsbD i = (decide (i ≤ o.n1.toNat) && (s.src o.a).getLsbD (o.pos.toNat + i)))
    ∧ (∀ o : FieldOp, ∃ v, GivesS (.bins o) s o.nw o.d v 1 0
        ∧ ∀ i, i < 64 → v.getLsbD i
          = if o.pos.toNat ≤ i ∧ i ≤ o.pos.toNat + o.n1.toNat then (s.src o.a).getLsbD (i - o.pos.toNat)
            else (s.dreg o.d).getLsbD i)
    ∧ (∀ o : BcntOp, ∃ v, GivesS (.bcnt o) s o.nw o.d v 1 0 ∧
        (let f := (s.src o.a).setWidth (width o.w)
         match o.kind with
         | .pop => v.toNat = ones f
         | .clz => Leading f v.toNat
         | .ctz => Trailing f v.toNat))
    ∧ (∀ o : LeaOp, ∃ v, GivesS (.lea o) s o.nw o.d v 1 0
        ∧ v.toNat = ((s.src o.a).toNat + (s.src o.b).toNat * 2 ^ o.sc.toNat) % 2 ^ 64)

/-! ### Scalar floating point -/

/-- R208 with R71 and R74: on finite operands the arithmetic operations give the exact result rounded once by FPCTL.RM: its
sign, also of a zero and of an overflow, the infinity or the largest finite number, and the flags OF, UF and NX. -/
def Obligations.FloatingPointRoundsOnce : Prop :=
  ∀ (s : State), s.effective →
    (∀ o : FpRR,
      let a := fpBits o.dbl (s.src o.a)
      let b := fpBits o.dbl (s.src o.b)
      fpFinite o.dbl a = true → fpFinite o.dbl b = true →
        let na := fpNeg o.dbl a
        let nb := fpNeg o.dbl b
        GivesRounded (.fadd o) s o.dbl o.nw o.d 4 (fpVal o.dbl a + fpVal o.dbl b) (zeroSumNeg s na nb)
        ∧ GivesRounded (.fsub o) s o.dbl o.nw o.d 4 (fpVal o.dbl a - fpVal o.dbl b) (zeroSumNeg s na (!nb))
        ∧ GivesRounded (.fmul o) s o.dbl o.nw o.d 4 (fpVal o.dbl a * fpVal o.dbl b) (na ^^ nb)
        ∧ (fpZero o.dbl b = false →
            GivesRounded (.fdiv o) s o.dbl o.nw o.d (if o.dbl then 20 else 12) (fpVal o.dbl a / fpVal o.dbl b)
              (na ^^ nb)))
    ∧ (∀ o : FmaOp,
      let a := fpBits o.dbl (s.src o.a)
      let b := fpBits o.dbl (s.src o.b)
      let c := fpBits o.dbl (s.dreg o.d)
      fpFinite o.dbl a = true → fpFinite o.dbl b = true → fpFinite o.dbl c = true →
        GivesRounded (.fma o) s o.dbl o.nw o.d 4
          ((if o.var.getLsbD 1 then -1 else 1) * (fpVal o.dbl a * fpVal o.dbl b)
            + (if o.var.getLsbD 0 then -1 else 1) * fpVal o.dbl c)
          (zeroSumNeg s (o.var.getLsbD 1 ^^ fpNeg o.dbl a ^^ fpNeg o.dbl b) (o.var.getLsbD 0 ^^ fpNeg o.dbl c)))

/-- R72 and R208: invalid operations, NaN results, infinite operands and zero divisors. -/
def Sys2Proof.Claims.floatingPointSpecialCases : Prop :=
  ∀ (s : State), s.effective →
    (∀ o : FpRR,
      let a := fpBits o.dbl (s.src o.a)
      let b := fpBits o.dbl (s.src o.b)
      let nan : Word := BitVec.ofNat 64 (canonNan o.dbl)
      let lat : Nat := if o.dbl then 20 else 12
      -- a NaN operand gives the canonical NaN, NV only for a signalling one
      ((fpNan o.dbl a || fpNan o.dbl b) = true →
        let fl : BitVec 5 := if fpSig o.dbl a || fpSig o.dbl b then 16 else 0
        GivesS (.fadd o) s o.nw o.d nan 4 fl ∧ GivesS (.fsub o) s o.nw o.d nan 4 fl
        ∧ GivesS (.fmul o) s o.nw o.d nan 4 fl ∧ GivesS (.fdiv o) s o.nw o.d nan lat fl)
      -- infinities of one sign subtracted, zero times infinity, 0 / 0 and infinity / infinity
      ∧ (fpInf o.dbl a = true → fpInf o.dbl b = true →
          (fpNeg o.dbl a ≠ fpNeg o.dbl b → GivesS (.fadd o) s o.nw o.d nan 4 16
            ∧ GivesS (.fsub o) s o.nw o.d (fpInfinity o.dbl (fpNeg o.dbl a)) 4 0)
          ∧ (fpNeg o.dbl a = fpNeg o.dbl b → GivesS (.fsub o) s o.nw o.d nan 4 16
            ∧ GivesS (.fadd o) s o.nw o.d (fpInfinity o.dbl (fpNeg o.dbl a)) 4 0)
          ∧ GivesS (.fdiv o) s o.nw o.d nan lat 16)
      -- an infinity with a finite number, and the product of an infinity
      ∧ (fpInf o.dbl a = true → fpFinite o.dbl b = true →
          GivesS (.fadd o) s o.nw o.d (fpInfinity o.dbl (fpNeg o.dbl a)) 4 0
          ∧ GivesS (.fsub o) s o.nw o.d (fpInfinity o.dbl (fpNeg o.dbl a)) 4 0
          ∧ GivesS (.fdiv o) s o.nw o.d (fpInfinity o.dbl (fpNeg o.dbl a ^^ fpNeg o.dbl b)) lat 0)
      ∧ (fpFinite o.dbl a = true → fpInf o.dbl b = true →
          GivesS (.fadd o) s o.nw o.d (fpInfinity o.dbl (fpNeg o.dbl b)) 4 0
          ∧ GivesS (.fsub o) s o.nw o.d (fpInfinity o.dbl (!fpNeg o.dbl b)) 4 0
          ∧ GivesS (.fdiv o) s o.nw o.d (fpZeroOf o.dbl (fpNeg o.dbl a ^^ fpNeg o.dbl b)) lat 0)
      ∧ ((fpInf o.dbl a || fpInf o.dbl b) = true → (fpNan o.dbl a || fpNan o.dbl b) = false →
          (fpZero o.dbl a || fpZero o.dbl b) = false →
          GivesS (.fmul o) s o.nw o.d (fpInfinity o.dbl (fpNeg o.dbl a ^^ fpNeg o.dbl b)) 4 0)
      ∧ ((fpInf o.dbl a && fpZero o.dbl b || fpZero o.dbl a && fpInf o.dbl b) = true →
          GivesS (.fmul o) s o.nw o.d nan 4 16)
      ∧ (fpZero o.dbl a = true → fpZero o.dbl b = true → GivesS (.fdiv o) s o.nw o.d nan lat 16)
      -- a finite non-zero number over zero is an infinity, with DZ
      ∧ (fpFinite o.dbl a = true → fpZero o.dbl a = false → fpZero o.dbl b = true →
          ∃ v, GivesS (.fdiv o) s o.nw o.d v lat 8 ∧ fpInf o.dbl v.toNat = true
            ∧ (fpNeg o.dbl v.toNat = (fpNeg o.dbl a ^^ fpNeg o.dbl b))))
    ∧ (∀ o : FpR1,
      let a := fpBits o.dbl (s.src o.a)
      let nan : Word := BitVec.ofNat 64 (canonNan o.dbl)
      let lat : Nat := if o.dbl then 20 else 12
      (fpNan o.dbl a = true → GivesS (.fsqrt o) s o.nw o.d nan lat (if fpSig o.dbl a then 16 else 0))
      ∧ (fpNan o.dbl a = false → fpNeg o.dbl a = true → fpZero o.dbl a = false →
          GivesS (.fsqrt o) s o.nw o.d nan lat 16)
      ∧ (fpZero o.dbl a = true → GivesS (.fsqrt o) s o.nw o.d (BitVec.ofNat 64 a) lat 0)
      ∧ (fpInf o.dbl a = true → fpNeg o.dbl a = false → GivesS (.fsqrt o) s o.nw o.d (fpInfinity o.dbl false) lat 0))
    ∧ (∀ o : FmaOp,
      let a := fpBits o.dbl (s.src o.a)
      let b := fpBits o.dbl (s.src o.b)
      let c := fpBits o.dbl (s.dreg o.d)
      let nan : Word := BitVec.ofNat 64 (canonNan o.dbl)
      let np := o.var.getLsbD 1 ^^ fpNeg o.dbl a ^^ fpNeg o.dbl b
      let nc := o.var.getLsbD 0 ^^ fpNeg o.dbl c
      let invalid := (fpInf o.dbl a && fpZero o.dbl b || fpZero o.dbl a && fpInf o.dbl b) = true
      -- zero times infinity, whatever the addend is
      (invalid → GivesS (.fma o) s o.nw o.d nan 4 16)
      ∧ (¬invalid → (fpNan o.dbl a || fpNan o.dbl b || fpNan o.dbl c) = true →
          GivesS (.fma o) s o.nw o.d nan 4 (if fpSig o.dbl a || fpSig o.dbl b || fpSig o.dbl c then 16 else 0))
      -- an infinite product, and an infinite addend
      ∧ (¬invalid → (fpNan o.dbl a || fpNan o.dbl b || fpNan o.dbl c) = false → (fpInf o.dbl a || fpInf o.dbl b) = true →
          GivesS (.fma o) s o.nw o.d (if fpInf o.dbl c = true ∧ nc ≠ np then nan else fpInfinity o.dbl np) 4
            (if fpInf o.dbl c = true ∧ nc ≠ np then 16 else 0))
      ∧ (fpFinite o.dbl a = true → fpFinite o.dbl b = true → fpInf o.dbl c = true →
          GivesS (.fma o) s o.nw o.d (fpInfinity o.dbl nc) 4 0))

/-- R208: the square root of a finite number that is not negative is rounded once: the root lies between the midpoints
on both sides, or is cut toward zero, down or up. -/
def Sys2Proof.Claims.squareRootRoundsOnce : Prop :=
  ∀ (o : FpR1) (s : State), s.effective →
    let a := fpBits o.dbl (s.src o.a)
    fpFinite o.dbl a = true → fpNeg o.dbl a = false →
      ∃ v : Word, ∃ fl : BitVec 5, GivesS (.fsqrt o) s o.nw o.d v (if o.dbl then 20 else 12) fl
        ∧ FpPattern o.dbl v.toNat ∧ 0 ≤ fpVal o.dbl v.toNat
        ∧ (fl = 0 ∨ fl = 1) ∧ (fl = 0 ↔ fpVal o.dbl v.toNat ^ 2 = fpVal o.dbl a)
        ∧ ∀ y, FpPattern o.dbl y → 0 ≤ fpVal o.dbl y →
          match scalarRm s with
          | 0 => (fpVal o.dbl y < fpVal o.dbl v.toNat →
                ((fpVal o.dbl y + fpVal o.dbl v.toNat) / 2) ^ 2 ≤ fpVal o.dbl a)
              ∧ (fpVal o.dbl v.toNat < fpVal o.dbl y →
                fpVal o.dbl a ≤ ((fpVal o.dbl y + fpVal o.dbl v.toNat) / 2) ^ 2)
          | 3 => fpVal o.dbl a ≤ fpVal o.dbl v.toNat ^ 2
              ∧ (fpVal o.dbl a ≤ fpVal o.dbl y ^ 2 → fpVal o.dbl v.toNat ≤ fpVal o.dbl y)
          | _ => fpVal o.dbl v.toNat ^ 2 ≤ fpVal o.dbl a
              ∧ (fpVal o.dbl y ^ 2 ≤ fpVal o.dbl a → fpVal o.dbl y ≤ fpVal o.dbl v.toNat)

/-- R72 and R208: invalid operations, NaN results, infinite operands and zero divisors; square roots, rounded once. -/
def Obligations.FloatingPointSpecialCases : Prop := floatingPointSpecialCases ∧ squareRootRoundsOnce

/-- R209 and R210: FMIN, FMAX and FCMP. -/
def Sys2Proof.Claims.floatingPointOrder : Prop :=
  ∀ (s : State), s.effective →
    (∀ o : FpRR,
      let a := fpBits o.dbl (s.src o.a)
      let b := fpBits o.dbl (s.src o.b)
      let fl : BitVec 5 := if fpSig o.dbl a || fpSig o.dbl b then 16 else 0
      let below : Prop := fpLess o.dbl a b
        ∨ (fpZero o.dbl a = true ∧ fpZero o.dbl b = true ∧ fpNeg o.dbl a = true ∧ fpNeg o.dbl b = false)
      (fpNan o.dbl a = true → fpNan o.dbl b = true →
        GivesS (.fmin o) s o.nw o.d (BitVec.ofNat 64 (canonNan o.dbl)) 4 fl
        ∧ GivesS (.fmax o) s o.nw o.d (BitVec.ofNat 64 (canonNan o.dbl)) 4 fl)
      ∧ (fpNan o.dbl a = true → fpNan o.dbl b = false →
        GivesS (.fmin o) s o.nw o.d (BitVec.ofNat 64 b) 4 fl ∧ GivesS (.fmax o) s o.nw o.d (BitVec.ofNat 64 b) 4 fl)
      ∧ (fpNan o.dbl a = false → fpNan o.dbl b = true →
        GivesS (.fmin o) s o.nw o.d (BitVec.ofNat 64 a) 4 fl ∧ GivesS (.fmax o) s o.nw o.d (BitVec.ofNat 64 a) 4 fl)
      ∧ (below → GivesS (.fmin o) s o.nw o.d (BitVec.ofNat 64 a) 4 0
          ∧ GivesS (.fmax o) s o.nw o.d (BitVec.ofNat 64 b) 4 0)
      ∧ (fpNan o.dbl a = false → fpNan o.dbl b = false → ¬below →
          GivesS (.fmin o) s o.nw o.d (BitVec.ofNat 64 b) 4 0 ∧ GivesS (.fmax o) s o.nw o.d (BitVec.ofNat 64 a) 4 0))
    ∧ (∀ o : FcmpOp, ∃ r : Bool,
      let a := fpBits o.dbl (s.src o.a)
      let b := fpBits o.dbl (s.src o.b)
      let un := (fpNan o.dbl a || fpNan o.dbl b) = true
      let nv : Bool := match o.cond with
        | .lt | .le => fpNan o.dbl a || fpNan o.dbl b
        | _ => fpSig o.dbl a || fpSig o.dbl b
      GivesQ (.fcmp o) s o.nw o.q r 4 (if nv then 16 else 0)
      ∧ (r = true ↔ match o.cond with
          | .eq => fpSame o.dbl a b
          | .lt => fpLess o.dbl a b
          | .le => fpLess o.dbl a b ∨ fpSame o.dbl a b
          | .un => un
          | .ne => un ∨ ¬fpSame o.dbl a b))

/-- R211 and R212: the class of an operand as one bit, and the sign operations on bits. -/
def Sys2Proof.Claims.floatingPointClassAndSign : Prop :=
  ∀ (s : State), s.effective →
    (∀ o : FpR1,
      let a := fpBits o.dbl (s.src o.a)
      let k : Nat :=
        if fpNan o.dbl a then (if fpSig o.dbl a then 8 else 9)
        else if fpInf o.dbl a then (if fpNeg o.dbl a then 0 else 7)
        else if fpZero o.dbl a then (if fpNeg o.dbl a then 3 else 4)
        else if fpExp o.dbl a = 0 then (if fpNeg o.dbl a then 2 else 5)
        else (if fpNeg o.dbl a then 1 else 6)
      GivesS (.fclass o) s o.nw o.d (BitVec.ofNat 64 (2 ^ k)) 4 0)
    ∧ (∀ o : FsgnOp, ∃ v : Word,
      let a := s.src o.a
      let b := s.src o.b
      let top : Nat := if o.dbl then 63 else 31
      GivesS (.fsgn o) s o.nw o.d v 4 0
      ∧ (∀ i, i < top → v.getLsbD i = a.getLsbD i) ∧ (∀ i, top < i → v.getLsbD i = false)
      ∧ v.getLsbD top = match o.kind with
          | .j => b.getLsbD top
          | .jn => !b.getLsbD top
          | .jx => (a.getLsbD top ^^ b.getLsbD top))

/-- R209 to R212: FMIN, FMAX, FCMP, FCLASS and FSGN. -/
def Obligations.FloatingPointOrderClassAndSign : Prop := floatingPointOrder ∧ floatingPointClassAndSign

/-- R213 with R71, R74 and R75: conversions between integers and floating point, and between the two precisions; the
narrowing overflows and underflows as an arithmetic result does. -/
def Obligations.FloatingPointConversions : Prop :=
  ∀ (s : State), s.effective →
    (∀ o : CvtIfOp, ∃ v : Word, ∃ fl : BitVec 5, GivesS (.cvtif o) s o.nw o.d v 4 fl
      ∧ Rounds o.dbl (scalarRm s) (operand o.sgn o.w (s.src o.a)) v.toNat
      ∧ fl = if fpVal o.dbl v.toNat = operand o.sgn o.w (s.src o.a) then 0 else 1)
    ∧ (∀ o : CvtFiOp, ∃ v : Word, ∃ fl : BitVec 5, GivesS (.cvtfi o) s o.nw o.d v 4 fl ∧
      (let a := fpBits o.dbl (s.src o.a)
       let lo := rangeLo o.sgn o.w
       let hi := rangeHi o.sgn o.w
       (fpNan o.dbl a = true → v = 0 ∧ fl = 16)
       ∧ (fpInf o.dbl a = true → fl = 16 ∧ IsRes o.sgn o.w (if fpNeg o.dbl a then lo else hi) v)
       ∧ (fpFinite o.dbl a = true → ∃ n : Int, RoundsInt (if o.rtz then 1 else scalarRm s) (fpVal o.dbl a) n
          ∧ (n < lo → fl = 16 ∧ IsRes o.sgn o.w lo v) ∧ (hi < n → fl = 16 ∧ IsRes o.sgn o.w hi v)
          ∧ (lo ≤ n → n ≤ hi → IsRes o.sgn o.w n v ∧ fl = if (n : Rat) = fpVal o.dbl a then 0 else 1))))
    ∧ (∀ o : FpR1, ∃ v : Word, ∃ fl : BitVec 5, GivesS (.cvtff o) s o.nw o.d v 4 fl ∧
      (let a := fpBits (!o.dbl) (s.src o.a)
       (fpNan (!o.dbl) a = true → v.toNat = canonNan o.dbl ∧ fl = if fpSig (!o.dbl) a then 16 else 0)
       ∧ (fpInf (!o.dbl) a = true → fpInf o.dbl v.toNat = true ∧ fpNeg o.dbl v.toNat = fpNeg (!o.dbl) a ∧ fl = 0)
       ∧ (fpFinite (!o.dbl) a = true → o.dbl = true →
          FpPattern true v.toNat ∧ fpVal true v.toNat = fpVal false a ∧ fpNeg true v.toNat = fpNeg false a ∧ fl = 0)
       ∧ (fpFinite (!o.dbl) a = true → o.dbl = false →
          RoundedOnce (form false) (scalarRm s) (fpVal true a) (fpNeg true a) v.toNat fl)))

/-- R169 and R186 on the S map: an instruction that answers a next state changes nothing but the results its context
has on their way: no register, predicate, flag, special register, other context or die, and no byte of memory. -/
def Obligations.ScalarOperationsFrame : Prop :=
  ∀ (i : Instr) (s t : State), i.opMap = some .s → s.effective → exec i s = .next t →
    OnlyCtx s.core s t ∧ MoreInFlight (s.ctx s.core) (t.ctx s.core) ∧ SameMemory s t

/-! ### Loads, stores and atomics of a core -/

/-- R185, R214 and R215: LD delivers the bytes at EA, extended, after 6 steps; it changes no byte of memory. That it delivers after
4 steps from the core's own scratchpad, reached through region 0xB, as the LDS that it performs as, is the model's choice (log
36). -/
def Sys2Proof.Claims.loadDeliversBytes : Prop :=
  ∀ (o : LoadOp) (s : State) (pl : Place),
    let n := loadBytes o.ty
    let ea := effective (s.src o.a) o.imm n
    s.acts (s.loadVerdict ea n) → s.corePlace s.core ea n .load = .ok pl →
    (∀ k, pl ≠ .flag k) → (∀ k, pl ≠ .csr k) → (∀ a, pl = .host a → s.hostError a n = none) →
      ∃ t v, exec (.ld o) s = .next t ∧ FlightTo s t o.d v (loadSteps s pl) ∧ Extends o.ty (placeByte s pl) v
        ∧ OtherContexts s t ∧ OnlyAccess s t ∧ SameMemory s t ∧ t.ecc = s.ecc ∧ t.l2 = s.l2

/-- R104 and R109: LD of a flag word, of a control register and of host memory that answers with an error. -/
def Sys2Proof.Claims.loadOfRegistersAndFlags : Prop :=
  ∀ (o : LoadOp) (s : State),
    let n := loadBytes o.ty
    let ea := effective (s.src o.a) o.imm n
    s.acts (s.loadVerdict ea n) →
      (∀ k, s.corePlace s.core ea n .load = .ok (.flag k) →
        ∃ t v, exec (.ld o) s = .next t ∧ FlightTo s t o.d v 6 ∧ OnlyCtx s.core s t
          ∧ Extends o.ty (fun i => s.flagByte k (ea.toNat % 4 + i)) v)
      ∧ (∀ r, s.corePlace s.core ea n .load = .ok (.csr r) →
        ∃ t, exec (.ld o) s = .next t ∧ FlightTo s t o.d (s.csrRead s.core r) 6 ∧ OnlyCtx s.core s t)
      ∧ (∀ a cpl, s.corePlace s.core ea n .load = .ok (.host a) → s.hostError a n = some cpl →
        ∃ t v, exec (.ld o) s = .next t ∧ FlightTo s t o.d v 6 ∧ OtherContexts s t ∧ OnlyAccess s t ∧ SameMemory s t
          ∧ Extends o.ty (fun _ => 0xFF) v)

/-- R104, R109, R185, R214 and R215: LD of bytes, of a flag word, of a control register and of host memory that answers with an
error. The 4 steps of the own scratchpad through region 0xB are the model's choice (log 36). -/
def Obligations.LoadDeliversBytes : Prop := loadDeliversBytes ∧ loadOfRegistersAndFlags

/-- R215: ST to HBM goes to the core's L1, or into the staged bytes of an idempotent task; memory itself keeps its bytes,
and the context reads what it stored. -/
def Obligations.StoreToHbm : Prop :=
  ∀ (o : StoreOp) (s : State) (p : Nat),
    let n := 2 ^ o.z.toNat
    let ea := effective (s.src o.a) o.imm n
    s.acts (s.storeVerdict ea n) → s.corePlace s.core ea n .store = .ok (.hbm p) → p + n ≤ 2 ^ 40 →
      ∃ t, exec (.st o) s = .next t ∧ SameMemory s t
        ∧ ({ t with l1Seq := s.l1Seq, l1Cel := s.l1Cel, tlb := s.tlb, launches := s.launches, rewrites := s.rewrites,
                    errLog := s.errLog, errCount := s.errCount, health := s.health, layers := s.layers, flaws := s.flaws } : State) = s
        ∧ (taskNonidem s = true → t.launches = s.launches
            ∧ ∀ i, i < n → Table.find? (t.l1 s.core) (p + i) = some { val := byteOf (s.dreg o.d) i, dirty := true })
        ∧ (taskNonidem s = false →
            ∀ i, i < n → t.stagedByte (s.taskId s.core) (hbmKey (p + i)) = some (byteOf (s.dreg o.d) i))
        ∧ (∀ q, q < 2 ^ 40 → (q < p ∨ p + n ≤ q) → t.coreHbmByte s.core q = s.coreHbmByte s.core q)

/-- R215 and R402: ST to a scratchpad, a window or host memory stores the bytes at that place, and to the landing once
the task is non-idempotent; nothing else in memory changes. -/
def Sys2Proof.Claims.storeToStorage : Prop :=
  ∀ (o : StoreOp) (s : State) (pl : Place),
    let n := 2 ^ o.z.toNat
    let ea := effective (s.src o.a) o.imm n
    s.acts (s.storeVerdict ea n) → s.storeVerdict ea n = .ok → s.corePlace s.core ea n .store = .ok pl →
    (storagePlace pl = true ∨ ∃ b, pl = .land b) → taskNonidem s = true →
      ∃ t, exec (.st o) s = .next t
        ∧ (∀ i, i < n → Memory.readByte t.mem (pl.key + i) = byteOf (s.dreg o.d) i)
        ∧ (s.ecc = [] → SameMemoryBut s t pl.key n)
        ∧ ((∀ a, pl ≠ .host a) → ReadsSameBut s t pl.key n)
        ∧ ({ t with mem := s.mem, ecc := s.ecc, rewrites := s.rewrites, errLog := s.errLog, errCount := s.errCount,
                    health := s.health, layers := s.layers, tlb := s.tlb } : State) = s

/-- R126: ST of an idempotent task to the landing is staged: its context reads the bytes, and memory keeps its own. -/
def Sys2Proof.Claims.landingStoreIsStaged : Prop :=
  ∀ (o : StoreOp) (s : State) (b : Nat),
    let n := 2 ^ o.z.toNat
    let ea := effective (s.src o.a) o.imm n
    let u := s.taskId s.core
    s.acts (s.storeVerdict ea n) → s.corePlace s.core ea n .store = .ok (.land b) → taskNonidem s = false →
      ∃ t, exec (.st o) s = .next t ∧ SameMemory s t
        ∧ ({ t with launches := s.launches, tlb := s.tlb } : State) = s
        ∧ (∀ i, i < n → t.stagedByte u (landKey b + i) = some (byteOf (s.dreg o.d) i))
        ∧ ∀ k, (k < landKey b ∨ landKey b + n ≤ k) → t.stagedByte u k = s.stagedByte u k

/-- R127: a store of an idempotent task to host memory, a peer, a flag, a die or a control register acts as the store of
the same task after its staged bytes have been committed. -/
def Sys2Proof.Claims.outerStoreEndsIdempotence : Prop :=
  ∀ (o : StoreOp) (s : State) (pl : Place),
    let n := 2 ^ o.z.toNat
    let ea := effective (s.src o.a) o.imm n
    let u := s.endIdem (s.taskId s.core) (some s.core)
    s.acts (s.storeVerdict ea n) → s.corePlace s.core ea n .store = .ok pl → pl.endsIdem = true →
      u.nonidem (s.taskId s.core) = true
      ∧ exec (.st o) s = .next (u.storeTo pl ea (bytesOfNat (s.dreg o.d).toNat n))
      ∧ (taskNonidem s = true → u = s)

/-- R126, R127, R215 and R402: ST to storage that no cache stands before, ST to the landing by an idempotent task, and the end of
idempotence by a store to an outer place. -/
def Obligations.StoreToStorage : Prop := storeToStorage ∧ landingStoreIsStaged ∧ outerStoreEndsIdempotence

/-- R216: LDS and STS on the core's own scratchpad. -/
def Sys2Proof.Claims.ownScratchpad : Prop :=
  (∀ (o : LoadOp) (s : State),
    let n := loadBytes o.ty
    let ea := effective (s.src o.a) o.imm n
    s.acts (s.padVerdict ea n false) →
      ∃ t v, exec (.lds o) s = .next t ∧ FlightTo s t o.d v 4
        ∧ Extends o.ty (fun i => s.memByte (padKey s.core.padIdx ea.toNat + i)) v
        ∧ OtherContexts s t ∧ OnlyAccess s t ∧ SameMemory s t)
  ∧ (∀ (o : StoreOp) (s : State),
    let n := 2 ^ o.z.toNat
    let ea := effective (s.src o.a) o.imm n
    s.acts (s.padVerdict ea n true) → s.padVerdict ea n true = .ok →
      ∃ t, exec (.sts o) s = .next t
        ∧ (∀ i, i < n → Memory.readByte t.mem (padKey s.core.padIdx ea.toNat + i) = byteOf (s.dreg o.d) i)
        ∧ ReadsSameBut s t (padKey s.core.padIdx ea.toNat) n
        ∧ (s.ecc = [] → SameMemoryBut s t (padKey s.core.padIdx ea.toNat) n)
        ∧ ({ t with mem := s.mem, ecc := s.ecc, rewrites := s.rewrites, errLog := s.errLog, errCount := s.errCount,
                    health := s.health } : State) = s)

/-- R107 and R216: LDS and STS trap with ADDR_ALIGN on a misaligned offset and with ADDR_BAD past the scratchpad's
size, and complete on every other offset of clean storage outside circular buffers. That ADDR_ALIGN comes before ADDR_BAD is the
model's choice (log 14). -/
def Sys2Proof.Claims.scratchpadBounds : Prop :=
  ∀ (s : State), s.phase = .whole →
    (∀ o : LoadOp,
      let n := loadBytes o.ty
      let ea := effective (s.src o.a) o.imm n
      (ea.toNat % n ≠ 0 → s.trapsWith (.lds o) .addrAlign ea 0)
      ∧ (ea.toNat % n = 0 → (if s.core.isCellar then 2 ^ 19 else 2 ^ 18) ≤ ea.toNat → s.trapsWith (.lds o) .addrBad ea 0)
      ∧ (ea.toNat % n = 0 → ea.toNat < (if s.core.isCellar then 2 ^ 19 else 2 ^ 18) → s.ecc = [] →
          (s.ctx s.core).cbs = [] → s.padVerdict ea n false = .ok))
    ∧ (∀ o : StoreOp,
      let n := 2 ^ o.z.toNat
      let ea := effective (s.src o.a) o.imm n
      (ea.toNat % n ≠ 0 → s.trapsWith (.sts o) .addrAlign ea 0)
      ∧ (ea.toNat % n = 0 → (if s.core.isCellar then 2 ^ 19 else 2 ^ 18) ≤ ea.toNat → s.trapsWith (.sts o) .addrBad ea 0)
      ∧ (ea.toNat % n = 0 → ea.toNat < (if s.core.isCellar then 2 ^ 19 else 2 ^ 18) → s.ecc = [] →
          (s.ctx s.core).cbs = [] → s.padVerdict ea n true = .ok))

/-- R107 and R215: LD and ST trap with ADDR_ALIGN on a misaligned address and with ADDR_BAD when bits 63:56 are set. That a
misaligned address with such bits is ADDR_ALIGN is the model's choice (log 14). -/
def Sys2Proof.Claims.flatAddressTraps : Prop :=
  ∀ (s : State), s.phase = .whole →
    (∀ o : LoadOp,
      let n := loadBytes o.ty
      let ea := effective (s.src o.a) o.imm n
      (ea.toNat % n ≠ 0 → s.trapsWith (.ld o) .addrAlign ea 0)
      ∧ (ea.toNat % n = 0 → 2 ^ 56 ≤ ea.toNat → s.trapsWith (.ld o) .addrBad ea 0))
    ∧ (∀ o : StoreOp,
      let n := 2 ^ o.z.toNat
      let ea := effective (s.src o.a) o.imm n
      (ea.toNat % n ≠ 0 → s.trapsWith (.st o) .addrAlign ea 0)
      ∧ (ea.toNat % n = 0 → 2 ^ 56 ≤ ea.toNat → s.trapsWith (.st o) .addrBad ea 0))

/-- R107, R215 and R216: LDS and STS on the core's own scratchpad, the offsets on which they trap and on which they complete, and
the flat addresses on which LD and ST trap. That ADDR_ALIGN comes before ADDR_BAD is the model's choice (log 14). -/
def Obligations.ScratchpadAndFlatAddresses : Prop := ownScratchpad ∧ scratchpadBounds ∧ flatAddressTraps

/-- From `u` on, an integer atomic on storage leaves `t`: the old value is on its way, the new one stands at the place, and nothing
else in memory changes (R314); `b` and `d` are its operand and the comparand of ACAS. -/
def AtomicAtStorage (u t : State) (k : AtomKind) (o : AtomOp) (pl : Place) (b d : Word) : Prop :=
  let n := atomBytes o.big
  let old := BitVec.ofNat (8 * n) (fromBytes (fun i => Memory.readByte u.mem (pl.key + i)) n)
  OtherContexts u t ∧ OnlyAccess u t
  ∧ FlightTo u t o.d (if !o.big && o.sgn then old.signExtend 64 else old.setWidth 64) 6
  ∧ SameMemoryBut u t pl.key n
  ∧ (match k.new o.sgn old (b.setWidth (8 * n)) (d.setWidth (8 * n)) with
     | some v => ∀ i, i < n → Memory.readByte t.mem (pl.key + i) = byteOf (v.setWidth 64) i
     | none => SameMemory u t)

/-- From `u` on, an integer atomic of a sequencer context on HBM leaves `t`: it executes at the L2, after the issuing L1 has written
back and dropped its bytes of the target (R147, R148, R314). -/
def AtomicAtHbm (u t : State) (k : AtomKind) (o : AtomOp) (p : Nat) (b d : Word) : Prop :=
  let n := atomBytes o.big
  let at2 : Nat → Byte := fun q =>
    match Table.find? (u.l1 u.core) q with
    | some b => if b.dirty then b.val else u.l2Byte q
    | none => u.l2Byte q
  let old := BitVec.ofNat (8 * n) (fromBytes (fun i => at2 (p + i)) n)
  OtherContexts u t ∧ OnlyAccess u t ∧ SameMemory u t
  ∧ FlightTo u t o.d (if !o.big && o.sgn then old.signExtend 64 else old.setWidth 64) 6
  ∧ (∀ q, p ≤ q → q < p + n → Table.find? (t.l1 u.core) q = none)
  ∧ (∀ q, (q < p ∨ p + n ≤ q) → t.l2Byte q = u.l2Byte q ∧ Table.find? (t.l1 u.core) q = Table.find? (u.l1 u.core) q)
  ∧ (match k.new o.sgn old (b.setWidth (8 * n)) (d.setWidth (8 * n)) with
     | some v => ∀ i, i < n → t.l2Byte (p + i) = byteOf (v.setWidth 64) i
     | none => ∀ i, i < n → t.l2Byte (p + i) = at2 (p + i))

/-- R314: an integer atomic on storage returns the old value and writes the new one, and nothing else in memory. -/
def Sys2Proof.Claims.atomicsOnStorage : Prop :=
  ∀ (k : AtomKind) (o : AtomOp) (s : State) (pl : Place),
    let n := atomBytes o.big
    let ea := s.src o.a
    s.corePlace s.core ea n .atomic = .ok pl →
    s.acts (s.atomVerdict ea n (if k = .add ∨ k = .xch ∨ k = .cas then .served else .refused)) →
    (storagePlace pl = true ∨ ∃ b, pl = .land b) → s.ecc = [] →
    (∀ a, pl = .host a → s.hostError a n = none) → taskNonidem s = true →
      ∃ t, exec (k.instr o) s = .next t ∧ AtomicAtStorage s t k o pl (s.src o.b) (s.dreg o.d)

/-- R147, R148 and R314: an atomic of a sequencer context on HBM executes at the L2, after the issuing L1 has written
back and dropped its bytes of the target. -/
def Obligations.AtomicsOnHbm : Prop :=
  ∀ (k : AtomKind) (o : AtomOp) (s : State) (p c : Nat),
    let n := atomBytes o.big
    let ea := s.src o.a
    s.core = .seq c → s.corePlace s.core ea n .atomic = .ok (.hbm p) →
    s.acts (s.atomVerdict ea n (if k = .add ∨ k = .xch ∨ k = .cas then .served else .refused)) →
    s.ecc = [] → taskNonidem s = true → s.cachesCanonical →
      ∃ t, exec (k.instr o) s = .next t ∧ AtomicAtHbm s t k o p (s.src o.b) (s.dreg o.d)

/-- R314: AFADD rounds the sum once under FPCTL.RM, AFMAX takes the larger by R209; neither records a flag. -/
def Sys2Proof.Claims.floatingPointAtomics : Prop :=
  ∀ (o : FAtomOp) (s : State) (pl : Place),
    let n := atomBytes o.dbl
    let ea := s.src o.a
    s.corePlace s.core ea n .atomic = .ok pl → s.acts (s.atomVerdict ea n .refused) →
    (storagePlace pl = true ∨ ∃ b, pl = .land b) → (∀ a, pl ≠ .host a) →
    s.ecc = [] → taskNonidem s = true →
      let old := fromBytes (fun i => Memory.readByte s.mem (pl.key + i)) n
      let b := fpBits o.dbl (s.src o.b)
      (∃ t, exec (.afadd o) s = .next t ∧ FlightTo s t o.d (BitVec.ofNat 64 old) 6 ∧ OtherContexts s t
        ∧ OnlyAccess s t ∧ SameMemoryBut s t pl.key n
        ∧ (fpFinite o.dbl old = true → fpFinite o.dbl b = true →
            let new := fromBytes (fun i => Memory.readByte t.mem (pl.key + i)) n
            fpFinite o.dbl new = true → Rounds o.dbl (scalarRm s) (fpVal o.dbl old + fpVal o.dbl b) new))
      ∧ (∃ t, exec (.afmax o) s = .next t ∧ FlightTo s t o.d (BitVec.ofNat 64 old) 6 ∧ OtherContexts s t
        ∧ OnlyAccess s t ∧ SameMemoryBut s t pl.key n
        ∧ (fpFinite o.dbl old = true → fpFinite o.dbl b = true →
            let new := fromBytes (fun i => Memory.readByte t.mem (pl.key + i)) n
            (new = old ∨ new = b) ∧ fpVal o.dbl old ≤ fpVal o.dbl new ∧ fpVal o.dbl b ≤ fpVal o.dbl new))

/-- R127 and R316: an atomic of a task that is still idempotent acts as one of the same task after its staged bytes have been
committed, which makes the task non-idempotent first. -/
def Sys2Proof.Claims.atomicsEndIdempotence : Prop :=
  ∀ (k : AtomKind) (o : AtomOp) (s : State) (pl : Place),
    let n := atomBytes o.big
    let ea := s.src o.a
    let u := (s.noteWalk (s.launchOf s.core).func ea).endIdem (s.taskId s.core) (some s.core)
    s.corePlace s.core ea n .atomic = .ok pl →
    s.acts (s.atomVerdict ea n (if k = .add ∨ k = .xch ∨ k = .cas then .served else .refused)) →
    taskNonidem s = false →
      u.nonidem (s.taskId s.core) = true ∧ u.core = s.core
      ∧ (u.ecc = [] → storagePlace pl = true ∨ (∃ b, pl = .land b) → (∀ a, pl = .host a → u.hostError a n = none) →
          ∃ t, exec (k.instr o) s = .next t ∧ AtomicAtStorage u t k o pl (s.src o.b) (s.dreg o.d))
      ∧ (∀ p c, u.ecc = [] → u.cachesCanonical → s.core = .seq c → pl = .hbm p →
          ∃ t, exec (k.instr o) s = .next t ∧ AtomicAtHbm u t k o p (s.src o.b) (s.dreg o.d))

/-- R147: the atomics that raise ATOM_TYPE at host memory, and ATOM_TARGET at a cellar core's HBM, flags, peers and
control registers. -/
def Sys2Proof.Claims.atomicFaults : Prop :=
  ∀ (k : AtomKind) (o : AtomOp) (f : FAtomOp) (s : State), s.phase = .whole →
    (∀ a, s.corePlace s.core (s.src o.a) (atomBytes o.big) .atomic = .ok (.host a) →
      k = .and ∨ k = .or ∨ k = .xor ∨ k = .min ∨ k = .max → s.trapsWith (k.instr o) .atomType (s.src o.a) 0)
    ∧ (∀ a, s.corePlace s.core (s.src f.a) (atomBytes f.dbl) .atomic = .ok (.host a) →
      s.trapsWith (.afadd f) .atomType (s.src f.a) 0 ∧ s.trapsWith (.afmax f) .atomType (s.src f.a) 0)
    ∧ ((s.src o.a).toNat < 2 ^ 56 → (s.src o.a).toNat % atomBytes o.big = 0 →
      ((s.src o.a).toNat / 2 ^ 52 ∈ [0xC, 0xD, 0xE] ∧ s.core.isCellar = false)
        ∨ ((s.src o.a).toNat / 2 ^ 52 < 8 ∧ s.core.isCellar = true) →
      s.trapsWith (k.instr o) .atomTarget (s.src o.a) 0)

/-- R127, R147, R314 and R316: integer and floating-point atomics on storage, atomics of a task that is still idempotent, and
where an atomic traps. -/
def Obligations.AtomicsOnStorage : Prop :=
  atomicsOnStorage ∧ floatingPointAtomics ∧ atomicsEndIdempotence ∧ atomicFaults

/-! ### Ordering, flags and control registers -/

/-- R141 and R144 on a sequencer context whose task is non-idempotent: RELEASE and FENCE.SC bring the L1's dirty bytes to
the L2, and at .mem and .sys every dirty L2 byte to DRAM; ACQUIRE and FENCE.SC drop the L1's clean bytes; no context
changes. -/
def Sys2Proof.Claims.releaseOnSequencer : Prop :=
  ∀ (sc : Scope) (s : State) (c : Nat), s.core = .seq c → taskNonidem s = true → (s.ctx s.core).peerErr = false →
    s.cachesCanonical → s.effective →
    let near := sc = .core ∨ sc = .die
    let far := sc = .mem ∨ sc = .sys
    (∃ t, exec (.release sc) s = .next t ∧ t.seq = s.seq ∧ t.cel = s.cel
      ∧ (near → t = s)
      ∧ (¬near → ∀ p b, Table.find? (t.l1 s.core) p = some b → b.dirty = false)
      ∧ (¬near → ¬far → ∀ p, t.l2Byte p = match Table.find? (s.l1 s.core) p with
          | some b => if b.dirty then b.val else s.l2Byte p
          | none => s.l2Byte p)
      ∧ (far → t.l2 = []) ∧ (¬far → t.mem = s.mem))
    ∧ (∃ t, exec (.acquire sc) s = .next t ∧ ({ t with l1Seq := s.l1Seq, flaws := s.flaws } : State) = s
      ∧ (near → t = s)
      ∧ (¬near → ∀ p, Table.find? (t.l1 s.core) p = (Table.find? (s.l1 s.core) p).filter (·.dirty)))
    ∧ (∃ t, exec (.fenceSc sc) s = .next t ∧ t.seq = s.seq ∧ t.cel = s.cel ∧ (near → t = s)
      ∧ (¬near → t.l1 s.core = []) ∧ (far → t.l2 = []) ∧ (¬far → t.mem = s.mem))

/-- R141, R142 and R144 on a cellar context whose task is non-idempotent: the scopes .core, .die and .part move nothing,
and every wider one acts as .mem: the L1's dirty bytes reach DRAM itself, and the L2's too. -/
def Sys2Proof.Claims.releaseOnCellar : Prop :=
  ∀ (sc : Scope) (s : State) (c : Nat), s.core = .cel c → taskNonidem s = true → (s.ctx s.core).peerErr = false →
    s.cachesCanonical → s.effective →
    let near := sc = .core ∨ sc = .die ∨ sc = .part
    let written (t : State) : Prop := s.ecc = [] → (∀ e ∈ s.l1 s.core, e.1 < 2 ^ 40) → (∀ e ∈ s.l2, e.1 < 2 ^ 40) →
      ∀ p b, Table.find? (s.l1 s.core) p = some b → b.dirty = true → Memory.readByte t.mem (hbmKey p) = b.val
    (∃ t, exec (.release sc) s = .next t ∧ t.seq = s.seq ∧ t.cel = s.cel
      ∧ (near → t = s)
      ∧ (¬near → (∀ p b, Table.find? (t.l1 s.core) p = some b → b.dirty = false) ∧ t.l2 = [] ∧ written t))
    ∧ (∃ t, exec (.acquire sc) s = .next t ∧ ({ t with l1Cel := s.l1Cel, flaws := s.flaws } : State) = s
      ∧ (near → t = s)
      ∧ (¬near → ∀ p, Table.find? (t.l1 s.core) p = (Table.find? (s.l1 s.core) p).filter (·.dirty)))
    ∧ (∃ t, exec (.fenceSc sc) s = .next t ∧ t.seq = s.seq ∧ t.cel = s.cel ∧ (near → t = s)
      ∧ (¬near → t.l1 s.core = [] ∧ t.l2 = [] ∧ written t))

/-- R127: a release as wide as .pkg by an idempotent task acts as that of the same task after its staged bytes have been
committed; a narrower one commits nothing. -/
def Sys2Proof.Claims.releaseEndsIdempotence : Prop :=
  ∀ (sc : Scope) (s : State), (s.ctx s.core).peerErr = false → s.effective →
    let u := s.endIdem (s.taskId s.core) (some s.core)
    (sc = .pkg ∨ sc = .mem ∨ sc = .sys →
      u.nonidem (s.taskId s.core) = true
      ∧ exec (.release sc) s = .next (u.releaseBytes s.core sc)
      ∧ exec (.fenceSc sc) s = .next ((u.releaseBytes s.core sc).acquireBytes s.core sc))
    ∧ (sc = .core ∨ sc = .die ∨ sc = .part →
      exec (.release sc) s = .next (s.releaseBytes s.core sc) ∧ ∀ t, exec (.release sc) s = .next t → t.launches = s.launches)

/-- R140: DRAIN moves no data, and goes on once the context's near-memory commands and copies have ended; until then it
blocks. That every other access has performed when its instruction has is the model's choice (log 5). -/
def Sys2Proof.Claims.drainWaits : Prop :=
  ∀ (s : State), s.onDie = none →
    ((s.ctx s.core).nmq = [] → (s.ctx s.core).engine = [] → s.effective → exec .drain s = .next s)
    ∧ ((s.ctx s.core).nmq ≠ [] ∨ (s.ctx s.core).engine ≠ [] → s.phase = .whole →
        exec .drain s = .next (s.blockCtx s.core .accesses))

/-- R127, R140 to R142 and R144: releases, acquires and fences of both kinds of core, of idempotent tasks too, and DRAIN.
That the accesses before a fence have performed when it issues is the model's choice (log 5). -/
def Obligations.ReleaseAndAcquire : Prop :=
  releaseOnSequencer ∧ releaseOnCellar ∧ releaseEndsIdempotence ∧ drainWaits

/-- R321: FSET and FINC write the flag they name; with .rel, and at first in an idempotent task, after what R322 and
R127 lay down; every other flag of the part keeps its value. The flag that FINC reads is free of a parity error (R398). -/
def Sys2Proof.Claims.flagWrites : Prop :=
  ∀ (o : FlagWOp) (s : State) (k : Nat), s.effective → FlagNamed s o.remote (s.src o.a) o.off k →
    let u := s.endIdem (s.taskId s.core) (some s.core)
    let u := if o.rel then u.releaseNow .pkg else u
    (∃ t, exec (.fset o) s = .next t ∧ t.flagWord k = (s.dreg o.d).setWidth 32
      ∧ (∀ j, j ≠ k → t.flagWord j = u.flagWord j) ∧ ({ t with seq := u.seq, dieCtx := u.dieCtx, flaws := u.flaws } : State) = u
      ∧ (taskNonidem s = true → o.rel = false → u = s))
    ∧ (s.flagUE o.remote (s.src o.a) o.off k = .ok → ∃ t, exec (.finc o) s = .next t
      ∧ t.flagWord k = u.flagWord k + (s.dreg o.d).setWidth 32
      ∧ (∀ j, j ≠ k → t.flagWord j = u.flagWord j) ∧ ({ t with seq := u.seq, dieCtx := u.dieCtx, flaws := u.flaws } : State) = u)

/-- R321: FTEST delivers the flag after 6 steps; FWAIT goes on when its condition holds, and else its context blocks. The flag
that they read is free of a parity error (R398). -/
def Sys2Proof.Claims.flagReads : Prop :=
  (∀ (o : FTestOp) (s : State) (k : Nat), s.effective → FlagNamed s o.remote (s.src o.a) o.off k →
    s.flagUE o.remote (s.src o.a) o.off k = .ok →
    ∃ t v, exec (.ftest o) s = .next t ∧ FlightTo s t o.d v 6 ∧ OtherContexts s t
      ∧ (if o.sgn then v.toInt = (s.flagWord k).toInt else v.toNat = (s.flagWord k).toNat)
      ∧ SameMemory s t ∧ (∀ j, t.flagWord j = s.flagWord j)
      ∧ (o.acq = false → OnlyCtx s.core s t))
  ∧ (∀ (o : FWaitOp) (s : State) (k : Nat), s.phase = .whole → s.onDie = none →
    FlagNamed s o.remote (s.src o.a) o.off k → s.flagUE o.remote (s.src o.a) o.off k = .ok →
      let f := s.flagWord k
      let v : Word32 := (s.dreg o.d).setWidth 32
      let met : Bool := if o.eq then f == v else if o.sgn then v.sle f else v.ule f
      (met = true → ∃ t, exec (.fwait o) s = .next t ∧ (o.acq = false → t = s)
          ∧ ({ t with l1Seq := s.l1Seq, l1Cel := s.l1Cel, flaws := s.flaws } : State) = s)
      ∧ (met = false → exec (.fwait o) s = .next (s.blockCtx s.core (.flag k v o.eq o.sgn))))

/-- R320 to R322: FSET, FINC, FTEST and FWAIT. -/
def Obligations.FlagInstructions : Prop := flagWrites ∧ flagReads

/-- R325: which control registers a context may name: CSR_BAD for those its kind has not, PRIV for the handler's own in
task mode. -/
def Sys2Proof.Claims.controlRegisterAccess : Prop :=
  ∀ (x : Ctx) (cellar : Bool) (n : BitVec 9),
    let both := [0x000, 0x001, 0x002, 0x003, 0x010, 0x011, 0x012, 0x013, 0x014, 0x015, 0x016, 0x018, 0x019, 0x030, 0x031,
                 0x032, 0x033, 0x034, 0x038, 0x039, 0x03A, 0x050]
    let seqOnly := [0x020, 0x021, 0x022, 0x023, 0x028, 0x029, 0x02A, 0x02B]
    let priv := [0x040, 0x041, 0x042, 0x043, 0x044, 0x045, 0x046, 0x047, 0x048, 0x049, 0x04A, 0x04B, 0x04C, 0x04D, 0x04E,
                 0x04F]
    (n.toNat ∈ both → x.csrCheck cellar n.toNat = none)
    ∧ (n.toNat ∈ seqOnly → x.csrCheck cellar n.toNat = if cellar then some .csrBad else none)
    ∧ (n.toNat ∈ priv → x.csrCheck cellar n.toNat = if x.handler then none else some .priv)
    ∧ (n.toNat ∉ both → n.toNat ∉ seqOnly → n.toNat ∉ priv → x.csrCheck cellar n.toNat = some .csrBad)

/-- R324 and R325: CSRR delivers the register after 6 steps, and waits for an rt register that is to be filled; CSRW, CSRS
and CSRC change only what their register lets them; an access that R325 forbids traps. -/
def Sys2Proof.Claims.controlRegisterInstructions : Prop :=
  ∀ (n : BitVec 9) (d : BitVec 6) (a : Src) (s : State),
    let x := s.ctx s.core
    let v := s.src a
    (x.csrCheck s.core.isCellar n.toNat = none → x.rtPending n.toNat = none → s.effective →
      GivesS (.csrr d n) s false d (s.csrRead s.core n.toNat) 6 0)
    ∧ (∀ r, x.csrCheck s.core.isCellar n.toNat = none → x.rtPending n.toNat = some r → s.phase = .whole → s.onDie = none →
      exec (.csrr d n) s = .next (s.blockCtx s.core (.rt r)))
    ∧ (∀ c, x.csrCheck s.core.isCellar n.toNat = some c → s.phase = .whole →
        s.trapsWith (.csrr d n) c 0 0 ∧ s.trapsWith (.csrw n a) c 0 0 ∧ s.trapsWith (.csrs n a) c 0 0
        ∧ s.trapsWith (.csrc n a) c 0 0)
    ∧ (x.csrCheck s.core.isCellar n.toNat = none → s.effective →
      ∃ y z w : Ctx, exec (.csrw n a) s = .next (s.setCtx s.core y) ∧ exec (.csrs n a) s = .next (s.setCtx s.core z)
        ∧ exec (.csrc n a) s = .next (s.setCtx s.core w)
        ∧ (n.toNat = 0x18 →
            (∀ i, i < 64 → y.fpctl.getLsbD i = if i < 4 then v.getLsbD i
                else x.fpctl.getLsbD i && !v.getLsbD i && (decide (8 ≤ i ∧ i < 13) || decide (16 ≤ i ∧ i < 21)))
            ∧ (∀ i, i < 64 → z.fpctl.getLsbD i = if i < 4 then x.fpctl.getLsbD i || v.getLsbD i
                else x.fpctl.getLsbD i && (decide (8 ≤ i ∧ i < 13) || decide (16 ≤ i ∧ i < 21)))
            ∧ (∀ i, i < 64 → w.fpctl.getLsbD i = if i < 4 then x.fpctl.getLsbD i && !v.getLsbD i
                else x.fpctl.getLsbD i && !v.getLsbD i && (decide (8 ≤ i ∧ i < 13) || decide (16 ≤ i ∧ i < 21)))
            ∧ { y with fpctl := x.fpctl } = x ∧ { z with fpctl := x.fpctl } = x ∧ { w with fpctl := x.fpctl } = x)
        ∧ (n.toNat = 0x19 → y = { x with ftabLen := v.setWidth 32 } ∧ z = { x with ftabLen := x.ftabLen ||| v.setWidth 32 }
            ∧ w = { x with ftabLen := x.ftabLen &&& ~~~(v.setWidth 32) })
        ∧ (n.toNat = 0x21 → y = { x with dieEn := v.setWidth 48 &&& x.dieMask }
            ∧ z = { x with dieEn := (x.dieEn ||| v.setWidth 48) &&& x.dieMask }
            ∧ w = { x with dieEn := x.dieEn &&& ~~~(v.setWidth 48) &&& x.dieMask })
        ∧ (n.toNat = 0x40 → y = { x with epc := v } ∧ z = { x with epc := x.epc ||| v }
            ∧ w = { x with epc := x.epc &&& ~~~v })
        ∧ (n.toNat = 0x41 → y = { x with epc1 := v } ∧ z = { x with epc1 := x.epc1 ||| v }
            ∧ w = { x with epc1 := x.epc1 &&& ~~~v })
        ∧ (n.toNat = 0x42 → y = { x with epc2 := v } ∧ z = { x with epc2 := x.epc2 ||| v }
            ∧ w = { x with epc2 := x.epc2 &&& ~~~v })
        ∧ (n.toNat ∉ [0x18, 0x19, 0x21, 0x40, 0x41, 0x42] → y = x ∧ z = x ∧ w = x))

/-- What each control register of R325 reads, field by field as its own rule lays it out (R28, R30, R32, R36, R44, R50, R52,
R54, R73, R128, R225, R326, R374, R384, R447, R452). -/
def Sys2Proof.Claims.controlRegisterValues : Prop :=
  ∀ (s : State) (c : CoreId),
    let x := s.ctx c
    let l := s.launchOf c
    let k := s.taskOf c
    let r (n : Nat) : Word := s.csrRead c n
    -- ID_PART, ID_SERIAL, TIME_CNT and TIME_SKEW
    ((s.diesOn ≤ 48 → (r 0).extractLsb' 24 40 = 0x4F56004801#40 ∧ ((r 0).extractLsb' 16 8).toNat = s.diesOn)
      ∧ (r 0).extractLsb' 0 16 = 0x0C00#16 ∧ r 1 = Config.idSerial
      ∧ (c.isCellar = false → r 2 = s.timeCnt)
      ∧ (s.timeLost = true → r 3 = 0x2FFFFFFFF)
      ∧ (s.timeLost = false → (r 3).extractLsb' 33 31 = 0 ∧ (r 3).getLsbD 32 = s.podValid
          ∧ (r 3).extractLsb' 16 16 = s.podBound ∧ (r 3).extractLsb' 0 16 = s.pkgBound))
    -- the task's own: TASK_WID, WID_FMT, WID_LIM, TASK_INFO, STAGE_CNT, CTX_MODE, DIAG_CTL
    ∧ (r 0x10 = BitVec.ofNat 64 (s.taskId c).wid ∧ r 0x11 = l.record.extractLsb' 128 64 ∧ r 0x12 = l.record.extractLsb' 192 64
      ∧ (r 0x13).extractLsb' 16 48 = 0 ∧ ((r 0x13).extractLsb' 8 8).toNat = k.rb % 256 ∧ (r 0x13).extractLsb' 5 3 = 0
      ∧ (r 0x13).getLsbD 4 = s.nonidem (s.taskId c) ∧ ((r 0x13).extractLsb' 2 2).toNat = recPrio l.record
      ∧ ((r 0x13).extractLsb' 0 2).toNat = recKind l.record
      ∧ (k.shadows.length ≤ 16384 → k.granules.length ≤ 65536 →
          (r 0x14).extractLsb' 47 17 = 0 ∧ ((r 0x14).extractLsb' 32 15).toNat = k.shadows.length
          ∧ (r 0x14).extractLsb' 17 15 = 0 ∧ ((r 0x14).extractLsb' 0 17).toNat = k.granules.length)
      ∧ r 0x15 = (if x.handler then 1 else 0) ∧ r 0x16 = (if x.diag then 1 else 0))
    -- FPCTL, FTAB_LEN, the partition's, the reductions' and the loops'
    ∧ (r 0x18 = x.fpctl ∧ (r 0x19).toNat = x.ftabLen.toNat
      ∧ (c.num < 32 → (r 0x20).extractLsb' 59 5 = 0 ∧ ((r 0x20).extractLsb' 54 5).toNat = c.num
          ∧ ((r 0x20).extractLsb' 48 6).toNat = (diesOf x.dieMask).length ∧ (r 0x20).extractLsb' 0 48 = x.dieMask)
      ∧ (r 0x21).toNat = x.dieEn.toNat ∧ (r 0x22).toNat = x.instNo % 2 ^ 48 ∧ (r 0x23).toNat = x.diePres.toNat
      ∧ (∀ j, j < 4 → r (0x28 + j) = Table.get 0 x.rt j ∧ r (0x30 + j) = Table.get 0 x.lc j)
      ∧ (r 0x34).toNat = (match x.rep with | some e => min e.left 0xFFFF | none => 0))
    -- scheduling, current, the handler's own and the debugger's
    ∧ (r 0x38 = x.yieldDl ∧ (r 0x39).toNat = (s.coreRec c).curLim.toNat ∧ r 0x3A = (s.coreRec c).curFrz
      ∧ r 0x40 = x.epc ∧ r 0x41 = x.epc1 ∧ r 0x42 = x.epc2 ∧ r 0x43 = x.trap.tvec
      ∧ (r 0x44).extractLsb' 16 48 = 0 ∧ (r 0x44).extractLsb' 14 2 = x.trap.kind ∧ (r 0x44).extractLsb' 12 2 = 0
      ∧ (r 0x44).extractLsb' 8 4 = x.trap.slot ∧ (r 0x44).extractLsb' 0 8 = x.trap.code
      ∧ r 0x45 = x.trap.tval ∧ r 0x46 = x.trap.tdata ∧ (r 0x47).toNat = x.trap.tdies.toNat
      ∧ (r 0x48).toNat = x.trap.tpd.toNat
      ∧ (∀ sn, x.snap = some sn → sn.pending.length < 128 → (r 0x49).toNat = sn.pending.length) ∧ (x.snap = none → r 0x49 = 0)
      ∧ (∀ n, 0x4A ≤ n → n ≤ 0x4F → r n = 0) ∧ (r 0x50).toNat = x.dbgEn.toNat)

/-- R324 to R326, with the rules that lay the registers out (R28, R30, R32, R36, R44, R50, R52, R54, R73, R128, R225, R374, R384,
R447 and R452): which control registers a context may name, what each reads, and what CSRR, CSRW, CSRS and CSRC do. That LEFT of
RPT counts the issue in progress is the model's choice (log 36). -/
def Obligations.ControlRegisterInstructions : Prop :=
  controlRegisterAccess ∧ controlRegisterValues ∧ controlRegisterInstructions

/-- R334: DSTCHK stores a word with the check bits it is given, and DRDCHK delivers a stored word or its check bits as
they are; both raise PRIV in task mode without DIAG; a DSTCHK of an idempotent task commits what it has staged first
(R127). -/
def Sys2Proof.Claims.checkedWords : Prop :=
  ∀ (d : BitVec 6) (a b : Src) (s : State),
    (s.phase = .whole → (s.ctx s.core).diag = false → (s.ctx s.core).handler = false →
      s.trapsWith (.dstchk d a b) .priv (s.src a) 0 ∧ (∀ chk, s.trapsWith (.drdchk chk d a) .priv (s.src a) 0))
    ∧ (∀ pl, s.checkPlace (s.src a) true = .ok pl → s.effective →
        let u := s.endIdem (s.taskId s.core) (some s.core)
        u.nonidem (s.taskId s.core) = true
        ∧ exec (.dstchk d a b) s = .next (u.storeChecked pl (s.dreg d) ((s.src b).setWidth 8))
        ∧ (taskNonidem s = true → u = s)
        ∧ (taskNonidem s = true → pl.key % 8 = 0 → (∀ p, pl = .hbm p → p + 8 ≤ 2 ^ 40) →
          ∃ t, exec (.dstchk d a b) s = .next t
            ∧ (∀ i, i < 8 → Memory.readByte t.mem (pl.key + i) = byteOf (s.dreg d) i)
            ∧ StoredCheck t pl.key (s.dreg d).toNat = (s.src b).toNat % 256
            ∧ SameMemoryBut s t pl.key 8
            ∧ ({ t with mem := s.mem, ecc := s.ecc, rewrites := s.rewrites, errLog := s.errLog, errCount := s.errCount,
                        health := s.health, layers := s.layers, flaws := s.flaws, l1Seq := s.l1Seq, l1Cel := s.l1Cel,
                        l2 := s.l2 } : State) = s))
    ∧ (∀ pl chk, s.checkPlace (s.src a) false = .ok pl → s.effective → (∀ p, pl ≠ .hbm p) →
        let w := Memory.readNat s.mem pl.key 8
        exec (.drdchk chk d a) s = .next (s.setCtx s.core { s.ctx s.core with
          interlocked := (s.ctx s.core).interlocked ++ [.s d (BitVec.ofNat 64 (if chk then StoredCheck s pl.key w else w))] }))

/-- R334 in HBM: before DRDCHK reads, the issuing core's L1 and the L2 have written their bytes of the word back and hold
none of them; the word or the check bits that then stand in DRAM are delivered. -/
def Sys2Proof.Claims.checkedWordOfHbm : Prop :=
  ∀ (d : BitVec 6) (a : Src) (chk : Bool) (s : State) (p : Nat),
    s.checkPlace (s.src a) false = .ok (.hbm p) → s.effective → p % 8 = 0 → p + 8 ≤ 2 ^ 40 → s.cachesCanonical →
      let u := (s.bareWord (.hbm p)).raiseLayer (hbmKey p) 8
      let w := Memory.readNat u.mem (hbmKey p) 8
      exec (.drdchk chk d a) s = .next (u.setCtx s.core { s.ctx s.core with
        interlocked := (s.ctx s.core).interlocked ++
          [.s d (BitVec.ofNat 64 (if chk then StoredCheck u (hbmKey p) w else w))] })
      ∧ u.seq = s.seq ∧ u.cel = s.cel ∧ SameMemoryBut s u (hbmKey p) 8
      ∧ (∀ q, p ≤ q → q < p + 8 → Table.find? (u.l1 s.core) q = none ∧ Table.find? u.l2 q = none)
      ∧ (s.ecc = [] → ∀ i, i < 8 → Memory.readByte u.mem (hbmKey p + i) =
          let below := (Table.find? s.l2 (p + i)).getD (Memory.readByte s.mem (hbmKey p + i))
          match Table.find? (s.l1 s.core) (p + i) with
          | some b => if b.dirty then b.val else below
          | none => below)
      ∧ (s.ecc = [] → s.flaws = [] → StoredCheck u (hbmKey p) w = eccByte w)
      ∧ (s.flaws = [] → (∀ q, p ≤ q → q < p + 8 → Table.find? (s.l1 s.core) q = none ∧ Table.find? s.l2 q = none) →
          u.mem = s.mem ∧ u.ecc = s.ecc)

/-- R332: CMPT goes on when the words agree, and changes nothing; else it traps with DUP_MISMATCH. -/
def Sys2Proof.Claims.compareTrap : Prop :=
  ∀ (big : Bool) (a b : Src) (s : State),
    let n := if big then 64 else 32
    ((s.src a).setWidth n = (s.src b).setWidth n → s.effective → exec (.cmpt big a b) s = .next s)
    ∧ ((s.src a).setWidth n ≠ (s.src b).setWidth n → s.phase = .whole → s.trapsWith (.cmpt big a b) .dupMismatch 0 0)

/-- R332 and R334: DSTCHK, DRDCHK and CMPT: the states and operands on which they complete, with their results, and those on
which they trap. -/
def Obligations.CheckedWordsAndCompare : Prop := checkedWords ∧ checkedWordOfHbm ∧ compareTrap

/-! ### Control transfer, loops and system instructions -/

/-- R217 and R220 to R222: what each branch and jump makes of its operands; the link is Next(N2) of R221, also at the END of
a loop that continues, which is the model's choice (log 39); a BR that is not taken annuls its delay bundles or does nothing.
An offset counts words. That it counts bundles of 96 bytes where the code is Merlet (R191), and the link there, are the
model's choice (log 42). -/
def Obligations.BranchesAndJumps : Prop :=
  ∀ (s : State), s.effective →
    let x := s.ctx s.core
    let unit : Word := if s.portable (s.launchOf s.core).codeVer x.n0 then 96 else 4
    (∀ q n an off,
      ((x.qreg q ^^ n) = true → Transfers (.br q n an off) s (.to (x.n0 + off.signExtend 64 * unit)))
      ∧ ((x.qreg q ^^ n) = false → an = true → Transfers (.br q n an off) s .annul)
      ∧ ((x.qreg q ^^ n) = false → an = false → exec (.br q n an off) s = .next s))
    ∧ (∀ off, Transfers (.jmp off) s (.to (x.n0 + off.signExtend 64 * unit))
        ∧ Links (.jmpl off) s false 61 (x.n0 + off.signExtend 64 * unit))
    ∧ (∀ a, Transfers (.jr a) s (.to (s.src a)) ∧ Transfers (.ret a) s (.to (s.src a)))
    ∧ (∀ d nw a, Links (.jrl d nw a) s nw d (s.src a))

/-- R221, R223 and R224: JT jumps by a table entry or falls through, and traps where the entry's load fails; CALLF checks its
index, its table, the loads of its entry and the signature, then links to Next(N2) and jumps; the entry has been fetched when its signature fails. That the alignment of s58 is checked before
any fault of the entry's load is the model's choice (log 14), as is the link at the END of a loop that continues (log 39) and
in Merlet code (log 42). -/
def Obligations.TableJumpsAndCalls : Prop :=
  (∀ (len : BitVec 12) (a b : Src) (s : State),
    let ea := s.src a + 4 * s.src b
    (len.toNat ≤ (s.src b).toNat → s.effective → exec (.jt len a b) s = .next s)
    ∧ ((s.src b).toNat < len.toNat → s.acts (s.loadVerdict ea 4) →
        ∃ t, exec (.jt len a b) s = .next t ∧ OtherContexts s t ∧ OnlyAccess s t ∧ SameMemory s t
          ∧ t.ctx s.core = { s.ctx s.core with
              transfer := .to (s.src a + (BitVec.ofNat 32 (s.loadValue ea 4)).signExtend 64) })
    ∧ (∀ c tval tdata, (s.src b).toNat < len.toNat → s.phase = .whole → s.loadVerdict ea 4 = .trap c tval tdata →
        s.trapsWith (.jt len a b) c tval tdata)
    ∧ (∀ k n tval, (s.src b).toNat < len.toNat → s.phase = .whole → s.loadVerdict ea 4 = .ue k n tval →
        ∃ u, exec (.jt len a b) s = .next (u.slotTrap .ue tval 0) ∧ OnlyAccess s u ∧ SameMemory s u))
  ∧ (∀ (sig : BitVec 16) (a : Src) (s : State),
    let i := s.src a
    let base := s.dreg 58
    let e := base + 16 * i
    let len := (s.ctx s.core).ftabLen.toNat
    let found := s.loadValue (e + 8) 8 % 2 ^ 16
    (len ≤ i.toNat → s.phase = .whole → s.trapsWith (.callf sig a) .callRange i 0)
    ∧ (i.toNat < len → base.toNat % 16 ≠ 0 → s.phase = .whole → s.trapsWith (.callf sig a) .addrAlign e 0)
    ∧ (i.toNat < len → base.toNat % 16 = 0 → s.phase = .whole →
        let fails (v : Verdict) : Prop := s.loadVerdict e 8 = v ∨ (s.loadVerdict e 8 = .ok ∧ s.loadVerdict (e + 8) 8 = v)
        (∀ c tval tdata, c ≠ .callSig → fails (.trap c tval tdata) → s.trapsWith (.callf sig a) c tval tdata)
        ∧ (∀ k n tval, fails (.ue k n tval) →
            ∃ u, exec (.callf sig a) s = .next (u.slotTrap .ue tval 0) ∧ OnlyAccess s u ∧ SameMemory s u))
    ∧ (i.toNat < len → base.toNat % 16 = 0 → s.loadVerdict e 8 = .ok → s.loadVerdict (e + 8) 8 = .ok →
        (found ≠ sig.toNat → s.phase = .whole →
          ∃ u, exec (.callf sig a) s = .next (u.slotTrap .callSig 0 (BitVec.ofNat 64 (found * 2 ^ 16 + sig.toNat)))
            ∧ u.seq = s.seq ∧ u.cel = s.cel ∧ OnlyAccess s u ∧ SameMemory s u)
        ∧ (found = sig.toNat → s.effective →
          ∃ t, exec (.callf sig a) s = .next t ∧ OtherContexts s t ∧ OnlyAccess s t ∧ SameMemory s t
            ∧ ∃ f : Flight, f.out = .s 61 (linkAt s) ∧ f.lv = linkAt s ∧ f.due = (s.ctx s.core).stepNo
              ∧ t.ctx s.core = { s.ctx s.core with inflight := (s.ctx s.core).inflight ++ [f],
                                                   transfer := .to (BitVec.ofNat 64 (s.loadValue e 8)) })))

/-- R226, R228, R231 and R383: LOOP and LOOPI open a loop, skip its body at count 0, or trap; LEXIT marks a loop and those
nested in it. Where several traps apply, a handler or a delay bundle comes first, then a busy counter, then the nesting: the
model's choice (log 39). -/
def Obligations.LoopInstructions : Prop :=
  ∀ (lc : BitVec 2) (len : BitVec 6) (st : BitVec 3) (a : Src) (cnt : BitVec 15) (s : State),
    let x := s.ctx s.core
    let ver := (s.launchOf s.core).codeVer
    let start := s.nextOf ver x.n0
    let stop := s.nextN ver start len.toNat
    let nested := ∀ e ∈ x.loops, e.2.start.toNat ≤ start.toNat ∧ stop.toNat ≤ e.2.stop.toNat
    let both (p : Instr → Nat → Prop) : Prop := p (.loop lc len st a) (s.src a).toNat ∧ p (.loopi lc len st cnt) cnt.toNat
    (s.phase = .whole → (x.handler = true ∨ x.delay ≠ 0) → both (fun i _ => s.trapsWith i .seqPlace 0 0))
    ∧ (s.phase = .whole → x.handler = false → x.delay = 0 → Table.find? x.loops lc.toNat ≠ none →
        both (fun i _ => s.trapsWith i .loopBusy 0 0))
    ∧ (s.phase = .whole → x.handler = false → x.delay = 0 → Table.find? x.loops lc.toNat = none → ¬nested →
        both (fun i _ => s.trapsWith i .seqPlace 0 0))
    ∧ (s.effective → x.handler = false → x.delay = 0 → Table.find? x.loops lc.toNat = none → nested →
        both (fun i c =>
          (c = 0 → Transfers i s (.chain (s.nextN ver stop 1) (s.nextN ver stop 2) (s.nextN ver stop 3)))
          ∧ (c ≠ 0 → ∃ y : Ctx, exec i s = .next (s.setCtx s.core y)
              ∧ Table.get 0 y.lc lc.toNat = BitVec.ofNat 64 (c - 1)
              ∧ (∀ j, j ≠ lc.toNat → Table.get 0 y.lc j = Table.get 0 x.lc j ∧ Table.find? y.loops j = Table.find? x.loops j)
              ∧ Table.find? y.loops lc.toNat = some { start := start, stop := stop, st := st.toNat, exitPending := false }
              ∧ y.order = lc.toNat :: x.order
              ∧ (st = 0 → y.preds = x.preds)
              ∧ (st ≠ 0 → ∀ j, j ≤ st.toNat → Table.get false y.preds (8 + j) = (j == 0))
              ∧ (∀ j, (j < 8 ∨ 8 + st.toNat < j) → Table.get false y.preds j = Table.get false x.preds j)
              ∧ ({ y with lc := x.lc, loops := x.loops, order := x.order, preds := x.preds } : Ctx) = x)))
    ∧ (s.phase = .whole → x.handler = true → s.trapsWith (.lexit lc) .seqPlace 0 0)
    ∧ (s.effective → x.handler = false → Table.find? x.loops lc.toNat = none → exec (.lexit lc) s = .next (s.setCtx s.core x))
    ∧ (s.effective → x.handler = false → Table.find? x.loops lc.toNat ≠ none → lc.toNat ∈ x.order →
        ∃ m, exec (.lexit lc) s = .next (s.setCtx s.core { x with loops := m })
          ∧ ∀ k, Table.find? m k = (Table.find? x.loops k).map (fun l =>
              if k = lc.toNat ∨ k ∈ x.order.takeWhile (fun j => j != lc.toNat) then { l with exitPending := true } else l))

/-- R217 and R230: the chain after a bundle outside loops, for each transfer it can make; a repeated bundle issues again
until its count is used up. -/
def Sys2Proof.Claims.chainAfterBundle : Prop :=
  ∀ (x : Ctx) (nx : Word → Word), x.loops = [] →
    let y := x.advance nx
    (x.rep = none →
      (x.transfer = .none → y = chained x x.n1 x.n2 (nx x.n2) x.mark1 false (x.delay - 1))
      ∧ (∀ t, x.transfer = .to t → y = chained x x.n1 x.n2 t x.mark1 false 2)
      ∧ (x.transfer = .annul → y = chained x x.n1 x.n2 (nx x.n2) true true (x.delay - 1))
      ∧ (∀ a b c, x.transfer = .chain a b c → y = chained x a b c false false (x.delay - 1))
      ∧ (x.transfer = .rep 0 → y = chained x x.n1 x.n2 (nx x.n2) true false (x.delay - 1))
      ∧ (∀ n, n ≠ 0 → x.transfer = .rep n →
          y = { chained x x.n1 x.n2 (nx x.n2) x.mark1 false (x.delay - 1) with rep := some { left := n, addr := x.n1 } }))
    ∧ (∀ r, x.rep = some r → 1 < r.left → y = { x with rep := some { r with left := r.left - 1 } })
    ∧ (∀ r, x.rep = some r → r.left ≤ 1 →
        y = { chained x x.n1 x.n2 (nx x.n2) x.mark1 false x.delay with rep := none, transfer := x.transfer })

/-- R227: the iteration boundary at the END of the innermost loop, without a drain request: a plain loop counts down and
goes back to START, and ends at 0; a loop with stages shifts its predicates and goes on while one of them is set. -/
def Sys2Proof.Claims.loopBoundary : Prop :=
  ∀ (x : Ctx) (nx : Word → Word) (k : Nat) (l : Loop),
    x.rep = none → x.transfer = .none → x.drain = none → x.order = [k] → Table.find? x.loops k = some l →
    l.stop = x.n0 → x.n1 = nx l.stop → x.n2 = nx x.n1 →
      let y := x.advance nx
      let lc := Table.get 0 x.lc k
      let seqNext : Prop := y.n0 = x.n1 ∧ y.n1 = x.n2 ∧ y.n2 = nx x.n2
      let again : Prop := y.n0 = l.start ∧ y.n1 = nx l.start ∧ y.n2 = nx (nx l.start) ∧ y.loops = x.loops ∧ y.order = [k]
      let ended : Prop := seqNext ∧ Table.find? y.loops k = none ∧ y.order = []
      (l.exitPending = true → ended ∧ y.lc = x.lc ∧ y.preds = x.preds)
      ∧ (l.exitPending = false → l.st = 0 → lc ≠ 0 → again ∧ Table.get 0 y.lc k = lc - 1 ∧ y.preds = x.preds)
      ∧ (l.exitPending = false → l.st = 0 → lc = 0 → ended ∧ y.lc = x.lc ∧ y.preds = x.preds)
      ∧ (l.exitPending = false → l.st ≠ 0 →
          (∀ j, 1 ≤ j → j ≤ l.st → Table.get false y.preds (8 + j) = Table.get false x.preds (8 + (j - 1)))
          ∧ Table.get false y.preds 8 = (lc != 0)
          ∧ (∀ q, (q < 8 ∨ 8 + l.st < q) → Table.get false y.preds q = Table.get false x.preds q)
          ∧ Table.get 0 y.lc k = (if lc = 0 then 0 else lc - 1)
          ∧ ((∃ j, j ≤ l.st ∧ Table.get false y.preds (8 + j) = true) → again)
          ∧ ((∀ j, j ≤ l.st → Table.get false y.preds (8 + j) = false) → ended))

/-- R217, R227 and R230: the chain after a bundle, with and without a loop boundary. -/
def Obligations.ChainAndLoopBoundary : Prop := chainAfterBundle ∧ loopBoundary

/-- R230, R231 and R327 to R330, with R376, R383, R384, R389 and R392: REP and REPI outside a handler and delay bundles, TRAP
and BKPT with what they report, ERET, YIELD, whose switch is not made in a handler and wins over a drain request's own, and
HALT, which in the handler of a frozen stream discards that stream; what an engine operation or a nest of it has raised
stands (R455). That YIELD.sched switches on a frozen or replayed stream too is the model's choice (log 39). -/
def Obligations.SystemInstructions : Prop :=
  ∀ (s : State),
    let x := s.ctx s.core
    (∀ a cnt, (s.phase = .whole → (x.handler = true ∨ x.delay ≠ 0) →
          s.trapsWith (.rep a) .seqPlace 0 0 ∧ s.trapsWith (.repi cnt) .seqPlace 0 0)
        ∧ (s.effective → x.handler = false → x.delay = 0 →
          Transfers (.rep a) s (.rep (s.src a).toNat) ∧ Transfers (.repi cnt) s (.rep cnt.toNat)))
    ∧ (∀ code, s.phase = .whole → s.trapsWith (.trap code) .soft (BitVec.ofNat 64 (0x40000000 + code.toNat)) (code.setWidth 64))
    ∧ (∀ code, s.phase = .whole → s.onDie = none →
        (x.dbgEn.getLsbD 0 = true → exec (.bkpt code) s = .next (s.setCtx s.core { x with stopped := true }))
        ∧ (x.dbgEn.getLsbD 0 = false →
            s.trapsWith (.bkpt code) .brk (BitVec.ofNat 64 (0x54000000 + code.toNat)) (code.setWidth 64)))
    ∧ ((s.phase = .whole → x.handler = false → s.trapsWith .eret .priv 0 0)
        ∧ (s.effective → x.handler = true → Transfers .eret s (.eret x.epc x.epc1 x.epc2)))
    ∧ (s.effective → exec .yieldCore s = .next (s.setCtx s.core { x with run := .blocked .yielded }))
    ∧ (s.effective →
        ((x.drain ≠ none ∨ (x.yieldDl ≠ BitVec.allOnes 64 ∧ x.yieldDl.toNat ≤ s.timeCnt.toNat)) → x.handler = false →
            exec .yieldSched s = .next (s.setCtx s.core { x with run := .drained false, drain := none }))
        ∧ ((x.drain = none ∧ (x.yieldDl = BitVec.allOnes 64 ∨ s.timeCnt.toNat < x.yieldDl.toNat) ∨ x.handler = true) →
            exec .yieldSched s = .next (s.setCtx s.core { x with run := .blocked .yielded })))
    ∧ (s.effective → ∃ t, exec .halt s = .next t ∧ (t.ctx s.core).run = .halted ∧ (t.ctx s.core).inflight = []
        ∧ (t.ctx s.core).interlocked = [] ∧ (t.ctx s.core).loops = [] ∧ (t.ctx s.core).rep = none
        ∧ (t.ctx s.core).regs = x.regs ∧ (t.task (s.taskId s.core)).state = .committing ∧ SameMemory s t
        ∧ OtherContexts s t
        ∧ (x.handler = false ∨ x.frozenAt = none → t.dieCtx = s.dieCtx ∧ (t.ctx s.core).sent = x.sent)
        ∧ (x.handler = true → x.frozenAt ≠ none → (t.ctx s.core).sent = [] ∧ (t.ctx s.core).notice = none
            ∧ (t.ctx s.core).frozenAt = s.engineFreeze s.core ∧ ∀ d ∈ x.dieIds, (t.dctx d).fault = none))

/-- R331: LAUNCH reserves a free entry of the pending-launch store and reports it, or reports REFUSED and sets f255; the
record of a non-idempotent task enters its queue at once; a record that is not 64-byte aligned traps. That the entry is the
lowest free one is the model's choice (log 34), as is the name that the launch has (log 23). -/
def Obligations.DeviceSideLaunch : Prop :=
  ∀ (d : BitVec 6) (nw : Bool) (a : Src) (s : State) (c : Nat), onSeq s c →
    let ea := s.src a
    let r := s.recordAt ea
    (s.phase = .whole → ea.toNat % 64 ≠ 0 → s.trapsWith (.launch d nw a) .addrAlign ea 0)
    ∧ (s.acts (s.recordVerdict ea) →
      let u := s.taskId s.core
      let name := childName (s.launch u.lid) u.wid (s.task u).launched
      let q := recQueue r
      (∀ k, s.freePending = some k → taskNonidem s = false → (∀ e ∈ s.pend, e.2.eligible = false) →
        ∃ t, exec (.launch d nw a) s = .next t
          ∧ Table.find? t.pend k = some { record := r, task := u, name, eligible := false }
          ∧ (∀ j, j ≠ k → Table.find? t.pend j = Table.find? s.pend j)
          ∧ t.queues = s.queues ∧ SameMemory s t ∧ OtherContexts s t
          ∧ ∃ f : Flight, f.out = (if nw then .none else .s d (BitVec.ofNat 64 (k * 2 ^ 16)))
              ∧ f.lv = BitVec.ofNat 64 (k * 2 ^ 16) ∧ f.due = (s.ctx s.core).stepNo + 5
              ∧ t.ctx s.core = { s.ctx s.core with inflight := (s.ctx s.core).inflight ++ [f] })
      ∧ (∀ k, s.freePending = some k → taskNonidem s = true → (∀ e ∈ s.pend, e.2.eligible = false) →
          q < 64 → (s.queue q).func = (s.launch u.lid).func → (s.queue q).recs.length < 256 →
        ∃ t, exec (.launch d nw a) s = .next t ∧ t.pend = s.pend ∧ SameMemory s t ∧ OtherContexts s t
          ∧ t.queue q = { s.queue q with recs := (s.queue q).recs ++
              [{ record := r, device := true, name, admitted := false, waits := [], failed := false }] }
          ∧ (∀ j, j ≠ q → t.queue j = s.queue j)
          ∧ ∃ f : Flight, f.out = (if nw then .none else .s d (BitVec.ofNat 64 (k * 2 ^ 16)))
              ∧ f.lv = BitVec.ofNat 64 (k * 2 ^ 16) ∧ f.due = (s.ctx s.core).stepNo + 5
              ∧ t.ctx s.core = { s.ctx s.core with inflight := (s.ctx s.core).inflight ++ [f] })
      ∧ (s.freePending = none →
        ∃ t, exec (.launch d nw a) s = .next t ∧ t.pend = s.pend ∧ t.flagWord (flagKey c 255) = 1
          ∧ (∀ j, j ≠ flagKey c 255 → t.flagWord j = s.flagWord j) ∧ SameMemory s t ∧ OtherContexts s t
          ∧ ∃ f : Flight, f.out = (if nw then .none else .s d 1) ∧ f.lv = 1 ∧ f.due = (s.ctx s.core).stepNo + 5
              ∧ (t.ctx s.core).inflight = (s.ctx s.core).inflight ++ [f]))

/-! ### Exceptions -/

/-- R382, R384 and R385: a cause of fate H in task mode enters the handler that TVEC names: the chain goes to EPC, EPC1 and
EPC2, the trap record is written, loops and repeats are set aside, and what is still on its way waits in the snapshot
buffer with the latches. -/
def Sys2Proof.Claims.trapEntersHandler : Prop :=
  ∀ (s : State) (c : CoreId) (slot : Nat) (cause : Cause) (tval tdata : Word),
    let x := s.ctx c
    let ver := (s.launchOf c).codeVer
    let t := s.trapAt c slot cause tval tdata
    let y := t.ctx c
    cause.fate = .h → x.handler = false → x.trap.tvec ≠ 0 → slot < 16 →
      y.handler = true
      ∧ y.epc = (x.n0 &&& ~~~1) ||| (if x.mark0 then 1 else 0) ∧ y.epc1 = (x.n1 &&& ~~~1) ||| (if x.mark1 then 1 else 0)
      ∧ y.epc2 = x.n2 &&& ~~~3
      ∧ y.n0 = x.trap.tvec ∧ y.n1 = s.nextOf ver x.trap.tvec ∧ y.n2 = s.nextOf ver (s.nextOf ver x.trap.tvec)
      ∧ y.mark0 = false ∧ y.mark1 = false
      ∧ y.trap.tvec = x.trap.tvec ∧ y.trap.kind = 0 ∧ y.trap.slot.toNat = slot ∧ y.trap.code.toNat = cause.code
      ∧ y.trap.tval = tval ∧ y.trap.tdata = tdata
      ∧ y.loops = [] ∧ y.order = [] ∧ y.rep = none ∧ y.asideLoops = x.loops ∧ y.asideOrder = x.order ∧ y.asideRep = x.rep
      ∧ y.inflight = [] ∧ y.interlocked = []
      ∧ y.late = 0
      ∧ (∃ sn, y.snap = some sn ∧ sn.latches = x.latches ∧ sn.delivered = x.delivered
          ∧ sn.pending = x.inflight.map (fun f => ({ f with arrived := true, due := f.due + 1 - x.stepNo } : Flight)))
      ∧ y.lc = x.lc ∧ y.task = x.task ∧ y.run = x.run
      ∧ (∀ d, d ≠ c → t.ctx d = s.ctx d) ∧ SameMemory s t ∧ t.dieCtx = s.dieCtx ∧ t.launches = s.launches

/-- R328: ERET takes the chain and the marks that EPC, EPC1 and EPC2 hold, whatever a handler has written there: bit 1 of
each, and bit 0 of EPC2, are ignored. -/
def Sys2Proof.Claims.returnTakesChain : Prop :=
  ∀ (z : Ctx) (e0 e1 e2 : Word),
    let w := z.leaveHandler e0 e1 e2
    w.handler = false ∧ w.mark0 = e0.getLsbD 0 ∧ w.mark1 = e1.getLsbD 0
    ∧ ∀ i, i < 64 → w.n0.getLsbD i = (decide (2 ≤ i) && e0.getLsbD i) ∧ w.n1.getLsbD i = (decide (2 ≤ i) && e1.getLsbD i)
        ∧ w.n2.getLsbD i = (decide (2 ≤ i) && e2.getLsbD i)

/-- R383 and R385: after a trap's entry, the return from the handler restores the chain with its marks, the loops and
repeats, the latches and every pending result, counted from the bundle that issues next. That what the bundles before have
delivered to l0 to l3 and the latch hazard return too is the model's choice (log 36). -/
def Sys2Proof.Claims.handlerReturnRestores : Prop :=
  ∀ (s : State) (c : CoreId) (kind slot : Nat) (cause : Cause) (tval tdata : Word) (td tp : BitVec 48) (z : Ctx),
    let x := s.ctx c
    let y := (s.enter c kind slot cause tval tdata td tp).ctx c
    x.n0.toNat % 4 = 0 → x.n1.toNat % 4 = 0 → x.n2.toNat % 4 = 0 → x.handler = false →
    (∀ f ∈ x.inflight, x.stepNo ≤ f.due) →
    -- whatever the handler has left in the context besides what it was entered with
    z.epc = y.epc → z.epc1 = y.epc1 → z.epc2 = y.epc2 → z.snap = y.snap → z.asideLoops = y.asideLoops →
    z.asideOrder = y.asideOrder → z.asideRep = y.asideRep → z.asideDelay = y.asideDelay → z.inflight = [] →
      let w := z.leaveHandler z.epc z.epc1 z.epc2
      w.handler = false ∧ w.n0 = x.n0 ∧ w.n1 = x.n1 ∧ w.n2 = x.n2 ∧ w.mark0 = x.mark0 ∧ w.mark1 = x.mark1
      ∧ w.loops = x.loops ∧ w.order = x.order ∧ w.rep = x.rep ∧ w.delay = x.delay ∧ w.latches = x.latches
      ∧ w.hazard = x.hazard ∧ w.delivered = x.delivered
      ∧ w.inflight = x.inflight.map (fun f =>
          ({ f with arrived := true, due := z.stepNo + (f.due - x.stepNo) } : Flight))
      ∧ w.regs = z.regs ∧ w.trap = z.trap

/-- R382, R383 and R391: a trap in handler mode ends the task as FAULTED, and so does a cause of fate H without a handler; the
fault record of a trap in handler mode keeps the first cause. That it keeps the first trap's KIND and TVAL too is the
model's choice (log 32). -/
def Sys2Proof.Claims.trapWithoutHandlerFaults : Prop :=
  ∀ (s : State) (c : CoreId) (slot : Nat) (cause : Cause) (tval tdata : Word),
    let x := s.ctx c
    let u := s.taskId c
    let l := s.launch u.lid
    let t := s.trapAt c slot cause tval tdata
    let kept (e : Ending) : Prop := (t.task u).state = .faulted
      ∧ Table.find? (t.queue l.queue).faultLog (1 + (s.queue l.queue).faultCount % 255)
          = some (faultRecord u.wid (recCookie l.record) e (s.task u).rb)
    s.groupOthers u = [] →
      (x.handler = true → ∃ e, kept e ∧ e.cause = .double ∧ e.code = x.trap.code.toNat ∧ e.tval = x.trap.tval
          ∧ e.kind = x.trap.kind.toNat)
      ∧ (x.handler = false → cause.fate = .h → x.trap.tvec = 0 →
          ∃ e, kept e ∧ e.cause = cause ∧ e.code = cause.code ∧ e.tval = tval ∧ e.kind = 0)

/-- R328 and R382 to R385: entering a handler, returning from it, and a trap without one. -/
def Obligations.TrapsAndHandlers : Prop :=
  trapEntersHandler ∧ returnTakesChain ∧ handlerReturnRestores ∧ trapWithoutHandlerFaults

/-- R186 and R188: at the end of a step every result due by then lands, in the order of their bundles, and the others stay on
their way. Of those whose data has not come the context keeps count; its core is held until they have: that the step ends
with their values all the same is the model's choice (log 39). -/
def Obligations.ResultsLandWhenDue : Prop :=
  ∀ (x : Ctx) (k : Nat),
    let y := x.landDue k
    let now := x.inflight.filter (fun f => decide (f.due ≤ k))
    y.inflight = x.inflight.filter (fun f => decide (k < f.due))
    ∧ (∀ n : BitVec 6, n ≠ 0 → y.sreg n =
        ((now.filterMap (fun f => match f.out with
          | .s m v => if m = n then some v else none
          | _ => none)).getLast?).getD (x.sreg n))
    ∧ (∀ q : BitVec 4, q ≠ 0 → y.qreg q =
        ((now.filterMap (fun f => match f.out with
          | .q r v => if r = q then some v else none
          | _ => none)).getLast?).getD (x.qreg q))
    ∧ (∀ i, i < 64 → y.fpctl.getLsbD i = (x.fpctl.getLsbD i || now.any (fun f =>
        (decide (8 ≤ i) && f.flags.getLsbD (i - 8)) || (decide (16 ≤ i) && f.vflags.getLsbD (i - 16)))))
    ∧ y.late = x.late + now.countP (fun f => !f.arrived)
    ∧ (∀ (s : State) (c : CoreId), s.frozen c = true ↔ ∃ m ∈ CoreId.mates c, (s.ctx m).late ≠ 0)

/-! ### Vector instructions of a die -/

/-- R237 to R239: elementwise arithmetic, bit operations and shifts of two registers, and of a register and a scalar. -/
def Sys2Proof.Claims.vectorArithmetic : Prop :=
  ∀ (s : State), s.effective →
    (∀ o : VSatBin, let v := o.o; let a := lanes s v.va; let b := lanes s v.vb
      GivesLanes (.vadd o) s v.vd v.m a b (arithLanes v.t o.sat s.vrm (fun x y => x + y) Fmt.add)
      ∧ GivesLanes (.vsub o) s v.vd v.m a b (arithLanes v.t o.sat s.vrm (fun x y => x - y) Fmt.subt)
      ∧ GivesLanes (.vmul o) s v.vd v.m a b (arithLanes v.t o.sat s.vrm (fun x y => x * y) Fmt.mul))
    ∧ (∀ o : VSatS, let v := o.o; let a := lanes s v.va; let b := scalar32 s v.a
      GivesLanes (.vadds o) s v.vd v.m a b (arithLanes v.t o.sat s.vrm (fun x y => x + y) Fmt.add)
      ∧ GivesLanes (.vmuls o) s v.vd v.m a b (arithLanes v.t o.sat s.vrm (fun x y => x * y) Fmt.mul))
    ∧ (∀ o : VSubS, let v := o.o; let a := lanes s v.va; let b := scalar32 s v.a
      (o.rev = false → GivesLanes (.vsubs o) s v.vd v.m a b (arithLanes v.t o.sat s.vrm (fun x y => x - y) Fmt.subt))
      ∧ (o.rev = true → GivesLanes (.vsubs o) s v.vd v.m b a (arithLanes v.t o.sat s.vrm (fun x y => x - y) Fmt.subt)))
    ∧ (∀ o : VBin, let a := lanes s o.va; let b := lanes s o.vb
      (o.t.isFloat = false →
        GivesLanes (.vmulh o) s o.vd o.m a b (intLanes o.t false (fun x y => (x * y).fdiv (2 ^ elemBits o.t))))
      ∧ (o.t.isFloat = true → GivesLanes (.vdiv o) s o.vd o.m a b (floatLanes o.t (fun x y _ => o.t.fmt.div s.vrm x y)))
      ∧ GivesLanes (.vmin o) s o.vd o.m a b
          (arithLanes o.t false s.vrm (fun x y => if x ≤ y then x else y) (fun f _ x y => f.minmax false x y))
      ∧ GivesLanes (.vmax o) s o.vd o.m a b
          (arithLanes o.t false s.vrm (fun x y => if x ≤ y then y else x) (fun f _ x y => f.minmax true x y))
      ∧ GivesLanes (.vand o) s o.vd o.m a b (bitLanes (fun x y => x &&& y))
      ∧ GivesLanes (.vor o) s o.vd o.m a b (bitLanes (fun x y => x ||| y))
      ∧ GivesLanes (.vxor o) s o.vd o.m a b (bitLanes (fun x y => x ^^^ y))
      ∧ GivesLanes (.vshl o) s o.vd o.m a b (shiftLanes o.t .l)
      ∧ GivesLanes (.vshr o) s o.vd o.m a b (shiftLanes o.t .r)
      ∧ GivesLanes (.vsar o) s o.vd o.m a b (shiftLanes o.t .a))
    ∧ (∀ o : VSBin, let a := lanes s o.va; let b := scalar32 s o.a
      GivesLanes (.vmins o) s o.vd o.m a b
          (arithLanes o.t false s.vrm (fun x y => if x ≤ y then x else y) (fun f _ x y => f.minmax false x y))
      ∧ GivesLanes (.vmaxs o) s o.vd o.m a b
          (arithLanes o.t false s.vrm (fun x y => if x ≤ y then y else x) (fun f _ x y => f.minmax true x y)))
    ∧ (∀ o : VShS, GivesLanes (.vshls o) s o.o.vd o.o.m (lanes s o.o.va) (scalar32 s o.o.a) (shiftLanes o.o.t o.kind))

/-- R72, R237 and R238: negation, absolute value, complement, move and counts of each element; fused multiply-add; and the
dot-accumulate, exact before one narrowing or one rounding, but for a quiet NaN among floats beside infinities of both signs, where
the order of the terms, the model's choice, decides NV (log 39). -/
def Sys2Proof.Claims.vectorUnaryAndFused : Prop :=
  ∀ (s : State), s.effective →
    (∀ o : VUnaOp, GivesLanes (.vuna o) s o.vd o.m (lanes s o.va) (fun _ => 0) (fun a _ _ r fl => fl = 0 ∧
      match o.kind with
      | .mov => r = a
      | .not => r + a = 2 ^ 32 - 1
      | .neg => ∀ e, e < 32 / elemBits o.t →
          if o.t.isFloat then elemOf o.t r e = elemOf o.t a e ^^^ 2 ^ (elemBits o.t - 1)
          else (elemOf o.t r e + elemOf o.t a e) % 2 ^ elemBits o.t = 0
      | .abs => ∀ e, e < 32 / elemBits o.t →
          if o.t.isFloat then elemOf o.t r e = elemOf o.t a e % 2 ^ (elemBits o.t - 1)
          else elemOf o.t r e = (elemVal o.t (elemOf o.t a e)).natAbs % 2 ^ elemBits o.t
      | .popc => ∀ e, e < 32 / elemBits o.t → elemOf o.t r e = ones (BitVec.ofNat (elemBits o.t) (elemOf o.t a e))
      | .clz => ∀ e, e < 32 / elemBits o.t → Leading (BitVec.ofNat (elemBits o.t) (elemOf o.t a e)) (elemOf o.t r e)))
    ∧ (∀ o : VFmaBin, GivesLanes (.vfma o) s o.o.vd o.o.m (lanes s o.o.va) (lanes s o.o.vb)
        (floatLanes o.o.t (fun a b d => o.o.t.fmt.fma s.vrm o.var a b d)))
    ∧ (∀ o : VFmaS, GivesLanes (.vfmas o) s o.o.vd o.o.m (lanes s o.o.va) (scalar32 s o.o.a)
        (floatLanes o.o.t (fun a b d => o.o.t.fmt.fma s.vrm o.var a b d)))
    ∧ (∀ o : VSatBin,
        (o.o.t.isFloat = false → GivesLanes (.vqadd o) s o.o.vd o.o.m (lanes s o.o.va) (lanes s o.o.vb)
          (fun a b d r fl => fl = 0 ∧ (r : Int) = narrowed .i32 o.sat (elemVal .i32 d
            + ((List.range (32 / elemBits o.o.t)).map
                (fun e => elemVal o.o.t (elemOf o.o.t a e) * elemVal o.o.t (elemOf o.o.t b e))).sum)))
        ∧ (o.o.t.isFloat = true → GivesLanes (.vqadd o) s o.o.vd o.o.m (lanes s o.o.va) (lanes s o.o.vb)
          (dotLanes o.o.t s.vrm)))

/-- R237 to R239: elementwise operations of two registers, of a register and a scalar, of one register, and fused ones. -/
def Obligations.VectorArithmetic : Prop := vectorArithmetic ∧ vectorUnaryAndFused

/-- R240 to R242: compares into mask registers, logic on masks, and selection by a mask. -/
def Sys2Proof.Claims.vectorMasksAndSelection : Prop :=
  ∀ (s : State), s.effective →
    let gives (i : Instr) (md m : BitVec 3) (c : VCond) (t : VType) (a b : Nat → Nat) : Prop := ∃ h : Nat → Bool,
      GivesMask i s md m h (fun n => if t == .f32 && laneInvalid c (a n) (b n) then 16 else 0)
      ∧ ∀ n, n < 128 → (h n = true ↔ laneHolds c t (a n) (b n))
    (∀ o : VCmpOp, elemBits o.t = 32 → gives (.vcmp o) o.md o.m o.cond o.t (lanes s o.va) (lanes s o.vb))
    ∧ (∀ o : VCmpSOp, elemBits o.t = 32 → gives (.vcmps o) o.md o.m o.cond o.t (lanes s o.va) (scalar32 s o.a))
    ∧ (∀ o : VMlogOp, GivesMask (.vmlog o) s o.md o.m (fun n =>
        o.tt.getLsbD ((if ((s.dctx s.dieId).mask o.mb).getLsbD n then 2 else 0)
          + (if ((s.dctx s.dieId).mask o.ma).getLsbD n then 1 else 0))) (fun _ => 0))
    ∧ (∀ o : VSelOp,
        let chosen (n : Nat) : Nat := if ((s.dctx s.dieId).mask o.sel).getLsbD n then lanes s o.va n else lanes s o.vb n
        GivesLanes (.vsel o) s o.vd o.m chosen (fun _ => 0) (fun a _ _ r fl => r = a ∧ fl = 0))

/-- R243 to R248, with R75 and R96: conversions of each element, special functions, broadcast, lane numbers, condition
registers and reductions over the enabled lanes, those of floating point in the tree of R96. -/
def Obligations.VectorConversionsAndReductions : Prop :=
  ∀ (s : State), s.effective →
    let x := s.dctx s.dieId
    (∀ o : VCvtOp, GivesLanes (.vcvt o) s o.vd o.m (lanes s o.va) (lanes s o.vb) (convLanes o.t o.dt o.e.toNat s.vrm))
    ∧ (∀ o : VSpecOp, GivesLanes (.vspec o) s o.vd o.m (lanes s o.va) (fun _ => 0) (fun a _ _ r fl =>
        let neg := fpNeg false a
        let invalid : Prop := r = canonNan false ∧ fl = 16
        let inf (n : Bool) (f : BitVec 5) : Prop := r = (fpInfinity false n).toNat ∧ fl = f
        let zero (n : Bool) : Prop := r = (fpZeroOf false n).toNat ∧ fl = 0
        (fpNan false a = true → r = canonNan false ∧ fl = if fpSig false a then 16 else 0)
        ∧ (fpInf false a = true → match o.kind with
            | .rcp => zero neg
            | .exp2 => if neg then zero false else inf false 0
            | .rsqrt => if neg then invalid else zero false
            | _ => if neg then invalid else inf false 0)
        ∧ (fpZero false a = true → match o.kind with
            | .sqrt => zero neg
            | .exp2 => r = 0x3F800000 ∧ fl = 0
            | .log2 => inf true 8
            | _ => inf neg 8)
        ∧ (fpFinite false a = true → fpZero false a = false → match o.kind with
            | .rcp => RoundedOnce (form false) s.vrm (1 / fpVal false a) neg r fl
            | .sqrt => if neg then invalid else RoundedReal (form false) s.vrm (Real.sqrt (fpVal false a : ℝ)) r fl
            | .rsqrt => if neg then invalid else RoundedReal (form false) s.vrm (1 / Real.sqrt (fpVal false a : ℝ)) r fl
            | .log2 => neg = true → invalid
            | .exp2 => True)
        ∧ (∀ n : Int, -126 ≤ n → n ≤ 127 → fpFinite false a = true → o.kind = .exp2 → fpVal false a = n →
            fpFinite false r = true ∧ fpVal false r = (2 : Rat) ^ n ∧ fl = 0)
        ∧ (∀ n : Int, -126 ≤ n → n ≤ 127 → fpFinite false a = true → o.kind = .log2 → fpVal false a = (2 : Rat) ^ n →
            fpFinite false r = true ∧ fpVal false r = n ∧ fl = 0)))
    ∧ (∀ o : VBcastOp, GivesLanes (.vbcast o) s o.vd o.m
        (fun _ => if o.lane then lanes s o.va ((s.scalar false o.a).toNat % 128) else scalar32 s o.a 0) (fun _ => 0)
        (fun a _ _ r fl => r = a ∧ fl = 0))
    ∧ (∀ o : VLaneOp, x.rank < 48 → x.count ≤ 48 → GivesLanes (.vlane o) s o.vd o.m (fun n => match o.kind with
          | .lane => n
          | .rank => x.rank
          | .count => x.count
          | .glob => 128 * x.rank + n) (fun _ => 0) (fun a _ _ r fl => r = a ∧ fl = 0))
    ∧ (∀ kd a, GivesK (.vkset (.s kd a)) s kd (s.scalar false a) 0)
    ∧ (∀ kd ma, GivesK (.vkset (.lo kd ma)) s kd ((x.mask ma).setWidth 64) 0)
    ∧ (∀ kd ma, GivesK (.vkset (.hi kd ma)) s kd ((x.mask ma).extractLsb' 64 64) 0)
    ∧ (∀ kd va a, GivesK (.vkset (.lane kd va a)) s kd (BitVec.ofNat 64 (lanes s va ((s.scalar false a).toNat % 128))) 0)
    ∧ (∀ kd ma m, GivesK (.vkset (.pop kd ma m)) s kd (BitVec.ofNat 64 (ones (x.mask ma &&& x.mask m))) 0)
    ∧ (∀ o : VRedOp, let l := enabledLanes s o.va o.m
        (o.kind = .add → o.t = .i32 ∨ o.t = .z32 →
          GivesK (.vred o) s o.kd (BitVec.ofInt 64 ((l.map (elemVal o.t)).sum)) 0)
        ∧ (o.kind = .max → o.t = .i32 ∨ o.t = .z32 → ∃ v : Int, GivesK (.vred o) s o.kd (BitVec.ofInt 64 v) 0
            ∧ (∀ e ∈ l, elemVal o.t e ≤ v) ∧ (l ≠ [] → ∃ e ∈ l, elemVal o.t e = v) ∧ (l = [] → v = elemLo o.t))
        ∧ (o.kind = .min → o.t = .i32 ∨ o.t = .z32 → ∃ v : Int, GivesK (.vred o) s o.kd (BitVec.ofInt 64 v) 0
            ∧ (∀ e ∈ l, v ≤ elemVal o.t e) ∧ (l ≠ [] → ∃ e ∈ l, elemVal o.t e = v) ∧ (l = [] → v = elemHi o.t))
        ∧ (o.kind = .and → GivesK (.vred o) s o.kd (BitVec.ofNat 64 (l.foldl (fun a b => a &&& b) (2 ^ 32 - 1))) 0)
        ∧ (o.kind = .or → GivesK (.vred o) s o.kd (BitVec.ofNat 64 (l.foldl (fun a b => a ||| b) 0)) 0)
        ∧ (o.kind = .xor → GivesK (.vred o) s o.kd (BitVec.ofNat 64 (l.foldl (fun a b => a ^^^ b) 0)) 0)
        ∧ (o.t = .f32 → o.kind = .add ∨ o.kind = .max ∨ o.kind = .min →
            let two : Nat → Nat → FRes := match o.kind with
              | .add => Fmt.f32.add s.vrm
              | k => Fmt.f32.minmax (k == .max)
            let top := laneTree two (fun n => if (x.mask o.m).getLsbD n then some (lanes s o.va n) else none) 7 0
            let none_ : Nat := match o.kind with
              | .add => 0
              | .max => 0xFF800000
              | _ => 0x7F800000
            GivesK (.vred o) s o.kd (BitVec.ofNat 64 (top.1.getD none_)) top.2))

/-- R255 and R256: reading, clearing and presetting DFLAGS, and reading and setting SIG. -/
def Sys2Proof.Claims.vectorFlagsAndSignature : Prop :=
  ∀ (s : State), s.effective →
    let x := s.dctx s.dieId
    (∀ kd, GivesK (.vflg (.rd kd)) s kd x.dflags 0)
    ∧ (∀ a, ∃ y, GivesDie (.vflg (.clr a)) s y ∧ ({ y with dflags := x.dflags } : DieCtx) = x
        ∧ ∀ j, j < 64 → y.dflags.getLsbD j = (x.dflags.getLsbD j && !(decide (j < 6) && (s.scalar false a).getLsbD j)))
    ∧ (∀ a, ∃ y, GivesDie (.vflg (.sat a)) s y ∧ ({ y with dflags := x.dflags } : DieCtx) = x
        ∧ ∀ j, j < 64 → y.dflags.getLsbD j = if j < 6 then x.dflags.getLsbD j
            else (decide (16 ≤ j ∧ j < 32) && (s.scalar false a).getLsbD (j - 16)))
    ∧ (∀ kd, s.unit = .die s.dieId → x.folds = [] → GivesK (.vsig (.rd kd)) s kd x.sig 0)
    ∧ (∀ a, GivesDie (.vsig (.set a)) s { x with sig := s.scalar false a, folds := [] })

/-- R240 to R242, R255 and R256: compares into masks, mask logic, selection, DFLAGS and SIG. -/
def Obligations.VectorMasksFlagsAndSelection : Prop := vectorMasksAndSelection ∧ vectorFlagsAndSignature

/-- R249 and R250: loads of lanes from the die scratchpad, the lane slices, the cluster window and flat memory. Enabled
lanes take the bytes at their addresses; no byte of memory changes. -/
def Obligations.VectorLoads : Prop :=
  ∀ (s : State) (d : DieId), s.onDie = some d → s.ecc = [] → s.flaws = [] → s.layers = [] →
    let on (m : BitVec 3) := (List.range 128).filter (fun n => ((s.dctx s.dieId).mask m).getLsbD n)
    let word (key : Nat) : Nat := fromBytes (fun i => Memory.readByte s.mem (key + i)) 4
    let takes : LaneRel := fun a _ _ r fl => r = a ∧ fl = 0
    (∀ o : VMemOp,
      (s.acts (lanesVerdict (on o.m) (fun n => s.padLane false (lanePlus s o.a n))) →
        GivesLanes (.vld o) s o.vd o.m (fun n => word (dieMemKey d.die (lanePlus s o.a n).toNat)) (fun _ => 0) takes)
      ∧ (s.acts (lanesVerdict (on o.m) (fun n => s.winLane false (lanePlus s o.a n))) →
        GivesLanes (.vldc o) s o.vd o.m (fun n => word (windowKey (d.die / 4) (lanePlus s o.a n).toNat)) (fun _ => 0) takes))
    ∧ (∀ o : VGathOp, s.acts (lanesVerdict (on o.m) (fun n => s.padLane false (laneScaled s o.a o.va (2 ^ o.sc.toNat) n))) →
        GivesLanes (.vgath o) s o.vd o.m (fun n => word (dieMemKey d.die (laneScaled s o.a o.va (2 ^ o.sc.toNat) n).toNat))
          (fun _ => 0) takes)
    ∧ (∀ o : VIdxOp,
      let off (n : Nat) : Word := if o.x then laneScaled s o.a o.va 4 n else s.scalar false o.a
      s.acts (lanesVerdict (on o.m) (fun n => s.sliceLane n (off n))) →
        GivesLanes (.vldl o) s o.vd o.m (fun n =>
          fromBytes (fun i => Memory.readByte (s.dctx d).slices (2048 * n + (off n).toNat + i)) 4) (fun _ => 0) takes)
    ∧ (∀ o : VIdxOp, s.acts (lanesVerdict (on o.m) (s.flatLane o .load)) →
        ∃ t, exec (.vldf o) s = .next t ∧ OnlyDie d s { t with tlb := s.tlb }
          ∧ LanesBecome s t o.vd o.m (fun n =>
              natOfBytes (s.flatRead (s.dieTask d) (s.lanePlace o .load n) 4)) (fun _ => 0) takes)

/-- R249, R135 and R406: stores of lanes to the die scratchpad and the cluster window by a die that does not suppress
its writes and whose task took no bank by hand-over: at each byte the highest enabled lane remains, and no other byte
changes. -/
def Obligations.VectorStores : Prop :=
  ∀ (s : State) (d : DieId), s.onDie = some d → s.ecc = [] → s.flaws = [] → s.layers = [] → s.suppressHere = false →
    (∀ m b, (Table.get .free (s.die m).banks b).handed (s.dieTask d) = false) →
    let on (m : BitVec 3) := (List.range 128).filter (fun n => ((s.dctx s.dieId).mask m).getLsbD n)
    let stored (i : Instr) (vd : BitVec 5) (m : BitVec 3) (key : Nat → Nat) : Prop :=
      ∃ t, exec i s = .next t ∧ OnlyDieAccess s t
        ∧ (∀ e : DieId, e.key ≠ d.key → t.dctx e = s.dctx e)
        ∧ ({ t.dctx d with sig := (s.dctx d).sig, folds := (s.dctx d).folds } : DieCtx) = s.dctx d
        ∧ ∀ k, Memory.readByte t.mem k = match lastLane s m key k with
          | some n => BitVec.ofNat 8 (lanes s vd n / 256 ^ (k - key n))
          | none => Memory.readByte s.mem k
    (∀ o : VMemOp,
      (s.acts (lanesVerdict (on o.m) (fun n => s.padLane true (lanePlus s o.a n))) →
        stored (.vst o) o.vd o.m (fun n => dieMemKey d.die (lanePlus s o.a n).toNat))
      ∧ (s.acts (lanesVerdict (on o.m) (fun n => s.winLane true (lanePlus s o.a n))) →
        stored (.vstc o) o.vd o.m (fun n => windowKey (d.die / 4) (lanePlus s o.a n).toNat)))
    ∧ (∀ o : VGathOp, s.acts (lanesVerdict (on o.m) (fun n => s.padLane true (laneScaled s o.a o.va (2 ^ o.sc.toNat) n))) →
        stored (.vscat o) o.vd o.m (fun n => dieMemKey d.die (laneScaled s o.a o.va (2 ^ o.sc.toNat) n).toNat))
    ∧ (∀ o : VIdxOp,
      let off (n : Nat) : Word := if o.x then laneScaled s o.a o.va 4 n else s.scalar false o.a
      s.acts (lanesVerdict (on o.m) (fun n => s.sliceLane n (off n))) →
        ∃ t, exec (.vstl o) s = .next t ∧ OnlyDie d s t
          ∧ ({ t.dctx d with sig := (s.dctx d).sig, folds := (s.dctx d).folds, slices := (s.dctx d).slices } : DieCtx) = s.dctx d
          ∧ (∀ k, Memory.readByte (t.dctx d).slices k =
              match lastLane s o.m (fun n => 2048 * n + (off n).toNat) k with
              | some n => BitVec.ofNat 8 (lanes s o.vd n / 256 ^ (k - (2048 * n + (off n).toNat)))
              | none => Memory.readByte (s.dctx d).slices k))

/-- R126, R251 and R313: flat stores and atomics of a die's lanes. VSTF of an idempotent task to HBM or the landing is staged
and changes no byte of memory; of a non-idempotent task it reaches the L2, and VAMO on HBM returns the old value and updates it
there, both for one enabled lane (`FlatStoresAndAtomicsComplete` has every place and several lanes, one after another). -/
def Obligations.VectorFlatStoresAndAtomics : Prop :=
  ∀ (s : State) (d : DieId), s.onDie = some d → s.ecc = [] →
    let on (m : BitVec 3) := (List.range 128).filter (fun n => ((s.dctx s.dieId).mask m).getLsbD n)
    (∀ o : VIdxOp, s.acts (lanesVerdict (on o.m) (s.flatLane o .store)) → s.nonidem (s.dieTask d) = false →
      (∀ n ∈ on o.m, (∃ p, s.lanePlace o .store n = .hbm p ∧ p + 4 ≤ 2 ^ 40) ∨ ∃ b, s.lanePlace o .store n = .land b) →
        ∃ t, exec (.vstf o) s = .next t ∧ SameMemory s t
          ∧ ({ t with dieCtx := s.dieCtx, launches := s.launches, layers := s.layers, tlb := s.tlb } : State) = s
          ∧ (s.suppressHere = false → ∀ n, on o.m = [n] → ∀ i, i < 4 →
              t.stagedByte (s.dieTask d) ((s.lanePlace o .store n).key + i)
                = some (BitVec.ofNat 8 (lanes s o.vd n / 256 ^ i)))
          ∧ (s.suppressHere = true → t.launches = s.launches))
    ∧ (∀ o : VIdxOp, s.acts (lanesVerdict (on o.m) (s.flatLane o .store)) → s.nonidem (s.dieTask d) = true →
      s.suppressHere = false → (∀ n ∈ on o.m, ∃ p, s.lanePlace o .store n = .hbm p) → ∀ n, on o.m = [n] →
        ∃ t, exec (.vstf o) s = .next t ∧ SameMemory s t ∧ t.launches = s.launches
          ∧ ∀ p, s.lanePlace o .store n = .hbm p → ∀ i, i < 4 →
              t.l2Byte (p + i) = BitVec.ofNat 8 (lanes s o.vd n / 256 ^ i))
    ∧ (∀ o : VAmoOp, s.acts (lanesVerdict (on o.o.m) (s.flatLane o.o .atomic)) → s.suppressHere = false →
      s.nonidem (s.dieTask d) = true → ∀ n p, on o.o.m = [n] → s.lanePlace o.o .atomic n = .hbm p →
        let old := fromBytes (fun i => s.l2Byte (p + i)) 4
        let b := lanes s o.o.vd n
        ∃ t, exec (.vamo o) s = .next t ∧ SameMemory s t ∧ lanes t o.o.vd n = old
          ∧ (∀ k, k ≠ n → k < 128 → lanes t o.o.vd k = lanes s o.o.vd k)
          ∧ (let new := fromBytes (fun i => t.l2Byte (p + i)) 4
             match o.kind with
             | .add => new = (old + b) % 2 ^ 32
             | .and => new = old &&& b
             | .or => new = old ||| b
             | .xor => new = old ^^^ b
             | .xch => new = b
             | .min => new = (if (if o.sgn then (BitVec.ofNat 32 b).slt (BitVec.ofNat 32 old) else decide (b < old)) then b else old)
             | .max => new = (if (if o.sgn then (BitVec.ofNat 32 old).slt (BitVec.ofNat 32 b) else decide (old < b)) then b else old)
             | .fadd => new = (Fmt.f32.add s.vrm old b).v % 2 ^ 32))

/-- R127, R135, R147, R251, R313 and R406: VSTF and VAMO complete wherever the checks of R251 pass for every enabled lane. VSTF
leaves the word of the last lane that covers a byte: staged while the task is idempotent, else at the L2 or at its home; a
lane in a bank or a window ends idempotence first. VAMO ends it whichever lanes are enabled, makes its lanes' updates one after
another and returns to each lane what it found. An odd rank of a twin-die run does neither. Lanes in the landing buffer at aligned addresses pass. -/
def Obligations.FlatStoresAndAtomicsComplete : Prop :=
  ∀ (s : State) (d : DieId), s.onDie = some d → s.effective →
    let on (m : BitVec 3) := (List.range 128).filter (fun n => ((s.dctx d).mask m).getLsbD n)
    let u := s.dieTask d
    let addr (o : VIdxOp) (n : Nat) : Word := if o.x then laneScaled s o.a o.va 4 n else lanePlus s o.a n
    (∀ o : VIdxOp, lanesVerdict (on o.m) (s.flatLane o .store) = .ok →
      let pl (n : Nat) := s.lanePlace o .store n
      let last (k : Nat) : Option Byte := (lastLane s o.m (fun n => (pl n).key) k).map (fun n =>
        BitVec.ofNat 8 (lanes s o.vd n / 256 ^ (k - (pl n).key)))
      let v := if (on o.m).any (fun n => isDirect (pl n)) then s.endIdem u (some (s.partOf d)) else s
      ∃ t, exec (.vstf o) s = .next t
        ∧ ({ t.dctx d with sig := (s.dctx d).sig, folds := (s.dctx d).folds } : DieCtx) = s.dctx d
        ∧ (s.suppressed d = true → SameMemory s t ∧ t.l2 = s.l2 ∧ t.launches = s.launches)
        ∧ (s.suppressed d = false → s.ecc = [] →
            (v.nonidem u = false → t.l2 = v.l2 ∧ ∀ k, k < 2 ^ 41 →
              Memory.readByte t.mem k = Memory.readByte v.mem k
              ∧ t.stagedByte u k = (match last k with | some b => some b | none => v.stagedByte u k))
            ∧ (v.nonidem u = true → t.launches = v.launches ∧ ∀ k,
              if k < 2 ^ 40 then
                Memory.readByte t.mem k = Memory.readByte v.mem k
                ∧ Table.find? t.l2 k = (match last k with | some b => some b | none => Table.find? v.l2 k)
              else Memory.readByte t.mem k = (last k).getD (Memory.readByte v.mem k))))
    ∧ (∀ o : VAmoOp, lanesVerdict (on o.o.m) (s.flatLane o.o .atomic) = .ok →
      let pl (n : Nat) := s.lanePlace o.o .atomic n
      let v := s.endIdem u (some (s.partOf d))
      let word (upto : Nat) (p : Place) : Nat := ((on o.o.m).filter (· < upto)).foldl (fun w n =>
        if (pl n).key = p.key then amoNew o.kind o.sgn s.vrm w (lanes s o.o.vd n) else w) (wordAt v p)
      ∃ t, exec (.vamo o) s = .next t
        ∧ (∀ r, r ≠ o.o.vd → (t.dctx d).vreg r = (s.dctx d).vreg r)
        ∧ (∀ n, n < 128 → n ∉ on o.o.m → lanes t o.o.vd n = lanes s o.o.vd n)
        ∧ (s.suppressed d = true → SameMemory s t ∧ t.l2 = s.l2 ∧ t.launches = s.launches
            ∧ ∀ n, lanes t o.o.vd n = lanes s o.o.vd n)
        ∧ (s.suppressed d = false → s.ecc = [] → t.launches = v.launches
            ∧ (∀ n ∈ on o.o.m, lanes t o.o.vd n = word n (pl n) ∧ wordAt t (pl n) = word 128 (pl n))
            ∧ ∀ k, (∀ n ∈ on o.o.m, k < (pl n).key ∨ (pl n).key + 4 ≤ k) →
                Memory.readByte t.mem k = Memory.readByte v.mem k ∧ Table.find? t.l2 k = Table.find? v.l2 k))
    ∧ (∀ o : VIdxOp, s.ecc = [] → s.nonidem u = true →
        (∀ n ∈ on o.m, (addr o n).toNat % 4 = 0 ∧ (addr o n).toNat / 2 ^ 52 = 9 ∧ (addr o n).toNat % 2 ^ 52 < 2 ^ 27) →
        lanesVerdict (on o.m) (s.flatLane o .store) = .ok ∧ lanesVerdict (on o.m) (s.flatLane o .atomic) = .ok
        ∧ ∀ n ∈ on o.m, s.lanePlace o .store n = .land ((addr o n).toNat % 2 ^ 52))

/-! ### Matrix instructions -/

/-- R263 to R266 and R282: the shadow words of the nest tables, their reading, PREC, and the check counters. -/
def Sys2Proof.Claims.nestTables : Prop :=
  ∀ (s : State), s.effective →
    let x := s.dctx s.dieId
    (∀ n w a, ∃ m, GivesDie (.ntw (.word n w a)) s { x with shadow := m }
        ∧ nestWord m n.toNat w.toNat = s.scalar false a
        ∧ ∀ k, k ≠ n.toNat * 32 + w.toNat → Table.get 0 m k = Table.get 0 x.shadow k)
    ∧ (∀ n w h himm, ∃ m, GivesDie (.ntw (.imm n w h himm)) s { x with shadow := m }
        ∧ (∀ j, j < 64 → (nestWord m n.toNat w.toNat).getLsbD j =
            if 16 * h.toNat ≤ j ∧ j < 16 * h.toNat + 16 then himm.getLsbD (j - 16 * h.toNat)
            else (nestWord x.shadow n.toNat w.toNat).getLsbD j)
        ∧ ∀ k, k ≠ n.toNat * 32 + w.toNat → Table.get 0 m k = Table.get 0 x.shadow k)
    ∧ (∀ o : NtrdOp, GivesK (.ntrd o) s o.kd
        (Table.get 0 (if o.act then x.active else x.shadow) (o.n.toNat * 32 + o.w.toNat)) 0)
    ∧ (∀ o : MprecOp, ∃ m, GivesDie (.mprec o) s { x with shadow := m }
        ∧ (let code (f : BlkFmt) : Nat := match f with
             | .b8 => 1
             | .b16 => 2
             | .n4x => 3
           (nestWord m o.n.toNat 16).toNat = code o.fa + 4 * code o.fb + (if o.t32 then 16 else 0))
        ∧ ∀ k, k ≠ o.n.toNat * 32 + 16 → Table.get 0 m k = Table.get 0 x.shadow k)
    ∧ (∀ o : AresOp, match o.kd with
        | some kd => GivesK (.ares o) s kd (Table.get 0 x.chk o.q.toNat) 0
        | none => ∃ m, GivesDie (.ares o) s { x with chk := m } ∧ Table.get 0 m o.q.toNat = 0
            ∧ ∀ k, k ≠ o.q.toNat → Table.get 0 m k = Table.get 0 x.chk k)

/-- R268, R269 and R272: MGO makes a checked shadow table the active one and adds a nest at its first batch; a malformed
table traps with NEST_BAD; MWAIT goes on once the nest it names, or every nest, has ended. -/
def Sys2Proof.Claims.nestStartAndWait : Prop :=
  ∀ (s : State) (d : DieId) (n : BitVec 2), s.onDie = some d →
    let x := s.dctx d
    let cfg := nestWord x.shadow n.toNat 0
    (s.acts (s.mgoVerdict n.toNat) → Table.risingFrom 0 x.shadow = true →
      ∃ y, GivesDie (.mgo n) s y
        ∧ (∀ w, w < 32 → nestWord y.active n.toNat w = nestWord x.shadow n.toNat w)
        ∧ (∀ k, k / 32 ≠ n.toNat → Table.get 0 y.active k = Table.get 0 x.active k)
        ∧ (∃ nest : Nest, y.nests = x.nests ++ [nest] ∧ nest.no = s.curNo ∧ nest.table = n.toNat ∧ nest.t = 0 ∧ nest.q = 0
            ∧ nest.p = 0 ∧ nest.i = 0 ∧ nest.finished = false
            ∧ ∀ w, w < 32 → nestWord nest.words n.toNat w = nestWord x.shadow n.toNat w)
        ∧ ({ y with active := x.active, nests := x.nests } : DieCtx) = x)
    ∧ (s.phase = .whole → x.nests = [] → (s.dctx { die := d.die, k := 0 }).nests = [] →
        (s.dctx { die := d.die, k := 1 }).nests = [] → (s.die d.die).asks = [] → nestBsrc cfg = false →
        (nestOk x.shadow n.toNat none = false → s.trapsWith (.mgo n) .nestBad 0 0)
        ∧ (nestOk x.shadow n.toNat none = true → s.mgoVerdict n.toNat = .ok))
    ∧ ((x.nests.all (fun t => t.table != n.toNat)) = true → s.effective → exec (.mwait (some n)) s = .next s)
    ∧ (x.nests = [] → s.effective → exec (.mwait none) s = .next s)
    ∧ ((x.nests.all (fun t => t.table != n.toNat)) = false → s.phase = .whole → exec (.mwait (some n)) s = .next s)

/-- R263 to R269, R272 and R282: the nest tables, the check counters, and the start of a nest and the wait for it. -/
def Obligations.NestInstructions : Prop := nestTables ∧ nestStartAndWait

/-- R91 to R93, R252 to R254 and R274 to R281: instructions on accumulator tiles. -/
def Sys2Proof.Claims.accumulatorTiles : Prop :=
  ∀ (s : State) (tile : BitVec 3), tileFree s tile →
    let x := s.dctx s.dieId
    let row := x.accRow tile.toNat
    (∃ y, GivesDie (.azero tile) s y ∧ RowsBecome x y tile.toNat
        (fun _ => { e := 0, h := 55, c := 0, fresh := true, elems := [] }))
    ∧ (∀ o : AexpOp, o.tile = tile → ∃ y, GivesDie (.aexp o) s y ∧ (∃ f, RowsBecome x y tile.toNat f
        ∧ ∀ i, i < 32 → if o.row.all (fun r => r.toNat == i) then
            (f i).e = (s.scalar false o.a).setWidth 16 ∧ (f i).elems = (row i).elems ∧ (f i).c = (row i).c ∧ Rewritten (f i)
          else f i = row i))
    ∧ (∀ o : ArenormOp, o.tile = tile → ∃ y, GivesDie (.arenorm o) s y ∧ (∃ f, RowsBecome x y tile.toNat f
        ∧ ∀ i, i < 32 →
          let k := (s.scalar false o.a).toNat % 64
          let h := (row i).h.toNat
          if (row i).fresh then f i = row i
          else if o.h then (if h < min k 55 then Renormed (row i) (f i) (min k 55 - h + 1) else f i = row i)
          else if k = 0 then f i = row i else Renormed (row i) (f i) k))
    ∧ (∀ o : AccRdOp, o.tile = tile → match o.row with
        | some r => GivesK (.ahead o) s o.kd ((row r.toNat).h.setWidth 64) 0
            ∧ GivesK (.aevt o) s o.kd ((row r.toNat).c.setWidth 64) 0
        | none => (∃ v : Word, GivesK (.ahead o) s o.kd v 0 ∧ (∀ i, i < 32 → v.toNat ≤ (row i).h.toNat)
              ∧ ∃ i, i < 32 ∧ v.toNat = (row i).h.toNat)
            ∧ GivesK (.aevt o) s o.kd (BitVec.ofNat 64 (((List.range 32).map (fun i => (row i).c.toNat)).sum)) 0)
    ∧ (∀ o : VAccOp, o.tile = tile →
        let at_ (n : Nat) : AccRow := row (4 * ((s.scalar false o.a).toNat % 8) + n / 32)
        let el (n : Nat) : AccElem := (at_ n).elem (n % 32)
        (o.mode = .mlo → GivesLanes (.vard o) s o.vd o.m (fun n => (el n).m.toNat % 2 ^ 32) (fun _ => 0)
            (fun a _ _ r fl => r = a ∧ fl = 0))
        ∧ (o.mode = .mhi → GivesLanes (.vard o) s o.vd o.m (fun n => ((el n).m.toInt / 2 ^ 32 % 2 ^ 32).toNat) (fun _ => 0)
            (fun a _ _ r fl => r = a ∧ fl = 0))
        ∧ (o.mode = .e → GivesLanes (.vard o) s o.vd o.m (fun n => (at_ n).e.toNat + (el n).tag.toNat * 2 ^ 16
              + (at_ n).h.toNat * 2 ^ 18 + (if (at_ n).fresh then 2 ^ 24 else 0)) (fun _ => 0)
            (fun a _ _ r fl => r = a ∧ fl = 0))
        ∧ (o.mode = .f32 → GivesLanes (.vard o) s o.vd o.m (fun n => n) (fun _ => 0)
            (fun n _ _ r fl => TimesBase (form false) s.vrm (elemNum (at_ n) (n % 32)) 0x3F800000 r fl))
        ∧ (∃ y, GivesDie (.vawr o) s y ∧ ({ y with acc := x.acc } : DieCtx) = x
            ∧ (∀ u i, u ≠ tile.toNat → i < 32 → y.accRow u i = x.accRow u i)
            ∧ (∀ i, i < 32 → i / 4 ≠ (s.scalar false o.a).toNat % 8 → y.accRow tile.toNat i = row i)
            ∧ ∀ u, u < 4 →
                let i := 4 * ((s.scalar false o.a).toNat % 8) + u
                let on (j : Nat) : Bool := (x.mask o.m).getLsbD (32 * u + j)
                if o.mode = .f32 then
                  if ∀ j, j < 32 → on j = true then
                    SetFromF32 (row i) (y.accRow tile.toNat i) (fun j => lanes s o.vd (32 * u + j))
                  else y.accRow tile.toNat i = row i
                else LanesWritten o.mode (row i) (y.accRow tile.toNat i)
                  (fun j => if on j then some (BitVec.ofNat 32 (lanes s o.vd (32 * u + j))) else none)))

/-- R276 to R278: ALOAD and ASTORE move a tile between its rows and an image in the die scratchpad. -/
def Sys2Proof.Claims.accumulatorImages : Prop :=
  ∀ (s : State) (d : DieId), plainDie s d →
    let x := s.dctx d
    (∀ o : AloadOp,
      let k := dieMemKey d.die (s.scalar false o.a).toNat
      let word (off n : Nat) : Nat := fromBytes (fun j => Memory.readByte s.mem (k + off + j)) n
      s.acts ((s.waitFor (.tiles [o.tile.toNat])).andThen
          (s.imageLoadVerdict (s.scalar false o.a) (if o.f32 then 4096 else 8448))) →
        ∃ y, GivesDie (.aload o) s y ∧ ∃ f, RowsBecome x y o.tile.toNat f
          ∧ (o.f32 = true → ∀ i, i < 32 → SetFromF32 (x.accRow o.tile.toNat i) (f i) (fun j => word (4 * (32 * i + j)) 4))
          ∧ (o.f32 = false → ∀ i, i < 32 →
              (f i).e.toNat = word (264 * i) 2 ∧ (f i).c.toNat = word (264 * i + 4) 4 ∧ Rewritten (f i)
              ∧ ∀ j, j < 32 → ((f i).elem j).tag.toNat = word (264 * i + 8 + 8 * j + 7) 1 % 4
                ∧ ((f i).elem j).m.toNat =
                    if ((f i).elem j).tag = 0 then word (264 * i + 8 + 8 * j) 7 else 0))
    ∧ (∀ o : AstoreOp,
      let row (i : Nat) : AccRow := x.accRow o.tile.toNat i
      let base := match o.base with
        | some k => (x.kreg k).toNat % 2 ^ 32
        | none => 0x3F800000
      s.acts ((s.waitFor (.tiles [o.tile.toNat])).andThen (s.imageStoreVerdict (s.scalar false o.a) o.fmt.size)) →
        (o.fmt = .raw → ∃ bs, StoresImage (.astore o) s d (s.scalar false o.a) bs x.k x.dflags ∧ bs.length = 8448
          ∧ ∀ i, i < 32 →
              leAt bs (264 * i) 8 = (row i).c.toNat * 2 ^ 32 + (if (row i).fresh then 2 ^ 22 else 0)
                + (row i).h.toNat * 2 ^ 16 + (row i).e.toNat
              ∧ ∀ j, j < 32 → leAt bs (264 * i + 8 + 8 * j) 8
                  = ((row i).elem j).tag.toNat * 2 ^ 56 + ((row i).elem j).m.toNat)
        ∧ (o.fmt ≠ .raw →
            let fw : Fmt × Nat := match o.fmt with
              | .bf16 => ({ eb := 8, mb := 7 }, 2)
              | .f16 => ({ eb := 5, mb := 10 }, 2)
              | _ => (form false, 4)
            ∃ bs fl g, StoresImage (.astore o) s d (s.scalar false o.a) bs x.k fl ∧ bs.length = 1024 * fw.2
              ∧ (∀ i j, i < 32 → j < 32 → TimesBase fw.1 s.vrm (elemNum (row i) j) base
                  (leAt bs (fw.2 * (32 * i + j)) fw.2) (g (32 * i + j)))
              ∧ Gains x.dflags fl 1024 g))

/-- R91 to R93, R252 to R254 and R274 to R281: instructions on accumulator tiles and their images in the die scratchpad:
renormalisation, the writes of lanes and rows, and the reads of elements times a base. -/
def Obligations.AccumulatorInstructions : Prop := accumulatorTiles ∧ accumulatorImages

/-- R80 to R84 and R283 to R287: VBSCL chooses the least scale that holds every finite element; VQNT writes a tile image and its
scale code and counts what saturates or is dropped; VDQNT reads one back, each element times the scale and the base. -/
def Obligations.BlockFormats : Prop :=
  ∀ (s : State) (d : DieId), plainDie s d →
    let x := s.dctx d
    let side (t32 : Bool) : Nat := if t32 then 32 else 16
    (∀ o : VQntOp, s.effective → ∃ c : Nat, GivesK (.vbscl o) s o.kd (BitVec.ofNat 64 c) 0 ∧ c ≤ 254 ∧
      (let l : List Nat := (List.range (side o.t32 * side o.t32)).map (groupLane s o.va)
       let h : Int := min ((s.scalar false o.a).toNat % 8) 5
       let big : Rat := match o.fmt with
         | .b8 => 127
         | .b16 => 32767
         | .n4x => 15 * (2 : Rat) ^ (h - 1)
       ((∀ e ∈ l, fpFinite false e = true → fpVal false e = 0) → c = 0)
       ∧ (c < 254 → ∀ e ∈ l, fpFinite false e = true → |fpVal false e| ≤ big * (2 : Rat) ^ ((c : Int) - 127))
       ∧ (0 < c → ∃ e ∈ l, fpFinite false e = true ∧ big * (2 : Rat) ^ ((c : Int) - 128) < |fpVal false e|)))
    ∧ (∀ o : VQntOp,
      let n := side o.t32 * side o.t32
      s.acts (s.imageStoreVerdict (s.scalar false o.a)
          (64 + (match o.fmt with | .b8 => n | .b16 => 2 * n | .n4x => n / 2))) →
        ∃ bs kk code len sat, StoresImage (.vqnt o) s d (s.scalar false o.a) bs kk
            (BitVec.ofNat 64 (x.dflags.toNat % 2 ^ 16 + min (x.dflags.toNat / 2 ^ 16 % 2 ^ 16 + sat) 0xFFFF * 2 ^ 16))
          ∧ bs.length = 64 + len
          ∧ Quantised o.fmt n ((x.kreg o.kd).toNat % 256) (groupLane s o.va) code len (fun j => leAt bs (64 + j) 1) sat
          ∧ (∀ j, j < 64 → leAt bs j 1 = match j with
              | 0 => code
              | 1 => blockCode o.fmt
              | 2 => side o.t32
              | _ => 0)
          ∧ ∀ r : BitVec 3, Table.get 0 kk r.toNat = if r = o.kd then BitVec.ofNat 64 code else x.kreg r)
    ∧ (∀ o : VDqntOp, s.acts (s.vdqntVerdict o) →
        let k := dieMemKey d.die (s.scalar false o.a).toNat
        let byte (j : Nat) : Nat := (Memory.readByte s.mem (k + j)).toNat
        let n := side o.t32 * side o.t32
        let base := match o.base with
          | some r => (x.kreg r).toNat % 2 ^ 32
          | none => 0x3F800000
        let el (j : Nat) : Quantity := (tileNum (byte 1) (fun i => byte (64 + i)) j).times ((2 : Rat) ^ ((byte 0 : Int) - 127))
        let malformed : Bool := byte 1 == 3 && (List.range n).any (fun j => tileKind (fun i => byte (64 + i)) j == .escape)
        ∃ t, exec (.vdqnt o) s = .next t ∧ OnlyDie d s t
          ∧ ({ t.dctx d with v := x.v, dflags := x.dflags } : DieCtx) = x
          ∧ (∀ r, (∀ u, u < n / 128 → r ≠ o.vd + BitVec.ofNat 5 u) → (t.dctx d).vreg r = x.vreg r)
          ∧ (byte 0 = 255 → (t.dctx d).dflags = x.dflags ∧ ∀ j, j < n → groupLane t o.vd j = canonNan false)
          ∧ (byte 0 ≠ 255 → ∃ g : Nat → BitVec 5,
              (∀ j, j < n → TimesBase (form false) s.vrm (el j) base (groupLane t o.vd j) (g j))
              ∧ Gains (if malformed then x.dflags ||| 32 else x.dflags) (t.dctx d).dflags n g))

/-! ### Cellar cores -/

/-- R79, R169 and R340 to R343: the vector operations of a cellar core in sixteen lanes, after 4 steps, and the lane
reduction after 8; a delivery writes the enabled lanes only. -/
def Sys2Proof.Claims.cellarVectorOperations : Prop :=
  (∀ (x : Ctx) (vd : BitVec 5) (m : BitVec 16) (v : CelVec) (n : Nat), n < 16 →
    let y := x.deliver (.w vd m v)
    (Table.get 0 y.w vd.toNat : CelVec).toNat / 2 ^ (32 * n) % 2 ^ 32
      = (if m.getLsbD n then v else Table.get 0 x.w vd.toNat).toNat / 2 ^ (32 * n) % 2 ^ 32
    ∧ (∀ r, r ≠ vd.toNat → (Table.get 0 y.w r : CelVec) = Table.get 0 x.w r) ∧ ({ y with w := x.w } : Ctx) = x)
  ∧ ∀ (s : State), s.effective →
    (∀ o : VSatBin, let v := o.o; let a := celLanes s v.va; let b := celLanes s v.vb; let rm := (s.ctx s.core).fpctl.toNat / 4 % 4
      GivesCel (.wadd o) s v.vd v.m 4 a b (arithLanes v.t o.sat rm (fun x y => x + y) Fmt.add)
      ∧ GivesCel (.wsub o) s v.vd v.m 4 a b (arithLanes v.t o.sat rm (fun x y => x - y) Fmt.subt)
      ∧ GivesCel (.wmul o) s v.vd v.m 4 a b (arithLanes v.t o.sat rm (fun x y => x * y) Fmt.mul))
    ∧ (∀ o : VFmaBin, let rm := (s.ctx s.core).fpctl.toNat / 4 % 4
      GivesCel (.wfma o) s o.o.vd o.o.m 4 (celLanes s o.o.va) (celLanes s o.o.vb)
        (floatLanes o.o.t (fun a b d => o.o.t.fmt.fma rm o.var a b d)))
    ∧ (∀ o : VBin, let a := celLanes s o.va; let b := celLanes s o.vb
      GivesCel (.wmin o) s o.vd o.m 4 a b
          (arithLanes o.t false 0 (fun x y => if x ≤ y then x else y) (fun f _ x y => f.minmax false x y))
      ∧ GivesCel (.wmax o) s o.vd o.m 4 a b
          (arithLanes o.t false 0 (fun x y => if x ≤ y then y else x) (fun f _ x y => f.minmax true x y))
      ∧ GivesCel (.wand o) s o.vd o.m 4 a b (bitLanes (fun x y => x &&& y))
      ∧ GivesCel (.wor o) s o.vd o.m 4 a b (bitLanes (fun x y => x ||| y))
      ∧ GivesCel (.wxor o) s o.vd o.m 4 a b (bitLanes (fun x y => x ^^^ y)))
    ∧ (∀ o : VSelOp, GivesCel (.wsel o) s o.vd o.m 4
        (fun n => if (celMaskOf s o.sel).getLsbD n then celLanes s o.va n else celLanes s o.vb n) (fun _ => 0)
        (fun a _ _ r fl => r = a ∧ fl = 0))
    ∧ (∀ o : VCvtOp, GivesCel (.wcvt o) s o.vd o.m 4 (celLanes s o.va) (celLanes s o.vb)
        (convLanes o.t o.dt o.e.toNat ((s.ctx s.core).fpctl.toNat / 4 % 4)))
    ∧ (∀ o : VBcastOp, GivesCel (.wbcast o) s o.vd o.m 4
        (fun _ => if o.lane then celLanes s o.va ((s.scalar false o.a).toNat % 16) else (s.scalar false o.a).toNat % 2 ^ 32)
        (fun _ => 0) (fun a _ _ r fl => r = a ∧ fl = 0))
    ∧ (∀ o : VCmpOp, elemBits o.t = 32 → ∃ (f : Flight) (v : BitVec 16),
        exec (.wcmp o) s = .next (s.setCtx s.core { s.ctx s.core with inflight := (s.ctx s.core).inflight ++ [f] })
        ∧ f.out = .m o.md (celMaskOf s o.m) v ∧ f.slot = s.slot ∧ f.lv = 0 ∧ f.flags = 0
        ∧ f.issued = (s.ctx s.core).stepNo ∧ f.due = (s.ctx s.core).stepNo + 3 ∧ f.arrived = true
        ∧ (∀ n ∈ celEnabled s o.m, (v.getLsbD n = true ↔ laneHolds o.cond o.t (celLanes s o.va n) (celLanes s o.vb n)))
        ∧ f.vflags = if (celEnabled s o.m).any (fun n => o.t == .f32 && laneInvalid o.cond (celLanes s o.va n) (celLanes s o.vb n))
            then 16 else 0)
    ∧ (∀ o : WRedOp, let l := (celEnabled s o.m).map (celLanes s o.va)
        (l = [] → exec (.wred o) s = .next s)
        ∧ (l ≠ [] → o.t = .i32 ∨ o.t = .z32 → ∃ v : Nat, ∃ f : Flight,
            exec (.wred o) s = .next (s.setCtx s.core { s.ctx s.core with inflight := (s.ctx s.core).inflight ++ [f] })
            ∧ CelResult s f o.vd o.m 8 (fun _ => v) (fun _ => 0) (fun a _ _ r fl => r = a ∧ fl = 0) ∧ f.arrived = true
            ∧ (match o.kind with
              | .add => v = l.sum % 2 ^ 32
              | .max => v ∈ l ∧ ∀ e ∈ l, elemVal o.t e ≤ elemVal o.t v
              | .min => v ∈ l ∧ ∀ e ∈ l, elemVal o.t v ≤ elemVal o.t e
              | .and => v = l.foldl (fun a b => a &&& b) (2 ^ 32 - 1)
              | .or => v = l.foldl (fun a b => a ||| b) 0
              | .xor => v = l.foldl (fun a b => a ^^^ b) 0))
        ∧ (l ≠ [] → o.t = .f32 → o.kind = .add ∨ o.kind = .max ∨ o.kind = .min →
            let two : Nat → Nat → FRes := match o.kind with
              | .add => Fmt.f32.add ((s.ctx s.core).fpctl.toNat / 4 % 4)
              | k => Fmt.f32.minmax (k == .max)
            let top := laneTree two (fun n => if (celMaskOf s o.m).getLsbD n then some (celLanes s o.va n) else none) 4 0
            ∃ v : Nat, ∃ f : Flight, top.1 = some v
            ∧ exec (.wred o) s = .next (s.setCtx s.core { s.ctx s.core with inflight := (s.ctx s.core).inflight ++ [f] })
            ∧ CelResult s f o.vd o.m 8 (fun _ => v) (fun _ => 0) (fun a _ _ r g => r = a % 2 ^ 32 ∧ g = top.2)
            ∧ f.arrived = true))

/-- R344 with R135 and R216: WLD and WST of the core scratchpad, and of flat memory, on clean storage. Enabled lanes take the
bytes at their addresses; at each byte stored the highest enabled lane remains: in a scratchpad, in the L1, or among the
staged bytes of an idempotent task; and no other byte changes. -/
def Sys2Proof.Claims.cellarVectorMemory : Prop :=
  ∀ (o : WMemOp) (s : State) (c : Nat), s.core = .cel c → s.ecc = [] →
    let on := celEnabled s o.m
    let pad (n : Nat) : Nat := padKey (c / 4) (celAddr s o n).toNat
    let takes : LaneRel := fun a _ _ r fl => r = a ∧ fl = 0
    (o.flat = false → s.acts (lanesVerdict on (fun n => s.padVerdict (celAddr s o n) 4 false)) →
      GivesCel (.wld o) s o.vd o.m 4 (fun n => fromBytes (fun i => Memory.readByte s.mem (pad n + i)) 4) (fun _ => 0) takes)
    ∧ (o.flat = false → s.acts (lanesVerdict on (fun n => s.padVerdict (celAddr s o n) 4 true)) →
      ∃ t, exec (.wst o) s = .next t ∧ ({ t with mem := s.mem, rewrites := s.rewrites } : State) = s
        ∧ ∀ k, Memory.readByte t.mem k = match lastOf on pad k with
            | some n => BitVec.ofNat 8 (celLanes s o.vd n / 256 ^ (k - pad n))
            | none => Memory.readByte s.mem k)
    ∧ (∀ pl : Nat → Place, o.flat = true → s.acts (lanesVerdict on (s.wldLane o)) →
      (∀ n ∈ on, s.corePlace s.core (celAddr s o n) 4 .load = .ok (pl n)
        ∧ ((∃ p, pl n = .hbm p) ∨ ∃ i off, pl n = .pad i off)) →
      ∃ (t : State) (f : Flight), exec (.wld o) s = .next t
        ∧ CelResult s f o.vd o.m
            (if !on.isEmpty && on.all (fun n => match pl n with | .pad i _ => i == s.core.padIdx | _ => false) then 4 else 6)
            (fun n => fromBytes (placeByte s (pl n)) 4) (fun _ => 0) takes
        ∧ t.ctx s.core = { s.ctx s.core with inflight := (s.ctx s.core).inflight ++ [f] }
        ∧ OtherContexts s t ∧ OnlyAccess s t ∧ SameMemory s t)
    ∧ (∀ pl : Nat → Place, o.flat = true → s.acts (lanesVerdict on (s.wstLane o)) →
      (∀ n ∈ on, s.corePlace s.core (celAddr s o n) 4 .store = .ok (pl n)
        ∧ ((∃ p, pl n = .hbm p ∧ p + 4 ≤ 2 ^ 40) ∨ ∃ i off, pl n = .pad i off)) →
      let last (k : Nat) : Option Byte := (lastOf on (fun n => (pl n).key) k).map (fun n =>
        BitVec.ofNat 8 (celLanes s o.vd n / 256 ^ (k - (pl n).key)))
      ∃ t, exec (.wst o) s = .next t
        ∧ ({ t with l1Seq := s.l1Seq, l1Cel := s.l1Cel, tlb := s.tlb, launches := s.launches, mem := s.mem, rewrites := s.rewrites,
                    layers := s.layers, flaws := s.flaws, errLog := s.errLog, errCount := s.errCount,
                    health := s.health } : State) = s
        ∧ (∀ k, Memory.readByte t.mem k =
            if k < 2 ^ 40 then Memory.readByte s.mem k else (last k).getD (Memory.readByte s.mem k))
        ∧ (taskNonidem s = true → t.launches = s.launches ∧ ∀ k, k < 2 ^ 40 → Table.find? (t.l1 s.core) k =
            match last k with
            | some b => some { val := b, dirty := true }
            | none => Table.find? (s.l1 s.core) k)
        ∧ (taskNonidem s = false → ∀ k, k < 2 ^ 40 → t.stagedByte (s.taskId s.core) k =
            match last k with
            | some b => some b
            | none => s.stagedByte (s.taskId s.core) k))

/-- R79, R135, R169, R216 and R340 to R344: the vector operations, loads and stores of a cellar core. -/
def Obligations.CellarVectorInstructions : Prop := cellarVectorOperations ∧ cellarVectorMemory

/-! ### Trees and permutations of dies -/

/-- R62, R257, R307, R309 and R333: a barrier-class operation whose checks pass leaves its die standing at the barrier and
nothing else; PERM and PBCD trap with PERM_BAD when the source rank is none of the partition. -/
def Sys2Proof.Claims.barrierOperations : Prop :=
  ∀ (s : State),
    let x := s.dctx s.dieId
    let stands (i : Instr) : Prop := GivesDie i s { x with atBarrier := true }
    (s.effective → (∀ o, stands (.rred o)) ∧ (∀ rt, stands (.rsync rt)))
    ∧ (∀ o, s.acts (s.waitFor .fold) → stands (.sigchk o))
    ∧ (∀ pt a, let off := (s.scalar false a).toNat % 2 ^ 28
        s.acts ((s.dieRange s.dieId off 64 64 false .prog (BitVec.ofNat 64 off)).andThen
          (s.ueVerdict (dieMemKey s.dieId.die off) 64 (BitVec.ofNat 64 off))) → stands (.ptld pt a))
    ∧ (∀ pt sz a, s.acts (s.permVerdict (.perm pt sz a) sz (s.scalar false a) 0) → stands (.perm pt sz a))
    ∧ (∀ o : PermOp, (s.acts (s.permVerdict (.pshr o) o.sz (s.scalar false o.a) (s.scalar true o.b)) → stands (.pshr o))
        ∧ (s.acts (s.permVerdict (.pxch o) o.sz (s.scalar false o.a) (s.scalar true o.b)) → stands (.pxch o))
        ∧ (s.acts (s.permVerdict (.pbcd o) o.sz (s.scalar false o.a) (s.scalar true o.b)) → stands (.pbcd o)))
    ∧ (s.phase = .whole →
        -- once the waits for engine operations in conflict have ended (R151)
        let ready (sz : BitVec 2) (a : Word) : Prop := s.waitMet s.unit (.perm (a.toNat % 2 ^ 28) (a.toNat / 2 ^ 32 % 2 ^ 28)
          (1024 * 4 ^ sz.toNat)) = true
        (∀ o : PermOp, x.count ≤ (s.scalar true o.b).toNat → ready o.sz (s.scalar false o.a) → s.trapsWith (.pbcd o) .permBad 0 0)
        ∧ (∀ pt sz a r, permFrom x (.perm pt sz a) 0 = some r → x.count ≤ r → ready sz (s.scalar false a) →
          s.trapsWith (.perm pt sz a) .permBad 0 0))

/-- R62, R97, R257 to R260, R307 to R310 and R333: BARRIER_COMPLETE gives the operation its effect over the enabled dies:
RSYNC and reductions fill their rt register, SIGCHK compares pairs of ranks, PTLD loads tables, and a permutation moves
bytes as if every source were read before any destination is written. The partition's task owes no error that a commit has
consumed (R381), which the barrier would report in place of its end. -/
def Sys2Proof.Claims.barrierCompletes : Prop :=
  ∀ (s : State) (c : Nat) (p : Packet) (i : Instr) (ds : List DieId), BarrierAt s c p i ds → s.ecc = [] →
    s.owes (.core (.seq c)) = false →
    ∃ t, exec (.barrierComplete c) s = .next t
      ∧ ((∀ o, i ≠ .sigchk o) → ∀ d ∈ ds, (t.dctx d).atBarrier = false ∧ (p.c = none → p.no ≤ (t.dctx d).retired))
      ∧ (∀ rt, i = .rsync rt → Table.get 0 (t.ctx (.seq c)).rt rt.toNat = BitVec.ofNat 64 ds.length
          ∧ SameMemory s t
          ∧ Table.get 0 (t.ctx (.seq c)).rtWait rt.toNat = Table.get 0 (s.ctx (.seq c)).rtWait rt.toNat - 1)
      ∧ (∀ o, i = .rred o →
          let l := (ds.filter (fun d => !s.suppressed d)).map (fun d => treeValue o (s.dctx d))
          ∃ v : Word, Table.get 0 (t.ctx (.seq c)).rt o.rt.toNat = v ∧ SameMemory s t
            ∧ (o.big = false → o.cls = .s → v = (v.setWidth 32).signExtend 64)
            ∧ (o.big = false → o.cls ≠ .s → v.toNat < 2 ^ 32)
            ∧ (let w := v.toNat % 2 ^ treeBits o
               (o.kind = .add → o.cls ≠ .f → w = l.sum % 2 ^ treeBits o)
               ∧ (o.kind = .max → o.cls ≠ .f → l ≠ [] → w ∈ l ∧ ∀ e ∈ l, treeOrder o e ≤ treeOrder o w)
               ∧ (o.kind = .min → o.cls ≠ .f → l ≠ [] → w ∈ l ∧ ∀ e ∈ l, treeOrder o w ≤ treeOrder o e)
               ∧ (o.kind = .max → o.cls ≠ .f → l = [] → w = if o.cls = .s then 2 ^ (treeBits o - 1) else 0)
               ∧ (o.kind = .min → o.cls ≠ .f → l = [] → w = if o.cls = .s then 2 ^ (treeBits o - 1) - 1 else 2 ^ treeBits o - 1)
               ∧ (o.kind = .and → w = l.foldl (fun a b => a &&& b) (2 ^ treeBits o - 1))
               ∧ (o.kind = .or → w = l.foldl (fun a b => a ||| b) 0)
               ∧ (o.kind = .xor → w = l.foldl (fun a b => a ^^^ b) 0)
               ∧ (o.cls = .f → o.kind = .add ∨ o.kind = .max ∨ o.kind = .min →
                  let f : Fmt := form o.big
                  let two (a b : Nat) : Nat := match o.kind with
                    | .add => (f.add p.vrm.toNat a b).v
                    | k => (f.minmax (k == .max) a b).v
                  let of (n : Nat) : Option Nat :=
                    (ds.find? (fun d => d.die == n && !s.suppressed d)).map (fun d => treeValue o (s.dctx d))
                  w = (acrossDies two of).getD (match o.kind with
                    | .add => 0
                    | k => (fpInfinity o.big (k == .max)).toNat)))
            ∧ ∀ d ∈ ds, (s.dctx d).folds = [] →
                (t.dctx d).sig = foldWord (foldWord (s.dctx d).sig (BitVec.ofNat 64 (0x10 * 2 ^ 56 + p.no % 2 ^ 56)))
                  (BitVec.ofNat 64 (treeValue o (s.dctx d))))
      ∧ (∀ o, i = .sigchk o →
          let differ (n : Nat) (a b : DieId) : Prop := a ∈ ds ∧ b ∈ ds ∧ n < (diesOf (s.ctx (.seq c)).dieMask).length / 2
            ∧ (s.dctx a).rank = 2 * n ∧ (s.dctx b).rank = 2 * n + 1 ∧ (s.dctx a).sig ≠ (s.dctx b).sig
          ((o.t = false ∨ ∀ n a b, ¬differ n a b) →
            (∀ n, n < 64 → ((Table.get 0 (t.ctx (.seq c)).rt o.rt.toNat : Word).getLsbD n = true ↔ ∃ a b, differ n a b))
            ∧ (∀ d ∈ ds, (t.dctx d).atBarrier = false ∧ (t.dctx d).sig = if o.clr then 0 else (s.dctx d).sig))
          ∧ (o.t = true → ∀ n a b, differ n a b →
            (t.dctx a).fault = some { no := p.no, slot := 6, cause := .sigMismatch, tval := 0 }
            ∧ (t.dctx b).fault = some { no := p.no, slot := 6, cause := .sigMismatch, tval := 0 }
            ∧ (t.ctx (.seq c)).frozenAt = some p.no))
      ∧ (∀ pt a, i = .ptld pt a → a ≠ .held → ∀ d ∈ ds, ∀ j, j < 64 →
          (Table.get 0 (t.dctx d).pt pt.toNat : BitVec 512).extractLsb' (8 * j) 8
            = Memory.readByte s.mem (dieMemKey d.die (p.pa.toNat % 2 ^ 28) + j))
      ∧ (∀ n a b, permForm i n a b → a ≠ .held → b ≠ some .held →
          (∀ d ∈ ds, 0 < (s.dctx d).count ∧ ∀ m, (Table.get .free (s.die d.die).banks m).handed (s.dieTask d) = false) →
          let src := p.pa.toNat % 2 ^ 28
          let dst := p.pa.toNat / 2 ^ 32 % 2 ^ 28
          let key (d : DieId) : Nat := 2 ^ 41 + d.die * 2 ^ 28
          src + n ≤ 2 ^ 28 → dst + n ≤ 2 ^ 28 →
          (∀ d ∈ ds, ∀ e ∈ ds, permFrom (s.dctx d) i p.pb = some (s.dctx e).rank → ∀ j, j < n →
            Memory.readByte t.mem (key d + dst + j) = Memory.readByte s.mem (key e + src + j))
          ∧ ∀ k, (∀ d ∈ ds, (∃ e ∈ ds, permFrom (s.dctx d) i p.pb = some (s.dctx e).rank) →
              (k < key d + dst ∨ key d + dst + n ≤ k)) → Memory.readByte t.mem k = Memory.readByte s.mem k)

/-- R62, R97, R257 to R260, R307 to R310 and R333: operations of the barrier class, their checks, and what their barrier does. -/
def Obligations.BarrierOperations : Prop := barrierOperations ∧ barrierCompletes

/-! ### Copies, circular buffers, banks and engines -/

/-- R122, R290 to R299: XLATE captures a run for the layout unit to fill, the copy instructions queue an operation with its
range, tiles and task, CWAIT goes on once its operations have ended; an XLATE that faults leaves its register empty, and a
transfer from an empty register traps. That an entry which an XLATE cannot read is an error it consumes, which empties the register
too, is the model's reading (R381, log 45); so is that the register's emptiness is checked before the run (log 44). -/
def Sys2Proof.Claims.copyInstructions : Prop :=
  ∀ (s : State),
    let u := s.unit
    (∀ o : XlateOp, s.acts (s.xlateVerdict o) → ∃ (t : State) (r : XReg), exec (.xlate o) s = .next t ∧ OtherUnits s t
        ∧ SameMemory s t ∧ Table.find? (t.xregs u) o.x.toNat = some r
        ∧ (∀ k, k ≠ o.x.toNat → Table.find? (t.xregs u) k = Table.find? (s.xregs u) k)
        ∧ r.filled = false ∧ r.tid = o.tid ∧ r.handle = (s.tensorOf u o.tid).extractLsb' 0 32
        ∧ r.first = (s.scalar false o.a).toNat ∧ r.tiles.length = o.cnt.toNat + 1
        ∧ ∀ n, n < o.cnt.toNat + 1 → r.tiles[n]? = some (s.capture (s.tensorOf u o.tid) (r.first + n)))
    ∧ (∀ (o : XlateOp) (c : Cause) (tval tdata : Word), s.phase = .whole → s.xlateVerdict o = .trap c tval tdata →
        exec (.xlate o) s = .next ((s.setXregs u (Table.erase (s.xregs u) o.x.toNat)).slotTrap c tval tdata))
    ∧ (∀ (o : XlateOp) (key n : Nat) (tval : Word), s.phase = .whole → s.xlateVerdict o = .ue key n tval →
        ∃ t, exec (.xlate o) s = .next (t.slotTrap .ue tval 0) ∧ t.xregs u = Table.erase (s.xregs u) o.x.toNat ∧ SameMemory s t)
    ∧ (∀ (planes : Bool) (o : TcopyOp) (r : XReg), Table.find? (s.xregs u) o.x.toNat = some r →
        s.acts (s.tcinVerdict planes o) → ∃ (t : State) (op : CopyOp), Enqueues (.tcin planes o) s t o.e op ∧ SameMemory s t
          ∧ op.kind = .tcin planes ∧ op.off = (s.scalar false o.a).toNat ∧ op.tid = r.tid
          ∧ op.first = r.first + (s.scalar true o.b).toNat % 16 ∧ op.tiles = selected r (s.scalar true o.b)
          ∧ op.len = ((s.scalar true o.b).toNat / 16 % 16 + 1)
              * (if planes then stagedSize (tFmt (runTensor s r)) (tSide (runTensor s r)) true else 64 + tSize (runTensor s r)))
    ∧ (∀ (o : TcopyOp) (r : XReg), Table.find? (s.xregs u) o.x.toNat = some r → s.acts (s.tcoutVerdict o) →
        s.tcoutVerdict o = .ok → ∃ (t : State) (op : CopyOp), Enqueues (.tcout o) s t o.e op
          ∧ op.kind = .tcout ∧ op.off = (s.scalar false o.a).toNat ∧ op.tid = r.tid
          ∧ op.first = r.first + (s.scalar true o.b).toNat % 16 ∧ op.tiles = selected r (s.scalar true o.b)
          ∧ op.len = ((s.scalar true o.b).toNat / 16 % 16 + 1) * (64 + tSize (runTensor s r))
          ∧ (s.nonidem (s.unitTask u) = true → SameMemory s t)
          ∧ (s.nonidem (s.unitTask u) = false → s.suppressHere = false →
              ∀ tl ∈ op.tiles, (t.shadowOf (s.unitTask u) tl.entry).isSome = true))
    ∧ (∀ (host : Bool) (o : FcopyOp) (pl : Place), s.acts (s.fcopyVerdict host o) →
        s.flatPlace host (s.scalar true o.b) (64 * 2 ^ o.z.toNat) o.out = .ok pl →
        ∃ (t : State) (op : CopyOp), Enqueues (if host then .hcopy o else .lcopy o) s t o.e op
          ∧ op.kind = (if o.out then .flatOut else .flatIn) ∧ op.off = (s.scalar false o.a).toNat
          ∧ op.len = 64 * 2 ^ o.z.toNat ∧ op.flat = pl.key ∧ op.addr = s.scalar true o.b
          ∧ (o.out = false ∨ s.nonidem (s.unitTask u) = true ∨ s.suppressHere = true → SameMemory s t)
          ∧ (o.out = true → s.suppressHere = false → pl.endsIdem = true → t.nonidem (s.unitTask u) = true))
    ∧ (∀ o : CwaitOp, s.acts (s.stallWait (.copies (if o.all || !s.onDie.isSome then none else some (if o.e then 1 else 0))
          (match s.onDie with
            | some _ => s.curNo
            | none => (s.ctx s.core).copySerial))) → exec (.cwait o) s = .next s)
    ∧ (∀ o : TcopyOp, s.phase = .whole → Table.find? (s.xregs u) o.x.toNat = none →
        s.waitMet u (.engineFull (if o.e then 1 else 0)) = true →
        s.trapsWith (.tcin false o) .xEmpty 0 0 ∧ s.trapsWith (.tcin true o) .xEmpty 0 0 ∧ s.trapsWith (.tcout o) .xEmpty 0 0)

/-- R301 to R305: CBINIT makes or removes a buffer, CBTAKE and CBGIVE move a slot between a program side and its counter,
CBWR and CBRD queue an engine operation; a buffer that is not there, or a side that is not the program's, raises CB_BAD. -/
def Sys2Proof.Claims.circularBuffers : Prop :=
  ∀ (s : State),
    let b? (n : BitVec 3) := Table.find? (s.cbTable s.unit) n.toNat
    (∀ o : CbinitOp, s.acts (s.cbinitVerdict o) →
      let b := s.scalar true o.b
      (b.toNat % 256 = 0 → GivesCb (.cbinit o) s o.cb none)
      ∧ (b.toNat % 256 ≠ 0 → GivesCb (.cbinit o) s o.cb (some
          { base := (s.scalar false o.a).toNat, n := b.toNat % 256, blocks := b.toNat / 256 % 16 + 1, free := b.toNat % 256,
            filled := 0, wpos := 0, rpos := 0, wheld := 0, rheld := 0, wp := o.wp, rp := o.rp })))
    ∧ (∀ (o : CbinitOp) (c : Cb), s.phase = .whole → (s.scalar true o.b).toNat % 256 ≠ 0 → b? o.cb = some c →
        s.trapsWith (.cbinit o) .cbBad 0 0)
    ∧ (∀ (o : CbProgOp) (c : Cb), b? o.cb = some c →
        (s.acts ((s.stallWait (.counter o.cb.toNat o.r)).andThen (need (if o.r then c.rp else c.wp) .cbBad 0)) →
          GivesCb (.cbtake o) s o.cb (some (if o.r
            then { c with filled := c.filled - 1, rheld := c.rheld + 1, rpos := (c.rpos + 1) % c.n }
            else { c with free := c.free - 1, wheld := c.wheld + 1, wpos := (c.wpos + 1) % c.n })))
        ∧ (s.acts ((s.stallWait (.slotUse o.cb.toNat o.r)).andThen
            (need (if o.r then c.rp && decide (0 < c.rheld) else c.wp && decide (0 < c.wheld)) .cbBad 0)) →
          GivesCb (.cbgive o) s o.cb (some (if o.r
            then { c with free := c.free + 1, rheld := c.rheld - 1 } else { c with filled := c.filled + 1, wheld := c.wheld - 1 })))
        ∧ (s.phase = .whole → (if o.r then c.rp else c.wp) = false →
            (s.waitMet s.unit (.counter o.cb.toNat o.r) = true → s.trapsWith (.cbtake o) .cbBad 0 0)
            ∧ (s.waitMet s.unit (.slotUse o.cb.toNat o.r) = true → s.trapsWith (.cbgive o) .cbBad 0 0)))
    ∧ (∀ o : CbProgOp, s.phase = .whole → b? o.cb = none → s.trapsWith (.cbtake o) .cbBad 0 0 ∧ s.trapsWith (.cbgive o) .cbBad 0 0)
    ∧ (∀ (planes : Bool) (o : CbEngOp) (r : XReg), Table.find? (s.xregs s.unit) o.x.toNat = some r →
        s.acts (s.cbCopyVerdict o.cb o.x o.e (s.scalar true o.b) planes false) →
        ∃ (t : State) (op : CopyOp), Enqueues (.cbwr planes o) s t o.e op ∧ SameMemory s t ∧ op.kind = .cbwr planes
          ∧ op.cb = o.cb.toNat ∧ op.tid = r.tid ∧ op.tiles = selected r (s.scalar true o.b))
    ∧ (∀ (o : CbEngOp) (r : XReg), Table.find? (s.xregs s.unit) o.x.toNat = some r →
        s.acts ((s.cbCopyVerdict o.cb o.x o.e (s.scalar true o.b) false true).andThen
          (if s.suppressHere then .ok else s.stageVerdict (s.unitTask s.unit) ((s.runReg o.x).picked (s.scalar true o.b)))) →
        ∃ (t : State) (op : CopyOp), Enqueues (.cbrd o) s t o.e op ∧ op.kind = .cbrd ∧ op.cb = o.cb.toNat ∧ op.tid = r.tid
          ∧ op.tiles = selected r (s.scalar true o.b) ∧ (s.nonidem (s.unitTask s.unit) = true → SameMemory s t))

/-- R122, R290 to R299 and R301 to R305: the instructions of copies and of circular buffers. -/
def Obligations.CopyAndBufferInstructions : Prop := copyInstructions ∧ circularBuffers

/-- R63, R300 and R306: TOWN gives a block to the engines or to the program, BANKACQ takes a free or released bank and
BANKREL releases an owned one; what the rules forbid traps, and a bank that is not there to be had is waited for. -/
def Obligations.BanksAndOwnerBits : Prop :=
  ∀ (s : State) (d : DieId), s.onDie = some d →
    let u := s.dieTask d
    let x := s.die d.die
    (∀ a, let off := (s.scalar false a).toNat
      (s.acts (s.townVerdict (s.scalar false a)) → ∃ t, exec (.townE a) s = .next t ∧ OnlyDieRecord d.die s t
        ∧ Table.find? (t.die d.die).eng (off / 4096) = some ()
        ∧ (∀ k, k ≠ off / 4096 → Table.find? (t.die d.die).eng k = Table.find? x.eng k)
        ∧ ({ t.die d.die with eng := x.eng } : Die) = x)
      ∧ (s.acts ((s.waitFor (.block off)).andThen (s.townVerdict (s.scalar false a))) →
        ∃ t, exec (.townP a) s = .next t ∧ OnlyDieRecord d.die s t
        ∧ Table.find? (t.die d.die).eng (off / 4096) = none
        ∧ (∀ k, k ≠ off / 4096 → Table.find? (t.die d.die).eng k = Table.find? x.eng k)
        ∧ ({ t.die d.die with eng := x.eng } : Die) = x)
      -- TOWN.p waits first for what names the block, and traps then
      ∧ (let both (c : Cause) : Prop := s.trapsWith (.townE a) c (s.scalar false a) 0
            ∧ (s.waitMet (.die d) (.block off) = true → s.trapsWith (.townP a) c (s.scalar false a) 0)
         (s.phase = .whole → off % 4096 ≠ 0 → both .addrAlign)
          ∧ (s.phase = .whole → off % 4096 = 0 → 192 * 2 ^ 20 ≤ off → both .addrBad)
          ∧ (s.phase = .whole → off % 4096 = 0 → off < 192 * 2 ^ 20 → s.ownsBank u d.die (off / 2 ^ 20) = false →
              both .bankOwn)))
    ∧ (∀ o : BankOp,
      let m := (s.scalar false o.a).toNat
      let tag : BitVec 32 := (s.scalar true o.b).setWidth 32
      let st := Table.get .free x.banks m
      -- the launch that released the bank, and every successor of it, have completed or failed: the bank is FREE
      let back : Prop := ∃ v g, st = .released v g ∧ (s.launch v.lid).complete = true
        ∧ ∀ e ∈ s.launches, s.successorOf v.lid e = true → e.2.complete = true
      let clears (t : State) : Prop := ∀ k, Table.find? (t.die d.die).eng k = if k / 256 = m then none else Table.find? x.eng k
      (s.phase = .whole → 192 ≤ m → (st = .free → s.trapsWith (.bankacq o) .addrBad 0 0) ∧ s.trapsWith (.bankrel o) .addrBad 0 0)
      ∧ (s.effective → m < 192 → st = .free ∨ back → ∃ t, exec (.bankacq o) s = .next t ∧ OnlyDieRecord d.die s t
          ∧ Table.get .free (t.die d.die).banks m = .owned u none
          ∧ (∀ k, k ≠ m → Table.get .free (t.die d.die).banks k = Table.get .free x.banks k) ∧ clears t ∧ SameMemory s t)
      ∧ (∀ v, s.effective → m < 192 → st = .released v tag → ¬back → ∃ t, exec (.bankacq o) s = .next t ∧ OnlyDieRecord d.die s t
          ∧ Table.get .free (t.die d.die).banks m = .owned u (some (tag, v))
          ∧ (∀ k, k ≠ m → Table.get .free (t.die d.die).banks k = Table.get .free x.banks k) ∧ clears t ∧ SameMemory s t)
      ∧ (∀ v g, s.phase = .whole → m < 192 → st = .released v g → g ≠ tag → ¬back → exec (.bankacq o) s = .next s)
      ∧ (∀ v h, s.phase = .whole → m < 192 → st = .owned v h → v ≠ u → s.diagTask v = false →
          exec (.bankacq o) s = .next s ∧ s.trapsWith (.bankrel o) .bankOwn 0 0)
      ∧ (s.acts (s.bankrelVerdict (s.scalar false o.a)) → ∃ t, exec (.bankrel o) s = .next t ∧ OnlyDieRecord d.die s t
          ∧ Table.get .free (t.die d.die).banks m = .released u tag
          ∧ (∀ k, k ≠ m → Table.get .free (t.die d.die).banks k = Table.get .free x.banks k)
          ∧ (t.die d.die).eng = x.eng ∧ SameMemory s t))

/-- R122, R151, R272, R290, R296 to R303 and R90, R94: the events of layout units, engines and nests: a fill, the start and
the end of a copy, an engine's step of a circular buffer, a batch of a nest and its end. The storage, registers and queues are
clean and the unit's task owes no error (R381, R398). A batch is pinned by R85 to R90 from the staged bytes where B stands in the
scratchpad and no outlier lies beyond its tile; what the model takes otherwise (a POS of T or more, a B run whose frame the task
has staged) is its choice (log 44), and only the batch's application is stated there. That a copy moves all its bytes as it
starts is the model's choice (log 15), and so is that a copy of a cellar core works at DRAM, below the L2 (log 29). -/
def Obligations.EngineEvents : Prop :=
  ∀ (s : State) (u : UnitId) (e : Nat), ((∃ d, u = .die d) ∨ e = 0) → s.ecc = [] → s.flaws = [] → s.owes u = false →
    (∀ x r, Table.find? (s.xregs u) x = some r → r.filled = false → ∃ t, exec (.xlateFill u x) s = .next t
        ∧ Table.find? (t.xregs u) x = some { r with filled := true }
        ∧ (∀ y, y ≠ x → Table.find? (t.xregs u) y = Table.find? (s.xregs u) y) ∧ SameMemory s t)
    ∧ (∀ o, (s.engineQ u e).head? = some o → o.started = false → o.ue = false → s.canStart u o = true → plainUnit s u →
        (o.kind = .flatIn → ∀ bs : List Byte, s.copyRead u o.task (placeOfKey o.flat) o.len = bs → bs.length = o.len →
          ∃ t, exec (.copyStart u e) s = .next t
          ∧ (∀ j, j < o.len → Memory.readByte t.mem (unitPadKey u o.off + j) = bs.getD j 0)
          ∧ SameMemoryBut s t (unitPadKey u o.off) o.len
          ∧ t.engineQ u e = { o with started := true, ue := false } :: (s.engineQ u e).drop 1)
        ∧ (o.kind = .flatOut → s.nonidem o.task = true → s.unitSuppressed u = false → ∀ p, placeOfKey o.flat = .hbm p →
          p + o.len ≤ 2 ^ 40 → ∃ t, exec (.copyStart u e) s = .next t
          ∧ (∀ j, j < o.len → t.l2Byte (p + j) = Memory.readByte s.mem (unitPadKey u o.off + j))
          ∧ (∀ q, q < 2 ^ 40 → (q < p ∨ p + o.len ≤ q) → t.l2Byte q = s.l2Byte q)
          ∧ (match u with
            | .die _ => SameMemory s t
            | .core _ => SameMemoryBut s t (hbmKey p) o.len
                ∧ ∀ j, j < o.len → Memory.readByte t.mem (hbmKey p + j) = Memory.readByte s.mem (unitPadKey u o.off + j))
          ∧ t.engineQ u e = { o with started := true, ue := false } :: (s.engineQ u e).drop 1)
        ∧ (∀ tl : Tile, o.tiles = [tl] →
          let fmt := tFmt o.entry
          let side := tSide o.entry
          let size := tileBytes fmt side
          let block : Bool := fmt == 1 || fmt == 2 || fmt == 3
          let tileKey (f : BitVec 24) : Nat := hbmKey (frameBase f + 1024 + tl.slot * size)
          let codeKey (f : BitVec 24) : Nat := hbmKey (frameBase f + tl.slot)
          let byte (t : State) (k j : Nat) : Nat := (Memory.readByte t.mem (k + j)).toNat
          let pad := unitPadKey u o.off
          let moved (t : State) : Prop := exec (.copyStart u e) s = .next t
            ∧ t.engineQ u e = { o with started := true, ue := false } :: (s.engineQ u e).drop 1
          let code : Nat := if block then byte s (codeKey (s.readFrame o.task tl)) 0 else 0
          (o.kind = .tcin false → ∃ t, moved t ∧ SameMemoryBut s t pad (64 + size)
            ∧ (∀ j, j < 64 → byte t pad j = match j with
                | 0 => code
                | 1 => fmt
                | 2 => side
                | _ => 0)
            ∧ Edged o.entry o.first (byte s (tileKey (s.readFrame o.task tl))) (fun j => byte t pad (64 + j)))
          ∧ (o.kind = .tcin true → block = true → ∃ t el, moved t ∧ (∀ j, el j < 256)
            ∧ Edged o.entry o.first (byte s (tileKey (s.readFrame o.task tl))) el
            ∧ SameMemoryBut s t pad (64 + (match fmt with | 1 => 8 | 2 => 16 | _ => 4) * side * side / 8
                + (if fmt = 3 then 16 * side else 0))
            ∧ PlaneForm fmt side el (byte t pad)
            ∧ (let escapes : Bool := fmt == 3 && code != 255
                  && (List.range (side * side)).any (fun k => tileKind el k == .escape)
               (∀ j, j < 64 → byte t pad j = match j with
                 | 0 => code
                 | 1 => fmt
                 | 2 => side
                 | 3 => if escapes then 1 else 0
                 | _ => 0)
               ∧ ∀ d, u = .die d → (t.dctx d).dflags = if escapes then (s.dctx d).dflags ||| 32 else (s.dctx d).dflags))
          ∧ (o.kind = .tcout → s.unitSuppressed u = false → (tl.slot + 1) * size ≤ 64512 →
            let f := s.writeFrame o.task o.entry tl
            ∃ t, moved t
            ∧ Edged o.entry o.first (fun j => byte s pad (64 + j)) (byte t (tileKey f))
            ∧ (block = true → byte t (codeKey f) 0 = byte s pad 0)
            ∧ (∀ k, (k < tileKey f ∨ tileKey f + size ≤ k) → (block = true → k ≠ codeKey f) →
                Memory.readByte t.mem k = Memory.readByte s.mem k)
            ∧ ∀ sh, Table.find? (s.task o.task).shadows tl.entry = some sh → f = sh.frame
                ∧ ∃ sh', Table.find? (t.task o.task).shadows tl.entry = some sh' ∧ sh'.frame = sh.frame
                  ∧ Table.find? sh'.tiles tl.slot = some ())))
    ∧ (∀ o, (s.engineQ u e).head? = some o → o.started = true → o.ue = false → ∃ t, exec (.copyComplete u e) s = .next t
        ∧ t.engineQ u e = (s.engineQ u e).drop 1 ∧ SameMemory s t)
    ∧ (∀ o c, (s.engineQ u e).head? = some o → Table.find? (s.cbTable u) o.cb = some c → s.canStart u o = true →
        (∀ planes, o.kind = .cbwr planes → 0 < c.free → ∃ t, exec (.cbEngineStep u e) s = .next t
          ∧ Table.find? (t.cbTable u) o.cb
              = some { c with free := c.free - 1, filled := c.filled + 1, wpos := (c.wpos + 1) % c.n }
          ∧ (plainUnit s u → t.engineQ u e = (s.engineQ u e).drop 1))
        ∧ (o.kind = .cbrd → o.ue = false → 0 < c.filled → s.goodImages u o (c.base + 4096 * c.blocks * c.rpos) = o.tiles.length →
          ∃ t, exec (.cbEngineStep u e) s = .next t
          ∧ Table.find? (t.cbTable u) o.cb
              = some { c with free := c.free + 1, filled := c.filled - 1, rpos := (c.rpos + 1) % c.n }
          ∧ t.engineQ u e = (s.engineQ u e).drop 1))
    ∧ (∀ d n x, s.nestNo d n = some x → x.finished = false → s.nestVerdict d x = .ok → s.layers = [] →
        (s.allOps (.die d)).any (fun o => decide (o.no < x.no) && (x.conflicts o || (x.shares o && !o.started))) = false →
        let a := staged s d x
        ∃ t p e, exec (.nestBatch d n none) s = .next t ∧ OnlyDie d s t
          ∧ BatchApplied ((s.dctx d).accRow x.tile x.i) ((t.dctx d).accRow x.tile x.i) p e
          ∧ (x.bsrc = false → (nestWord x.words x.table 16).toNat % 4 ≠ 0 →
              (nestWord x.words x.table 16).toNat / 4 % 4 = 1 ∨ (nestWord x.words x.table 16).toNat / 4 % 4 = 2 →
              (∀ w ∈ a.outs, w.1 < a.side) → BatchOf a x.p p e)
          ∧ (∀ tl i, i < 32 → x.i < 32 → (tl ≠ x.tile ∨ i ≠ x.i) → (t.dctx d).accRow tl i = (s.dctx d).accRow tl i)
          ∧ Table.get 0 (t.dctx d).chk x.array = Table.get 0 (s.dctx d).chk x.array + 1
          ∧ (t.dctx d).nests = (s.dctx d).nests.map (fun m => if m.table = x.table then x.advance else m)
          ∧ ({ t.dctx d with acc := (s.dctx d).acc, chk := (s.dctx d).chk, nests := (s.dctx d).nests } : DieCtx) = s.dctx d)
    ∧ (∀ d n x, s.nestNo d n = some x → x.finished = true → ∃ t, exec (.nestComplete d n) s = .next t
        ∧ (t.dctx d).nests = (s.dctx d).nests.filter (fun m => m.table != n) ∧ SameMemory s t)

/-- R346 to R349, R354 and R355: a command whose checks pass enters the queue of its context with the next ticket, its
descriptor and index list read in full; the checks trap in the order of R348; NQST gives the queue's status, NWAIT the record
of a ticket once every command up to it has completed. That NM_TICKET has TVAL 0 and that the index list is read at the
command's entry is the model's choice (log 31). -/
def Sys2Proof.Claims.nearMemoryInstructions : Prop :=
  ∀ (s : State), s.onDie = none → s.ecc = [] → s.cachesCanonical →
    let y := s.ctx s.core
    (∀ (k : NmKind) (o : NmOp),
      let i := nmForm o k
      let a := s.src o.a
      let b := nmWord s a 0
      let d := nmWord s a 1
      let x := nmWord s a 2
      let c := nmWord s a 3
      let placed := a.toNat % 32 = 0 ∧ a.toNat + 32 ≤ 2 ^ 19
      let good := placed ∧ ¬nmBadFields k x c ∧ (nmAddressChecks k o.v b d x c).find? (·.1) = none
      (s.phase = .whole → a.toNat % 32 ≠ 0 → s.trapsWith i .addrAlign a 0)
      ∧ (s.phase = .whole → a.toNat % 32 = 0 → 2 ^ 19 < a.toNat + 32 → s.trapsWith i .addrBad a 0)
      ∧ (s.phase = .whole → placed → nmBadFields k x c → s.trapsWith i .nmDesc a 0)
      ∧ (∀ e, s.phase = .whole → placed → ¬nmBadFields k x c → (nmAddressChecks k o.v b d x c).find? (·.1) = some e →
          s.trapsWith i e.2.1 e.2.2 0)
      ∧ (s.phase = .whole → good → 16 ≤ y.nmq.length → Waits i s .nmFull)
      ∧ (s.phase = .whole → good → y.nmq.length < 16 → 2 ^ 48 ≤ y.ticket + 1 → s.trapsWith i .nmTicket 0 0)
      ∧ (s.phase = .commit ∨ (s.phase = .whole ∧ good ∧ y.nmq.length < 16 ∧ y.ticket + 1 < 2 ^ 48) →
          nmStoresFlat k c = false ∨ taskNonidem s = true → ∃ t, exec i s = .next t ∧ OnlyCtx s.core s t
          ∧ t.ctx s.core = { y with
              ticket := y.ticket + 1,
              interlocked := y.interlocked ++ [if o.nw then .none else .s o.d (BitVec.ofNat 64 (y.ticket + 1))],
              nmq := y.nmq ++ [{ kind := k, v := o.v, ticket := y.ticket + 1, base := b, data := d, aux := x, ctl := c,
                                 idx := if nmList k then (List.range (nmCount c)).map (fun j =>
                                   padNum s (x + BitVec.ofNat 64 (4 * j)) 4) else [],
                                 pos := 0, sum := none, skip := 0 }] })
      ∧ (s.phase = .commit ∨ (s.phase = .whole ∧ good ∧ y.nmq.length < 16 ∧ y.ticket + 1 < 2 ^ 48) →
          nmStoresFlat k c = true → ∃ t, exec i s = .next t ∧ t.nonidem (s.taskId s.core) = true))
    ∧ (∀ o : NqstOp, s.effective → ∃ t, exec (.nqst o) s = .next t ∧ ({ t with seq := s.seq, cel := s.cel, l1Seq := s.l1Seq, l1Cel := s.l1Cel, flaws := s.flaws } : State) = s
        ∧ OtherContexts s t
        ∧ t.ctx s.core = { y with
            interlocked := y.interlocked
              ++ [if o.nw then .none else .s o.d (BitVec.ofNat 64 (y.nmDone * 2 ^ 16 + (16 - y.nmq.length)))] }
        ∧ ∀ p, Table.find? (t.l1 s.core) p
            = if o.acq then (Table.find? (s.l1 s.core) p).filter (·.dirty) else Table.find? (s.l1 s.core) p)
    ∧ (∀ o : NmOp,
        let n := (s.src o.a).toNat
        (s.phase = .whole → y.ticket < n → s.trapsWith (.nwait o) .nmTicket 0 0)
        ∧ (s.phase = .whole → n ≤ y.ticket → y.nmDone < n → Waits (.nwait o) s (.nmTicket n))
        ∧ (s.phase = .commit ∨ (s.phase = .whole ∧ n ≤ y.ticket ∧ n ≤ y.nmDone) → ∃ t, exec (.nwait o) s = .next t
          ∧ ({ t with seq := s.seq, cel := s.cel, l1Seq := s.l1Seq, l1Cel := s.l1Cel, flaws := s.flaws } : State) = s
          ∧ OtherContexts s t
          ∧ t.ctx s.core = { y with
              interlocked := y.interlocked ++ [if o.nw then .none else .s o.d
                (if n = 0 then 0 else if n + 64 ≤ y.ticket then 2 ^ 16 else BitVec.ofNat 64 (Table.get 0 y.skips n))] }
          ∧ ∀ p, Table.find? (t.l1 s.core) p
              = if o.v then (Table.find? (s.l1 s.core) p).filter (·.dirty) else Table.find? (s.l1 s.core) p))

/-- R98, R350 to R352, R354 and R356: one position of the command at the head of a queue: a skipped index counts, a row moves
or is summed element by element in list order, a refresh that is due comes first, a page that is not there stops the command
before its position; a finished command leaves the queue and its record stays. The storage and the queue are clean (R398).
That a refresh is performed by the position that finds it due, in a step of its own, is the model's choice (log 31). -/
def Sys2Proof.Claims.nearMemoryEvents : Prop :=
  ∀ (s : State) (c : Nat) (m : NmCmd), s.ecc = [] → s.flaws = [] → (s.ctx (.cel c)).nmq.head? = some m → nmRow m.ctl ≤ 256 →
    let n := nmCount m.ctl
    let i := m.pos
    let x := m.idx.getD i 0
    let lim := nmLim m.ctl
    let ty := nmType m.ctl
    let dsp := nmDsp m.ctl
    let row (k : Nat) : Nat → Nat := rowElem s ty k
    let plus (f g : Nat → Nat) (j : Nat) : Nat := elemAdd ty (f j) (g j)
    let sumOf (v : Option (BitVec 2048)) (j : Nat) : Nat :=
      (v.getD 0).toNat / 2 ^ (8 * elemBytes ty * j) % 2 ^ (8 * elemBytes ty)
    (nmList m.kind = true → i < n → lim ≤ x → ∃ t, NmStep c s t { m with pos := i + 1, skip := m.skip + 1 } ∧ t.mem = s.mem)
    ∧ (∀ k, m.kind = .nired → i < n → x < lim → nmTable s c m m.base x false k → ∃ t v,
        NmStep c s t { m with pos := i + 1, sum := some v } ∧ SameMemory s t
        ∧ ∀ j, elemBytes ty * j < nmRow m.ctl → sumOf (some v) j = (if m.sum.isNone then row k j else plus (sumOf m.sum) (row k) j))
    ∧ (∀ k, m.kind = .nired → i = n → nmData s c m 0 true k → (m.v = true → nmData s c m 0 false k) →
        NmWrites c s m k (!dsp) (if m.v then plus (row k) (sumOf m.sum) else sumOf m.sum))
    ∧ (∀ k d, m.kind = .ngath → i < n → x < lim → nmTable s c m m.base x false k → nmData s c m i true d →
        NmWrites c s m d (!dsp) (row k))
    ∧ (∀ k d, m.kind = .nscat → i < n → x < lim → nmTable s c m m.base x true k → (m.v = true → nmTable s c m m.base x false k) →
        nmData s c m i false d → NmWrites c s m k true (if m.v then plus (row k) (row d) else row d))
    ∧ (∀ k l d, m.kind = .nmrow → i < n → nmTable s c m m.base i false k → (m.v = true → nmTable s c m m.aux i false l) →
        nmTable s c m m.data i true d → NmWrites c s m d true (if m.v then plus (row k) (row l) else row k))
    ∧ (∀ k, m.kind = .nstrm → i < n → nmTable s c m m.base i false k →
        NmWrites c s m (padKey (CoreId.cel c).padIdx (m.data + BitVec.ofNat 64 (nmRow m.ctl * i)).toNat) false (row k))
    ∧ (∀ k, i < n → (m.kind = .nstrm ∨ (m.kind = .ngath ∧ dsp = true ∧ x < lim) ∨ (m.kind = .nired ∧ x < lim)) →
        let a := m.base + BitVec.ofNat 64 (nmRow m.ctl * nmStride m.ctl * (if nmList m.kind then x else i))
        (s.nmKey (.cel c) a false = some k → Table.find? s.refresh (channelOf k) = some () →
          ∃ t, exec (.nmPosition c) s = .next t ∧ ({ t with refresh := s.refresh, layers := s.layers, tlb := s.tlb } : State) = s
            ∧ ∀ ch, Table.find? t.refresh ch = if ch = channelOf k then none else Table.find? s.refresh ch)
        ∧ (s.nmKey (.cel c) a false = none → s.layers = [] →
          ∃ v : State, ({ v with tlb := s.tlb } : State) = s ∧ exec (.nmPosition c) s = .next (v.acting (.cel c) none (fun u =>
            u.abort (s.taskId (.cel c)) ((s.ctx (.cel c)).ending 0 .nmFault a)))))
    ∧ ((if m.kind = .nired then n < i else n ≤ i) → ∃ t, exec (.nmCommandComplete c) s = .next t ∧ OnlyCtx (.cel c) s t
        ∧ (∃ sk, t.ctx (.cel c) = { s.ctx (.cel c) with nmq := (s.ctx (.cel c)).nmq.drop 1, nmDone := m.ticket, skips := sk })
        ∧ ∀ q, Table.get 0 (t.ctx (.cel c)).skips q = if q = m.ticket then m.skip
            else if m.ticket < q + 64 then Table.get 0 (s.ctx (.cel c)).skips q else 0)
    ∧ (∀ st ch, st < 12 → ch < 256 → ∃ t, exec (.refreshDue st ch) s = .next t ∧ ({ t with refresh := s.refresh } : State) = s
        ∧ ∀ q, Table.find? t.refresh q = if q = st * 256 + ch then some () else Table.find? s.refresh q)

/-- R98 and R346 to R356: near-memory commands, from their entry to their completion. -/
def Obligations.NearMemoryCommands : Prop := nearMemoryInstructions ∧ nearMemoryEvents

/-- R54, R60, R73, R186, R188, R189, R299, R380, R447 and R450: what happens to a core context between its bundles: a wait
ends when its condition holds, a result arrives, a frozen cycle is counted, an interrupt is posted, the debugger's step stop,
and the control registers that firmware or hardware writes. That an unblocking whose wait has not ended and a current-limit
freeze that nothing holds leave the state as it is is the model's choice (log 17), and so is that a result which comes after its
step counts against the freeze line alone, its value having landed with the step (log 39). -/
def Obligations.ContextEvents : Prop :=
  ∀ (s : State) (c : CoreId),
    let x := s.ctx c
    (∀ w, x.run = .blocked w →
      (s.waitMet (.core c) w = true → exec (.contextUnblock c) s = .next (s.setCtx c { x with
          run := .ready, awaited := match w with | .reports _ => none | _ => x.awaited }))
      ∧ (s.waitMet (.core c) w = false → exec (.contextUnblock c) s = .next s))
    ∧ (x.late ≠ 0 → Arrives s c { x with late := x.late - 1 })
    ∧ (∀ (before after : List Flight) (f : Flight), x.late = 0 → x.inflight = before ++ f :: after →
      (∀ g ∈ before, g.arrived = true) → f.arrived = false →
      Arrives s c { x with inflight := before ++ { f with arrived := true } :: after })
    ∧ (∀ d l, x.late = 0 → (∀ f ∈ x.inflight, f.arrived = true) → x.interlocked = d :: l →
        ∃ y, Arrives s c y ∧ y.interlocked = l ∧ y.inflight = x.inflight
          ∧ (∀ n v, d = .s n v → (n ≠ 0 → y.sreg n = v) ∧ ∀ m, m ≠ n → y.sreg m = x.sreg m)
          ∧ y.run = x.run ∧ y.fpctl = x.fpctl)
    ∧ (∀ core : Nat,
        let k := coreFirst core
        let r := s.coreRec k
        (∀ m, (CoreId.mates k).find? s.limitHolds = some m → GivesCore (.currentLimitFreeze core) s k
          { r with running := some m.num, curFrz := r.curFrz + 1, window := (0 :: r.window).take 63 })
        ∧ ((CoreId.mates k).find? s.limitHolds = none → exec (.currentLimitFreeze core) s = .next s)
        ∧ (core < 200 → ∀ lim, GivesCore (.curLimChange core lim) s k { r with curLim := lim }))
    ∧ (x.task ≠ none → x.run ≠ .halted → exec (.timer c) s = .next (s.setCtx c (awake { x with irq := true })))
    ∧ (x.stepStop = true → exec (.dbgStepStop c) s = .next (s.setCtx c { x with stopped := true, stepStop := false }))
    ∧ (∀ n v, c = .seq n → n < 32 → exec (.dieEnWrite n v) s = .next (s.setCtx c { x with dieEn := v.setWidth 48 &&& x.dieMask }))
    ∧ (∀ v, c.real = true → ∃ f : Word, exec (.fpctlWrite c v) s = .next (s.setCtx c { x with fpctl := f })
        ∧ ∀ i, i < 64 → f.getLsbD i = if i < 4 then v.getLsbD i
            else x.fpctl.getLsbD i && !v.getLsbD i && (decide (8 ≤ i ∧ i < 13) || decide (16 ≤ i ∧ i < 21)))

/-- R155, R229, R375, R392 and R395: when a context's deadline has come, or a DRAIN record names it, the request stops it
between issue steps or stands until it can; a stopped context whose dies are complete is switched out, its task PREEMPTED
with everything its frames hold. That an expiry without its condition does nothing, that dispatch rejects the whole of a batch
with a bad record, and that what a resume takes up stands beside the frames, is the model's choice (logs 17, 33 and 11). -/
def Sys2Proof.Claims.preemptionEvents : Prop :=
  ∀ (s : State) (c : CoreId), s.gangOf c = [c] →
    let x := s.ctx c
    let u := s.taskId c
    (x.task ≠ none → x.drain = none → x.yieldDl ≠ BitVec.allOnes 64 → x.yieldDl.toNat ≤ s.timeCnt.toNat →
      DrainsOne (.yieldDeadlineExpiry c) s c .expiry)
    ∧ (x.drain ≠ none ∨ x.yieldDl = BitVec.allOnes 64 ∨ s.timeCnt.toNat < x.yieldDl.toNat →
      exec (.yieldDeadlineExpiry c) s = .next s)
    ∧ (∀ (r : BindRec) v, s.batch = [] → r.last = true → s.recTask r = some v → s.recCtx r = c →
      s.batchOk [(.drain, r)] = true → DrainsOne (.drainBind r) s c .record)
    ∧ (∀ (r : BindRec), s.batch = [] → r.last = true → s.batchOk [(.drain, r)] = false →
      exec (.drainBind r) s = .next { s with rejected := s.rejected + 1 })
    ∧ (c.isCellar = false → s.cachesCanonical → s.ecc = [] → s.flaws = [] → x.task ≠ none → s.still c = true → s.saveRoom [c] = true →
      ∃ t v, exec (.switchOut c) s = .next t ∧ LeavesContext s t u c
        ∧ (∀ k, OutsideFrames v k → Memory.readByte t.mem k = Memory.readByte s.mem k)
        ∧ (∀ p b, Table.find? (s.l1 c) p = some b → b.dirty = true → OutsideFrames v (hbmKey p) → t.l2Byte p = b.val)
        ∧ (t.task u).state = .preempted ∧ (t.task u).ctx = none ∧ (t.task u).saved = some v
        ∧ v.ctx = x.settle ∧ v.count = x.dieIds.length
        ∧ (∀ k, k < x.dieIds.length → ∃ y d, x.dieIds[k]? = some d ∧ Table.find? v.dies k = some y
            ∧ y.ctx = { s.dctx d with part := none } ∧ y.banks = s.banksOf (s.dieTask d) d.die)
        ∧ (t.queue (s.launch u.lid).queue).forced
            = (s.queue (s.launch u.lid).queue).forced + (if x.drain = some .expiry then 1 else 0))

/-- R380, R384, R387 to R389 and R455: a frozen stream is resolved by the fate of the fault at F: delivered to the handler as a
notice, the task aborted or FAULTED, or serviced by firmware; a page that firmware maps lets the bundle execute again, or the
stream be replayed; a declined fault is delivered. That no die starts a number once the freeze is complete, and that a fault of
fate S then waits for its service in that state, is how the model takes R387 and R388 together (log 27). -/
def Sys2Proof.Claims.faultEvents : Prop :=
  ∀ (s : State) (n f : Nat) (g : DieFault),
    let c := CoreId.seq n
    let x := s.ctx c
    let e : Ending := { kind := 2, cause := g.cause, code := g.cause.code, tval := g.tval, at_ := BitVec.ofNat 64 f }
    let stands := s.setCtx c { x with freezeOver := true }
    (FrozenAt s c f → DecidingFault s c f g →
      (g.fate = .h → (∀ b, x.run ≠ .drained b) → x.run ≠ .halted → ∃ nt, IsNotice s c f g nt
        ∧ exec (.streamFreezeComplete n) s = .next (s.setCtx c (awake { x with freezeOver := true, notice := some nt })))
      ∧ (g.fate = .h → x.run = .halted → exec (.streamFreezeComplete n) s = .next (stands.faultTask (s.taskId c) e))
      ∧ (g.fate = .a → exec (.streamFreezeComplete n) s = .next (stands.abort (s.taskId c) e))
      ∧ (g.fate = .f → exec (.streamFreezeComplete n) s = .next (stands.faultTask (s.taskId c) e))
      ∧ (g.fate = .s → exec (.streamFreezeComplete n) s = .next stands)
      ∧ (∀ a pte, g.fate = .s → x.freezeOver = true → x.replayDue = false → (∀ ca sl tv td, x.run ≠ .service ca sl tv td) →
          s.ecc = [] → s.flaws = [] →
          -- the replay sends no packet while the debugger holds the context (R450): it is due from then on
          (x.stopped = true ∨ x.stepStop = true → ∃ t, exec (.faultService c true a pte) s = .next t
            ∧ t.ctx c = { x with replayDue := true } ∧ t.dieCtx = s.dieCtx
            ∧ (∀ i, i < 8 → Memory.readByte t.mem (hbmKey a + i) = pte.extractLsb' (8 * i) 8)
            ∧ SameMemoryBut s t (hbmKey a) 8)
          ∧ (x.stopped = false → x.stepStop = false → ∃ t, exec (.faultService c true a pte) s = .next t
            ∧ ((∀ d ∈ x.dieIds, (s.dctx d).engFault = none) → (t.ctx c).frozenAt = none)
            ∧ (∀ d ∈ x.dieIds, (t.dctx d).fault = none)
            ∧ (t.ctx c).replayTo = (match x.sent.getLast? with | some p => p.no | none => 0)
            ∧ (∀ i, i < 8 → Memory.readByte t.mem (hbmKey a + i) = pte.extractLsb' (8 * i) 8)
            ∧ SameMemoryBut s t (hbmKey a) 8)
          ∧ ((∀ b, x.run ≠ .drained b) → x.run ≠ .halted → ∃ nt, IsNotice s c f g nt
            ∧ exec (.faultService c false a pte) s = .next (s.setCtx c (awake { x with notice := some nt })))))
    ∧ (∀ (k : CoreId) cause slot tval tdata a (pte : BitVec 64), (s.ctx k).run = .service cause slot tval tdata → s.ecc = [] →
        (∃ t, exec (.faultService k true a pte) s = .next t ∧ t.ctx k = { s.ctx k with run := .ready }
          ∧ (∀ d, d ≠ k → t.ctx d = s.ctx d)
          ∧ (∀ i, i < 8 → Memory.readByte t.mem (hbmKey a + i) = pte.extractLsb' (8 * i) 8) ∧ SameMemoryBut s t (hbmKey a) 8)
        ∧ exec (.faultService k false a pte) s
            = .next ((s.setCtx k { s.ctx k with run := .ready }).deliverH k 0 slot.toNat cause tval tdata 0 0
                (((s.ctx k).n0 &&& ~~~1) ||| (if (s.ctx k).mark0 then 1 else 0))))

/-- R155, R229, R375, R380, R384, R387 to R389, R392, R395 and R455: drain requests, switch-out, and frozen streams. -/
def Obligations.RequestsAndFrozenStreams : Prop := preemptionEvents ∧ faultEvents

/-- R43, R63, R65, R390 and R391: an abort returns an idempotent task to READY with one rollback more, all it staged dropped;
past RB_LIMIT, or once it is non-idempotent, and by a fault of fate F, a task enters FAULTED, with its fault record in the log
of its queue; its contexts and banks are let go either way. That the record of a ROLLBACK_LIMIT has the KIND and the place of the
abort that reached the limit is the model's choice (log 32). -/
def Obligations.TaskEnds : Prop :=
  ∀ (s : State) (u : TaskId) (c : CoreId) (e : Ending), s.groupOthers u = [] → (s.task u).ctx = some c →
    let x := s.task u
    let l := s.launch u.lid
    let t := s.abort u e
    let q := s.queue l.queue
    let faulted (t : State) (e : Ending) : Prop := LeavesContext s t u c ∧ (t.task u).state = .faulted
      ∧ (t.task u).staged = [] ∧ (t.task u).shadows = [] ∧ (t.launch u.lid).ended = l.ended + 1
      ∧ (t.launch u.lid).faulted = l.faulted + 1
      ∧ (t.queue l.queue).faultCount = q.faultCount + 1
      ∧ Table.find? (t.queue l.queue).faultLog (1 + q.faultCount % 255) = some (faultRecord u.wid (recCookie l.record) e x.rb)
    let noPages := (s.objOf l).tlsSize = 0 ∧ (s.objOf l).stackSize = 0
    (s.nonidem u = false → x.rb + 1 ≤ s.rbLimit → LeavesContext s t u c
      ∧ t.task u = { Task.fresh with cask := x.cask, rb := x.rb + 1, mask := x.mask, dctx := x.dctx, everBound := x.everBound,
                                     wary := (t.task u).wary }
      ∧ (noPages → x.saved = none → (∀ e ∈ s.l1 c, e.2.dirty = false) → SameMemory s t ∧ t.l2 = s.l2)
      ∧ (noPages → c.isCellar = false → s.cachesCanonical → ∀ p b, Table.find? (s.l1 c) p = some b → b.dirty = true →
          t.l2Byte p = b.val))
    ∧ (s.nonidem u = false → s.rbLimit < x.rb + 1 → faulted t { e with cause := .rollbackLimit, code := 0x3A })
    ∧ (s.nonidem u = true → faulted t e)
    ∧ faulted (s.faultTask u e) e

/-- R359 to R363, R365, R366, R377 and R379: a record written to a launch window enters its queue or is turned away with its
status; admission takes the head of a queue, and a serialised record waits for its WAITs; PATCH makes a new version of code,
RESET clears its event, TNEW takes a slot, TFREE advances its generation, and what nothing uses any more returns. Where firmware
reads records' bytes, the storage is clean and no layer is gated (R401, R449). The model's choices are these: a write which is no
record makes no event, and a TNEW without room for its tile table takes POOL_EMPTY (log 25); it takes the lowest free slot (log
34) and a place of the model's for the table (log 23); which checks of a record are made at its admission and which as it
performs (log 35); and events whose condition does not hold do nothing (log 17). -/
def Obligations.RecordsAndWindows : Prop :=
  ∀ (s : State),
    (∀ func q off size (r : BitVec 512), q < 64 → s.hasFunc func = true →
      let x := s.queue q
      let i := Instr.launchWindowWrite func q off size r
      ((off ≠ 0 ∨ size ≠ 64) → exec i s = .next (s.setQueue q
          { x with last := 2, cookie := BitVec.ofNat 32 (recCookie r), notAcc := x.notAcc + 1 }))
      ∧ (off = 0 → size = 64 → x.func ≠ func → ∃ t, exec i s = .next t ∧ TurnedAway s t q func r 2)
      ∧ (off = 0 → size = 64 → x.func = func → 256 ≤ x.recs.length → ∃ t, exec i s = .next t ∧ TurnedAway s t q func r 3)
      ∧ (off = 0 → size = 64 → x.func = func → x.recs.length < 256 → exec i s = .next (s.setQueue q
          { x with recs := x.recs ++ [{ record := r, device := false, name := 0, admitted := false, waits := [], failed := false }] })))
    ∧ (∀ lid, let l := s.launch lid
        l.complete = false → l.started = false →
          (l.failed = false → l.waits = [] → exec (.taskReady lid) s = .next (s.setLaunch lid { l with started := true }))
          ∧ (l.failed = true → ∃ t, exec (.taskReady lid) s = .next t ∧ TurnedAway s t l.queue l.func l.record 9
              ∧ (t.launch lid).complete = true ∧ (t.launch lid).started = false)
          ∧ (l.failed = false → l.waits ≠ [] → exec (.taskReady lid) s = .next s))
    ∧ (∀ q r rest, s.ecc = [] → s.layers = [] → HeadServed s (fun ty => decide (ty < 2) || decide (5 < ty)) q r rest →
        let u : State := { s with admitQ := q }
        let f := (s.queue q).func
        (∀ st, u.admissionStatus q r.record r.device = some st →
          ∃ t, exec .launchRecord s = .next t ∧ TurnedAway s t q f r.record st ∧ (t.queue q).recs.length = rest.length)
        ∧ (recType r.record = 0 ∨ 5 < recType r.record → u.admissionStatus q r.record r.device = some 2)
        ∧ (∀ k v, u.admissionStatus q r.record r.device = none → u.kernelAt (recEntry r.record) = some k →
          u.translateAll (u.funcs.filter (fun g => g.obj = k.obj)) = (v, none) → (v.queue q).recs = r :: rest →
          ∃ t l, exec .launchRecord s = .next t ∧ t.nextLid = v.nextLid + 1 ∧ Table.find? t.launches v.nextLid = some l
            ∧ l.record = r.record ∧ l.queue = q ∧ l.func = (v.queue q).func ∧ l.waits = v.openWaits (v.queue q).func r.record
            ∧ l.started = false ∧ l.complete = false ∧ l.tasks = [] ∧ l.codeVer = v.codeVer
            ∧ l.total = groupSize (recWidf r.record) (recWidl r.record) 0
            ∧ (t.queue q).recs = rest ∧ (t.queue q).lastLaunch = some v.nextLid ∧ SameMemory v t)
        ∧ (∀ k v st, u.admissionStatus q r.record r.device = none → u.kernelAt (recEntry r.record) = some k →
          u.translateAll (u.funcs.filter (fun g => g.obj = k.obj)) = (v, some st) →
          ∃ t, exec .launchRecord s = .next t ∧ TurnedAway v t q (v.queue q).func r.record st))
    ∧ (∀ e ∈ serialRows, ∀ q r rest, s.ecc = [] → s.layers = [] → HeadServed s (fun ty => decide (ty = e.2)) q r rest →
        let u : State := { s with admitQ := q }
        let f := (s.queue q).func
        let due := r.admitted = true ∧ r.failed = false ∨ r.admitted = false
          ∧ u.admissionStatus q r.record r.device = none ∧ u.openWaits f r.record = []
        (∀ st, r.admitted = false → u.admissionStatus q r.record r.device = some st →
          ∃ t, exec e.1 s = .next t ∧ TurnedAway s t q f r.record st ∧ (t.queue q).recs.length = rest.length)
        ∧ (r.admitted = false → u.admissionStatus q r.record r.device = none → u.openWaits f r.record ≠ [] →
          exec e.1 s = .next (u.setQueue q
            { s.queue q with recs := { r with admitted := true, waits := u.openWaits f r.record } :: rest }))
        ∧ (r.admitted = true → r.failed = true →
          ∃ t, exec e.1 s = .next t ∧ TurnedAway s t q f r.record 9 ∧ (t.queue q).recs.length = rest.length)
        ∧ (due → e.1 = .resetRecord → ∃ t, exec .resetRecord s = .next t ∧ Signals s t f r.record 0
            ∧ (t.queue q).recs = rest ∧ t.launches = s.launches ∧ SameMemory s t)
        ∧ (∀ bs, due → e.1 = .patch → u.fwRead f (recWidf r.record) (recEntry r.record) = some bs →
          bs.length = recEntry r.record →
          (∀ g ∈ s.funcs, g.portable = true →
            recWidl r.record + bs.length ≤ g.addr.toNat ∨ g.addr.toNat + g.merlet.length ≤ recWidl r.record) →
          ∃ t, exec .patch s = .next t ∧ Signals s t f r.record 1
            ∧ (t.queue q).recs.length = rest.length ∧ t.codeVer = s.codeVer + 1
            ∧ (∃ new, t.code = s.code ++ new ∧ new.length = bs.length / 64
              ∧ ∀ i, i < bs.length / 64 → ∃ l, new[i]? = some l ∧ l.addr = recWidl r.record + 64 * i ∧ l.ver = s.codeVer + 1
                ∧ ∀ j, j < 64 → l.line.extractLsb' (8 * j) 8 = bs.getD (64 * i + j) 0))
        ∧ (due → e.1 = .tfree →
          let h : BitVec 32 := BitVec.ofNat 32 (recWidf r.record)
          let n := h.toNat % 2 ^ 20
          ((s.tslot n).gen.toNat = h.toNat / 2 ^ 20 → ∃ t, exec .tfree s = .next t ∧ Signals s t f r.record 1
            ∧ (t.queue q).recs.length = rest.length
            ∧ t.tslot n = { s.tslot n with gen := (s.tslot n).gen + 1, freed := (s.tslot n).used }
            ∧ (∀ m, m ≠ n → t.tslot m = s.tslot m) ∧ SameMemory s t)
          ∧ ((s.tslot n).gen.toNat ≠ h.toNat / 2 ^ 20 → ∃ t, exec .tfree s = .next t
            ∧ TurnedAway s t q f r.record 0x0D ∧ (t.queue q).recs.length = rest.length))
        ∧ (∀ (d : BitVec 512) (slot : Nat), due → e.1 = .tnew → recWidf r.record % 64 = 0 →
          u.fwRead64 f (recWidf r.record) = some d →
          tensorOk d true = true → u.freeSlot (2 ^ 20) 0 = some slot →
          let sts := stacksOf (if recField d 6 2 = 0 then 0xFFF else recField d 6 2)
          let n := (tTiles d + tPerFrame d - 1) / max 1 (tPerFrame d)
          ((sts.map u.poolFree).foldl (· + ·) 0 < n ∨ u.tableGap (sts.headD 0) n = none →
            ∃ t, exec .tnew s = .next t ∧ TurnedAway s t q f r.record 0x0E)
          ∧ (∀ (table : Nat) (v : State) (v' : BitVec 512), n ≤ (sts.map u.poolFree).foldl (· + ·) 0 →
            u.tableGap (sts.headD 0) n = some table → u.makeTensor d sts slot n table = (v, v') →
            recWidl r.record % 64 = 0 → v.fwWrite f (recWidl r.record) (bytesOfNat v'.toNat 64) ≠ none →
            ∃ t, exec .tnew s = .next t ∧ Signals s t f r.record 1 ∧ (t.queue q).recs.length = rest.length
              ∧ (t.tslot slot).used = true ∧ (t.tslot slot).freed = false ∧ (t.tslot slot).gen = (s.tslot slot).gen
              ∧ (t.tslot slot).size = n ∧ (t.tslot slot).stack = sts.headD 0 ∧ (t.tslot slot).table = table
              ∧ recField v' 0 4 = slot % 2 ^ 20 + (s.tslot slot).gen.toNat * 2 ^ 20)))
    ∧ (∀ n, (s.tslot n).freed = true →
        (s.inFlight n = false →
          ∃ t, exec (.framesReturn n) s = .next t ∧ (t.tslot n).used = false ∧ (t.tslot n).freed = false
            ∧ (t.tslot n).gen = (s.tslot n).gen ∧ (∀ m, m ≠ n → t.tslot m = s.tslot m) ∧ SameMemory s t)
        ∧ (s.inFlight n = true → exec (.framesReturn n) s = .next s))
    ∧ (∃ t, exec .codeVersionFree s = .next t ∧ ({ t with code := s.code, xlations := s.xlations } : State) = s
        ∧ (∀ l ∈ t.code, l ∈ s.code)
        ∧ (∀ x ∈ t.xlations, x ∈ s.xlations) ∧ (∀ x ∈ s.xlations, x.dropped = none → x ∈ t.xlations)
        ∧ (∀ l ∈ s.code, (∀ m ∈ s.code, m.addr = l.addr → m.ver ≤ l.ver) → l ∈ t.code)
        ∧ ∀ x ∈ s.openLaunches, ∀ l ∈ s.code, l.ver ≤ x.codeVer →
            (∀ m ∈ s.code, m.addr = l.addr → l.ver < m.ver → x.codeVer < m.ver) → l ∈ t.code)

/-- R42, R49, R54, R63, R369, R374, R392, R397, R429 and R430: an accepted bind gives a context and its die contexts the state
of a task that begins, a resume the state that was saved, on the new dies; a batch that fails a check is rejected; the commit
of a task makes what it staged visible, ends it and frees its banks; a released bank returns when nothing waits for it. That
dispatch rejects the whole of a batch with a bad record, and which records are bad for their units, is the model's choice (log
33), and so are that what a resume takes up stands beside the frames (log 11) and that a commit and a return whose condition
does not hold do nothing (log 17). -/
def Obligations.BindAndCommit : Prop :=
  ∀ (s : State),
    (∀ (r : BindRec) (a : BindAct), s.batch = [] → r.last = true → NoKiln s [(a, r)] → s.batchOk [(a, r)] = false →
      exec (match a with | .bind => .bind r | .resume => .resumeBind r | .drain => .drainBind r) s
        = .next { s with rejected := s.rejected + 1 })
    ∧ (∀ (r : BindRec), r.last = false →
        exec (.bind r) s = .next { s with batch := s.batch ++ [(.bind, r)] }
        ∧ exec (.resumeBind r) s = .next { s with batch := s.batch ++ [(.resume, r)] }
        ∧ exec (.drainBind r) s = .next { s with batch := s.batch ++ [(.drain, r)] })
    ∧ (∀ (r : BindRec) (u : TaskId), s.batch = [] → r.last = true → NoKiln s [(.bind, r)] →
        s.batchOk [(.bind, r)] = true → s.recTask r = some u → (s.launch u.lid).args.length ≤ 8 →
        let c := s.recCtx r
        let l := s.launch u.lid
        ∃ t, exec (.bind r) s = .next t
          ∧ (let y := t.ctx c
             y.task = some u ∧ y.run = .ready ∧ y.n0 = l.entry ∧ y.n1 = s.nextOf l.codeVer l.entry
             ∧ y.mark0 = false ∧ y.mark1 = false ∧ y.handler = false ∧ y.trap.tvec = l.hasHandler ∧ y.fpctl = 0
             ∧ y.dieMask = r.mask ∧ y.dieEn = r.mask ∧ y.dctx = r.dctx &&& r.mask ∧ y.instNo = 1
             ∧ y.loops = [] ∧ y.inflight = [] ∧ y.frozenAt = none
             ∧ (c.isCellar = false → Table.find? s.roots l.func ≠ none → y.diePres = s.presIn l.func c.num)
             ∧ y.yieldDl = s.deadline l
             ∧ (∀ i, i < 8 → y.sreg (BitVec.ofNat 6 (i + 1)) = l.args.getD i 0)
             ∧ (∀ n : BitVec 6, 8 < n.toNat → (n.toNat < 57 ∨ 60 < n.toNat) → y.sreg n = 0)
             ∧ ∀ q : BitVec 4, q ≠ 0 → y.qreg q = false)
          ∧ (∀ k d, (recDies r)[k]? = some d → t.dctx d
              = { DieCtx.unbound with part := some c.num, rank := k, count := (recDies r).length })
          ∧ (t.task u).state = .bound ∧ (t.task u).ctx = some c ∧ (t.task u).mask = r.mask ∧ t.dies = s.dies)
    ∧ (∀ (r : BindRec) (u : TaskId) (v : Saved), s.batch = [] → r.last = true → NoKiln s [(.resume, r)] →
        s.batchOk [(.resume, r)] = true → s.recTask r = some u → (s.task u).saved = some v → (s.recCtx r).isCellar = false →
        s.ecc = [] → (∀ e ∈ v.dies, Table.risingFrom 0 e.2.banks = true) →
        v.ctx.run = .drained false →
        let c := s.recCtx r
        ∃ t, exec (.resumeBind r) s = .next t
          ∧ t.ctx c = { v.ctx with
              run := .ready, drain := none, stopped := false, yieldDl := s.deadline (s.launch u.lid), dieMask := r.mask,
              dctx := r.dctx &&& r.mask, dieEn := (t.ctx c).dieEn, diePres := s.presIn (s.launch u.lid).func c.num }
          ∧ (∀ k i j : Nat, (diesOf v.ctx.dieMask)[k]? = some i → (diesOf r.mask)[k]? = some j →
              (t.ctx c).dieEn.getLsbD j = v.ctx.dieEn.getLsbD i)
          ∧ (∀ (k : Nat) (d : DieId) (e : Nat × SavedDie), (recDies r)[k]? = some d → v.dies[k]? = some e → t.dctx d = { e.2.ctx with part := some c.num }
              ∧ ∀ b st, Table.find? e.2.banks b = some st → Table.get .free (t.die d.die).banks b = st)
          ∧ (t.task u).state = .bound ∧ (t.task u).ctx = some c ∧ (t.task u).saved = none)
    ∧ (∀ lid (wid : BitVec 64) (c : CoreId),
        let u : TaskId := { lid, wid := wid.toNat }
        let l := s.launch lid
        (s.task u).ctx = some c → s.committable u = true → (s.ctx c).peerErr = false → s.commitUE u = false →
        ∃ t, exec (.taskCommit lid wid) s = .next t ∧ LeavesContext s t u c
          ∧ (t.task u).state = .done ∧ (t.task u).staged = [] ∧ (t.task u).shadows = []
          ∧ (t.launch lid).ended = l.ended + 1 ∧ (t.launch lid).faulted = l.faulted
          ∧ (l.ended + 1 < l.total → (t.launch lid).complete = l.complete)
          ∧ (l.total ≤ l.ended + 1 → (t.launch lid).complete = true
              ∧ Signals s t l.func l.record (if l.faulted = 0 then 1 else 2))
          ∧ (l.kind ≠ .cellar → (s.task u).shadows = [] → Table.risingFrom 0 (s.task u).staged = true →
              (s.objOf l).tlsSize = 0 → (s.objOf l).stackSize = 0 → ∀ p b, p < 2 ^ 40 →
              Table.find? (s.task u).staged p = some b → t.l2Byte p = b))
    ∧ (∀ lid (wid : BitVec 64), s.committable { lid, wid := wid.toNat } = false → exec (.taskCommit lid wid) s = .next s)
    ∧ (∀ die bank v tag, Table.risingFrom 0 s.dies = true → Table.get .free (s.die die).banks bank = .released v tag →
        ((s.launch v.lid).complete = true → (∀ e ∈ s.launches, s.successorOf v.lid e = true → e.2.complete = true) →
          ∃ t, exec (.bankReturnFree die bank) s = .next t ∧ OnlyDieRecord die s t
            ∧ Table.get .free (t.die die).banks bank = .free
            ∧ ∀ b, b ≠ bank → Table.get .free (t.die die).banks b = Table.get .free (s.die die).banks b)
        ∧ ((s.launch v.lid).complete = false → exec (.bankReturnFree die bank) s = .next s))

/-- R30 to R32, R440 and R442: what an exchange sets, when POD_VALID falls with it, when bounds are suspended and hold again, and
how a package joins a pod;
the time counter steps forward only then, and otherwise is at most one tick off its pace. That an odd sum of timestamps is
halved toward zero, and which timestamps two copies can have, is the model's choice (log 30), and so are that each step is
`pace` ticks (log 8) and that an event whose condition does not hold does nothing (log 17). -/
def Obligations.TimeAndPods : Prop :=
  ∀ (s : State),
    -- what a package of a pod has still to slew lies within the pod's bound, where there is one
    let podHolds : Prop := s.pod = none ∨ s.podBound = 0xFFFF
      ∨ (Table.get TimeCopy.same s.copies 60 : TimeCopy).slew.natAbs ≤ s.podBound.toNat
    (∀ (o : SyncOp), s.syncOk o = true →
      let i := if o.pod then 60 else o.slave
      let c : TimeCopy := Table.get TimeCopy.same s.copies i
      let last := s.timeCnt.toNat / (if o.pod then 1048576 else 16384)
      ∃ t, exec (.timeSyncExchange o) s = .next t
        ∧ ({ t with copies := s.copies, pkgBound := s.pkgBound, podBound := s.podBound, podValid := s.podValid } : State) = s
        ∧ (t.podValid = true ↔ s.podValid = true ∧ t.podBound ≠ 0xFFFF
            ∧ (Table.get TimeCopy.same t.copies 60 : TimeCopy).slew.natAbs ≤ t.podBound.toNat)
        ∧ (∀ j, j ≠ i → Table.get TimeCopy.same t.copies j = Table.get TimeCopy.same s.copies j)
        ∧ (o.ok = false → Table.get TimeCopy.same t.copies i = { c with ok := 0, fail := c.fail + 1, last := last }
            ∧ t.pkgBound = s.pkgBound ∧ t.podBound = s.podBound)
        ∧ (o.ok = true → Table.get TimeCopy.same t.copies i = { c with
              ok := c.ok + 1, fail := 0, last := last,
              slew := if o.pod = true ∧ s.pod = some s.podMaster then c.slew
                else -((((o.t2.toNat : Int) - o.t1.toNat) - ((o.t4.toNat : Int) - o.t3.toNat)).tdiv 2) }
            ∧ (o.pod = false → t.pkgBound = o.bound ∧ t.boundHolds o.bound = true
                ∧ (s.pod = none → t.podBound = s.podBound)
                ∧ (s.pod ≠ none → t.podBound.toNat = min 0xFFFF (o.bound.toNat + s.podHops.toNat)))
            ∧ (o.pod = true → t.pkgBound = s.pkgBound ∧ t.podBound = s.podBound)))
    ∧ (∀ (o : SyncOp), s.timeCnt.toNat / (if o.pod then 1048576 else 16384)
          ≤ (Table.get TimeCopy.same s.copies (if o.pod then 60 else o.slave) : TimeCopy).last →
        exec (.timeSyncExchange o) s = .next s)
    ∧ (s.timeLost = false → (∃ e ∈ s.copies, 16 ≤ e.2.fail) → ∃ t, exec .timeSyncLost s = .next t
        ∧ t.timeLost = true ∧ ({ t with timeLost := s.timeLost, copies := s.copies } : State) = s
        ∧ ∀ e ∈ t.copies, e.2.ok = 0)
    ∧ (s.timeLost = false → (∀ e ∈ s.copies, e.2.fail < 16) → exec .timeSyncLost s = .next s)
    ∧ (s.timeLost = true → s.copies ≠ [] → (∀ e ∈ s.copies, 16 ≤ e.2.ok) → s.boundHolds s.pkgBound = true → podHolds →
        exec .timeSyncRecover s = .next { s with timeLost := false })
    ∧ (s.timeLost = true → s.copies = [] ∨ (∃ e ∈ s.copies, e.2.ok < 16) ∨ s.boundHolds s.pkgBound = false ∨ ¬podHolds →
        exec .timeSyncRecover s = .next s)
    -- a bound that holds is one of the copies as they stand, and once each has slewed
    ∧ (∀ b : BitVec 16, b ≠ 0xFFFF → s.boundHolds b = true → ∀ i j, i < 60 → j < 60 → ∀ x y : TimeCopy,
        (i, x) ∈ s.copies → (j, y) ∈ s.copies →
        x.off - y.off ≤ b.toNat ∧ (x.off + x.slew) - (y.off + y.slew) ≤ b.toNat)
    ∧ (∀ self (m : PodMaster) (x : BitVec 16) (members : List PodMember) pages, s.pod = none → s.launches = [] → self < 4096 →
        m.id < 4096 → (∀ k ∈ members, k.id < 4096 ∧ k.port < 8) →
        ∃ t, exec (.podJoin self m x members pages) s = .next t ∧ t.pod = some self ∧ t.podMaster = m.id
          ∧ t.windows = pages
          ∧ t.timeCnt.toNat = (if self = m.id then s.timeCnt.toNat else max s.timeCnt.toNat m.time.toNat)
          ∧ t.podHops = x ∧ t.podBound.toNat = min 0xFFFF (s.pkgBound.toNat + x.toNat)
          ∧ (∀ p, Table.find? t.peers p = if p ≠ self ∧ ∃ k ∈ members, k.id = p then some true else none)
          ∧ (∀ p, Table.find? t.routes p
              = if p = self then none else ((members.filter (fun k => k.id == p)).getLast?).map (·.port))
          ∧ ({ t with pod := s.pod, podMaster := s.podMaster, windows := s.windows, timeCnt := s.timeCnt,
                      podBound := s.podBound, podHops := s.podHops, peers := s.peers, routes := s.routes } : State) = s)
    ∧ (∀ self m x (members : List PodMember) pages, s.pod ≠ none ∨ s.launches ≠ [] ∨ 4096 ≤ self ∨ 4096 ≤ m.id
          ∨ (∃ k ∈ members, 4096 ≤ k.id ∨ 8 ≤ k.port) →
        exec (.podJoin self m x members pages) s = .next s)
    ∧ (s.pod ≠ none → s.podValid = false → s.timeLost = false → 16 ≤ (Table.get TimeCopy.same s.copies 60 : TimeCopy).ok →
        s.podBound ≠ 0xFFFF → (Table.get TimeCopy.same s.copies 60 : TimeCopy).slew.natAbs ≤ s.podBound.toNat →
        exec .podValidSet s = .next { s with podValid := true })
    ∧ ((Table.get TimeCopy.same s.copies 60 : TimeCopy).ok < 16 ∨ s.podBound = 0xFFFF → exec .podValidSet s = .next s)
    ∧ (0 < s.timeCnt.toNat → s.timeCnt.toNat + s.pace + 1 < 2 ^ 64 →
        s.timeCnt.toNat + s.pace ≤ (State.tick s).timeCnt.toNat + 1
        ∧ (State.tick s).timeCnt.toNat ≤ s.timeCnt.toNat + s.pace + 1
        ∧ ({ State.tick s with timeCnt := s.timeCnt, copies := s.copies } : State) = s)

/-- R22, R115, R401 to R403, R413 to R416, R440, R441, R448, R449 and R453: a scrub logs and changes no value; a rewrite changes
no value that is read; a kiln run counts in the HEALTH table; a spare replaces a retired unit; what a clock, a layer, a link,
a route and a host error become; an invalidation waits for the copies that use the address space's translations, and then
discards its entries in every target and in no other. Which units hold translations, and that only copies go on longer than a
step, is the model's choice (log 9), as are that the task of a kiln run is non-idempotent (log 20) and that an event whose
condition does not hold does nothing (log 17). -/
def Obligations.UnitsAndStorage : Prop :=
  ∀ (s : State),
    (∃ t, exec .scrub s = .next t ∧ t.mem = s.mem ∧ t.ecc = s.ecc ∧ t.seq = s.seq ∧ t.cel = s.cel
      ∧ (∀ wk, s.nextUnclean s.scrubPos = some wk → t.scrubPos = wk + 1
          ∧ (s.eccWord wk ≠ .clean → t.errCount = s.errCount + 1 ∧ ∃ r, t.errLog.getLast? = some r
              ∧ r.unit = (unitOf (8 * wk)).1 ∧ r.addr = BitVec.ofNat 64 (unitOf (8 * wk)).2 ∧ r.time = s.timeCnt
              ∧ r.ty = (match s.eccWord wk with | .bad _ => 2 | _ => 1))
          ∧ (∀ d y, s.eccWord wk = .corrected d y → wk ∈ t.rewrites)))
    ∧ (∀ wk rest, s.rewrites = wk :: rest → ∃ t, exec .eccRewrite s = .next t ∧ t.rewrites = rest
        ∧ (∀ k, t.memByte k = s.memByte k) ∧ (∀ d y, s.eccWord wk = .corrected d y → t.eccWord wk = .clean)
        ∧ ({ t with mem := s.mem, ecc := s.ecc, rewrites := s.rewrites, layers := s.layers } : State) = s)
    ∧ (∀ (u : UnitCode) (pass : Bool), s.unitIdle u = true → ∃ t, exec (.kilnRun (.finish u pass)) s = .next t
        ∧ t.healthOf u = afterKiln (s.healthOf u) s.timeCnt pass
        ∧ (∀ v : UnitCode, v ≠ u → t.healthOf v = s.healthOf v)
        ∧ t.errCount = s.errCount + (if pass then 0 else 1) ∧ SameMemory s t)
    ∧ (∀ (c : CoreId) (mask dctx : BitVec 48) (entry : Word) (u : UnitCode), s.kilnPlace c mask dctx = true →
        s.unitIdle u = true → ∃ t, exec (.kilnRun (.start c mask dctx entry u)) s = .next t
          ∧ (t.ctx c).task = some { lid := s.nextLid, wid := 0 } ∧ (t.ctx c).diag = true ∧ (t.ctx c).run = .ready
          ∧ (t.ctx c).testUnit = some u
          ∧ (t.ctx c).n0 = entry ∧ (t.ctx c).dieMask = mask ∧ t.nextLid = s.nextLid + 1 ∧ SameMemory s t
          ∧ t.nonidem { lid := s.nextLid, wid := 0 } = true)
    ∧ (∀ c : CoreId, (s.ctx c).diag = true → ∃ t, exec (.kilnRun (.drop c)) s = .next t
        ∧ LeavesContext s t (s.taskId c) c ∧ Table.find? t.launches (s.taskId c).lid = none
        ∧ (s.ecc = [] → s.flaws = [] → t.health = s.health))
    ∧ (∀ u : UnitCode, (s.healthOf u).st = .retired → (s.healthOf u).spare = false → s.unitIdle u = true →
        (0 < s.spareLeft u → ∃ t, exec (.spareBind u) s = .next t ∧ t.healthOf u = { s.healthOf u with spare := true }
          ∧ t.spareLeft u + 1 = s.spareLeft u ∧ ({ t with health := s.health, spares := s.spares } : State) = s)
        ∧ (s.spareLeft u = 0 → exec (.spareBind u) s = .next s))
    ∧ (∀ k code, k < 12 → ∃ t, exec (.clockChange k code) s = .next t ∧ Table.get 0 t.clock k = code
        ∧ ({ t with clock := s.clock } : State) = s)
    ∧ (∀ st layer, s.layerInUse st layer = true → exec (.layerPowerState st layer .powerGated) s = .next s)
    ∧ (∀ st layer p, st < 12 → layer < 16 → (p = .powerGated → s.layerInUse st layer = false) → ∃ t, exec (.layerPowerState st layer p) s = .next t
        ∧ Table.get .active t.layers (layerKey st layer) = p
        ∧ (p ≠ .powerGated → ({ t with layers := s.layers } : State) = s)
        ∧ ({ t with layers := s.layers, mem := s.mem, ecc := s.ecc } : State) = s
        ∧ ∀ k, (2 ^ 40 ≤ k ∨ layerOf k ≠ layerKey st layer) → Memory.readByte t.mem k = Memory.readByte s.mem k)
    ∧ (∀ base len (cpl : BitVec 3), ∃ t, exec (.hostReadError base len cpl) s = .next t
        ∧ ({ t with hostBad := s.hostBad } : State) = s
        ∧ (cpl ≠ 0 → ∀ a n, base < a + n → a < base + len → t.hostError a n ≠ none)
        ∧ (cpl = 0 → ∀ r ∈ t.hostBad, r ∈ s.hostBad ∧ r.1 ≠ base))
    ∧ (∀ port, port < 8 → ∃ t, exec (.flitCrcRetry port) s = .next t ∧ ({ t with flitRetries := s.flitRetries } : State) = s)
    ∧ (∀ port lane, port < 8 → lane < 8 → ∃ t, exec (.uarusLaneFail port lane) s = .next t ∧ ({ t with ports := s.ports } : State) = s
        ∧ t.failedLanes port = s.failedLanes port ||| 2 ^ lane ∧ t.portWidth port = if t.failedLanes port = 255 then 0 else 4)
    ∧ (∀ p b, Table.find? s.peers p = some b → ∃ t, exec (.peerRouteDown p) s = .next t
        ∧ ({ t with peers := s.peers } : State) = s
        ∧ ∀ q, Table.find? t.peers q = if q = p then some false else Table.find? s.peers q)
    ∧ ∀ func,
        let runs (l : Nat) : Prop := (s.launch l).func = func
        -- the targets: the control die, the dies in the DIE_PRES of the contexts that run the address space, and the cellar
        -- cores that run it
        let target (k : Nat) : Prop := (192 ≤ k ∧ k < 256)
          ∨ (∃ die n x, k = 256 + die ∧ die < 48 ∧ (n, x) ∈ s.seq ∧ x.task ≠ none ∧ (s.launchOf (.seq n)).func = func
              ∧ x.diePres.getLsbD die = true)
          ∨ ∃ n x, (n, x) ∈ s.cel ∧ x.task ≠ none ∧ k = n / 4 ∧ (s.launchOf (.cel n)).func = func
        let uses (o : CopyOp) : Prop := (o.kind = .flatIn ∨ o.kind = .flatOut) ∧ runs o.task.lid
        let busy : Prop := (∃ e ∈ s.dieCtx, target (256 + e.1 / 2) ∧ ∃ q ∈ e.2.engines, ∃ o ∈ q.2, uses o)
          ∨ ∃ e ∈ s.cel, target (e.1 / 4) ∧ ∃ o ∈ e.2.engine, uses o
        (busy → exec (.translationInvalidation func) s = .next s)
        ∧ (¬busy → ∃ t, exec (.translationInvalidation func) s = .next t ∧ ({ t with tlb := s.tlb } : State) = s
          ∧ (Table.risingFrom 0 s.tlb = true → (∀ e ∈ s.tlb, Table.risingFrom 0 e.2 = true) → ∀ k f a,
              (f = func → target k → t.tlbEntry k f a = none)
              ∧ (f ≠ func ∨ ¬target k → t.tlbEntry k f a = s.tlbEntry k f a)))

/-- R18, R30, R115, R363, R418, R423, R435 to R437, R443 to R445: what a package reset and a die reset leave, what a host's
writes to the registers do, and what a load and an attestation answer. That memory reads 0 after a package reset and that
registers without a reset value do is the model's choice (logs 2 and 3), and so is what stays of a die context in use over the
reset of its die, where its copy of the time then stands, and that a reset of no die does nothing (log 17). -/
def Obligations.ResetsAndHostPort : Prop :=
  ∀ (s : State),
    (∃ t, exec .packageReset s = .next t
      ∧ (∀ c, t.ctx c = Ctx.unbound) ∧ (∀ d, t.dctx d = DieCtx.unbound) ∧ (∀ d, t.die d = Die.fresh)
      ∧ t.timeCnt = 0 ∧ t.podBound = 0xFFFF ∧ t.pkgBound = 0xFFFF ∧ t.timeLost = false ∧ t.podValid = false
      ∧ t.launches = [] ∧ t.queues = [] ∧ t.events = [] ∧ t.l2 = [] ∧ t.ecc = [] ∧ t.errCount = 0
      ∧ t.repairs = s.repairs ∧ t.rolian = s.rolian ∧ t.xlations = [] ∧ (s.repairs = [] → t.health = [])
      ∧ (∀ k, k < 2 ^ 56 → Memory.readByte t.mem k = 0)
      ∧ (∀ k, 2 ^ 56 ≤ k → Memory.readByte t.mem k = Memory.readByte s.mem k)
      ∧ (match s.boot with
        | .ok v => t.bootStage = 3 ∧ t.bootErr = 0 ∧ t.secVer = v
            ∧ ∀ n ∈ s.repairs, (t.healthOf (BitVec.ofNat 32 n)).st = .retired
        | .error e => t.bootStage = 0 ∧ t.bootErr = BitVec.ofNat 8 e ∧ t.secVer = s.secVer))
    ∧ (∀ n, n < 48 → ∃ t, exec (.dieReset n) s = .next t ∧ t.die n = Die.fresh ∧ (∀ m, m ≠ n → t.die m = s.die m)
          ∧ (∀ k : Fin 2,
              let x := s.dctx { die := n, k := k }
              let y := t.dctx { die := n, k := k }
              (x.part = none → y = DieCtx.unbound)
              ∧ (x.part ≠ none → y.part = x.part ∧ y.retired = x.retired ∧ y.rank = 0 ∧ y.count = 0 ∧ y.lost = true
                  ∧ t.nextPacket { die := n, k := k } = none ∧ y.dflags &&& 0xFFFFFFFF0000FFC0 = 0
                  ∧ y.nests = [] ∧ y.engines = [] ∧ y.xregs = [] ∧ y.cbs = [] ∧ y.fault = none ∧ y.engFault = none))
          ∧ (∀ e : DieId, e.key ≠ ({ die := n, k := 0 } : DieId).key → e.key ≠ ({ die := n, k := 1 } : DieId).key →
              t.dctx e = s.dctx e)
          ∧ Table.get TimeCopy.same t.copies (12 + n) = TimeCopy.same
          ∧ SameMemoryBut s t (dieMemKey n 0) (192 * 2 ^ 20)
          ∧ (∀ f a, t.tlbEntry (256 + n) f a = none)
          ∧ ({ t with dieCtx := s.dieCtx, dies := s.dies, mem := s.mem, ecc := s.ecc, free := s.free, copies := s.copies,
                      flaws := s.flaws, tlb := s.tlb } : State) = s)
    ∧ (∀ n, 48 ≤ n → exec (.dieReset n) s = .next s)
    ∧ (∀ func off size (v : BitVec 512), s.hasFunc func = true → 8 ≤ off → off + size ≤ 16 →
        ∃ t, exec (.registerWrite func off size v) s = .next t ∧ ({ t with hostErr := s.hostErr } : State) = s
        ∧ (∀ i, i < 64 → (Table.get 0 t.hostErr func : Word).getLsbD i = ((Table.get 0 s.hostErr func : Word).getLsbD i
            && !(decide (48 ≤ i ∧ 8 * (off - 8) ≤ i ∧ i < 8 * (off - 8 + size)) && v.getLsbD (i - 8 * (off - 8))))))
    ∧ (∀ func e (v : BitVec 512), s.hasFunc func = true → 0 < e → e < 4096 →
        exec (.registerWrite func (0x140000 + 4 * e) 4 v) s = .next (s.setEvent func e
          { s.event func e with vec := v.extractLsb' 16 11, ie := v.getLsbD 8 }))
    ∧ (∀ func off size v, s.hasFunc func = false → exec (.registerWrite func off size v) s = .next s)
    ∧ (∀ func (v : BitVec 512), s.hasFunc func = true → s.bootStage = 3 → recField v 26 6 = 0 → recField v 40 24 = 0 → 0 < recField v 24 2 →
        recField v 24 2 < 4096 → exec (.registerWrite func 0x40 64 v) s = .next { s with loads := s.loads ++ [(func, v)] })
    ∧ (∀ func size (v : BitVec 512), size ≠ 64 ∨ recField v 26 6 ≠ 0 ∨ recField v 40 24 ≠ 0 →
        exec (.registerWrite func 0x40 size v) s = .next s)
    ∧ (∀ off size (v : BitVec 512), size ≤ 64 → off + size ≤ 48 → ∃ t, exec (.registerWrite 0 (0x1A00000 + off) size v) s = .next t
        ∧ (∀ i, i < size → Table.get 0 t.mailbox (off + i) = v.extractLsb' (8 * i) 8)
        ∧ ({ t with mailbox := s.mailbox } : State) = s)
    ∧ (s.bootStage = 3 → ∃ t, exec .attestRequest s = .next t ∧ ({ t with mailbox := s.mailbox } : State) = s
        ∧ MailHas t 256 8 Config.idSerial.toNat ∧ MailHas t 264 4 Config.translatorVersion.toNat ∧ MailHas t 268 4 0
        ∧ MailHas t 272 48 (Config.imageDigest 1).toNat ∧ MailHas t 320 48 (Config.imageDigest 0).toNat
        ∧ (∀ i, i < 48 → Table.get 0 t.mailbox (368 + i) = Table.get 0 s.mailbox i)
        ∧ MailHas t 416 96 (Config.attestSignature (BitVec.ofNat 1280 (mailNum t 256 160))).toNat)
    ∧ (∀ func (r : BitVec 512) rest, s.ecc = [] → s.layers = [] → s.loads = (func, r) :: rest → 0 < recField r 24 2 → recField r 24 2 < 4096 →
        let u : State := { s with loads := rest }
        let sig := recField r 24 2
        ∃ t, exec .loadRequest s = .next t ∧ t.loads = rest ∧ match u.loadObject func (recField r 0 8) (recField r 8 8) with
          | .error _ => t.event func sig = { s.event func sig with st := 2 } ∧ t.funcs = s.funcs ∧ t.objs = s.objs
              ∧ t.code = s.code
          | .ok (v, _, _) => t.event func sig = { s.event func sig with st := 1 } ∧ t.funcs = v.funcs ∧ t.objs = v.objs
              ∧ t.code = v.code)

/-- R127, R395 and R450 to R452: the debugger's six commands on a context: STOP, RESUME and SET_DBG act on any; the others need
a stopped one; a register written makes its task non-idempotent; a read of memory changes nothing but the answer. That an
offset outside the frame is answered with ADDR_BAD is the model's choice (log 26), and so is that WRITE_REG of FPCTL replaces
its flag fields (log 39). -/
def Obligations.DebuggerCommands : Prop :=
  ∀ (s : State) (c : CoreId),
    let x := s.ctx c
    let arg := mailNum s 1032 8
    let data : Word := BitVec.ofNat 64 (mailNum s 1040 8)
    let only (t : State) (y : Ctx) : Prop := OtherThan c s t ∧ t.ctx c = y
    -- a register written has good parity (R398)
    let onlyReg (t : State) (y : Ctx) : Prop := (∃ f, OtherThan c s { t with flaws := f }) ∧ t.ctx c = y
    (DbgAsks s 1 c → ∃ t, exec .dbgStop s = .next t ∧ DbgDone s t 0 none ∧ only t { x with stopped := true })
    ∧ (DbgAsks s 2 c → x.replayDue = true → x.stepStop = false → s.flaws = [] → ∃ t, exec .dbgResume s = .next t
        ∧ DbgDone s t 0 none ∧ (t.ctx c).stopped = false ∧ (t.ctx c).replayDue = false
        ∧ (t.ctx c).replayTo = (match x.sent.getLast? with | some p => p.no | none => 0)
        ∧ ∀ d ∈ x.dieIds, (t.dctx d).fault = none)
    ∧ (DbgAsks s 2 c → x.replayDue = false → ∃ t, exec .dbgResume s = .next t ∧ DbgDone s t 0 none ∧ (t.ctx c).stopped = false
        ∧ ({ t with seq := s.seq, cel := s.cel, seqCore := s.seqCore, celCore := s.celCore, mailbox := s.mailbox } : State) = s
        ∧ (∀ d, d ≠ c → t.ctx d = s.ctx d) ∧ (x.drain = none → only t { x with stopped := false }))
    ∧ (DbgAsks s 6 c → ∃ t, exec .dbgSetDbg s = .next t ∧ DbgDone s t 0 none
        ∧ only t { x with dbgEn := BitVec.ofNat 2 arg })
    ∧ (x.stopped = false →
        (DbgAsks s 3 c → ∃ t, exec .dbgReadReg s = .next t ∧ DbgDone s t 3 none ∧ only t x)
        ∧ (DbgAsks s 4 c → ∃ t, exec .dbgWriteReg s = .next t ∧ DbgDone s t 3 none ∧ only t x)
        ∧ (DbgAsks s 5 c → ∃ t, exec .dbgReadMem s = .next t ∧ DbgDone s t 3 none ∧ only t x))
    ∧ (x.stopped = true → DbgAsks s 3 c →
        (∀ n, n < 64 → arg = 8 * n →
          ∃ t, exec .dbgReadReg s = .next t ∧ DbgDone s t 0 (some (x.sreg (BitVec.ofNat 6 n))) ∧ only t x)
        ∧ (arg = 512 → ∃ t v, exec .dbgReadReg s = .next t ∧ DbgDone s t 0 (some v) ∧ only t x
            ∧ ∀ q : BitVec 4, v.getLsbD q.toNat = x.qreg q)
        ∧ (arg = 720 → ∃ t, exec .dbgReadReg s = .next t ∧ DbgDone s t 0 (some x.fpctl) ∧ only t x)
        ∧ (arg % 8 ≠ 0 → ∃ t, exec .dbgReadReg s = .next t ∧ DbgDone s t 4 none ∧ only t x))
    ∧ (x.stopped = true → DbgAsks s 4 c → (x.task = none ∨ s.nonidem (s.taskId c) = true) →
        (∀ n, n < 64 → arg = 8 * n → ∃ t y, exec .dbgWriteReg s = .next t ∧ DbgDone s t 0 none ∧ onlyReg t y
          ∧ (n ≠ 0 → y.sreg (BitVec.ofNat 6 n) = data)
          ∧ (∀ m : BitVec 6, (m.toNat ≠ n ∨ n = 0) → y.sreg m = x.sreg m) ∧ { y with regs := x.regs } = x)
        ∧ (arg = 512 → ∃ t y, exec .dbgWriteReg s = .next t ∧ DbgDone s t 0 none ∧ onlyReg t y
          ∧ (∀ q : BitVec 4, q ≠ 0 → y.qreg q = data.getLsbD q.toNat) ∧ { y with preds := x.preds } = x)
        ∧ (arg = 720 → ∃ t, exec .dbgWriteReg s = .next t ∧ DbgDone s t 0 none
            ∧ onlyReg t { x with fpctl := data &&& (if c.isCellar then 0x1F1F0F else 0x1F0F) })
        ∧ (513 ≤ arg → arg ≠ 720 → ∃ t, exec .dbgWriteReg s = .next t ∧ DbgDone s t 4 none ∧ only t x))
    ∧ (x.stopped = true → DbgAsks s 4 c → x.task ≠ none → (arg < 512 ∧ arg % 8 = 0) ∨ arg = 512 ∨ arg = 720 →
        ∃ t, exec .dbgWriteReg s = .next t ∧ DbgDone s t 0 none ∧ t.nonidem (s.taskId c) = true
          ∧ (∀ m : BitVec 6, (t.ctx c).sreg m = if arg = 8 * m.toNat ∧ m ≠ 0 then data else x.sreg m)
          ∧ (∀ q : BitVec 4, (t.ctx c).qreg q = if arg = 512 ∧ q ≠ 0 then data.getLsbD q.toNat else x.qreg q)
          ∧ (t.ctx c).fpctl = if arg = 720 then data &&& (if c.isCellar then 0x1F1F0F else 0x1F0F) else x.fpctl)
    ∧ (x.stopped = true → DbgAsks s 5 c → ∃ t, exec .dbgReadMem s = .next t
        ∧ DbgDone s t (s.dbgRead c (BitVec.ofNat 64 arg)).1.toNat (some (s.dbgRead c (BitVec.ofNat 64 arg)).2)
        ∧ only t x
        ∧ (∀ e, s.corePlace c (BitVec.ofNat 64 arg) 8 .load = .error e → s.dbgRead c (BitVec.ofNat 64 arg) = (4, 0))
        ∧ (∀ p, s.corePlace c (BitVec.ofNat 64 arg) 8 .load = .ok (.hbm p) → s.layers = [] →
            ∀ i, i < 8 → byteOf (s.dbgRead c (BitVec.ofNat 64 arg)).2 i
              = ((s.stagedByte (s.taskId c) (hbmKey (p + i))).orElse (fun _ => s.l1Byte c (p + i))).getD (s.l2Byte (p + i)))
        ∧ (∀ p, s.corePlace c (BitVec.ofNat 64 arg) 8 .load = .ok (.hbm p) →
            Table.get .active s.layers (layerOf (hbmKey p)) = .powerGated → s.dbgRead c (BitVec.ofNat 64 arg) = (1, 0)))

/-- R196, R204, R206, R208, R213, R214, R220, R226 and R320: words of scalar, memory, flag and sequencing instructions that the
manual writes out decode to the instructions that it writes beside them. -/
def Sys2Proof.Claims.scalarWordsDecode : Prop :=
  decodeMap .s 0x00808103 0 = .ok (.add { w := 0, sgn := true, d := 1, nw := false, a := .reg 2, b := .reg 3 })
  ∧ decodeMap .s 0x71514E02 0 = .ok (.bext { pos := 56, n1 := 2, d := 21, nw := false, a := .reg 20 })
  ∧ decodeMap .s 0x8C25058C 0 = .ok (.fma { var := 0, dbl := true, d := 10, nw := false, a := .reg 11, b := .reg 12 })
  ∧ decodeMap .m 0x00C70C00 0 = .ok (.ld { ty := .z64, d := 7, a := .reg 6, imm := 0 })
  ∧ decodeMap .m 0x78870083 0 = .ok (.fwait { sgn := false, remote := false, acq := true, eq := false, off := 3, d := 7, a := .reg 0 })
  ∧ decodeMap .b 0x00CFFFFB 0 = .ok (.br 3 false false 1048571)
  ∧ decodeMap .b 0x251D0064 0 = .ok (.loopi 1 7 2 100)

/-- R240, R257, R263, R291, R293, R307, R344, R345, R346 and R356: words of vector, matrix, permutation, movement and cellar
instructions that the manual writes out decode to the instructions that it writes beside them. -/
def Sys2Proof.Claims.wideWordsDecode : Prop :=
  decodeMap .v 0x600342CA 0 = .ok (.vcmp { cond := .eq, md := 3, va := 8, vb := 11, m := 1, t := .f32 })
  ∧ decodeMap .x 0x00200A00 0x1234 = .ok (.ntw (.imm 0 4 1 4660))
  ∧ decodeMap .p 0x04404400 0 = .ok (.perm 2 1 (.reg 8))
  ∧ decodeMap .p 0x15AE4000 0 = .ok (.rred { kind := .and, cls := .z, big := true, k := 3, rt := 2 })
  ∧ decodeMap .c 0x01004853 0 = .ok (.xlate { x := 2, tid := 9, a := .reg 5, cnt := 3 })
  ∧ decodeMap .cv 0x30621890 0 = .ok (.wld { flat := true, x := true, vd := 2, va := 3, a := .reg 9, m := 0 })
  ∧ decodeMap .nm 0x082B0380 0 = .ok (.nscat { v := true, d := 22, nw := false, a := .reg 7 })

/-- R196, R204, R206, R208, R213, R214, R220, R226, R240, R257, R263, R291, R293, R307, R320 and R344 to R346: words that the
manual writes out decode to the instructions that it writes beside them. -/
def Obligations.SpecWordsDecode : Prop := scalarWordsDecode ∧ wideWordsDecode

/-- R54, R154, R182, R184 and R217: a step runs the row at the head of the agenda; a bundle's issue and a packet's start run the
instruction that the word at the program counter, or in the packet, decodes to, its checks before its effect, and then end the
bundle or retire the packet. The agenda, which says what happens next where the manual lets several things happen, is the
model's own device, and so is one step for each of them (log 1). -/
def Obligations.StepRunsDecodedInstruction : Prop :=
  (∀ (s : State) (i : Instr) rest, s.agenda = i :: rest →
    (∀ t, exec i (rowState s rest) = .next t → t.work = [] → step s = .next t)
    ∧ (∀ f, exec i (rowState s rest) = .fault f → step s = .fault f))
  ∧ (∀ (s : State) (c : CoreId) rest (hd w : Word32) (sl : Slot) (i : Instr), s.agenda = .bundleIssue c :: rest →
      let u := rowState s rest
      IssuesOne u c hd w sl i → (isWide sl = false ∨ c.isCellar = true) →
      ∃ v, exec (.bundleIssue c) u = .next v ∧ v.work = [(sl, i)] ∧ v.core = c ∧ v.onDie = none
        ∧ (v.ctx c).n0 = (u.ctx c).n0 ∧ (v.ctx c).regs = (u.ctx c).regs ∧ SameMemory u v
        ∧ (v.coreRec c).running = some c.num ∧ OneSlotRuns s (State.tick { s with agenda := rest }) v sl i)
  ∧ (∀ (s : State) (d : DieId) rest (p : Packet) (sl : Slot) (i : Instr), s.agenda = .packetExecute d :: rest →
      let u := rowState s rest
      u.packetTurn d = true → u.nextPacket d = some p → u.flaws = [] → p.dieEn.getLsbD d.die = true → p.barrier = false →
      (u.dctx d).atBarrier = false → (u.dctx d).half = false → packetWork p = [(sl, i)] →
      ∃ v, exec (.packetExecute d) u = .next v ∧ v.work = [(sl, i)] ∧ v.onDie = some d
        ∧ v.dctx d = { u.dctx d with packet := some p } ∧ SameMemory u v
        ∧ ∀ q, exec i { v with work := [], slot := sl, phase := .probe, verdict := .ok, emptied := none } = .next q →
            q.verdict = .ok → State.heldBack { v with work := [], phase := .commit } sl i = false →
            ∀ t, exec i { v with work := [], slot := sl, phase := .commit } = .next t →
            step s = .next (State.finishWork { t with phase := .whole, work := [] }))

/-- R51, R55, R115, R168, R217 and R386: a bundle with broadcast slots sends one packet, numbered next, with its words, its
scalars, the rounding mode and the enabled dies; a die that the packet's DIE_EN switches off retires it at once. That a row which
names a context or a die whose turn has not come leaves it as it is is the model's choice (log 17). -/
def Obligations.PacketsLeaveAndRetire : Prop :=
  (∀ (s : State) (n : Nat) (hd w : Word32) (sl : Slot) (i : Instr),
    let c := CoreId.seq n
    let x := s.ctx c
    IssuesOne s c hd w sl i → isWide sl = true → x.dieMask ≠ 0 → x.handler = false → x.instNo < 2 ^ 48 → x.frozenAt = none →
    x.replayTo = 0 → s.sendBlocked c = false → (s.task (s.taskId c)).state = .running →
    (∀ o, i = .cwait o → o.s = false) →
    ∃ t p, exec (.bundleIssue c) s = .next t ∧ t.work = s.work ∧ (t.ctx c).sent = x.sent ++ [p]
      ∧ (t.ctx c).instNo = x.instNo + 1 ∧ (t.ctx c).diePres = x.diePres ||| x.dieMask ∧ SameMemory s t
      ∧ p.no = x.instNo ∧ p.dieEn = x.dieEn ∧ p.barrier = false ∧ p.vrm = x.fpctl.extractLsb' 2 2
      ∧ p.himm = hd.extractLsb' 0 16
      ∧ p.v = (if sl = .v then some w else none) ∧ p.x = (if sl = .x then some w else none)
      ∧ p.p = (if sl = .p then some w else none) ∧ p.c = (if sl = .c then some w else none)
      ∧ (∀ r, i.srcs = [.reg r] → (∀ pl o, i ≠ .cbwr pl o) → (∀ o, i ≠ .cbrd o) →
          (match sl with | .v => p.va | .x => p.xa | .p => p.pa | _ => p.ca) = x.sreg r))
  ∧ (∀ (s : State) (d : DieId) (p : Packet) (n : Nat), s.packetTurn d = true → s.nextPacket d = some p →
      (s.dctx d).part = some n → p.dieEn.getLsbD d.die = false →
      ∃ t, exec (.packetExecute d) s = .next t ∧ t.work = s.work ∧ p.no ≤ (t.dctx d).retired ∧ SameMemory s t
        ∧ (t.dctx d).holds = (s.dctx d).holds ∧ (t.dctx d).acc = (s.dctx d).acc ∧ (t.dctx d).fault = (s.dctx d).fault)
  ∧ (∀ (s : State) (c : CoreId), s.mayIssue c = false → exec (.bundleIssue c) s = .next s)
  ∧ (∀ (s : State) (d : DieId), s.packetTurn d = false → exec (.packetExecute d) s = .next s)

/-- R166 to R180 and R342 to R346: decoding the word of a well-formed instruction of any map, with every operand at every value
that its encoding admits, gives the instruction back. -/
def Obligations.EncodeDecode : Prop :=
  ∀ (i : Instr) (mp : OpMap), i.opMap = some mp → i.wf = true → decodeMap mp (encode i) (headImm i) = .ok i

/-- R164 and R181: every word that decodes is the word of the well-formed instruction it decodes to: no bit is ignored, and a
word with a reserved bit set is refused. -/
def Obligations.DecodeEncode : Prop :=
  ∀ (mp : OpMap) (w : Word32) (h : BitVec 16) (i : Instr), decodeMap mp w h = .ok i →
    i.opMap = some mp ∧ i.wf = true ∧ encode i = w ∧ (headImm i = h ∨ headImm i = 0)

/-- R18, R30, R32, R363, R365 and R435: right after package reset nothing is bound, TIME_CNT and BOOT_STAT are 0, the bounds
read 0xFFFF, queues are empty, events are CLEAR. That registers read 0, memory reads 0 and the counters below stand at 0 is the
model's choice (logs 2 and 3), and so are the forms of memory and caches, which hold. -/
def Obligations.ResetState : Prop :=
  let s := State.reset
  s.Inv
  ∧ (∀ c, (s.ctx c).task = none ∧ (s.ctx c).run = .idle ∧ (s.ctx c).stopped = false ∧ (s.ctx c).handler = false
      ∧ (s.ctx c).fpctl = 0 ∧ (s.ctx c).dieEn = 0 ∧ (s.ctx c).dbgEn = 0
      ∧ (∀ n, (s.ctx c).sreg n = 0) ∧ (∀ q, q ≠ 0 → (s.ctx c).qreg q = false) ∧ (s.ctx c).qreg 0 = true)
  ∧ (∀ d, (s.dctx d).part = none ∧ (s.dctx d).nests = []) ∧ (∀ n b, Table.get .free (s.die n).banks b = .free)
  ∧ s.timeCnt = 0 ∧ s.timeLost = false ∧ s.podValid = false ∧ s.podBound = 0xFFFF ∧ s.pkgBound = 0xFFFF
  ∧ s.bootStage = 0 ∧ s.bootErr = 0 ∧ (∀ q, (s.queue q).recs = []) ∧ (∀ f e, (s.event f e).st = 0)
  ∧ (∀ f, (Table.get 0 s.hostErr f : Word) = 0) ∧ (∀ c, (s.coreRec c).curLim = 1472 ∧ (s.coreRec c).curFrz = 0)
  ∧ (∀ k, Memory.readByte s.mem k = 0) ∧ s.launches = [] ∧ s.errCount = 0

/-- Every step keeps the forms in which memory and the caches are held, the model's own (log 2): bytes in rising order of their
keys, each once, and none listed that reads as an unlisted one. -/
def Obligations.StepKeepsForms : Prop :=
  ∀ s t : State, s.Inv → step s = .next t → t.Inv

/-- R244: EXP2 and LOG2 of the lanes give the exact mathematical value rounded once, as an FP32 number with its flags. -/
def Obligations.SpecialFunctionsRoundOnce : Prop :=
  ∀ (s : State) (o : VSpecOp), s.effective →
    GivesLanes (.vspec o) s o.vd o.m (lanes s o.va) (fun _ => 0) (fun a _ _ r fl =>
      fpFinite false a = true → fpZero false a = false →
        (o.kind = .exp2 → RoundedReal (form false) s.vrm ((2 : ℝ) ^ (fpVal false a : ℝ)) r fl)
        ∧ (o.kind = .log2 → fpNeg false a = false →
            RoundedReal (form false) s.vrm (Real.logb 2 (fpVal false a : ℝ)) r fl))

end
end

