-- ==== Sys2Proof/Laws/Table.lean ====
section
/-! SUPPORT. Sparse tables: what an entry reads as after each operation, and the canonical form that each keeps. -/

namespace Sys2Proof.Machine

variable {α : Type}

/-! ### Reading -/

theorem Table.find?_insert (m : PMap α) (k : Nat) (v : α) (j : Nat) :
    Table.find? (Table.insert m k v) j = if k = j then some v else Table.find? m j := by
  induction m with
  | nil => rfl
  | cons e rest ih =>
    obtain ⟨i, u⟩ := e
    by_cases h1 : k < i
    · simp [Table.insert, Table.find?, h1]
    · by_cases h2 : k = i
      · subst h2
        by_cases h3 : k = j <;> simp [Table.insert, Table.find?, h3]
      · by_cases h3 : i = j
        · subst h3
          simp [Table.insert, Table.find?, h1, h2]
        · simp [Table.insert, Table.find?, h1, h2, h3, ih]

theorem Table.find?_erase (m : PMap α) (k j : Nat) :
    Table.find? (Table.erase m k) j = if k = j then none else Table.find? m j := by
  induction m with
  | nil => simp [Table.erase, Table.find?]
  | cons e rest ih =>
    obtain ⟨i, u⟩ := e
    simp only [Table.erase] at ih
    by_cases h1 : i = k
    · subst h1
      by_cases h3 : i = j
      · subst h3; simpa [Table.erase] using ih
      · simp [Table.erase, Table.find?, ih, h3]
    · by_cases h3 : i = j
      · subst h3
        have : k ≠ i := fun h => h1 h.symm
        simp [Table.erase, Table.find?, h1, this]
      · simp [Table.erase, Table.find?, h1, h3, ih]

theorem Table.get_insert (d : α) (m : PMap α) (k : Nat) (v : α) (j : Nat) :
    Table.get d (Table.insert m k v) j = if k = j then v else Table.get d m j := by
  by_cases h : k = j <;> simp [Table.get, Table.find?_insert, h]

theorem Table.get_set [DecidableEq α] (d : α) (m : PMap α) (k : Nat) (v : α) (j : Nat) :
    Table.get d (Table.set d m k v) j = if k = j then v else Table.get d m j := by
  by_cases hv : v = d
  · by_cases h : k = j <;> simp [Table.set, Table.get, Table.find?_erase, hv, h]
  · simp [Table.set, hv, Table.get_insert]

@[simp] theorem Table.get_set_same [DecidableEq α] (d : α) (m : PMap α) (k : Nat) (v : α) :
    Table.get d (Table.set d m k v) k = v := by simp [Table.get_set]

/-- A key that is listed is found. -/
theorem Table.find?_isSome_of_mem (m : PMap α) (k : Nat) (h : k ∈ m.map Prod.fst) : (Table.find? m k).isSome = true := by
  induction m with
  | nil => simp at h
  | cons e rest ih =>
    obtain ⟨i, u⟩ := e
    by_cases hi : i = k
    · simp [Table.find?, hi]
    · have : k ∈ rest.map Prod.fst := by
        rcases List.mem_cons.mp h with h | h
        · exact absurd h.symm hi
        · exact h
      simp [Table.find?, hi, ih this]

/-- Where every candidate is in use, the search ends past the last one. -/
theorem Table.freshKey_full (m : PMap α) : ∀ fuel lo, (∀ k, lo ≤ k → k < lo + fuel → (Table.find? m k).isSome = true) →
    Table.freshKey m lo fuel = lo + fuel := by
  intro fuel
  induction fuel with
  | zero => intro lo _; rfl
  | succ n ih =>
    intro lo h
    have h0 := h lo (Nat.le_refl _) (by omega)
    simp only [Table.freshKey, h0, ↓reduceIte]
    rw [ih (lo + 1) (fun k h1 h2 => h k (by omega) (by omega))]
    omega

/-! ### The canonical form -/

theorem Table.risingFrom_mono (m : PMap α) : ∀ {lo hi : Nat}, hi ≤ lo → Table.risingFrom lo m = true →
    Table.risingFrom hi m = true := by
  cases m with
  | nil => intros; rfl
  | cons e rest =>
    intro lo hi h hr
    simp only [Table.risingFrom, Bool.and_eq_true, decide_eq_true_eq] at hr ⊢
    exact ⟨by omega, hr.2⟩

theorem Table.risingFrom_filter (p : Nat × α → Bool) (m : PMap α) : ∀ {lo : Nat}, Table.risingFrom lo m = true →
    Table.risingFrom lo (m.filter p) = true := by
  induction m with
  | nil => intros; rfl
  | cons e rest ih =>
    intro lo h
    simp only [Table.risingFrom, Bool.and_eq_true, decide_eq_true_eq] at h
    by_cases hp : p e = true
    · simp only [List.filter_cons, hp, ↓reduceIte, Table.risingFrom, Bool.and_eq_true, decide_eq_true_eq]
      exact ⟨h.1, ih h.2⟩
    · simp only [List.filter_cons, hp, Bool.false_eq_true, ↓reduceIte]
      exact Table.risingFrom_mono _ (by omega) (ih h.2)

theorem Table.risingFrom_erase (m : PMap α) (k : Nat) {lo : Nat} (h : Table.risingFrom lo m = true) :
    Table.risingFrom lo (Table.erase m k) = true := Table.risingFrom_filter _ m h

theorem Table.risingFrom_insert (m : PMap α) (k : Nat) (v : α) : ∀ {lo : Nat}, lo ≤ k → Table.risingFrom lo m = true →
    Table.risingFrom lo (Table.insert m k v) = true := by
  induction m with
  | nil => intro lo hk _; simpa [Table.insert, Table.risingFrom] using hk
  | cons e rest ih =>
    intro lo hk h
    obtain ⟨i, u⟩ := e
    simp only [Table.risingFrom, Bool.and_eq_true, decide_eq_true_eq] at h
    by_cases h1 : k < i
    · simp only [Table.insert, h1, ↓reduceIte, Table.risingFrom, Bool.and_eq_true, decide_eq_true_eq]
      exact ⟨hk, by omega, h.2⟩
    · by_cases h2 : k = i
      · simp only [Table.insert, h2, Nat.lt_irrefl, ↓reduceIte, Table.risingFrom, Bool.and_eq_true, decide_eq_true_eq]
        exact ⟨h.1, h.2⟩
      · simp only [Table.insert, h1, h2, ↓reduceIte, Table.risingFrom, Bool.and_eq_true, decide_eq_true_eq]
        exact ⟨h.1, ih (by omega) h.2⟩

theorem Table.all_insert (p : Nat × α → Bool) (m : PMap α) (k : Nat) (v : α) (hv : p (k, v) = true) (h : m.all p = true) :
    (Table.insert m k v).all p = true := by
  induction m with
  | nil => simpa [Table.insert] using hv
  | cons e rest ih =>
    obtain ⟨i, u⟩ := e
    simp only [List.all_cons, Bool.and_eq_true] at h
    by_cases h1 : k < i
    · simp only [Table.insert, h1, ↓reduceIte, List.all_cons, Bool.and_eq_true]; exact ⟨hv, h.1, h.2⟩
    · by_cases h2 : k = i
      · simp only [Table.insert, h2, Nat.lt_irrefl, ↓reduceIte, List.all_cons, Bool.and_eq_true]
        exact ⟨by rw [← h2]; exact hv, h.2⟩
      · simp only [Table.insert, h1, h2, ↓reduceIte, List.all_cons, Bool.and_eq_true]; exact ⟨h.1, ih h.2⟩

/-- Setting an entry keeps the canonical form. -/
theorem Table.wf_set [DecidableEq α] (d : α) (m : PMap α) (k : Nat) (v : α) (h : Table.wf d m = true) :
    Table.wf d (Table.set d m k v) = true := by
  simp only [Table.wf, Bool.and_eq_true] at h ⊢
  by_cases hv : v = d
  · simp only [Table.set, hv, ↓reduceIte]
    refine ⟨Table.risingFrom_erase m k h.1, ?_⟩
    rw [Table.erase, List.all_eq_true]
    intro e he
    exact List.all_eq_true.mp h.2 e (List.mem_filter.mp he).1
  · simp only [Table.set, hv, ↓reduceIte]
    exact ⟨Table.risingFrom_insert m k v (Nat.zero_le _) h.1, Table.all_insert _ m k v (by simp [hv]) h.2⟩

/-- Leaving entries out keeps the canonical form. -/
theorem Table.wf_filter [DecidableEq α] (d : α) (p : Nat × α → Bool) (m : PMap α) (h : Table.wf d m = true) :
    Table.wf d (m.filter p) = true := by
  simp only [Table.wf, Bool.and_eq_true] at h ⊢
  refine ⟨Table.risingFrom_filter p m h.1, ?_⟩
  rw [List.all_eq_true]
  intro e he
  exact List.all_eq_true.mp h.2 e (List.mem_filter.mp he).1

end Sys2Proof.Machine
end

