-- ==== Sys2Proof/Laws/Memory.lean ====
section
/-! SUPPORT. Byte memory: a read after a write, writes that leave other bytes alone, and the canonical form that every
operation of memory keeps. -/

namespace Sys2Proof.Machine

/-! ### Reading back -/

theorem Memory.readByte_writeByte (m : List Host.Cell) (k : Nat) (v : Byte) (j : Nat) :
    Memory.readByte (Memory.writeByte m k v) j = if k = j then v else Memory.readByte m j := by
  simp [Memory.readByte, Memory.writeByte, Table.get_set]

theorem Memory.readByte_writeByte_same (m : List Host.Cell) (k : Nat) (v : Byte) :
    Memory.readByte (Memory.writeByte m k v) k = v := by simp [Memory.readByte_writeByte]

/-- Bytes stored from a key on are read back there, and no other byte changes. -/
theorem Memory.readByte_writeBytes (l : List Byte) : ∀ (m : List Host.Cell) (k j : Nat),
    Memory.readByte (Memory.writeBytes m k l) j
      = if k ≤ j ∧ j < k + l.length then l.getD (j - k) 0 else Memory.readByte m j := by
  induction l with
  | nil => intro m k j; simp only [Memory.writeBytes, List.length_nil]; rw [if_neg (by omega)]
  | cons v rest ih =>
    intro m k j
    rw [Memory.writeBytes, ih, Memory.readByte_writeByte]
    by_cases h : k = j
    · subst h
      rw [if_neg (by omega), if_pos rfl, if_pos (by simp)]
      simp
    · by_cases h2 : k ≤ j ∧ j < k + (v :: rest).length
      · have : j - k = (j - (k + 1)) + 1 := by omega
        rw [if_pos h2, if_pos ⟨by omega, by have := h2.2; simp at this; omega⟩, this]
        rfl
      · rw [if_neg h2, if_neg (fun hh => h2 ⟨by omega, by simp; omega⟩), if_neg h]

/-- A number stored at a key leaves the bytes outside it alone. -/
theorem Memory.readByte_writeNat_other : ∀ (n : Nat) (m : List Host.Cell) (k v j : Nat), (j < k ∨ k + n ≤ j) →
    Memory.readByte (Memory.writeNat m k v n) j = Memory.readByte m j := by
  intro n
  induction n with
  | zero => intros; rfl
  | succ n ih =>
    intro m k v j h
    rw [Memory.writeNat, ih _ _ _ _ (by omega), Memory.readByte_writeByte, if_neg (by omega)]

/-! ### The canonical form -/

theorem Memory.wf_writeByte (m : List Host.Cell) (k : Nat) (v : Byte) (h : Memory.wf m = true) :
    Memory.wf (Memory.writeByte m k v) = true := Table.wf_set Memory.blank m k v h

theorem Memory.wf_writeBytes (l : List Byte) : ∀ (m : List Host.Cell) (k : Nat), Memory.wf m = true →
    Memory.wf (Memory.writeBytes m k l) = true := by
  induction l with
  | nil => intro m k h; exact h
  | cons v rest ih => intro m k h; exact ih _ _ (Memory.wf_writeByte m k v h)

theorem Memory.wf_writeNat : ∀ (n : Nat) (m : List Host.Cell) (k v : Nat), Memory.wf m = true →
    Memory.wf (Memory.writeNat m k v n) = true := by
  intro n
  induction n with
  | zero => intro m k v h; exact h
  | succ n ih => intro m k v h; exact ih _ _ _ (Memory.wf_writeByte m k _ h)

theorem Memory.wf_filter (p : Host.Cell → Bool) (m : List Host.Cell) (h : Memory.wf m = true) :
    Memory.wf (m.filter p) = true := Table.wf_filter Memory.blank p m h

/-- Memory right after reset. -/
theorem State.reset_mem_wf : Memory.wf State.reset.mem = true := rfl

end Sys2Proof.Machine
end

