-- ==== Sys2Proof/Laws/State.lean ====
section
/-! SUPPORT. The records of the state: what each reads as after it is replaced, and the fields that each replacement leaves
alone, so that no proof unfolds a record update. -/

namespace Sys2Proof.Machine

/-! ### A record read after it is replaced -/

@[simp] theorem State.ctx_setCtx_same (s : State) (c : CoreId) (x : Ctx) : (s.setCtx c x).ctx c = x := by
  cases c <;> simp [State.setCtx, State.ctx]

theorem State.ctx_setCtx_other (s : State) (c d : CoreId) (x : Ctx) (h : d ≠ c) : (s.setCtx c x).ctx d = s.ctx d := by
  cases c <;> cases d <;> simp_all [State.setCtx, State.ctx, Table.get_set]
  all_goals intro hh; exact absurd hh.symm h

@[simp] theorem State.dctx_setDctx_same (s : State) (d : DieId) (x : DieCtx) : (s.setDctx d x).dctx d = x := by
  simp [State.setDctx, State.dctx]

theorem State.dctx_setDctx_other (s : State) (d e : DieId) (x : DieCtx) (h : e.key ≠ d.key) :
    (s.setDctx d x).dctx e = s.dctx e := by
  simp only [State.setDctx, State.dctx, Table.get_set]; rw [if_neg (fun hh => h hh.symm)]

@[simp] theorem State.ctx_setDctx (s : State) (d : DieId) (x : DieCtx) (c : CoreId) : (s.setDctx d x).ctx c = s.ctx c := by
  cases c <;> rfl
@[simp] theorem State.dctx_setCtx (s : State) (c : CoreId) (x : Ctx) (d : DieId) : (s.setCtx c x).dctx d = s.dctx d := by
  cases c <;> rfl

theorem State.die_setDie (s : State) (d e : Nat) (x : Die) : (s.setDie d x).die e = if d = e then x else s.die e := by
  simp [State.setDie, State.die, Table.get_set]

theorem State.launch_setLaunch (s : State) (n m : Nat) (l : Launch) :
    (s.setLaunch n l).launch m = if n = m then l else s.launch m := by
  simp [State.setLaunch, State.launch, Table.get_insert]

theorem State.queue_setQueue (s : State) (q r : Nat) (x : Queue) :
    (s.setQueue q x).queue r = if q = r then x else s.queue r := by
  simp [State.setQueue, State.queue, Table.get_set]

@[simp] theorem State.coreRec_setCoreRec_same (s : State) (c : CoreId) (x : Core) : (s.setCoreRec c x).coreRec c = x := by
  cases c <;> simp [State.setCoreRec, State.coreRec]

@[simp] theorem State.task_setTask_same (s : State) (u : TaskId) (x : Task) : (s.setTask u x).task u = x := by
  simp [State.setTask, State.task, State.updLaunch, State.launch_setLaunch, Table.get_insert]

/-! ### Fields that a replacement leaves alone -/

@[simp] theorem State.setCtx_seqCore (s : State) (c : CoreId) (x : Ctx) : (s.setCtx c x).seqCore = s.seqCore := by cases c <;> rfl
@[simp] theorem State.setCtx_celCore (s : State) (c : CoreId) (x : Ctx) : (s.setCtx c x).celCore = s.celCore := by cases c <;> rfl
@[simp] theorem State.setCtx_dies (s : State) (c : CoreId) (x : Ctx) : (s.setCtx c x).dies = s.dies := by cases c <;> rfl
@[simp] theorem State.setCtx_dieCtx (s : State) (c : CoreId) (x : Ctx) : (s.setCtx c x).dieCtx = s.dieCtx := by cases c <;> rfl
@[simp] theorem State.setCtx_mem (s : State) (c : CoreId) (x : Ctx) : (s.setCtx c x).mem = s.mem := by cases c <;> rfl
@[simp] theorem State.setCtx_l1Seq (s : State) (c : CoreId) (x : Ctx) : (s.setCtx c x).l1Seq = s.l1Seq := by cases c <;> rfl
@[simp] theorem State.setCtx_l1Cel (s : State) (c : CoreId) (x : Ctx) : (s.setCtx c x).l1Cel = s.l1Cel := by cases c <;> rfl
@[simp] theorem State.setCtx_l2 (s : State) (c : CoreId) (x : Ctx) : (s.setCtx c x).l2 = s.l2 := by cases c <;> rfl
@[simp] theorem State.setCtx_ecc (s : State) (c : CoreId) (x : Ctx) : (s.setCtx c x).ecc = s.ecc := by cases c <;> rfl
@[simp] theorem State.setCtx_rewrites (s : State) (c : CoreId) (x : Ctx) : (s.setCtx c x).rewrites = s.rewrites := by cases c <;> rfl
@[simp] theorem State.setCtx_flaws (s : State) (c : CoreId) (x : Ctx) : (s.setCtx c x).flaws = s.flaws := by cases c <;> rfl
@[simp] theorem State.setCtx_roots (s : State) (c : CoreId) (x : Ctx) : (s.setCtx c x).roots = s.roots := by cases c <;> rfl
@[simp] theorem State.setCtx_tlb (s : State) (c : CoreId) (x : Ctx) : (s.setCtx c x).tlb = s.tlb := by cases c <;> rfl
@[simp] theorem State.setCtx_slots (s : State) (c : CoreId) (x : Ctx) : (s.setCtx c x).slots = s.slots := by cases c <;> rfl
@[simp] theorem State.setCtx_pool (s : State) (c : CoreId) (x : Ctx) : (s.setCtx c x).pool = s.pool := by cases c <;> rfl
@[simp] theorem State.setCtx_framesOut (s : State) (c : CoreId) (x : Ctx) : (s.setCtx c x).framesOut = s.framesOut := by cases c <;> rfl
@[simp] theorem State.setCtx_pagesOut (s : State) (c : CoreId) (x : Ctx) : (s.setCtx c x).pagesOut = s.pagesOut := by cases c <;> rfl
@[simp] theorem State.setCtx_pagesFree (s : State) (c : CoreId) (x : Ctx) : (s.setCtx c x).pagesFree = s.pagesFree := by cases c <;> rfl
@[simp] theorem State.setCtx_limbo (s : State) (c : CoreId) (x : Ctx) : (s.setCtx c x).limbo = s.limbo := by cases c <;> rfl
@[simp] theorem State.setCtx_code (s : State) (c : CoreId) (x : Ctx) : (s.setCtx c x).code = s.code := by cases c <;> rfl
@[simp] theorem State.setCtx_codeVer (s : State) (c : CoreId) (x : Ctx) : (s.setCtx c x).codeVer = s.codeVer := by cases c <;> rfl
@[simp] theorem State.setCtx_objNext (s : State) (c : CoreId) (x : Ctx) : (s.setCtx c x).objNext = s.objNext := by cases c <;> rfl
@[simp] theorem State.setCtx_objs (s : State) (c : CoreId) (x : Ctx) : (s.setCtx c x).objs = s.objs := by cases c <;> rfl
@[simp] theorem State.setCtx_funcs (s : State) (c : CoreId) (x : Ctx) : (s.setCtx c x).funcs = s.funcs := by cases c <;> rfl
@[simp] theorem State.setCtx_xlations (s : State) (c : CoreId) (x : Ctx) : (s.setCtx c x).xlations = s.xlations := by cases c <;> rfl
@[simp] theorem State.setCtx_rolian (s : State) (c : CoreId) (x : Ctx) : (s.setCtx c x).rolian = s.rolian := by cases c <;> rfl
@[simp] theorem State.setCtx_queues (s : State) (c : CoreId) (x : Ctx) : (s.setCtx c x).queues = s.queues := by cases c <;> rfl
@[simp] theorem State.setCtx_admitQ (s : State) (c : CoreId) (x : Ctx) : (s.setCtx c x).admitQ = s.admitQ := by cases c <;> rfl
@[simp] theorem State.setCtx_events (s : State) (c : CoreId) (x : Ctx) : (s.setCtx c x).events = s.events := by cases c <;> rfl
@[simp] theorem State.setCtx_pend (s : State) (c : CoreId) (x : Ctx) : (s.setCtx c x).pend = s.pend := by cases c <;> rfl
@[simp] theorem State.setCtx_launches (s : State) (c : CoreId) (x : Ctx) : (s.setCtx c x).launches = s.launches := by cases c <;> rfl
@[simp] theorem State.setCtx_nextLid (s : State) (c : CoreId) (x : Ctx) : (s.setCtx c x).nextLid = s.nextLid := by cases c <;> rfl
@[simp] theorem State.setCtx_batch (s : State) (c : CoreId) (x : Ctx) : (s.setCtx c x).batch = s.batch := by cases c <;> rfl
@[simp] theorem State.setCtx_rejected (s : State) (c : CoreId) (x : Ctx) : (s.setCtx c x).rejected = s.rejected := by cases c <;> rfl
@[simp] theorem State.setCtx_bindQ (s : State) (c : CoreId) (x : Ctx) : (s.setCtx c x).bindQ = s.bindQ := by cases c <;> rfl
@[simp] theorem State.setCtx_dieSeen (s : State) (c : CoreId) (x : Ctx) : (s.setCtx c x).dieSeen = s.dieSeen := by cases c <;> rfl
@[simp] theorem State.setCtx_rbLimit (s : State) (c : CoreId) (x : Ctx) : (s.setCtx c x).rbLimit = s.rbLimit := by cases c <;> rfl
@[simp] theorem State.setCtx_scrubInt (s : State) (c : CoreId) (x : Ctx) : (s.setCtx c x).scrubInt = s.scrubInt := by cases c <;> rfl
@[simp] theorem State.setCtx_scrubPos (s : State) (c : CoreId) (x : Ctx) : (s.setCtx c x).scrubPos = s.scrubPos := by cases c <;> rfl
@[simp] theorem State.setCtx_scrubAt (s : State) (c : CoreId) (x : Ctx) : (s.setCtx c x).scrubAt = s.scrubAt := by cases c <;> rfl
@[simp] theorem State.setCtx_refresh (s : State) (c : CoreId) (x : Ctx) : (s.setCtx c x).refresh = s.refresh := by cases c <;> rfl
@[simp] theorem State.setCtx_msix (s : State) (c : CoreId) (x : Ctx) : (s.setCtx c x).msix = s.msix := by cases c <;> rfl
@[simp] theorem State.setCtx_allot (s : State) (c : CoreId) (x : Ctx) : (s.setCtx c x).allot = s.allot := by cases c <;> rfl
@[simp] theorem State.setCtx_vfs (s : State) (c : CoreId) (x : Ctx) : (s.setCtx c x).vfs = s.vfs := by cases c <;> rfl
@[simp] theorem State.setCtx_hostErr (s : State) (c : CoreId) (x : Ctx) : (s.setCtx c x).hostErr = s.hostErr := by cases c <;> rfl
@[simp] theorem State.setCtx_hostErrA (s : State) (c : CoreId) (x : Ctx) : (s.setCtx c x).hostErrA = s.hostErrA := by cases c <;> rfl
@[simp] theorem State.setCtx_hostBad (s : State) (c : CoreId) (x : Ctx) : (s.setCtx c x).hostBad = s.hostBad := by cases c <;> rfl
@[simp] theorem State.setCtx_mailbox (s : State) (c : CoreId) (x : Ctx) : (s.setCtx c x).mailbox = s.mailbox := by cases c <;> rfl
@[simp] theorem State.setCtx_loads (s : State) (c : CoreId) (x : Ctx) : (s.setCtx c x).loads = s.loads := by cases c <;> rfl
@[simp] theorem State.setCtx_bootErr (s : State) (c : CoreId) (x : Ctx) : (s.setCtx c x).bootErr = s.bootErr := by cases c <;> rfl
@[simp] theorem State.setCtx_bootStage (s : State) (c : CoreId) (x : Ctx) : (s.setCtx c x).bootStage = s.bootStage := by cases c <;> rfl
@[simp] theorem State.setCtx_secVer (s : State) (c : CoreId) (x : Ctx) : (s.setCtx c x).secVer = s.secVer := by cases c <;> rfl
@[simp] theorem State.setCtx_timeCnt (s : State) (c : CoreId) (x : Ctx) : (s.setCtx c x).timeCnt = s.timeCnt := by cases c <;> rfl
@[simp] theorem State.setCtx_timeLost (s : State) (c : CoreId) (x : Ctx) : (s.setCtx c x).timeLost = s.timeLost := by cases c <;> rfl
@[simp] theorem State.setCtx_podValid (s : State) (c : CoreId) (x : Ctx) : (s.setCtx c x).podValid = s.podValid := by cases c <;> rfl
@[simp] theorem State.setCtx_podBound (s : State) (c : CoreId) (x : Ctx) : (s.setCtx c x).podBound = s.podBound := by cases c <;> rfl
@[simp] theorem State.setCtx_podHops (s : State) (c : CoreId) (x : Ctx) : (s.setCtx c x).podHops = s.podHops := by cases c <;> rfl
@[simp] theorem State.setCtx_pkgBound (s : State) (c : CoreId) (x : Ctx) : (s.setCtx c x).pkgBound = s.pkgBound := by cases c <;> rfl
@[simp] theorem State.setCtx_copies (s : State) (c : CoreId) (x : Ctx) : (s.setCtx c x).copies = s.copies := by cases c <;> rfl
@[simp] theorem State.setCtx_pod (s : State) (c : CoreId) (x : Ctx) : (s.setCtx c x).pod = s.pod := by cases c <;> rfl
@[simp] theorem State.setCtx_podMaster (s : State) (c : CoreId) (x : Ctx) : (s.setCtx c x).podMaster = s.podMaster := by cases c <;> rfl
@[simp] theorem State.setCtx_peers (s : State) (c : CoreId) (x : Ctx) : (s.setCtx c x).peers = s.peers := by cases c <;> rfl
@[simp] theorem State.setCtx_routes (s : State) (c : CoreId) (x : Ctx) : (s.setCtx c x).routes = s.routes := by cases c <;> rfl
@[simp] theorem State.setCtx_windows (s : State) (c : CoreId) (x : Ctx) : (s.setCtx c x).windows = s.windows := by cases c <;> rfl
@[simp] theorem State.setCtx_ports (s : State) (c : CoreId) (x : Ctx) : (s.setCtx c x).ports = s.ports := by cases c <;> rfl
@[simp] theorem State.setCtx_flitRetries (s : State) (c : CoreId) (x : Ctx) : (s.setCtx c x).flitRetries = s.flitRetries := by cases c <;> rfl
@[simp] theorem State.setCtx_errLog (s : State) (c : CoreId) (x : Ctx) : (s.setCtx c x).errLog = s.errLog := by cases c <;> rfl
@[simp] theorem State.setCtx_errCount (s : State) (c : CoreId) (x : Ctx) : (s.setCtx c x).errCount = s.errCount := by cases c <;> rfl
@[simp] theorem State.setCtx_health (s : State) (c : CoreId) (x : Ctx) : (s.setCtx c x).health = s.health := by cases c <;> rfl
@[simp] theorem State.setCtx_spares (s : State) (c : CoreId) (x : Ctx) : (s.setCtx c x).spares = s.spares := by cases c <;> rfl
@[simp] theorem State.setCtx_repairs (s : State) (c : CoreId) (x : Ctx) : (s.setCtx c x).repairs = s.repairs := by cases c <;> rfl
@[simp] theorem State.setCtx_diesOn (s : State) (c : CoreId) (x : Ctx) : (s.setCtx c x).diesOn = s.diesOn := by cases c <;> rfl
@[simp] theorem State.setCtx_clock (s : State) (c : CoreId) (x : Ctx) : (s.setCtx c x).clock = s.clock := by cases c <;> rfl
@[simp] theorem State.setCtx_layers (s : State) (c : CoreId) (x : Ctx) : (s.setCtx c x).layers = s.layers := by cases c <;> rfl
@[simp] theorem State.setCtx_agenda (s : State) (c : CoreId) (x : Ctx) : (s.setCtx c x).agenda = s.agenda := by cases c <;> rfl
@[simp] theorem State.setCtx_core (s : State) (c : CoreId) (x : Ctx) : (s.setCtx c x).core = s.core := by cases c <;> rfl
@[simp] theorem State.setCtx_onDie (s : State) (c : CoreId) (x : Ctx) : (s.setCtx c x).onDie = s.onDie := by cases c <;> rfl
@[simp] theorem State.setCtx_slot (s : State) (c : CoreId) (x : Ctx) : (s.setCtx c x).slot = s.slot := by cases c <;> rfl
@[simp] theorem State.setCtx_phase (s : State) (c : CoreId) (x : Ctx) : (s.setCtx c x).phase = s.phase := by cases c <;> rfl
@[simp] theorem State.setCtx_verdict (s : State) (c : CoreId) (x : Ctx) : (s.setCtx c x).verdict = s.verdict := by cases c <;> rfl
@[simp] theorem State.setCtx_failSlot (s : State) (c : CoreId) (x : Ctx) : (s.setCtx c x).failSlot = s.failSlot := by cases c <;> rfl
@[simp] theorem State.setCtx_emptied (s : State) (c : CoreId) (x : Ctx) : (s.setCtx c x).emptied = s.emptied := by cases c <;> rfl
@[simp] theorem State.setCtx_work (s : State) (c : CoreId) (x : Ctx) : (s.setCtx c x).work = s.work := by cases c <;> rfl
@[simp] theorem State.setCtx_free (s : State) (c : CoreId) (x : Ctx) : (s.setCtx c x).free = s.free := by cases c <;> rfl
@[simp] theorem State.setCtx_pace (s : State) (c : CoreId) (x : Ctx) : (s.setCtx c x).pace = s.pace := by cases c <;> rfl

@[simp] theorem State.setCoreRec_seq (s : State) (c : CoreId) (x : Core) : (s.setCoreRec c x).seq = s.seq := by cases c <;> rfl
@[simp] theorem State.setCoreRec_cel (s : State) (c : CoreId) (x : Core) : (s.setCoreRec c x).cel = s.cel := by cases c <;> rfl
@[simp] theorem State.setCoreRec_dies (s : State) (c : CoreId) (x : Core) : (s.setCoreRec c x).dies = s.dies := by cases c <;> rfl
@[simp] theorem State.setCoreRec_dieCtx (s : State) (c : CoreId) (x : Core) : (s.setCoreRec c x).dieCtx = s.dieCtx := by cases c <;> rfl
@[simp] theorem State.setCoreRec_mem (s : State) (c : CoreId) (x : Core) : (s.setCoreRec c x).mem = s.mem := by cases c <;> rfl
@[simp] theorem State.setCoreRec_l1Seq (s : State) (c : CoreId) (x : Core) : (s.setCoreRec c x).l1Seq = s.l1Seq := by cases c <;> rfl
@[simp] theorem State.setCoreRec_l1Cel (s : State) (c : CoreId) (x : Core) : (s.setCoreRec c x).l1Cel = s.l1Cel := by cases c <;> rfl
@[simp] theorem State.setCoreRec_l2 (s : State) (c : CoreId) (x : Core) : (s.setCoreRec c x).l2 = s.l2 := by cases c <;> rfl
@[simp] theorem State.setCoreRec_ecc (s : State) (c : CoreId) (x : Core) : (s.setCoreRec c x).ecc = s.ecc := by cases c <;> rfl
@[simp] theorem State.setCoreRec_rewrites (s : State) (c : CoreId) (x : Core) : (s.setCoreRec c x).rewrites = s.rewrites := by cases c <;> rfl
@[simp] theorem State.setCoreRec_flaws (s : State) (c : CoreId) (x : Core) : (s.setCoreRec c x).flaws = s.flaws := by cases c <;> rfl
@[simp] theorem State.setCoreRec_roots (s : State) (c : CoreId) (x : Core) : (s.setCoreRec c x).roots = s.roots := by cases c <;> rfl
@[simp] theorem State.setCoreRec_tlb (s : State) (c : CoreId) (x : Core) : (s.setCoreRec c x).tlb = s.tlb := by cases c <;> rfl
@[simp] theorem State.setCoreRec_slots (s : State) (c : CoreId) (x : Core) : (s.setCoreRec c x).slots = s.slots := by cases c <;> rfl
@[simp] theorem State.setCoreRec_pool (s : State) (c : CoreId) (x : Core) : (s.setCoreRec c x).pool = s.pool := by cases c <;> rfl
@[simp] theorem State.setCoreRec_framesOut (s : State) (c : CoreId) (x : Core) : (s.setCoreRec c x).framesOut = s.framesOut := by cases c <;> rfl
@[simp] theorem State.setCoreRec_pagesOut (s : State) (c : CoreId) (x : Core) : (s.setCoreRec c x).pagesOut = s.pagesOut := by cases c <;> rfl
@[simp] theorem State.setCoreRec_pagesFree (s : State) (c : CoreId) (x : Core) : (s.setCoreRec c x).pagesFree = s.pagesFree := by cases c <;> rfl
@[simp] theorem State.setCoreRec_limbo (s : State) (c : CoreId) (x : Core) : (s.setCoreRec c x).limbo = s.limbo := by cases c <;> rfl
@[simp] theorem State.setCoreRec_code (s : State) (c : CoreId) (x : Core) : (s.setCoreRec c x).code = s.code := by cases c <;> rfl
@[simp] theorem State.setCoreRec_codeVer (s : State) (c : CoreId) (x : Core) : (s.setCoreRec c x).codeVer = s.codeVer := by cases c <;> rfl
@[simp] theorem State.setCoreRec_objNext (s : State) (c : CoreId) (x : Core) : (s.setCoreRec c x).objNext = s.objNext := by cases c <;> rfl
@[simp] theorem State.setCoreRec_objs (s : State) (c : CoreId) (x : Core) : (s.setCoreRec c x).objs = s.objs := by cases c <;> rfl
@[simp] theorem State.setCoreRec_funcs (s : State) (c : CoreId) (x : Core) : (s.setCoreRec c x).funcs = s.funcs := by cases c <;> rfl
@[simp] theorem State.setCoreRec_xlations (s : State) (c : CoreId) (x : Core) : (s.setCoreRec c x).xlations = s.xlations := by cases c <;> rfl
@[simp] theorem State.setCoreRec_rolian (s : State) (c : CoreId) (x : Core) : (s.setCoreRec c x).rolian = s.rolian := by cases c <;> rfl
@[simp] theorem State.setCoreRec_queues (s : State) (c : CoreId) (x : Core) : (s.setCoreRec c x).queues = s.queues := by cases c <;> rfl
@[simp] theorem State.setCoreRec_admitQ (s : State) (c : CoreId) (x : Core) : (s.setCoreRec c x).admitQ = s.admitQ := by cases c <;> rfl
@[simp] theorem State.setCoreRec_events (s : State) (c : CoreId) (x : Core) : (s.setCoreRec c x).events = s.events := by cases c <;> rfl
@[simp] theorem State.setCoreRec_pend (s : State) (c : CoreId) (x : Core) : (s.setCoreRec c x).pend = s.pend := by cases c <;> rfl
@[simp] theorem State.setCoreRec_launches (s : State) (c : CoreId) (x : Core) : (s.setCoreRec c x).launches = s.launches := by cases c <;> rfl
@[simp] theorem State.setCoreRec_nextLid (s : State) (c : CoreId) (x : Core) : (s.setCoreRec c x).nextLid = s.nextLid := by cases c <;> rfl
@[simp] theorem State.setCoreRec_batch (s : State) (c : CoreId) (x : Core) : (s.setCoreRec c x).batch = s.batch := by cases c <;> rfl
@[simp] theorem State.setCoreRec_rejected (s : State) (c : CoreId) (x : Core) : (s.setCoreRec c x).rejected = s.rejected := by cases c <;> rfl
@[simp] theorem State.setCoreRec_bindQ (s : State) (c : CoreId) (x : Core) : (s.setCoreRec c x).bindQ = s.bindQ := by cases c <;> rfl
@[simp] theorem State.setCoreRec_dieSeen (s : State) (c : CoreId) (x : Core) : (s.setCoreRec c x).dieSeen = s.dieSeen := by cases c <;> rfl
@[simp] theorem State.setCoreRec_rbLimit (s : State) (c : CoreId) (x : Core) : (s.setCoreRec c x).rbLimit = s.rbLimit := by cases c <;> rfl
@[simp] theorem State.setCoreRec_scrubInt (s : State) (c : CoreId) (x : Core) : (s.setCoreRec c x).scrubInt = s.scrubInt := by cases c <;> rfl
@[simp] theorem State.setCoreRec_scrubPos (s : State) (c : CoreId) (x : Core) : (s.setCoreRec c x).scrubPos = s.scrubPos := by cases c <;> rfl
@[simp] theorem State.setCoreRec_scrubAt (s : State) (c : CoreId) (x : Core) : (s.setCoreRec c x).scrubAt = s.scrubAt := by cases c <;> rfl
@[simp] theorem State.setCoreRec_refresh (s : State) (c : CoreId) (x : Core) : (s.setCoreRec c x).refresh = s.refresh := by cases c <;> rfl
@[simp] theorem State.setCoreRec_msix (s : State) (c : CoreId) (x : Core) : (s.setCoreRec c x).msix = s.msix := by cases c <;> rfl
@[simp] theorem State.setCoreRec_allot (s : State) (c : CoreId) (x : Core) : (s.setCoreRec c x).allot = s.allot := by cases c <;> rfl
@[simp] theorem State.setCoreRec_vfs (s : State) (c : CoreId) (x : Core) : (s.setCoreRec c x).vfs = s.vfs := by cases c <;> rfl
@[simp] theorem State.setCoreRec_hostErr (s : State) (c : CoreId) (x : Core) : (s.setCoreRec c x).hostErr = s.hostErr := by cases c <;> rfl
@[simp] theorem State.setCoreRec_hostErrA (s : State) (c : CoreId) (x : Core) : (s.setCoreRec c x).hostErrA = s.hostErrA := by cases c <;> rfl
@[simp] theorem State.setCoreRec_hostBad (s : State) (c : CoreId) (x : Core) : (s.setCoreRec c x).hostBad = s.hostBad := by cases c <;> rfl
@[simp] theorem State.setCoreRec_mailbox (s : State) (c : CoreId) (x : Core) : (s.setCoreRec c x).mailbox = s.mailbox := by cases c <;> rfl
@[simp] theorem State.setCoreRec_loads (s : State) (c : CoreId) (x : Core) : (s.setCoreRec c x).loads = s.loads := by cases c <;> rfl
@[simp] theorem State.setCoreRec_bootErr (s : State) (c : CoreId) (x : Core) : (s.setCoreRec c x).bootErr = s.bootErr := by cases c <;> rfl
@[simp] theorem State.setCoreRec_bootStage (s : State) (c : CoreId) (x : Core) : (s.setCoreRec c x).bootStage = s.bootStage := by cases c <;> rfl
@[simp] theorem State.setCoreRec_secVer (s : State) (c : CoreId) (x : Core) : (s.setCoreRec c x).secVer = s.secVer := by cases c <;> rfl
@[simp] theorem State.setCoreRec_timeCnt (s : State) (c : CoreId) (x : Core) : (s.setCoreRec c x).timeCnt = s.timeCnt := by cases c <;> rfl
@[simp] theorem State.setCoreRec_timeLost (s : State) (c : CoreId) (x : Core) : (s.setCoreRec c x).timeLost = s.timeLost := by cases c <;> rfl
@[simp] theorem State.setCoreRec_podValid (s : State) (c : CoreId) (x : Core) : (s.setCoreRec c x).podValid = s.podValid := by cases c <;> rfl
@[simp] theorem State.setCoreRec_podBound (s : State) (c : CoreId) (x : Core) : (s.setCoreRec c x).podBound = s.podBound := by cases c <;> rfl
@[simp] theorem State.setCoreRec_podHops (s : State) (c : CoreId) (x : Core) : (s.setCoreRec c x).podHops = s.podHops := by cases c <;> rfl
@[simp] theorem State.setCoreRec_pkgBound (s : State) (c : CoreId) (x : Core) : (s.setCoreRec c x).pkgBound = s.pkgBound := by cases c <;> rfl
@[simp] theorem State.setCoreRec_copies (s : State) (c : CoreId) (x : Core) : (s.setCoreRec c x).copies = s.copies := by cases c <;> rfl
@[simp] theorem State.setCoreRec_pod (s : State) (c : CoreId) (x : Core) : (s.setCoreRec c x).pod = s.pod := by cases c <;> rfl
@[simp] theorem State.setCoreRec_podMaster (s : State) (c : CoreId) (x : Core) : (s.setCoreRec c x).podMaster = s.podMaster := by cases c <;> rfl
@[simp] theorem State.setCoreRec_peers (s : State) (c : CoreId) (x : Core) : (s.setCoreRec c x).peers = s.peers := by cases c <;> rfl
@[simp] theorem State.setCoreRec_routes (s : State) (c : CoreId) (x : Core) : (s.setCoreRec c x).routes = s.routes := by cases c <;> rfl
@[simp] theorem State.setCoreRec_windows (s : State) (c : CoreId) (x : Core) : (s.setCoreRec c x).windows = s.windows := by cases c <;> rfl
@[simp] theorem State.setCoreRec_ports (s : State) (c : CoreId) (x : Core) : (s.setCoreRec c x).ports = s.ports := by cases c <;> rfl
@[simp] theorem State.setCoreRec_flitRetries (s : State) (c : CoreId) (x : Core) : (s.setCoreRec c x).flitRetries = s.flitRetries := by cases c <;> rfl
@[simp] theorem State.setCoreRec_errLog (s : State) (c : CoreId) (x : Core) : (s.setCoreRec c x).errLog = s.errLog := by cases c <;> rfl
@[simp] theorem State.setCoreRec_errCount (s : State) (c : CoreId) (x : Core) : (s.setCoreRec c x).errCount = s.errCount := by cases c <;> rfl
@[simp] theorem State.setCoreRec_health (s : State) (c : CoreId) (x : Core) : (s.setCoreRec c x).health = s.health := by cases c <;> rfl
@[simp] theorem State.setCoreRec_spares (s : State) (c : CoreId) (x : Core) : (s.setCoreRec c x).spares = s.spares := by cases c <;> rfl
@[simp] theorem State.setCoreRec_repairs (s : State) (c : CoreId) (x : Core) : (s.setCoreRec c x).repairs = s.repairs := by cases c <;> rfl
@[simp] theorem State.setCoreRec_diesOn (s : State) (c : CoreId) (x : Core) : (s.setCoreRec c x).diesOn = s.diesOn := by cases c <;> rfl
@[simp] theorem State.setCoreRec_clock (s : State) (c : CoreId) (x : Core) : (s.setCoreRec c x).clock = s.clock := by cases c <;> rfl
@[simp] theorem State.setCoreRec_layers (s : State) (c : CoreId) (x : Core) : (s.setCoreRec c x).layers = s.layers := by cases c <;> rfl
@[simp] theorem State.setCoreRec_agenda (s : State) (c : CoreId) (x : Core) : (s.setCoreRec c x).agenda = s.agenda := by cases c <;> rfl
@[simp] theorem State.setCoreRec_core (s : State) (c : CoreId) (x : Core) : (s.setCoreRec c x).core = s.core := by cases c <;> rfl
@[simp] theorem State.setCoreRec_onDie (s : State) (c : CoreId) (x : Core) : (s.setCoreRec c x).onDie = s.onDie := by cases c <;> rfl
@[simp] theorem State.setCoreRec_slot (s : State) (c : CoreId) (x : Core) : (s.setCoreRec c x).slot = s.slot := by cases c <;> rfl
@[simp] theorem State.setCoreRec_phase (s : State) (c : CoreId) (x : Core) : (s.setCoreRec c x).phase = s.phase := by cases c <;> rfl
@[simp] theorem State.setCoreRec_verdict (s : State) (c : CoreId) (x : Core) : (s.setCoreRec c x).verdict = s.verdict := by cases c <;> rfl
@[simp] theorem State.setCoreRec_failSlot (s : State) (c : CoreId) (x : Core) : (s.setCoreRec c x).failSlot = s.failSlot := by cases c <;> rfl
@[simp] theorem State.setCoreRec_emptied (s : State) (c : CoreId) (x : Core) : (s.setCoreRec c x).emptied = s.emptied := by cases c <;> rfl
@[simp] theorem State.setCoreRec_work (s : State) (c : CoreId) (x : Core) : (s.setCoreRec c x).work = s.work := by cases c <;> rfl
@[simp] theorem State.setCoreRec_free (s : State) (c : CoreId) (x : Core) : (s.setCoreRec c x).free = s.free := by cases c <;> rfl
@[simp] theorem State.setCoreRec_pace (s : State) (c : CoreId) (x : Core) : (s.setCoreRec c x).pace = s.pace := by cases c <;> rfl

@[simp] theorem State.setDie_seq (s : State) (d : Nat) (x : Die) : (s.setDie d x).seq = s.seq := rfl
@[simp] theorem State.setDie_cel (s : State) (d : Nat) (x : Die) : (s.setDie d x).cel = s.cel := rfl
@[simp] theorem State.setDie_seqCore (s : State) (d : Nat) (x : Die) : (s.setDie d x).seqCore = s.seqCore := rfl
@[simp] theorem State.setDie_celCore (s : State) (d : Nat) (x : Die) : (s.setDie d x).celCore = s.celCore := rfl
@[simp] theorem State.setDie_dieCtx (s : State) (d : Nat) (x : Die) : (s.setDie d x).dieCtx = s.dieCtx := rfl
@[simp] theorem State.setDie_mem (s : State) (d : Nat) (x : Die) : (s.setDie d x).mem = s.mem := rfl
@[simp] theorem State.setDie_l1Seq (s : State) (d : Nat) (x : Die) : (s.setDie d x).l1Seq = s.l1Seq := rfl
@[simp] theorem State.setDie_l1Cel (s : State) (d : Nat) (x : Die) : (s.setDie d x).l1Cel = s.l1Cel := rfl
@[simp] theorem State.setDie_l2 (s : State) (d : Nat) (x : Die) : (s.setDie d x).l2 = s.l2 := rfl
@[simp] theorem State.setDie_ecc (s : State) (d : Nat) (x : Die) : (s.setDie d x).ecc = s.ecc := rfl
@[simp] theorem State.setDie_rewrites (s : State) (d : Nat) (x : Die) : (s.setDie d x).rewrites = s.rewrites := rfl
@[simp] theorem State.setDie_flaws (s : State) (d : Nat) (x : Die) : (s.setDie d x).flaws = s.flaws := rfl
@[simp] theorem State.setDie_roots (s : State) (d : Nat) (x : Die) : (s.setDie d x).roots = s.roots := rfl
@[simp] theorem State.setDie_tlb (s : State) (d : Nat) (x : Die) : (s.setDie d x).tlb = s.tlb := rfl
@[simp] theorem State.setDie_slots (s : State) (d : Nat) (x : Die) : (s.setDie d x).slots = s.slots := rfl
@[simp] theorem State.setDie_pool (s : State) (d : Nat) (x : Die) : (s.setDie d x).pool = s.pool := rfl
@[simp] theorem State.setDie_framesOut (s : State) (d : Nat) (x : Die) : (s.setDie d x).framesOut = s.framesOut := rfl
@[simp] theorem State.setDie_pagesOut (s : State) (d : Nat) (x : Die) : (s.setDie d x).pagesOut = s.pagesOut := rfl
@[simp] theorem State.setDie_pagesFree (s : State) (d : Nat) (x : Die) : (s.setDie d x).pagesFree = s.pagesFree := rfl
@[simp] theorem State.setDie_limbo (s : State) (d : Nat) (x : Die) : (s.setDie d x).limbo = s.limbo := rfl
@[simp] theorem State.setDie_code (s : State) (d : Nat) (x : Die) : (s.setDie d x).code = s.code := rfl
@[simp] theorem State.setDie_codeVer (s : State) (d : Nat) (x : Die) : (s.setDie d x).codeVer = s.codeVer := rfl
@[simp] theorem State.setDie_objNext (s : State) (d : Nat) (x : Die) : (s.setDie d x).objNext = s.objNext := rfl
@[simp] theorem State.setDie_objs (s : State) (d : Nat) (x : Die) : (s.setDie d x).objs = s.objs := rfl
@[simp] theorem State.setDie_funcs (s : State) (d : Nat) (x : Die) : (s.setDie d x).funcs = s.funcs := rfl
@[simp] theorem State.setDie_xlations (s : State) (d : Nat) (x : Die) : (s.setDie d x).xlations = s.xlations := rfl
@[simp] theorem State.setDie_rolian (s : State) (d : Nat) (x : Die) : (s.setDie d x).rolian = s.rolian := rfl
@[simp] theorem State.setDie_queues (s : State) (d : Nat) (x : Die) : (s.setDie d x).queues = s.queues := rfl
@[simp] theorem State.setDie_admitQ (s : State) (d : Nat) (x : Die) : (s.setDie d x).admitQ = s.admitQ := rfl
@[simp] theorem State.setDie_events (s : State) (d : Nat) (x : Die) : (s.setDie d x).events = s.events := rfl
@[simp] theorem State.setDie_pend (s : State) (d : Nat) (x : Die) : (s.setDie d x).pend = s.pend := rfl
@[simp] theorem State.setDie_launches (s : State) (d : Nat) (x : Die) : (s.setDie d x).launches = s.launches := rfl
@[simp] theorem State.setDie_nextLid (s : State) (d : Nat) (x : Die) : (s.setDie d x).nextLid = s.nextLid := rfl
@[simp] theorem State.setDie_batch (s : State) (d : Nat) (x : Die) : (s.setDie d x).batch = s.batch := rfl
@[simp] theorem State.setDie_rejected (s : State) (d : Nat) (x : Die) : (s.setDie d x).rejected = s.rejected := rfl
@[simp] theorem State.setDie_bindQ (s : State) (d : Nat) (x : Die) : (s.setDie d x).bindQ = s.bindQ := rfl
@[simp] theorem State.setDie_dieSeen (s : State) (d : Nat) (x : Die) : (s.setDie d x).dieSeen = s.dieSeen := rfl
@[simp] theorem State.setDie_rbLimit (s : State) (d : Nat) (x : Die) : (s.setDie d x).rbLimit = s.rbLimit := rfl
@[simp] theorem State.setDie_scrubInt (s : State) (d : Nat) (x : Die) : (s.setDie d x).scrubInt = s.scrubInt := rfl
@[simp] theorem State.setDie_scrubPos (s : State) (d : Nat) (x : Die) : (s.setDie d x).scrubPos = s.scrubPos := rfl
@[simp] theorem State.setDie_scrubAt (s : State) (d : Nat) (x : Die) : (s.setDie d x).scrubAt = s.scrubAt := rfl
@[simp] theorem State.setDie_refresh (s : State) (d : Nat) (x : Die) : (s.setDie d x).refresh = s.refresh := rfl
@[simp] theorem State.setDie_msix (s : State) (d : Nat) (x : Die) : (s.setDie d x).msix = s.msix := rfl
@[simp] theorem State.setDie_allot (s : State) (d : Nat) (x : Die) : (s.setDie d x).allot = s.allot := rfl
@[simp] theorem State.setDie_vfs (s : State) (d : Nat) (x : Die) : (s.setDie d x).vfs = s.vfs := rfl
@[simp] theorem State.setDie_hostErr (s : State) (d : Nat) (x : Die) : (s.setDie d x).hostErr = s.hostErr := rfl
@[simp] theorem State.setDie_hostErrA (s : State) (d : Nat) (x : Die) : (s.setDie d x).hostErrA = s.hostErrA := rfl
@[simp] theorem State.setDie_hostBad (s : State) (d : Nat) (x : Die) : (s.setDie d x).hostBad = s.hostBad := rfl
@[simp] theorem State.setDie_mailbox (s : State) (d : Nat) (x : Die) : (s.setDie d x).mailbox = s.mailbox := rfl
@[simp] theorem State.setDie_loads (s : State) (d : Nat) (x : Die) : (s.setDie d x).loads = s.loads := rfl
@[simp] theorem State.setDie_bootErr (s : State) (d : Nat) (x : Die) : (s.setDie d x).bootErr = s.bootErr := rfl
@[simp] theorem State.setDie_bootStage (s : State) (d : Nat) (x : Die) : (s.setDie d x).bootStage = s.bootStage := rfl
@[simp] theorem State.setDie_secVer (s : State) (d : Nat) (x : Die) : (s.setDie d x).secVer = s.secVer := rfl
@[simp] theorem State.setDie_timeCnt (s : State) (d : Nat) (x : Die) : (s.setDie d x).timeCnt = s.timeCnt := rfl
@[simp] theorem State.setDie_timeLost (s : State) (d : Nat) (x : Die) : (s.setDie d x).timeLost = s.timeLost := rfl
@[simp] theorem State.setDie_podValid (s : State) (d : Nat) (x : Die) : (s.setDie d x).podValid = s.podValid := rfl
@[simp] theorem State.setDie_podBound (s : State) (d : Nat) (x : Die) : (s.setDie d x).podBound = s.podBound := rfl
@[simp] theorem State.setDie_podHops (s : State) (d : Nat) (x : Die) : (s.setDie d x).podHops = s.podHops := rfl
@[simp] theorem State.setDie_pkgBound (s : State) (d : Nat) (x : Die) : (s.setDie d x).pkgBound = s.pkgBound := rfl
@[simp] theorem State.setDie_copies (s : State) (d : Nat) (x : Die) : (s.setDie d x).copies = s.copies := rfl
@[simp] theorem State.setDie_pod (s : State) (d : Nat) (x : Die) : (s.setDie d x).pod = s.pod := rfl
@[simp] theorem State.setDie_podMaster (s : State) (d : Nat) (x : Die) : (s.setDie d x).podMaster = s.podMaster := rfl
@[simp] theorem State.setDie_peers (s : State) (d : Nat) (x : Die) : (s.setDie d x).peers = s.peers := rfl
@[simp] theorem State.setDie_routes (s : State) (d : Nat) (x : Die) : (s.setDie d x).routes = s.routes := rfl
@[simp] theorem State.setDie_windows (s : State) (d : Nat) (x : Die) : (s.setDie d x).windows = s.windows := rfl
@[simp] theorem State.setDie_ports (s : State) (d : Nat) (x : Die) : (s.setDie d x).ports = s.ports := rfl
@[simp] theorem State.setDie_flitRetries (s : State) (d : Nat) (x : Die) : (s.setDie d x).flitRetries = s.flitRetries := rfl
@[simp] theorem State.setDie_errLog (s : State) (d : Nat) (x : Die) : (s.setDie d x).errLog = s.errLog := rfl
@[simp] theorem State.setDie_errCount (s : State) (d : Nat) (x : Die) : (s.setDie d x).errCount = s.errCount := rfl
@[simp] theorem State.setDie_health (s : State) (d : Nat) (x : Die) : (s.setDie d x).health = s.health := rfl
@[simp] theorem State.setDie_spares (s : State) (d : Nat) (x : Die) : (s.setDie d x).spares = s.spares := rfl
@[simp] theorem State.setDie_repairs (s : State) (d : Nat) (x : Die) : (s.setDie d x).repairs = s.repairs := rfl
@[simp] theorem State.setDie_diesOn (s : State) (d : Nat) (x : Die) : (s.setDie d x).diesOn = s.diesOn := rfl
@[simp] theorem State.setDie_clock (s : State) (d : Nat) (x : Die) : (s.setDie d x).clock = s.clock := rfl
@[simp] theorem State.setDie_layers (s : State) (d : Nat) (x : Die) : (s.setDie d x).layers = s.layers := rfl
@[simp] theorem State.setDie_agenda (s : State) (d : Nat) (x : Die) : (s.setDie d x).agenda = s.agenda := rfl
@[simp] theorem State.setDie_core (s : State) (d : Nat) (x : Die) : (s.setDie d x).core = s.core := rfl
@[simp] theorem State.setDie_onDie (s : State) (d : Nat) (x : Die) : (s.setDie d x).onDie = s.onDie := rfl
@[simp] theorem State.setDie_slot (s : State) (d : Nat) (x : Die) : (s.setDie d x).slot = s.slot := rfl
@[simp] theorem State.setDie_phase (s : State) (d : Nat) (x : Die) : (s.setDie d x).phase = s.phase := rfl
@[simp] theorem State.setDie_verdict (s : State) (d : Nat) (x : Die) : (s.setDie d x).verdict = s.verdict := rfl
@[simp] theorem State.setDie_failSlot (s : State) (d : Nat) (x : Die) : (s.setDie d x).failSlot = s.failSlot := rfl
@[simp] theorem State.setDie_emptied (s : State) (d : Nat) (x : Die) : (s.setDie d x).emptied = s.emptied := rfl
@[simp] theorem State.setDie_work (s : State) (d : Nat) (x : Die) : (s.setDie d x).work = s.work := rfl
@[simp] theorem State.setDie_free (s : State) (d : Nat) (x : Die) : (s.setDie d x).free = s.free := rfl
@[simp] theorem State.setDie_pace (s : State) (d : Nat) (x : Die) : (s.setDie d x).pace = s.pace := rfl

@[simp] theorem State.setDctx_seq (s : State) (d : DieId) (x : DieCtx) : (s.setDctx d x).seq = s.seq := rfl
@[simp] theorem State.setDctx_cel (s : State) (d : DieId) (x : DieCtx) : (s.setDctx d x).cel = s.cel := rfl
@[simp] theorem State.setDctx_seqCore (s : State) (d : DieId) (x : DieCtx) : (s.setDctx d x).seqCore = s.seqCore := rfl
@[simp] theorem State.setDctx_celCore (s : State) (d : DieId) (x : DieCtx) : (s.setDctx d x).celCore = s.celCore := rfl
@[simp] theorem State.setDctx_dies (s : State) (d : DieId) (x : DieCtx) : (s.setDctx d x).dies = s.dies := rfl
@[simp] theorem State.setDctx_mem (s : State) (d : DieId) (x : DieCtx) : (s.setDctx d x).mem = s.mem := rfl
@[simp] theorem State.setDctx_l1Seq (s : State) (d : DieId) (x : DieCtx) : (s.setDctx d x).l1Seq = s.l1Seq := rfl
@[simp] theorem State.setDctx_l1Cel (s : State) (d : DieId) (x : DieCtx) : (s.setDctx d x).l1Cel = s.l1Cel := rfl
@[simp] theorem State.setDctx_l2 (s : State) (d : DieId) (x : DieCtx) : (s.setDctx d x).l2 = s.l2 := rfl
@[simp] theorem State.setDctx_ecc (s : State) (d : DieId) (x : DieCtx) : (s.setDctx d x).ecc = s.ecc := rfl
@[simp] theorem State.setDctx_rewrites (s : State) (d : DieId) (x : DieCtx) : (s.setDctx d x).rewrites = s.rewrites := rfl
@[simp] theorem State.setDctx_flaws (s : State) (d : DieId) (x : DieCtx) : (s.setDctx d x).flaws = s.flaws := rfl
@[simp] theorem State.setDctx_roots (s : State) (d : DieId) (x : DieCtx) : (s.setDctx d x).roots = s.roots := rfl
@[simp] theorem State.setDctx_tlb (s : State) (d : DieId) (x : DieCtx) : (s.setDctx d x).tlb = s.tlb := rfl
@[simp] theorem State.setDctx_slots (s : State) (d : DieId) (x : DieCtx) : (s.setDctx d x).slots = s.slots := rfl
@[simp] theorem State.setDctx_pool (s : State) (d : DieId) (x : DieCtx) : (s.setDctx d x).pool = s.pool := rfl
@[simp] theorem State.setDctx_framesOut (s : State) (d : DieId) (x : DieCtx) : (s.setDctx d x).framesOut = s.framesOut := rfl
@[simp] theorem State.setDctx_pagesOut (s : State) (d : DieId) (x : DieCtx) : (s.setDctx d x).pagesOut = s.pagesOut := rfl
@[simp] theorem State.setDctx_pagesFree (s : State) (d : DieId) (x : DieCtx) : (s.setDctx d x).pagesFree = s.pagesFree := rfl
@[simp] theorem State.setDctx_limbo (s : State) (d : DieId) (x : DieCtx) : (s.setDctx d x).limbo = s.limbo := rfl
@[simp] theorem State.setDctx_code (s : State) (d : DieId) (x : DieCtx) : (s.setDctx d x).code = s.code := rfl
@[simp] theorem State.setDctx_codeVer (s : State) (d : DieId) (x : DieCtx) : (s.setDctx d x).codeVer = s.codeVer := rfl
@[simp] theorem State.setDctx_objNext (s : State) (d : DieId) (x : DieCtx) : (s.setDctx d x).objNext = s.objNext := rfl
@[simp] theorem State.setDctx_objs (s : State) (d : DieId) (x : DieCtx) : (s.setDctx d x).objs = s.objs := rfl
@[simp] theorem State.setDctx_funcs (s : State) (d : DieId) (x : DieCtx) : (s.setDctx d x).funcs = s.funcs := rfl
@[simp] theorem State.setDctx_xlations (s : State) (d : DieId) (x : DieCtx) : (s.setDctx d x).xlations = s.xlations := rfl
@[simp] theorem State.setDctx_rolian (s : State) (d : DieId) (x : DieCtx) : (s.setDctx d x).rolian = s.rolian := rfl
@[simp] theorem State.setDctx_queues (s : State) (d : DieId) (x : DieCtx) : (s.setDctx d x).queues = s.queues := rfl
@[simp] theorem State.setDctx_admitQ (s : State) (d : DieId) (x : DieCtx) : (s.setDctx d x).admitQ = s.admitQ := rfl
@[simp] theorem State.setDctx_events (s : State) (d : DieId) (x : DieCtx) : (s.setDctx d x).events = s.events := rfl
@[simp] theorem State.setDctx_pend (s : State) (d : DieId) (x : DieCtx) : (s.setDctx d x).pend = s.pend := rfl
@[simp] theorem State.setDctx_launches (s : State) (d : DieId) (x : DieCtx) : (s.setDctx d x).launches = s.launches := rfl
@[simp] theorem State.setDctx_nextLid (s : State) (d : DieId) (x : DieCtx) : (s.setDctx d x).nextLid = s.nextLid := rfl
@[simp] theorem State.setDctx_batch (s : State) (d : DieId) (x : DieCtx) : (s.setDctx d x).batch = s.batch := rfl
@[simp] theorem State.setDctx_rejected (s : State) (d : DieId) (x : DieCtx) : (s.setDctx d x).rejected = s.rejected := rfl
@[simp] theorem State.setDctx_bindQ (s : State) (d : DieId) (x : DieCtx) : (s.setDctx d x).bindQ = s.bindQ := rfl
@[simp] theorem State.setDctx_dieSeen (s : State) (d : DieId) (x : DieCtx) : (s.setDctx d x).dieSeen = s.dieSeen := rfl
@[simp] theorem State.setDctx_rbLimit (s : State) (d : DieId) (x : DieCtx) : (s.setDctx d x).rbLimit = s.rbLimit := rfl
@[simp] theorem State.setDctx_scrubInt (s : State) (d : DieId) (x : DieCtx) : (s.setDctx d x).scrubInt = s.scrubInt := rfl
@[simp] theorem State.setDctx_scrubPos (s : State) (d : DieId) (x : DieCtx) : (s.setDctx d x).scrubPos = s.scrubPos := rfl
@[simp] theorem State.setDctx_scrubAt (s : State) (d : DieId) (x : DieCtx) : (s.setDctx d x).scrubAt = s.scrubAt := rfl
@[simp] theorem State.setDctx_refresh (s : State) (d : DieId) (x : DieCtx) : (s.setDctx d x).refresh = s.refresh := rfl
@[simp] theorem State.setDctx_msix (s : State) (d : DieId) (x : DieCtx) : (s.setDctx d x).msix = s.msix := rfl
@[simp] theorem State.setDctx_allot (s : State) (d : DieId) (x : DieCtx) : (s.setDctx d x).allot = s.allot := rfl
@[simp] theorem State.setDctx_vfs (s : State) (d : DieId) (x : DieCtx) : (s.setDctx d x).vfs = s.vfs := rfl
@[simp] theorem State.setDctx_hostErr (s : State) (d : DieId) (x : DieCtx) : (s.setDctx d x).hostErr = s.hostErr := rfl
@[simp] theorem State.setDctx_hostErrA (s : State) (d : DieId) (x : DieCtx) : (s.setDctx d x).hostErrA = s.hostErrA := rfl
@[simp] theorem State.setDctx_hostBad (s : State) (d : DieId) (x : DieCtx) : (s.setDctx d x).hostBad = s.hostBad := rfl
@[simp] theorem State.setDctx_mailbox (s : State) (d : DieId) (x : DieCtx) : (s.setDctx d x).mailbox = s.mailbox := rfl
@[simp] theorem State.setDctx_loads (s : State) (d : DieId) (x : DieCtx) : (s.setDctx d x).loads = s.loads := rfl
@[simp] theorem State.setDctx_bootErr (s : State) (d : DieId) (x : DieCtx) : (s.setDctx d x).bootErr = s.bootErr := rfl
@[simp] theorem State.setDctx_bootStage (s : State) (d : DieId) (x : DieCtx) : (s.setDctx d x).bootStage = s.bootStage := rfl
@[simp] theorem State.setDctx_secVer (s : State) (d : DieId) (x : DieCtx) : (s.setDctx d x).secVer = s.secVer := rfl
@[simp] theorem State.setDctx_timeCnt (s : State) (d : DieId) (x : DieCtx) : (s.setDctx d x).timeCnt = s.timeCnt := rfl
@[simp] theorem State.setDctx_timeLost (s : State) (d : DieId) (x : DieCtx) : (s.setDctx d x).timeLost = s.timeLost := rfl
@[simp] theorem State.setDctx_podValid (s : State) (d : DieId) (x : DieCtx) : (s.setDctx d x).podValid = s.podValid := rfl
@[simp] theorem State.setDctx_podBound (s : State) (d : DieId) (x : DieCtx) : (s.setDctx d x).podBound = s.podBound := rfl
@[simp] theorem State.setDctx_podHops (s : State) (d : DieId) (x : DieCtx) : (s.setDctx d x).podHops = s.podHops := rfl
@[simp] theorem State.setDctx_pkgBound (s : State) (d : DieId) (x : DieCtx) : (s.setDctx d x).pkgBound = s.pkgBound := rfl
@[simp] theorem State.setDctx_copies (s : State) (d : DieId) (x : DieCtx) : (s.setDctx d x).copies = s.copies := rfl
@[simp] theorem State.setDctx_pod (s : State) (d : DieId) (x : DieCtx) : (s.setDctx d x).pod = s.pod := rfl
@[simp] theorem State.setDctx_podMaster (s : State) (d : DieId) (x : DieCtx) : (s.setDctx d x).podMaster = s.podMaster := rfl
@[simp] theorem State.setDctx_peers (s : State) (d : DieId) (x : DieCtx) : (s.setDctx d x).peers = s.peers := rfl
@[simp] theorem State.setDctx_routes (s : State) (d : DieId) (x : DieCtx) : (s.setDctx d x).routes = s.routes := rfl
@[simp] theorem State.setDctx_windows (s : State) (d : DieId) (x : DieCtx) : (s.setDctx d x).windows = s.windows := rfl
@[simp] theorem State.setDctx_ports (s : State) (d : DieId) (x : DieCtx) : (s.setDctx d x).ports = s.ports := rfl
@[simp] theorem State.setDctx_flitRetries (s : State) (d : DieId) (x : DieCtx) : (s.setDctx d x).flitRetries = s.flitRetries := rfl
@[simp] theorem State.setDctx_errLog (s : State) (d : DieId) (x : DieCtx) : (s.setDctx d x).errLog = s.errLog := rfl
@[simp] theorem State.setDctx_errCount (s : State) (d : DieId) (x : DieCtx) : (s.setDctx d x).errCount = s.errCount := rfl
@[simp] theorem State.setDctx_health (s : State) (d : DieId) (x : DieCtx) : (s.setDctx d x).health = s.health := rfl
@[simp] theorem State.setDctx_spares (s : State) (d : DieId) (x : DieCtx) : (s.setDctx d x).spares = s.spares := rfl
@[simp] theorem State.setDctx_repairs (s : State) (d : DieId) (x : DieCtx) : (s.setDctx d x).repairs = s.repairs := rfl
@[simp] theorem State.setDctx_diesOn (s : State) (d : DieId) (x : DieCtx) : (s.setDctx d x).diesOn = s.diesOn := rfl
@[simp] theorem State.setDctx_clock (s : State) (d : DieId) (x : DieCtx) : (s.setDctx d x).clock = s.clock := rfl
@[simp] theorem State.setDctx_layers (s : State) (d : DieId) (x : DieCtx) : (s.setDctx d x).layers = s.layers := rfl
@[simp] theorem State.setDctx_agenda (s : State) (d : DieId) (x : DieCtx) : (s.setDctx d x).agenda = s.agenda := rfl
@[simp] theorem State.setDctx_core (s : State) (d : DieId) (x : DieCtx) : (s.setDctx d x).core = s.core := rfl
@[simp] theorem State.setDctx_onDie (s : State) (d : DieId) (x : DieCtx) : (s.setDctx d x).onDie = s.onDie := rfl
@[simp] theorem State.setDctx_slot (s : State) (d : DieId) (x : DieCtx) : (s.setDctx d x).slot = s.slot := rfl
@[simp] theorem State.setDctx_phase (s : State) (d : DieId) (x : DieCtx) : (s.setDctx d x).phase = s.phase := rfl
@[simp] theorem State.setDctx_verdict (s : State) (d : DieId) (x : DieCtx) : (s.setDctx d x).verdict = s.verdict := rfl
@[simp] theorem State.setDctx_failSlot (s : State) (d : DieId) (x : DieCtx) : (s.setDctx d x).failSlot = s.failSlot := rfl
@[simp] theorem State.setDctx_emptied (s : State) (d : DieId) (x : DieCtx) : (s.setDctx d x).emptied = s.emptied := rfl
@[simp] theorem State.setDctx_work (s : State) (d : DieId) (x : DieCtx) : (s.setDctx d x).work = s.work := rfl
@[simp] theorem State.setDctx_free (s : State) (d : DieId) (x : DieCtx) : (s.setDctx d x).free = s.free := rfl
@[simp] theorem State.setDctx_pace (s : State) (d : DieId) (x : DieCtx) : (s.setDctx d x).pace = s.pace := rfl

@[simp] theorem State.setLaunch_seq (s : State) (n : Nat) (l : Launch) : (s.setLaunch n l).seq = s.seq := rfl
@[simp] theorem State.setLaunch_cel (s : State) (n : Nat) (l : Launch) : (s.setLaunch n l).cel = s.cel := rfl
@[simp] theorem State.setLaunch_seqCore (s : State) (n : Nat) (l : Launch) : (s.setLaunch n l).seqCore = s.seqCore := rfl
@[simp] theorem State.setLaunch_celCore (s : State) (n : Nat) (l : Launch) : (s.setLaunch n l).celCore = s.celCore := rfl
@[simp] theorem State.setLaunch_dies (s : State) (n : Nat) (l : Launch) : (s.setLaunch n l).dies = s.dies := rfl
@[simp] theorem State.setLaunch_dieCtx (s : State) (n : Nat) (l : Launch) : (s.setLaunch n l).dieCtx = s.dieCtx := rfl
@[simp] theorem State.setLaunch_mem (s : State) (n : Nat) (l : Launch) : (s.setLaunch n l).mem = s.mem := rfl
@[simp] theorem State.setLaunch_l1Seq (s : State) (n : Nat) (l : Launch) : (s.setLaunch n l).l1Seq = s.l1Seq := rfl
@[simp] theorem State.setLaunch_l1Cel (s : State) (n : Nat) (l : Launch) : (s.setLaunch n l).l1Cel = s.l1Cel := rfl
@[simp] theorem State.setLaunch_l2 (s : State) (n : Nat) (l : Launch) : (s.setLaunch n l).l2 = s.l2 := rfl
@[simp] theorem State.setLaunch_ecc (s : State) (n : Nat) (l : Launch) : (s.setLaunch n l).ecc = s.ecc := rfl
@[simp] theorem State.setLaunch_rewrites (s : State) (n : Nat) (l : Launch) : (s.setLaunch n l).rewrites = s.rewrites := rfl
@[simp] theorem State.setLaunch_flaws (s : State) (n : Nat) (l : Launch) : (s.setLaunch n l).flaws = s.flaws := rfl
@[simp] theorem State.setLaunch_roots (s : State) (n : Nat) (l : Launch) : (s.setLaunch n l).roots = s.roots := rfl
@[simp] theorem State.setLaunch_tlb (s : State) (n : Nat) (l : Launch) : (s.setLaunch n l).tlb = s.tlb := rfl
@[simp] theorem State.setLaunch_slots (s : State) (n : Nat) (l : Launch) : (s.setLaunch n l).slots = s.slots := rfl
@[simp] theorem State.setLaunch_pool (s : State) (n : Nat) (l : Launch) : (s.setLaunch n l).pool = s.pool := rfl
@[simp] theorem State.setLaunch_framesOut (s : State) (n : Nat) (l : Launch) : (s.setLaunch n l).framesOut = s.framesOut := rfl
@[simp] theorem State.setLaunch_pagesOut (s : State) (n : Nat) (l : Launch) : (s.setLaunch n l).pagesOut = s.pagesOut := rfl
@[simp] theorem State.setLaunch_pagesFree (s : State) (n : Nat) (l : Launch) : (s.setLaunch n l).pagesFree = s.pagesFree := rfl
@[simp] theorem State.setLaunch_limbo (s : State) (n : Nat) (l : Launch) : (s.setLaunch n l).limbo = s.limbo := rfl
@[simp] theorem State.setLaunch_code (s : State) (n : Nat) (l : Launch) : (s.setLaunch n l).code = s.code := rfl
@[simp] theorem State.setLaunch_codeVer (s : State) (n : Nat) (l : Launch) : (s.setLaunch n l).codeVer = s.codeVer := rfl
@[simp] theorem State.setLaunch_objNext (s : State) (n : Nat) (l : Launch) : (s.setLaunch n l).objNext = s.objNext := rfl
@[simp] theorem State.setLaunch_objs (s : State) (n : Nat) (l : Launch) : (s.setLaunch n l).objs = s.objs := rfl
@[simp] theorem State.setLaunch_funcs (s : State) (n : Nat) (l : Launch) : (s.setLaunch n l).funcs = s.funcs := rfl
@[simp] theorem State.setLaunch_xlations (s : State) (n : Nat) (l : Launch) : (s.setLaunch n l).xlations = s.xlations := rfl
@[simp] theorem State.setLaunch_rolian (s : State) (n : Nat) (l : Launch) : (s.setLaunch n l).rolian = s.rolian := rfl
@[simp] theorem State.setLaunch_queues (s : State) (n : Nat) (l : Launch) : (s.setLaunch n l).queues = s.queues := rfl
@[simp] theorem State.setLaunch_admitQ (s : State) (n : Nat) (l : Launch) : (s.setLaunch n l).admitQ = s.admitQ := rfl
@[simp] theorem State.setLaunch_events (s : State) (n : Nat) (l : Launch) : (s.setLaunch n l).events = s.events := rfl
@[simp] theorem State.setLaunch_pend (s : State) (n : Nat) (l : Launch) : (s.setLaunch n l).pend = s.pend := rfl
@[simp] theorem State.setLaunch_nextLid (s : State) (n : Nat) (l : Launch) : (s.setLaunch n l).nextLid = s.nextLid := rfl
@[simp] theorem State.setLaunch_batch (s : State) (n : Nat) (l : Launch) : (s.setLaunch n l).batch = s.batch := rfl
@[simp] theorem State.setLaunch_rejected (s : State) (n : Nat) (l : Launch) : (s.setLaunch n l).rejected = s.rejected := rfl
@[simp] theorem State.setLaunch_bindQ (s : State) (n : Nat) (l : Launch) : (s.setLaunch n l).bindQ = s.bindQ := rfl
@[simp] theorem State.setLaunch_dieSeen (s : State) (n : Nat) (l : Launch) : (s.setLaunch n l).dieSeen = s.dieSeen := rfl
@[simp] theorem State.setLaunch_rbLimit (s : State) (n : Nat) (l : Launch) : (s.setLaunch n l).rbLimit = s.rbLimit := rfl
@[simp] theorem State.setLaunch_scrubInt (s : State) (n : Nat) (l : Launch) : (s.setLaunch n l).scrubInt = s.scrubInt := rfl
@[simp] theorem State.setLaunch_scrubPos (s : State) (n : Nat) (l : Launch) : (s.setLaunch n l).scrubPos = s.scrubPos := rfl
@[simp] theorem State.setLaunch_scrubAt (s : State) (n : Nat) (l : Launch) : (s.setLaunch n l).scrubAt = s.scrubAt := rfl
@[simp] theorem State.setLaunch_refresh (s : State) (n : Nat) (l : Launch) : (s.setLaunch n l).refresh = s.refresh := rfl
@[simp] theorem State.setLaunch_msix (s : State) (n : Nat) (l : Launch) : (s.setLaunch n l).msix = s.msix := rfl
@[simp] theorem State.setLaunch_allot (s : State) (n : Nat) (l : Launch) : (s.setLaunch n l).allot = s.allot := rfl
@[simp] theorem State.setLaunch_vfs (s : State) (n : Nat) (l : Launch) : (s.setLaunch n l).vfs = s.vfs := rfl
@[simp] theorem State.setLaunch_hostErr (s : State) (n : Nat) (l : Launch) : (s.setLaunch n l).hostErr = s.hostErr := rfl
@[simp] theorem State.setLaunch_hostErrA (s : State) (n : Nat) (l : Launch) : (s.setLaunch n l).hostErrA = s.hostErrA := rfl
@[simp] theorem State.setLaunch_hostBad (s : State) (n : Nat) (l : Launch) : (s.setLaunch n l).hostBad = s.hostBad := rfl
@[simp] theorem State.setLaunch_mailbox (s : State) (n : Nat) (l : Launch) : (s.setLaunch n l).mailbox = s.mailbox := rfl
@[simp] theorem State.setLaunch_loads (s : State) (n : Nat) (l : Launch) : (s.setLaunch n l).loads = s.loads := rfl
@[simp] theorem State.setLaunch_bootErr (s : State) (n : Nat) (l : Launch) : (s.setLaunch n l).bootErr = s.bootErr := rfl
@[simp] theorem State.setLaunch_bootStage (s : State) (n : Nat) (l : Launch) : (s.setLaunch n l).bootStage = s.bootStage := rfl
@[simp] theorem State.setLaunch_secVer (s : State) (n : Nat) (l : Launch) : (s.setLaunch n l).secVer = s.secVer := rfl
@[simp] theorem State.setLaunch_timeCnt (s : State) (n : Nat) (l : Launch) : (s.setLaunch n l).timeCnt = s.timeCnt := rfl
@[simp] theorem State.setLaunch_timeLost (s : State) (n : Nat) (l : Launch) : (s.setLaunch n l).timeLost = s.timeLost := rfl
@[simp] theorem State.setLaunch_podValid (s : State) (n : Nat) (l : Launch) : (s.setLaunch n l).podValid = s.podValid := rfl
@[simp] theorem State.setLaunch_podBound (s : State) (n : Nat) (l : Launch) : (s.setLaunch n l).podBound = s.podBound := rfl
@[simp] theorem State.setLaunch_podHops (s : State) (n : Nat) (l : Launch) : (s.setLaunch n l).podHops = s.podHops := rfl
@[simp] theorem State.setLaunch_pkgBound (s : State) (n : Nat) (l : Launch) : (s.setLaunch n l).pkgBound = s.pkgBound := rfl
@[simp] theorem State.setLaunch_copies (s : State) (n : Nat) (l : Launch) : (s.setLaunch n l).copies = s.copies := rfl
@[simp] theorem State.setLaunch_pod (s : State) (n : Nat) (l : Launch) : (s.setLaunch n l).pod = s.pod := rfl
@[simp] theorem State.setLaunch_podMaster (s : State) (n : Nat) (l : Launch) : (s.setLaunch n l).podMaster = s.podMaster := rfl
@[simp] theorem State.setLaunch_peers (s : State) (n : Nat) (l : Launch) : (s.setLaunch n l).peers = s.peers := rfl
@[simp] theorem State.setLaunch_routes (s : State) (n : Nat) (l : Launch) : (s.setLaunch n l).routes = s.routes := rfl
@[simp] theorem State.setLaunch_windows (s : State) (n : Nat) (l : Launch) : (s.setLaunch n l).windows = s.windows := rfl
@[simp] theorem State.setLaunch_ports (s : State) (n : Nat) (l : Launch) : (s.setLaunch n l).ports = s.ports := rfl
@[simp] theorem State.setLaunch_flitRetries (s : State) (n : Nat) (l : Launch) : (s.setLaunch n l).flitRetries = s.flitRetries := rfl
@[simp] theorem State.setLaunch_errLog (s : State) (n : Nat) (l : Launch) : (s.setLaunch n l).errLog = s.errLog := rfl
@[simp] theorem State.setLaunch_errCount (s : State) (n : Nat) (l : Launch) : (s.setLaunch n l).errCount = s.errCount := rfl
@[simp] theorem State.setLaunch_health (s : State) (n : Nat) (l : Launch) : (s.setLaunch n l).health = s.health := rfl
@[simp] theorem State.setLaunch_spares (s : State) (n : Nat) (l : Launch) : (s.setLaunch n l).spares = s.spares := rfl
@[simp] theorem State.setLaunch_repairs (s : State) (n : Nat) (l : Launch) : (s.setLaunch n l).repairs = s.repairs := rfl
@[simp] theorem State.setLaunch_diesOn (s : State) (n : Nat) (l : Launch) : (s.setLaunch n l).diesOn = s.diesOn := rfl
@[simp] theorem State.setLaunch_clock (s : State) (n : Nat) (l : Launch) : (s.setLaunch n l).clock = s.clock := rfl
@[simp] theorem State.setLaunch_layers (s : State) (n : Nat) (l : Launch) : (s.setLaunch n l).layers = s.layers := rfl
@[simp] theorem State.setLaunch_agenda (s : State) (n : Nat) (l : Launch) : (s.setLaunch n l).agenda = s.agenda := rfl
@[simp] theorem State.setLaunch_core (s : State) (n : Nat) (l : Launch) : (s.setLaunch n l).core = s.core := rfl
@[simp] theorem State.setLaunch_onDie (s : State) (n : Nat) (l : Launch) : (s.setLaunch n l).onDie = s.onDie := rfl
@[simp] theorem State.setLaunch_slot (s : State) (n : Nat) (l : Launch) : (s.setLaunch n l).slot = s.slot := rfl
@[simp] theorem State.setLaunch_phase (s : State) (n : Nat) (l : Launch) : (s.setLaunch n l).phase = s.phase := rfl
@[simp] theorem State.setLaunch_verdict (s : State) (n : Nat) (l : Launch) : (s.setLaunch n l).verdict = s.verdict := rfl
@[simp] theorem State.setLaunch_failSlot (s : State) (n : Nat) (l : Launch) : (s.setLaunch n l).failSlot = s.failSlot := rfl
@[simp] theorem State.setLaunch_emptied (s : State) (n : Nat) (l : Launch) : (s.setLaunch n l).emptied = s.emptied := rfl
@[simp] theorem State.setLaunch_work (s : State) (n : Nat) (l : Launch) : (s.setLaunch n l).work = s.work := rfl
@[simp] theorem State.setLaunch_free (s : State) (n : Nat) (l : Launch) : (s.setLaunch n l).free = s.free := rfl
@[simp] theorem State.setLaunch_pace (s : State) (n : Nat) (l : Launch) : (s.setLaunch n l).pace = s.pace := rfl

@[simp] theorem State.setQueue_seq (s : State) (q : Nat) (x : Queue) : (s.setQueue q x).seq = s.seq := rfl
@[simp] theorem State.setQueue_cel (s : State) (q : Nat) (x : Queue) : (s.setQueue q x).cel = s.cel := rfl
@[simp] theorem State.setQueue_seqCore (s : State) (q : Nat) (x : Queue) : (s.setQueue q x).seqCore = s.seqCore := rfl
@[simp] theorem State.setQueue_celCore (s : State) (q : Nat) (x : Queue) : (s.setQueue q x).celCore = s.celCore := rfl
@[simp] theorem State.setQueue_dies (s : State) (q : Nat) (x : Queue) : (s.setQueue q x).dies = s.dies := rfl
@[simp] theorem State.setQueue_dieCtx (s : State) (q : Nat) (x : Queue) : (s.setQueue q x).dieCtx = s.dieCtx := rfl
@[simp] theorem State.setQueue_mem (s : State) (q : Nat) (x : Queue) : (s.setQueue q x).mem = s.mem := rfl
@[simp] theorem State.setQueue_l1Seq (s : State) (q : Nat) (x : Queue) : (s.setQueue q x).l1Seq = s.l1Seq := rfl
@[simp] theorem State.setQueue_l1Cel (s : State) (q : Nat) (x : Queue) : (s.setQueue q x).l1Cel = s.l1Cel := rfl
@[simp] theorem State.setQueue_l2 (s : State) (q : Nat) (x : Queue) : (s.setQueue q x).l2 = s.l2 := rfl
@[simp] theorem State.setQueue_ecc (s : State) (q : Nat) (x : Queue) : (s.setQueue q x).ecc = s.ecc := rfl
@[simp] theorem State.setQueue_rewrites (s : State) (q : Nat) (x : Queue) : (s.setQueue q x).rewrites = s.rewrites := rfl
@[simp] theorem State.setQueue_flaws (s : State) (q : Nat) (x : Queue) : (s.setQueue q x).flaws = s.flaws := rfl
@[simp] theorem State.setQueue_roots (s : State) (q : Nat) (x : Queue) : (s.setQueue q x).roots = s.roots := rfl
@[simp] theorem State.setQueue_tlb (s : State) (q : Nat) (x : Queue) : (s.setQueue q x).tlb = s.tlb := rfl
@[simp] theorem State.setQueue_slots (s : State) (q : Nat) (x : Queue) : (s.setQueue q x).slots = s.slots := rfl
@[simp] theorem State.setQueue_pool (s : State) (q : Nat) (x : Queue) : (s.setQueue q x).pool = s.pool := rfl
@[simp] theorem State.setQueue_framesOut (s : State) (q : Nat) (x : Queue) : (s.setQueue q x).framesOut = s.framesOut := rfl
@[simp] theorem State.setQueue_pagesOut (s : State) (q : Nat) (x : Queue) : (s.setQueue q x).pagesOut = s.pagesOut := rfl
@[simp] theorem State.setQueue_pagesFree (s : State) (q : Nat) (x : Queue) : (s.setQueue q x).pagesFree = s.pagesFree := rfl
@[simp] theorem State.setQueue_limbo (s : State) (q : Nat) (x : Queue) : (s.setQueue q x).limbo = s.limbo := rfl
@[simp] theorem State.setQueue_code (s : State) (q : Nat) (x : Queue) : (s.setQueue q x).code = s.code := rfl
@[simp] theorem State.setQueue_codeVer (s : State) (q : Nat) (x : Queue) : (s.setQueue q x).codeVer = s.codeVer := rfl
@[simp] theorem State.setQueue_objNext (s : State) (q : Nat) (x : Queue) : (s.setQueue q x).objNext = s.objNext := rfl
@[simp] theorem State.setQueue_objs (s : State) (q : Nat) (x : Queue) : (s.setQueue q x).objs = s.objs := rfl
@[simp] theorem State.setQueue_funcs (s : State) (q : Nat) (x : Queue) : (s.setQueue q x).funcs = s.funcs := rfl
@[simp] theorem State.setQueue_xlations (s : State) (q : Nat) (x : Queue) : (s.setQueue q x).xlations = s.xlations := rfl
@[simp] theorem State.setQueue_rolian (s : State) (q : Nat) (x : Queue) : (s.setQueue q x).rolian = s.rolian := rfl
@[simp] theorem State.setQueue_admitQ (s : State) (q : Nat) (x : Queue) : (s.setQueue q x).admitQ = s.admitQ := rfl
@[simp] theorem State.setQueue_events (s : State) (q : Nat) (x : Queue) : (s.setQueue q x).events = s.events := rfl
@[simp] theorem State.setQueue_pend (s : State) (q : Nat) (x : Queue) : (s.setQueue q x).pend = s.pend := rfl
@[simp] theorem State.setQueue_launches (s : State) (q : Nat) (x : Queue) : (s.setQueue q x).launches = s.launches := rfl
@[simp] theorem State.setQueue_nextLid (s : State) (q : Nat) (x : Queue) : (s.setQueue q x).nextLid = s.nextLid := rfl
@[simp] theorem State.setQueue_batch (s : State) (q : Nat) (x : Queue) : (s.setQueue q x).batch = s.batch := rfl
@[simp] theorem State.setQueue_rejected (s : State) (q : Nat) (x : Queue) : (s.setQueue q x).rejected = s.rejected := rfl
@[simp] theorem State.setQueue_bindQ (s : State) (q : Nat) (x : Queue) : (s.setQueue q x).bindQ = s.bindQ := rfl
@[simp] theorem State.setQueue_dieSeen (s : State) (q : Nat) (x : Queue) : (s.setQueue q x).dieSeen = s.dieSeen := rfl
@[simp] theorem State.setQueue_rbLimit (s : State) (q : Nat) (x : Queue) : (s.setQueue q x).rbLimit = s.rbLimit := rfl
@[simp] theorem State.setQueue_scrubInt (s : State) (q : Nat) (x : Queue) : (s.setQueue q x).scrubInt = s.scrubInt := rfl
@[simp] theorem State.setQueue_scrubPos (s : State) (q : Nat) (x : Queue) : (s.setQueue q x).scrubPos = s.scrubPos := rfl
@[simp] theorem State.setQueue_scrubAt (s : State) (q : Nat) (x : Queue) : (s.setQueue q x).scrubAt = s.scrubAt := rfl
@[simp] theorem State.setQueue_refresh (s : State) (q : Nat) (x : Queue) : (s.setQueue q x).refresh = s.refresh := rfl
@[simp] theorem State.setQueue_msix (s : State) (q : Nat) (x : Queue) : (s.setQueue q x).msix = s.msix := rfl
@[simp] theorem State.setQueue_allot (s : State) (q : Nat) (x : Queue) : (s.setQueue q x).allot = s.allot := rfl
@[simp] theorem State.setQueue_vfs (s : State) (q : Nat) (x : Queue) : (s.setQueue q x).vfs = s.vfs := rfl
@[simp] theorem State.setQueue_hostErr (s : State) (q : Nat) (x : Queue) : (s.setQueue q x).hostErr = s.hostErr := rfl
@[simp] theorem State.setQueue_hostErrA (s : State) (q : Nat) (x : Queue) : (s.setQueue q x).hostErrA = s.hostErrA := rfl
@[simp] theorem State.setQueue_hostBad (s : State) (q : Nat) (x : Queue) : (s.setQueue q x).hostBad = s.hostBad := rfl
@[simp] theorem State.setQueue_mailbox (s : State) (q : Nat) (x : Queue) : (s.setQueue q x).mailbox = s.mailbox := rfl
@[simp] theorem State.setQueue_loads (s : State) (q : Nat) (x : Queue) : (s.setQueue q x).loads = s.loads := rfl
@[simp] theorem State.setQueue_bootErr (s : State) (q : Nat) (x : Queue) : (s.setQueue q x).bootErr = s.bootErr := rfl
@[simp] theorem State.setQueue_bootStage (s : State) (q : Nat) (x : Queue) : (s.setQueue q x).bootStage = s.bootStage := rfl
@[simp] theorem State.setQueue_secVer (s : State) (q : Nat) (x : Queue) : (s.setQueue q x).secVer = s.secVer := rfl
@[simp] theorem State.setQueue_timeCnt (s : State) (q : Nat) (x : Queue) : (s.setQueue q x).timeCnt = s.timeCnt := rfl
@[simp] theorem State.setQueue_timeLost (s : State) (q : Nat) (x : Queue) : (s.setQueue q x).timeLost = s.timeLost := rfl
@[simp] theorem State.setQueue_podValid (s : State) (q : Nat) (x : Queue) : (s.setQueue q x).podValid = s.podValid := rfl
@[simp] theorem State.setQueue_podBound (s : State) (q : Nat) (x : Queue) : (s.setQueue q x).podBound = s.podBound := rfl
@[simp] theorem State.setQueue_podHops (s : State) (q : Nat) (x : Queue) : (s.setQueue q x).podHops = s.podHops := rfl
@[simp] theorem State.setQueue_pkgBound (s : State) (q : Nat) (x : Queue) : (s.setQueue q x).pkgBound = s.pkgBound := rfl
@[simp] theorem State.setQueue_copies (s : State) (q : Nat) (x : Queue) : (s.setQueue q x).copies = s.copies := rfl
@[simp] theorem State.setQueue_pod (s : State) (q : Nat) (x : Queue) : (s.setQueue q x).pod = s.pod := rfl
@[simp] theorem State.setQueue_podMaster (s : State) (q : Nat) (x : Queue) : (s.setQueue q x).podMaster = s.podMaster := rfl
@[simp] theorem State.setQueue_peers (s : State) (q : Nat) (x : Queue) : (s.setQueue q x).peers = s.peers := rfl
@[simp] theorem State.setQueue_routes (s : State) (q : Nat) (x : Queue) : (s.setQueue q x).routes = s.routes := rfl
@[simp] theorem State.setQueue_windows (s : State) (q : Nat) (x : Queue) : (s.setQueue q x).windows = s.windows := rfl
@[simp] theorem State.setQueue_ports (s : State) (q : Nat) (x : Queue) : (s.setQueue q x).ports = s.ports := rfl
@[simp] theorem State.setQueue_flitRetries (s : State) (q : Nat) (x : Queue) : (s.setQueue q x).flitRetries = s.flitRetries := rfl
@[simp] theorem State.setQueue_errLog (s : State) (q : Nat) (x : Queue) : (s.setQueue q x).errLog = s.errLog := rfl
@[simp] theorem State.setQueue_errCount (s : State) (q : Nat) (x : Queue) : (s.setQueue q x).errCount = s.errCount := rfl
@[simp] theorem State.setQueue_health (s : State) (q : Nat) (x : Queue) : (s.setQueue q x).health = s.health := rfl
@[simp] theorem State.setQueue_spares (s : State) (q : Nat) (x : Queue) : (s.setQueue q x).spares = s.spares := rfl
@[simp] theorem State.setQueue_repairs (s : State) (q : Nat) (x : Queue) : (s.setQueue q x).repairs = s.repairs := rfl
@[simp] theorem State.setQueue_diesOn (s : State) (q : Nat) (x : Queue) : (s.setQueue q x).diesOn = s.diesOn := rfl
@[simp] theorem State.setQueue_clock (s : State) (q : Nat) (x : Queue) : (s.setQueue q x).clock = s.clock := rfl
@[simp] theorem State.setQueue_layers (s : State) (q : Nat) (x : Queue) : (s.setQueue q x).layers = s.layers := rfl
@[simp] theorem State.setQueue_agenda (s : State) (q : Nat) (x : Queue) : (s.setQueue q x).agenda = s.agenda := rfl
@[simp] theorem State.setQueue_core (s : State) (q : Nat) (x : Queue) : (s.setQueue q x).core = s.core := rfl
@[simp] theorem State.setQueue_onDie (s : State) (q : Nat) (x : Queue) : (s.setQueue q x).onDie = s.onDie := rfl
@[simp] theorem State.setQueue_slot (s : State) (q : Nat) (x : Queue) : (s.setQueue q x).slot = s.slot := rfl
@[simp] theorem State.setQueue_phase (s : State) (q : Nat) (x : Queue) : (s.setQueue q x).phase = s.phase := rfl
@[simp] theorem State.setQueue_verdict (s : State) (q : Nat) (x : Queue) : (s.setQueue q x).verdict = s.verdict := rfl
@[simp] theorem State.setQueue_failSlot (s : State) (q : Nat) (x : Queue) : (s.setQueue q x).failSlot = s.failSlot := rfl
@[simp] theorem State.setQueue_emptied (s : State) (q : Nat) (x : Queue) : (s.setQueue q x).emptied = s.emptied := rfl
@[simp] theorem State.setQueue_work (s : State) (q : Nat) (x : Queue) : (s.setQueue q x).work = s.work := rfl
@[simp] theorem State.setQueue_free (s : State) (q : Nat) (x : Queue) : (s.setQueue q x).free = s.free := rfl
@[simp] theorem State.setQueue_pace (s : State) (q : Nat) (x : Queue) : (s.setQueue q x).pace = s.pace := rfl

@[simp] theorem State.setEvent_seq (s : State) (f e : Nat) (x : Event) : (s.setEvent f e x).seq = s.seq := rfl
@[simp] theorem State.setEvent_cel (s : State) (f e : Nat) (x : Event) : (s.setEvent f e x).cel = s.cel := rfl
@[simp] theorem State.setEvent_seqCore (s : State) (f e : Nat) (x : Event) : (s.setEvent f e x).seqCore = s.seqCore := rfl
@[simp] theorem State.setEvent_celCore (s : State) (f e : Nat) (x : Event) : (s.setEvent f e x).celCore = s.celCore := rfl
@[simp] theorem State.setEvent_dies (s : State) (f e : Nat) (x : Event) : (s.setEvent f e x).dies = s.dies := rfl
@[simp] theorem State.setEvent_dieCtx (s : State) (f e : Nat) (x : Event) : (s.setEvent f e x).dieCtx = s.dieCtx := rfl
@[simp] theorem State.setEvent_mem (s : State) (f e : Nat) (x : Event) : (s.setEvent f e x).mem = s.mem := rfl
@[simp] theorem State.setEvent_l1Seq (s : State) (f e : Nat) (x : Event) : (s.setEvent f e x).l1Seq = s.l1Seq := rfl
@[simp] theorem State.setEvent_l1Cel (s : State) (f e : Nat) (x : Event) : (s.setEvent f e x).l1Cel = s.l1Cel := rfl
@[simp] theorem State.setEvent_l2 (s : State) (f e : Nat) (x : Event) : (s.setEvent f e x).l2 = s.l2 := rfl
@[simp] theorem State.setEvent_ecc (s : State) (f e : Nat) (x : Event) : (s.setEvent f e x).ecc = s.ecc := rfl
@[simp] theorem State.setEvent_rewrites (s : State) (f e : Nat) (x : Event) : (s.setEvent f e x).rewrites = s.rewrites := rfl
@[simp] theorem State.setEvent_flaws (s : State) (f e : Nat) (x : Event) : (s.setEvent f e x).flaws = s.flaws := rfl
@[simp] theorem State.setEvent_roots (s : State) (f e : Nat) (x : Event) : (s.setEvent f e x).roots = s.roots := rfl
@[simp] theorem State.setEvent_tlb (s : State) (f e : Nat) (x : Event) : (s.setEvent f e x).tlb = s.tlb := rfl
@[simp] theorem State.setEvent_slots (s : State) (f e : Nat) (x : Event) : (s.setEvent f e x).slots = s.slots := rfl
@[simp] theorem State.setEvent_pool (s : State) (f e : Nat) (x : Event) : (s.setEvent f e x).pool = s.pool := rfl
@[simp] theorem State.setEvent_framesOut (s : State) (f e : Nat) (x : Event) : (s.setEvent f e x).framesOut = s.framesOut := rfl
@[simp] theorem State.setEvent_pagesOut (s : State) (f e : Nat) (x : Event) : (s.setEvent f e x).pagesOut = s.pagesOut := rfl
@[simp] theorem State.setEvent_pagesFree (s : State) (f e : Nat) (x : Event) : (s.setEvent f e x).pagesFree = s.pagesFree := rfl
@[simp] theorem State.setEvent_limbo (s : State) (f e : Nat) (x : Event) : (s.setEvent f e x).limbo = s.limbo := rfl
@[simp] theorem State.setEvent_code (s : State) (f e : Nat) (x : Event) : (s.setEvent f e x).code = s.code := rfl
@[simp] theorem State.setEvent_codeVer (s : State) (f e : Nat) (x : Event) : (s.setEvent f e x).codeVer = s.codeVer := rfl
@[simp] theorem State.setEvent_objNext (s : State) (f e : Nat) (x : Event) : (s.setEvent f e x).objNext = s.objNext := rfl
@[simp] theorem State.setEvent_objs (s : State) (f e : Nat) (x : Event) : (s.setEvent f e x).objs = s.objs := rfl
@[simp] theorem State.setEvent_funcs (s : State) (f e : Nat) (x : Event) : (s.setEvent f e x).funcs = s.funcs := rfl
@[simp] theorem State.setEvent_xlations (s : State) (f e : Nat) (x : Event) : (s.setEvent f e x).xlations = s.xlations := rfl
@[simp] theorem State.setEvent_rolian (s : State) (f e : Nat) (x : Event) : (s.setEvent f e x).rolian = s.rolian := rfl
@[simp] theorem State.setEvent_queues (s : State) (f e : Nat) (x : Event) : (s.setEvent f e x).queues = s.queues := rfl
@[simp] theorem State.setEvent_admitQ (s : State) (f e : Nat) (x : Event) : (s.setEvent f e x).admitQ = s.admitQ := rfl
@[simp] theorem State.setEvent_pend (s : State) (f e : Nat) (x : Event) : (s.setEvent f e x).pend = s.pend := rfl
@[simp] theorem State.setEvent_launches (s : State) (f e : Nat) (x : Event) : (s.setEvent f e x).launches = s.launches := rfl
@[simp] theorem State.setEvent_nextLid (s : State) (f e : Nat) (x : Event) : (s.setEvent f e x).nextLid = s.nextLid := rfl
@[simp] theorem State.setEvent_batch (s : State) (f e : Nat) (x : Event) : (s.setEvent f e x).batch = s.batch := rfl
@[simp] theorem State.setEvent_rejected (s : State) (f e : Nat) (x : Event) : (s.setEvent f e x).rejected = s.rejected := rfl
@[simp] theorem State.setEvent_bindQ (s : State) (f e : Nat) (x : Event) : (s.setEvent f e x).bindQ = s.bindQ := rfl
@[simp] theorem State.setEvent_dieSeen (s : State) (f e : Nat) (x : Event) : (s.setEvent f e x).dieSeen = s.dieSeen := rfl
@[simp] theorem State.setEvent_rbLimit (s : State) (f e : Nat) (x : Event) : (s.setEvent f e x).rbLimit = s.rbLimit := rfl
@[simp] theorem State.setEvent_scrubInt (s : State) (f e : Nat) (x : Event) : (s.setEvent f e x).scrubInt = s.scrubInt := rfl
@[simp] theorem State.setEvent_scrubPos (s : State) (f e : Nat) (x : Event) : (s.setEvent f e x).scrubPos = s.scrubPos := rfl
@[simp] theorem State.setEvent_scrubAt (s : State) (f e : Nat) (x : Event) : (s.setEvent f e x).scrubAt = s.scrubAt := rfl
@[simp] theorem State.setEvent_refresh (s : State) (f e : Nat) (x : Event) : (s.setEvent f e x).refresh = s.refresh := rfl
@[simp] theorem State.setEvent_msix (s : State) (f e : Nat) (x : Event) : (s.setEvent f e x).msix = s.msix := rfl
@[simp] theorem State.setEvent_allot (s : State) (f e : Nat) (x : Event) : (s.setEvent f e x).allot = s.allot := rfl
@[simp] theorem State.setEvent_vfs (s : State) (f e : Nat) (x : Event) : (s.setEvent f e x).vfs = s.vfs := rfl
@[simp] theorem State.setEvent_hostErr (s : State) (f e : Nat) (x : Event) : (s.setEvent f e x).hostErr = s.hostErr := rfl
@[simp] theorem State.setEvent_hostErrA (s : State) (f e : Nat) (x : Event) : (s.setEvent f e x).hostErrA = s.hostErrA := rfl
@[simp] theorem State.setEvent_hostBad (s : State) (f e : Nat) (x : Event) : (s.setEvent f e x).hostBad = s.hostBad := rfl
@[simp] theorem State.setEvent_mailbox (s : State) (f e : Nat) (x : Event) : (s.setEvent f e x).mailbox = s.mailbox := rfl
@[simp] theorem State.setEvent_loads (s : State) (f e : Nat) (x : Event) : (s.setEvent f e x).loads = s.loads := rfl
@[simp] theorem State.setEvent_bootErr (s : State) (f e : Nat) (x : Event) : (s.setEvent f e x).bootErr = s.bootErr := rfl
@[simp] theorem State.setEvent_bootStage (s : State) (f e : Nat) (x : Event) : (s.setEvent f e x).bootStage = s.bootStage := rfl
@[simp] theorem State.setEvent_secVer (s : State) (f e : Nat) (x : Event) : (s.setEvent f e x).secVer = s.secVer := rfl
@[simp] theorem State.setEvent_timeCnt (s : State) (f e : Nat) (x : Event) : (s.setEvent f e x).timeCnt = s.timeCnt := rfl
@[simp] theorem State.setEvent_timeLost (s : State) (f e : Nat) (x : Event) : (s.setEvent f e x).timeLost = s.timeLost := rfl
@[simp] theorem State.setEvent_podValid (s : State) (f e : Nat) (x : Event) : (s.setEvent f e x).podValid = s.podValid := rfl
@[simp] theorem State.setEvent_podBound (s : State) (f e : Nat) (x : Event) : (s.setEvent f e x).podBound = s.podBound := rfl
@[simp] theorem State.setEvent_podHops (s : State) (f e : Nat) (x : Event) : (s.setEvent f e x).podHops = s.podHops := rfl
@[simp] theorem State.setEvent_pkgBound (s : State) (f e : Nat) (x : Event) : (s.setEvent f e x).pkgBound = s.pkgBound := rfl
@[simp] theorem State.setEvent_copies (s : State) (f e : Nat) (x : Event) : (s.setEvent f e x).copies = s.copies := rfl
@[simp] theorem State.setEvent_pod (s : State) (f e : Nat) (x : Event) : (s.setEvent f e x).pod = s.pod := rfl
@[simp] theorem State.setEvent_podMaster (s : State) (f e : Nat) (x : Event) : (s.setEvent f e x).podMaster = s.podMaster := rfl
@[simp] theorem State.setEvent_peers (s : State) (f e : Nat) (x : Event) : (s.setEvent f e x).peers = s.peers := rfl
@[simp] theorem State.setEvent_routes (s : State) (f e : Nat) (x : Event) : (s.setEvent f e x).routes = s.routes := rfl
@[simp] theorem State.setEvent_windows (s : State) (f e : Nat) (x : Event) : (s.setEvent f e x).windows = s.windows := rfl
@[simp] theorem State.setEvent_ports (s : State) (f e : Nat) (x : Event) : (s.setEvent f e x).ports = s.ports := rfl
@[simp] theorem State.setEvent_flitRetries (s : State) (f e : Nat) (x : Event) : (s.setEvent f e x).flitRetries = s.flitRetries := rfl
@[simp] theorem State.setEvent_errLog (s : State) (f e : Nat) (x : Event) : (s.setEvent f e x).errLog = s.errLog := rfl
@[simp] theorem State.setEvent_errCount (s : State) (f e : Nat) (x : Event) : (s.setEvent f e x).errCount = s.errCount := rfl
@[simp] theorem State.setEvent_health (s : State) (f e : Nat) (x : Event) : (s.setEvent f e x).health = s.health := rfl
@[simp] theorem State.setEvent_spares (s : State) (f e : Nat) (x : Event) : (s.setEvent f e x).spares = s.spares := rfl
@[simp] theorem State.setEvent_repairs (s : State) (f e : Nat) (x : Event) : (s.setEvent f e x).repairs = s.repairs := rfl
@[simp] theorem State.setEvent_diesOn (s : State) (f e : Nat) (x : Event) : (s.setEvent f e x).diesOn = s.diesOn := rfl
@[simp] theorem State.setEvent_clock (s : State) (f e : Nat) (x : Event) : (s.setEvent f e x).clock = s.clock := rfl
@[simp] theorem State.setEvent_layers (s : State) (f e : Nat) (x : Event) : (s.setEvent f e x).layers = s.layers := rfl
@[simp] theorem State.setEvent_agenda (s : State) (f e : Nat) (x : Event) : (s.setEvent f e x).agenda = s.agenda := rfl
@[simp] theorem State.setEvent_core (s : State) (f e : Nat) (x : Event) : (s.setEvent f e x).core = s.core := rfl
@[simp] theorem State.setEvent_onDie (s : State) (f e : Nat) (x : Event) : (s.setEvent f e x).onDie = s.onDie := rfl
@[simp] theorem State.setEvent_slot (s : State) (f e : Nat) (x : Event) : (s.setEvent f e x).slot = s.slot := rfl
@[simp] theorem State.setEvent_phase (s : State) (f e : Nat) (x : Event) : (s.setEvent f e x).phase = s.phase := rfl
@[simp] theorem State.setEvent_verdict (s : State) (f e : Nat) (x : Event) : (s.setEvent f e x).verdict = s.verdict := rfl
@[simp] theorem State.setEvent_failSlot (s : State) (f e : Nat) (x : Event) : (s.setEvent f e x).failSlot = s.failSlot := rfl
@[simp] theorem State.setEvent_emptied (s : State) (f e : Nat) (x : Event) : (s.setEvent f e x).emptied = s.emptied := rfl
@[simp] theorem State.setEvent_work (s : State) (f e : Nat) (x : Event) : (s.setEvent f e x).work = s.work := rfl
@[simp] theorem State.setEvent_free (s : State) (f e : Nat) (x : Event) : (s.setEvent f e x).free = s.free := rfl
@[simp] theorem State.setEvent_pace (s : State) (f e : Nat) (x : Event) : (s.setEvent f e x).pace = s.pace := rfl

@[simp] theorem State.setHealth_seq (s : State) (u : BitVec 32) (h : HealthEntry) : (s.setHealth u h).seq = s.seq := rfl
@[simp] theorem State.setHealth_cel (s : State) (u : BitVec 32) (h : HealthEntry) : (s.setHealth u h).cel = s.cel := rfl
@[simp] theorem State.setHealth_seqCore (s : State) (u : BitVec 32) (h : HealthEntry) : (s.setHealth u h).seqCore = s.seqCore := rfl
@[simp] theorem State.setHealth_celCore (s : State) (u : BitVec 32) (h : HealthEntry) : (s.setHealth u h).celCore = s.celCore := rfl
@[simp] theorem State.setHealth_dies (s : State) (u : BitVec 32) (h : HealthEntry) : (s.setHealth u h).dies = s.dies := rfl
@[simp] theorem State.setHealth_dieCtx (s : State) (u : BitVec 32) (h : HealthEntry) : (s.setHealth u h).dieCtx = s.dieCtx := rfl
@[simp] theorem State.setHealth_mem (s : State) (u : BitVec 32) (h : HealthEntry) : (s.setHealth u h).mem = s.mem := rfl
@[simp] theorem State.setHealth_l1Seq (s : State) (u : BitVec 32) (h : HealthEntry) : (s.setHealth u h).l1Seq = s.l1Seq := rfl
@[simp] theorem State.setHealth_l1Cel (s : State) (u : BitVec 32) (h : HealthEntry) : (s.setHealth u h).l1Cel = s.l1Cel := rfl
@[simp] theorem State.setHealth_l2 (s : State) (u : BitVec 32) (h : HealthEntry) : (s.setHealth u h).l2 = s.l2 := rfl
@[simp] theorem State.setHealth_ecc (s : State) (u : BitVec 32) (h : HealthEntry) : (s.setHealth u h).ecc = s.ecc := rfl
@[simp] theorem State.setHealth_rewrites (s : State) (u : BitVec 32) (h : HealthEntry) : (s.setHealth u h).rewrites = s.rewrites := rfl
@[simp] theorem State.setHealth_flaws (s : State) (u : BitVec 32) (h : HealthEntry) : (s.setHealth u h).flaws = s.flaws := rfl
@[simp] theorem State.setHealth_roots (s : State) (u : BitVec 32) (h : HealthEntry) : (s.setHealth u h).roots = s.roots := rfl
@[simp] theorem State.setHealth_tlb (s : State) (u : BitVec 32) (h : HealthEntry) : (s.setHealth u h).tlb = s.tlb := rfl
@[simp] theorem State.setHealth_slots (s : State) (u : BitVec 32) (h : HealthEntry) : (s.setHealth u h).slots = s.slots := rfl
@[simp] theorem State.setHealth_pool (s : State) (u : BitVec 32) (h : HealthEntry) : (s.setHealth u h).pool = s.pool := rfl
@[simp] theorem State.setHealth_framesOut (s : State) (u : BitVec 32) (h : HealthEntry) : (s.setHealth u h).framesOut = s.framesOut := rfl
@[simp] theorem State.setHealth_pagesOut (s : State) (u : BitVec 32) (h : HealthEntry) : (s.setHealth u h).pagesOut = s.pagesOut := rfl
@[simp] theorem State.setHealth_pagesFree (s : State) (u : BitVec 32) (h : HealthEntry) : (s.setHealth u h).pagesFree = s.pagesFree := rfl
@[simp] theorem State.setHealth_limbo (s : State) (u : BitVec 32) (h : HealthEntry) : (s.setHealth u h).limbo = s.limbo := rfl
@[simp] theorem State.setHealth_code (s : State) (u : BitVec 32) (h : HealthEntry) : (s.setHealth u h).code = s.code := rfl
@[simp] theorem State.setHealth_codeVer (s : State) (u : BitVec 32) (h : HealthEntry) : (s.setHealth u h).codeVer = s.codeVer := rfl
@[simp] theorem State.setHealth_objNext (s : State) (u : BitVec 32) (h : HealthEntry) : (s.setHealth u h).objNext = s.objNext := rfl
@[simp] theorem State.setHealth_objs (s : State) (u : BitVec 32) (h : HealthEntry) : (s.setHealth u h).objs = s.objs := rfl
@[simp] theorem State.setHealth_funcs (s : State) (u : BitVec 32) (h : HealthEntry) : (s.setHealth u h).funcs = s.funcs := rfl
@[simp] theorem State.setHealth_xlations (s : State) (u : BitVec 32) (h : HealthEntry) : (s.setHealth u h).xlations = s.xlations := rfl
@[simp] theorem State.setHealth_rolian (s : State) (u : BitVec 32) (h : HealthEntry) : (s.setHealth u h).rolian = s.rolian := rfl
@[simp] theorem State.setHealth_queues (s : State) (u : BitVec 32) (h : HealthEntry) : (s.setHealth u h).queues = s.queues := rfl
@[simp] theorem State.setHealth_admitQ (s : State) (u : BitVec 32) (h : HealthEntry) : (s.setHealth u h).admitQ = s.admitQ := rfl
@[simp] theorem State.setHealth_events (s : State) (u : BitVec 32) (h : HealthEntry) : (s.setHealth u h).events = s.events := rfl
@[simp] theorem State.setHealth_pend (s : State) (u : BitVec 32) (h : HealthEntry) : (s.setHealth u h).pend = s.pend := rfl
@[simp] theorem State.setHealth_launches (s : State) (u : BitVec 32) (h : HealthEntry) : (s.setHealth u h).launches = s.launches := rfl
@[simp] theorem State.setHealth_nextLid (s : State) (u : BitVec 32) (h : HealthEntry) : (s.setHealth u h).nextLid = s.nextLid := rfl
@[simp] theorem State.setHealth_batch (s : State) (u : BitVec 32) (h : HealthEntry) : (s.setHealth u h).batch = s.batch := rfl
@[simp] theorem State.setHealth_rejected (s : State) (u : BitVec 32) (h : HealthEntry) : (s.setHealth u h).rejected = s.rejected := rfl
@[simp] theorem State.setHealth_bindQ (s : State) (u : BitVec 32) (h : HealthEntry) : (s.setHealth u h).bindQ = s.bindQ := rfl
@[simp] theorem State.setHealth_dieSeen (s : State) (u : BitVec 32) (h : HealthEntry) : (s.setHealth u h).dieSeen = s.dieSeen := rfl
@[simp] theorem State.setHealth_rbLimit (s : State) (u : BitVec 32) (h : HealthEntry) : (s.setHealth u h).rbLimit = s.rbLimit := rfl
@[simp] theorem State.setHealth_scrubInt (s : State) (u : BitVec 32) (h : HealthEntry) : (s.setHealth u h).scrubInt = s.scrubInt := rfl
@[simp] theorem State.setHealth_scrubPos (s : State) (u : BitVec 32) (h : HealthEntry) : (s.setHealth u h).scrubPos = s.scrubPos := rfl
@[simp] theorem State.setHealth_scrubAt (s : State) (u : BitVec 32) (h : HealthEntry) : (s.setHealth u h).scrubAt = s.scrubAt := rfl
@[simp] theorem State.setHealth_refresh (s : State) (u : BitVec 32) (h : HealthEntry) : (s.setHealth u h).refresh = s.refresh := rfl
@[simp] theorem State.setHealth_msix (s : State) (u : BitVec 32) (h : HealthEntry) : (s.setHealth u h).msix = s.msix := rfl
@[simp] theorem State.setHealth_allot (s : State) (u : BitVec 32) (h : HealthEntry) : (s.setHealth u h).allot = s.allot := rfl
@[simp] theorem State.setHealth_vfs (s : State) (u : BitVec 32) (h : HealthEntry) : (s.setHealth u h).vfs = s.vfs := rfl
@[simp] theorem State.setHealth_hostErr (s : State) (u : BitVec 32) (h : HealthEntry) : (s.setHealth u h).hostErr = s.hostErr := rfl
@[simp] theorem State.setHealth_hostErrA (s : State) (u : BitVec 32) (h : HealthEntry) : (s.setHealth u h).hostErrA = s.hostErrA := rfl
@[simp] theorem State.setHealth_hostBad (s : State) (u : BitVec 32) (h : HealthEntry) : (s.setHealth u h).hostBad = s.hostBad := rfl
@[simp] theorem State.setHealth_mailbox (s : State) (u : BitVec 32) (h : HealthEntry) : (s.setHealth u h).mailbox = s.mailbox := rfl
@[simp] theorem State.setHealth_loads (s : State) (u : BitVec 32) (h : HealthEntry) : (s.setHealth u h).loads = s.loads := rfl
@[simp] theorem State.setHealth_bootErr (s : State) (u : BitVec 32) (h : HealthEntry) : (s.setHealth u h).bootErr = s.bootErr := rfl
@[simp] theorem State.setHealth_bootStage (s : State) (u : BitVec 32) (h : HealthEntry) : (s.setHealth u h).bootStage = s.bootStage := rfl
@[simp] theorem State.setHealth_secVer (s : State) (u : BitVec 32) (h : HealthEntry) : (s.setHealth u h).secVer = s.secVer := rfl
@[simp] theorem State.setHealth_timeCnt (s : State) (u : BitVec 32) (h : HealthEntry) : (s.setHealth u h).timeCnt = s.timeCnt := rfl
@[simp] theorem State.setHealth_timeLost (s : State) (u : BitVec 32) (h : HealthEntry) : (s.setHealth u h).timeLost = s.timeLost := rfl
@[simp] theorem State.setHealth_podValid (s : State) (u : BitVec 32) (h : HealthEntry) : (s.setHealth u h).podValid = s.podValid := rfl
@[simp] theorem State.setHealth_podBound (s : State) (u : BitVec 32) (h : HealthEntry) : (s.setHealth u h).podBound = s.podBound := rfl
@[simp] theorem State.setHealth_podHops (s : State) (u : BitVec 32) (h : HealthEntry) : (s.setHealth u h).podHops = s.podHops := rfl
@[simp] theorem State.setHealth_pkgBound (s : State) (u : BitVec 32) (h : HealthEntry) : (s.setHealth u h).pkgBound = s.pkgBound := rfl
@[simp] theorem State.setHealth_copies (s : State) (u : BitVec 32) (h : HealthEntry) : (s.setHealth u h).copies = s.copies := rfl
@[simp] theorem State.setHealth_pod (s : State) (u : BitVec 32) (h : HealthEntry) : (s.setHealth u h).pod = s.pod := rfl
@[simp] theorem State.setHealth_podMaster (s : State) (u : BitVec 32) (h : HealthEntry) : (s.setHealth u h).podMaster = s.podMaster := rfl
@[simp] theorem State.setHealth_peers (s : State) (u : BitVec 32) (h : HealthEntry) : (s.setHealth u h).peers = s.peers := rfl
@[simp] theorem State.setHealth_routes (s : State) (u : BitVec 32) (h : HealthEntry) : (s.setHealth u h).routes = s.routes := rfl
@[simp] theorem State.setHealth_windows (s : State) (u : BitVec 32) (h : HealthEntry) : (s.setHealth u h).windows = s.windows := rfl
@[simp] theorem State.setHealth_ports (s : State) (u : BitVec 32) (h : HealthEntry) : (s.setHealth u h).ports = s.ports := rfl
@[simp] theorem State.setHealth_flitRetries (s : State) (u : BitVec 32) (h : HealthEntry) : (s.setHealth u h).flitRetries = s.flitRetries := rfl
@[simp] theorem State.setHealth_errLog (s : State) (u : BitVec 32) (h : HealthEntry) : (s.setHealth u h).errLog = s.errLog := rfl
@[simp] theorem State.setHealth_errCount (s : State) (u : BitVec 32) (h : HealthEntry) : (s.setHealth u h).errCount = s.errCount := rfl
@[simp] theorem State.setHealth_spares (s : State) (u : BitVec 32) (h : HealthEntry) : (s.setHealth u h).spares = s.spares := rfl
@[simp] theorem State.setHealth_repairs (s : State) (u : BitVec 32) (h : HealthEntry) : (s.setHealth u h).repairs = s.repairs := rfl
@[simp] theorem State.setHealth_diesOn (s : State) (u : BitVec 32) (h : HealthEntry) : (s.setHealth u h).diesOn = s.diesOn := rfl
@[simp] theorem State.setHealth_clock (s : State) (u : BitVec 32) (h : HealthEntry) : (s.setHealth u h).clock = s.clock := rfl
@[simp] theorem State.setHealth_layers (s : State) (u : BitVec 32) (h : HealthEntry) : (s.setHealth u h).layers = s.layers := rfl
@[simp] theorem State.setHealth_agenda (s : State) (u : BitVec 32) (h : HealthEntry) : (s.setHealth u h).agenda = s.agenda := rfl
@[simp] theorem State.setHealth_core (s : State) (u : BitVec 32) (h : HealthEntry) : (s.setHealth u h).core = s.core := rfl
@[simp] theorem State.setHealth_onDie (s : State) (u : BitVec 32) (h : HealthEntry) : (s.setHealth u h).onDie = s.onDie := rfl
@[simp] theorem State.setHealth_slot (s : State) (u : BitVec 32) (h : HealthEntry) : (s.setHealth u h).slot = s.slot := rfl
@[simp] theorem State.setHealth_phase (s : State) (u : BitVec 32) (h : HealthEntry) : (s.setHealth u h).phase = s.phase := rfl
@[simp] theorem State.setHealth_verdict (s : State) (u : BitVec 32) (h : HealthEntry) : (s.setHealth u h).verdict = s.verdict := rfl
@[simp] theorem State.setHealth_failSlot (s : State) (u : BitVec 32) (h : HealthEntry) : (s.setHealth u h).failSlot = s.failSlot := rfl
@[simp] theorem State.setHealth_emptied (s : State) (u : BitVec 32) (h : HealthEntry) : (s.setHealth u h).emptied = s.emptied := rfl
@[simp] theorem State.setHealth_work (s : State) (u : BitVec 32) (h : HealthEntry) : (s.setHealth u h).work = s.work := rfl
@[simp] theorem State.setHealth_free (s : State) (u : BitVec 32) (h : HealthEntry) : (s.setHealth u h).free = s.free := rfl
@[simp] theorem State.setHealth_pace (s : State) (u : BitVec 32) (h : HealthEntry) : (s.setHealth u h).pace = s.pace := rfl

end Sys2Proof.Machine
end

