-- ==== Sys2Proof/Laws/Ops.lean ====
section
/-! SUPPORT. What each of the shared forms of an instruction can answer: `slotOp`, `plainOp` and `eventOp`, and how a state
in which an instruction acts enters its effect. -/

namespace Sys2Proof.Machine

/-! ### Instructions of a slot -/

/-- Where an instruction acts, it answers the state after its effect. -/
theorem slotOp_acts (chk : State → Verdict) (act : State → State) (s : State) (h : s.acts (chk s)) :
    slotOp chk act s = .next (act s) := by
  rcases h with h | ⟨h, hv⟩
  · simp [slotOp, h]
  · simp [slotOp, h, hv]

/-- Run alone with a failing check, it traps at its slot. -/
theorem slotOp_trap (chk : State → Verdict) (act : State → State) (s : State) (c : Cause) (tval tdata : Word)
    (hp : s.phase = .whole) (hc : chk s = .trap c tval tdata) : slotOp chk act s = .next (s.slotTrap c tval tdata) := by
  simp [slotOp, hp, hc]

/-- Run alone with something to wait for, it waits. -/
theorem slotOp_wait (chk : State → Verdict) (act : State → State) (s : State) (w : Wait)
    (hp : s.phase = .whole) (hc : chk s = .wait w) : slotOp chk act s = .next (s.slotWait w) := by
  simp [slotOp, hp, hc]

/-- In the pass of checks it adds its verdict and does nothing else. -/
theorem slotOp_probe (chk : State → Verdict) (act : State → State) (s : State) (hp : s.phase = .probe) :
    ∃ v sl, slotOp chk act s = .next { s with verdict := v, failSlot := sl } := by
  simp only [slotOp, hp]; exact ⟨_, _, rfl⟩

/-- Everything that an instruction of a slot can answer. -/
theorem slotOp_cases (chk : State → Verdict) (act : State → State) (s t : State) (h : slotOp chk act s = .next t) :
    (s.phase = .probe ∧ ∃ v sl, t = { s with verdict := v, failSlot := sl })
    ∨ (s.acts (chk s) ∧ t = act s)
    ∨ (s.phase = .whole ∧ ∃ c tval tdata, chk s = .trap c tval tdata ∧ t = s.slotTrap c tval tdata)
    ∨ (s.phase = .whole ∧ ∃ key n tval, chk s = .ue key n tval ∧ t = (s.noteUE key n).slotTrap .ue tval 0)
    ∨ (s.phase = .whole ∧ ∃ w, chk s = .wait w ∧ t = s.slotWait w) := by
  have hph : s.phase = .probe ∨ s.phase = .commit ∨ s.phase = .whole := by cases s.phase <;> simp
  obtain hp | hp | hp := hph
  · obtain ⟨v, sl, e⟩ := slotOp_probe chk act s hp
    rw [e] at h
    exact .inl ⟨hp, v, sl, by injection h with h; exact h.symm⟩
  · simp only [slotOp, hp] at h; cases h
    exact .inr (.inl ⟨.inl hp, rfl⟩)
  · simp only [slotOp, hp] at h
    cases hc : chk s with
    | ok => rw [hc] at h; cases h; exact .inr (.inl ⟨.inr ⟨hp, rfl⟩, rfl⟩)
    | trap c x y => rw [hc] at h; cases h; exact .inr (.inr (.inl ⟨hp, c, x, y, rfl, rfl⟩))
    | ue k n x => rw [hc] at h; cases h; exact .inr (.inr (.inr (.inl ⟨hp, k, n, x, rfl, rfl⟩)))
    | wait w => rw [hc] at h; cases h; exact .inr (.inr (.inr (.inr ⟨hp, w, rfl, rfl⟩)))
    | stop f => rw [hc] at h; cases h

/-- No instruction of a slot is refused. -/
theorem slotOp_not_refused (chk : State → Verdict) (act : State → State) (s : State) (r : Refusal) :
    slotOp chk act s ≠ .refused r := by
  unfold slotOp; split
  · simp
  · simp
  · split <;> simp

/-- An instruction that no check stops answers the state after its effect outside the pass of checks. -/
theorem plainOp_effective (act : State → State) (s : State) (h : s.effective) : plainOp act s = .next (act s) := by
  refine slotOp_acts _ _ _ ?_
  cases hp : s.phase with
  | probe => exact absurd hp h
  | commit => exact .inl hp
  | whole => exact .inr ⟨hp, rfl⟩

/-! ### Events -/

theorem eventOp_next (cond : State → Bool) (act : State → State) (s t : State) (h : eventOp cond act s = .next t) :
    t = s ∨ (cond s = true ∧ t = act s) := by
  unfold eventOp at h
  split at h
  · cases h; exact .inr ⟨‹_›, rfl⟩
  · cases h; exact .inl rfl

theorem eventOp_met (cond : State → Bool) (act : State → State) (s : State) (h : cond s = true) :
    eventOp cond act s = .next (act s) := by simp [eventOp, h]

theorem eventOp_unmet (cond : State → Bool) (act : State → State) (s : State) (h : cond s = false) :
    eventOp cond act s = .next s := by simp [eventOp, h]

/-! ### Results -/

/-- Sending a result changes the record of the executing context alone. -/
theorem State.send_ctx (s : State) (out : Deliver) (lv : Word) (lat : Nat) (fl vf : BitVec 5) (arrived : Bool) :
    ∃ y, s.send out lv lat fl vf arrived = s.setCtx s.core y := ⟨_, rfl⟩

end Sys2Proof.Machine
end

