-- ==== Sys2Proof/Laws/Step.lean ====
section
/-! SUPPORT. Everything a step can be: the row at the head of the agenda, or the arbiter's, run whole; then the operations
that it leaves, in their two passes. -/

namespace Sys2Proof.Machine

/-- The row a step runs, and the state it starts from. -/
def State.stepRow (s : State) : Instr × State :=
  match s.agenda with
  | i :: rest => (i, State.tick { s with agenda := rest })
  | [] => (s.nextActivity, s.tick)

theorem step_eq (s : State) : step s = runRow s.stepRow.1 s.stepRow.2 := by
  cases ha : s.agenda <;> simp only [step, State.stepRow, ha]

/-- A row answers its own next state, or leaves operations that end the step. -/
theorem runRow_next (i : Instr) (s t : State) (h : runRow i s = .next t) :
    ∃ v, exec i { s with phase := .whole, verdict := .ok, work := [] } = .next v
      ∧ ((v.work = [] ∧ t = v) ∨ (v.work ≠ [] ∧ runWork s v = .next t)) := by
  unfold runRow at h
  split at h
  · rename_i v hv
    refine ⟨v, hv, ?_⟩
    split at h
    · cases h; exact .inl ⟨List.isEmpty_iff.mp ‹_›, rfl⟩
    · exact .inr ⟨fun e => ‹¬_› (by simp [e]), h⟩
  · cases h
  · cases h

/-- The operations of a bundle or packet end it with their effects, with what the first failing check does, or, where
something is pending, with its delivery in place of the bundle. -/
theorem runWork_next (s w t : State) (h : runWork s w = .next t) :
    (∃ q, runSlots (workOrder w.work) { w with work := [], phase := .commit } = .next q
      ∧ t = State.finishWork { q with phase := .whole, work := [] })
    ∨ (∃ p, runSlots (workOrder w.work) { w with work := [], phase := .probe, verdict := .ok, emptied := none } = .next p
      ∧ p.verdict ≠ .ok ∧ t = s.failWork p)
    ∨ t = s.beforeBundle w.core := by
  unfold runWork at h
  simp only at h
  split at h
  · split at h
    · cases h
    · cases h
    · cases h; exact .inl ⟨_, ‹_›, rfl⟩
  · split at h
    · cases h
    · cases h
    · rename_i p hp
      split at h
      · cases h
      · split at h
        · cases h; exact .inr (.inr rfl)
        · split at h
          · cases h
          · cases h
          · cases h; exact .inl ⟨_, ‹_›, rfl⟩
      · cases h
        exact .inr (.inl ⟨p, hp, fun e => by simp_all, rfl⟩)

/-- A property that every operation keeps, the operations of a bundle or packet keep. -/
theorem runSlots_keeps (P : State → Prop) (hs : ∀ u sl, P u → P { u with slot := sl })
    (hh : ∀ u, P u → P u.holdBack) (he : ∀ i u v, P u → exec i u = .next v → P v) : ∀ l u v, P u → runSlots l u = .next v → P v := by
  intro l
  induction l with
  | nil => intro u v hu h; cases h; exact hu
  | cons e rest ih =>
    obtain ⟨sl, i⟩ := e
    intro u v hu h
    unfold runSlots at h
    split at h
    · cases h; exact hh u hu
    · split at h
      · rename_i w hw
        exact ih w v (he i _ w (hs u sl hu) hw) h
      · cases h
      · cases h

/-- An invariant of `exec`, of the fields that a step sets around it, and of how bundles end and fail, is one of `step`. -/
theorem step_keeps (P : State → Prop)
    (hstart : ∀ s, P s → P { s.stepRow.2 with phase := .whole, verdict := .ok, work := [] })
    (htick : ∀ s, P s → P s.stepRow.2)
    (hexec : ∀ i u v, P u → exec i u = .next v → P v)
    (hslot : ∀ u sl, P u → P { u with slot := sl })
    (hhold : ∀ u, P u → P u.holdBack)
    (hpass : ∀ u, P u → P { u with work := [], phase := .commit }
      ∧ P { u with work := [], phase := .probe, verdict := .ok, emptied := none })
    (hend : ∀ u, P u → P (State.finishWork { u with phase := .whole, work := [] }))
    (hfail : ∀ u p, P u → P (u.failWork p))
    (hnotice : ∀ u c, P u → P (u.beforeBundle c)) :
    ∀ s t, P s → step s = .next t → P t := by
  intro s t hs h
  rw [step_eq] at h
  obtain ⟨v, hv, hcase⟩ := runRow_next _ _ _ h
  have pv := hexec _ _ _ (hstart s hs) hv
  rcases hcase with ⟨_, rfl⟩ | ⟨_, hw⟩
  · exact pv
  · rcases runWork_next _ _ _ hw with ⟨q, hq, rfl⟩ | ⟨p, _, _, rfl⟩ | rfl
    · exact hend q (runSlots_keeps P hslot hhold hexec _ _ _ (hpass v pv).1 hq)
    · exact hfail _ p (htick s hs)
    · exact hnotice _ _ (htick s hs)

end Sys2Proof.Machine
end

