-- ==== Sys2Proof/Laws/Storage.lean ====
section
/-! SUPPORT. Every operation on the storage of a state keeps the canonical form of its memory, and what reads of storage log
changes no byte. -/

namespace Sys2Proof.Machine

/-- A property that a list of updates keeps, one after another. -/
theorem foldl_keeps {α β : Type} (P : β → Prop) (f : β → α → β) (h : ∀ b a, P b → P (f b a)) (l : List α) :
    ∀ b, P b → P (l.foldl f b) := by
  induction l with
  | nil => intro b hb; exact hb
  | cons a rest ih => intro b hb; exact ih _ (h b a hb)

/-! ### Reads -/

@[simp] theorem State.wakeLayers_mem (s : State) (p : LayerPower → Bool) (k n : Nat) : (s.wakeLayers p k n).mem = s.mem := by
  unfold State.wakeLayers; split <;> rfl
@[simp] theorem State.raiseLayer_mem (s : State) (k n : Nat) : (s.raiseLayer k n).mem = s.mem := State.wakeLayers_mem s _ k n
@[simp] theorem State.powerOn_mem (s : State) (p n : Nat) : (s.powerOn p n).mem = s.mem := State.wakeLayers_mem s _ _ n

@[simp] theorem State.logError_mem (s : State) (r : ErrRec) : (s.logError r).mem = s.mem := rfl

@[simp] theorem State.suspectUnit_mem (s : State) (u : BitVec 32) : (s.suspectUnit u).mem = s.mem := by
  unfold State.suspectUnit; simp only; split <;> rfl

@[simp] theorem State.countCorrected_mem (s : State) (u : BitVec 32) : (s.countCorrected u).mem = s.mem := by
  unfold State.countCorrected; simp only; split <;> simp

@[simp] theorem State.noteWord_mem (s : State) (b : ReadBy) (w : Nat) : (s.noteWord b w).mem = s.mem := by
  unfold State.noteWord
  dsimp only
  cases s.eccWord w <;> dsimp only
  · rw [apply_ite State.mem]; simp
  · simp

@[simp] theorem State.noteRead_mem (s : State) (b : ReadBy) (k n : Nat) : (s.noteRead b k n).mem = s.mem := by
  unfold State.noteRead
  simp only
  split
  · simp
  · exact foldl_keeps (fun t : State => t.mem = s.mem) _ (fun t w h => by simpa using h) _ _ (by simp)

@[simp] theorem State.mend_mem (s : State) (p : Cell → Bool) : (s.mend p).mem = s.mem := by
  unfold State.mend; split <;> rfl

@[simp] theorem State.noteCell_mem (s : State) (b : ReadBy) (e : Cell × Byte) : (s.noteCell b e).mem = s.mem := by
  unfold State.noteCell
  dsimp only
  split
  · simp
  · split <;> simp

@[simp] theorem State.noteCells_mem (s : State) (b : ReadBy) (p : Cell → Bool) : (s.noteCells b p).mem = s.mem :=
  foldl_keeps (fun t : State => t.mem = s.mem) _ (fun t e h => by simpa using h) _ _ rfl

@[simp] theorem State.setL1_mem (s : State) (c : CoreId) (m : PMap CacheByte) : (s.setL1 c m).mem = s.mem := by
  unfold State.setL1; cases c <;> exact State.mend_mem s _

@[simp] theorem State.setL2_mem (s : State) (m : PMap Byte) : (s.setL2 m).mem = s.mem := State.mend_mem s _

@[simp] theorem State.leaveCells_mem (s : State) (p : Cell → Bool) : (s.leaveCells p).1.mem = s.mem := by
  unfold State.leaveCells; split <;> simp

@[simp] theorem State.l2Sparse_mem (s : State) (m : PMap Byte) : (s.l2Sparse m).mem = s.mem := by
  unfold State.l2Sparse; dsimp only; rw [State.setL2_mem]; split <;> simp

@[simp] theorem State.spoil_mem (s : State) (k : Nat) (b : Byte) : (s.spoil k b).mem = s.mem := rfl

@[simp] theorem State.spoilAll_mem (l : List (Nat × Byte)) (s : State) :
    (l.foldl (fun (s : State) e => s.spoil (hbmKey (8 * e.1)) e.2) s).mem = s.mem :=
  foldl_keeps (fun t : State => t.mem = s.mem) (fun (t : State) e => t.spoil (hbmKey (8 * e.1)) e.2) (fun _ _ h => h) l s rfl

/-! ### Stores -/

theorem State.wf_cleanWord (s : State) (y : ReadBy) (b : Bool) (w : Nat) (h : Memory.wf s.mem = true) :
    Memory.wf (s.cleanWord y b w).mem = true := by
  unfold State.cleanWord
  split
  · exact h
  · dsimp only
    refine Memory.wf_writeNat _ _ _ _ ?_
    split <;> simpa using h
  · split <;> exact h

theorem State.wf_storeBytes (s : State) (k : Nat) (bs : List Byte) (h : Memory.wf s.mem = true) :
    Memory.wf (s.storeBytes k bs).mem = true := by
  unfold State.storeBytes
  refine Memory.wf_writeBytes _ _ _ ?_
  split
  · simpa using h
  · refine foldl_keeps (fun t : State => Memory.wf t.mem = true) _ ?_ _ _ (by simpa using h)
    exact fun t w hw => State.wf_cleanWord t _ _ w hw

theorem State.wf_storeSparse (s : State) (m : PMap Byte) (h : Memory.wf s.mem = true) :
    Memory.wf (s.storeSparse m).mem = true := by
  unfold State.storeSparse
  refine foldl_keeps (fun t : State => Memory.wf t.mem = true) _ ?_ m s h
  intro t e ht
  refine Memory.wf_writeByte _ _ _ ?_
  split
  · simpa using ht
  · exact State.wf_cleanWord _ _ _ _ (by simpa using ht)

theorem State.wf_dramSparse (s : State) (m : PMap Byte) (h : Memory.wf s.mem = true) :
    Memory.wf (s.dramSparse m).mem = true := by
  unfold State.dramSparse; simpa using State.wf_storeSparse s _ h

theorem State.wf_sendDown (s : State) (c : CoreId) (m : PMap Byte) (l : List (Nat × Byte)) (h : Memory.wf s.mem = true) :
    Memory.wf (s.sendDown c m l).mem = true := by
  unfold State.sendDown
  split
  · simpa using State.wf_dramSparse s m h
  · simpa using h

theorem State.wf_putCells (s : State) (lo n : Nat) (m e : PMap Byte) (h : Memory.wf s.mem = true) :
    Memory.wf (s.putCells lo n m e).mem = true :=
  foldl_keeps (fun a => Memory.wf a = true) _ (fun a _ ha => Memory.wf_writeByte a _ _ ha) m _ (Memory.wf_filter _ _ h)

theorem State.wf_rewriteNext (s : State) (h : Memory.wf s.mem = true) : Memory.wf s.rewriteNext.mem = true := by
  unfold State.rewriteNext
  split
  · exact h
  · simp only
    split
    · exact Memory.wf_writeNat _ _ _ _ (by simpa using h)
    · simpa using h

theorem State.wf_setLayer (s : State) (st ly : Nat) (p : LayerPower) (h : Memory.wf s.mem = true) :
    Memory.wf (s.setLayer st ly p).mem = true := by
  unfold State.setLayer
  simp only
  split
  · exact Memory.wf_filter _ _ h
  · exact h

/-- An L1's bytes of a range written back and dropped. -/
theorem State.wf_flushRange (s : State) (c : CoreId) (p n : Nat) (h : Memory.wf s.mem = true) :
    Memory.wf (s.flushRange c p n).mem = true := State.wf_sendDown _ _ _ _ (by
    rw [State.setL1_mem, State.leaveCells_mem]; exact h)

theorem State.wf_bareWord (s : State) (pl : Place) (h : Memory.wf s.mem = true) : Memory.wf (s.bareWord pl).mem = true := by
  unfold State.bareWord
  split
  · simpa using State.wf_dramSparse _ _ (by simpa using State.wf_flushRange s _ _ _ h)
  · exact h

theorem State.wf_storeChecked (s : State) (pl : Place) (d : Word) (c : Byte) (h : Memory.wf s.mem = true) :
    Memory.wf (s.storeChecked pl d c).mem = true :=
  Memory.wf_writeNat _ _ _ _ (by simpa using State.wf_bareWord s pl h)

end Sys2Proof.Machine
end

