-- ==== Sys2Proof/Tests/Slice0.lean ====
section
/-! SUPPORT. The model's own tests: words written out from the encodings of the manual and what they decode to, terms that
well-formedness refuses, single steps, and for every claim a state and operands that meet its hypotheses. -/

set_option Elab.async false

namespace Sys2Proof.Tests

open Sys2Proof Sys2Proof.Machine Sys2Proof.Claims

/-! ### Small states -/

/-- A running task of a partition of one die on sequencer context 0. -/
def seq0 : State := State.reset.placeTask (.seq 0) 4

/-- A running task on cellar context 0. -/
def cel0 : State := { State.reset.placeTask (.cel 0) 4 with core := .cel 0 }

/-- The task of a context has become non-idempotent. -/
def nonidem (s : State) : State := s.updTask (s.taskId s.core) (fun x => { x with nonidem := true })

/-- Scalar registers of a context that hold given values. -/
def withRegs (s : State) (l : List (Nat × Word)) : State := s.updCtx s.core (fun x => { x with regs := l })

/-- Page tables that map the page at 0x20_0000 to HBM and the first page of region 0x8 to host memory. -/
def pageTables : List Host.Cell :=
  [(0x10000, 1), (0x10001, 0x10), (0x10002, 1), (0x10400, 1), (0x10401, 0x40), (0x10402, 1), (0x11000, 1), (0x11001, 0x20),
   (0x11002, 1), (0x12000, 1), (0x12001, 0x30), (0x12002, 1), (0x13008, 7), (0x1300A, 0x20), (0x14000, 1), (0x14001, 0x50),
   (0x14002, 1), (0x15000, 1), (0x15001, 0x60), (0x15002, 1), (0x16000, 7), (0x16006, 0x10)]

/-- The physical function's address space has those tables. -/
def mapped (s : State) : State := { s with roots := [(0, 0x10000)], mem := pageTables }

/-- Die 0 executes a packet of context 0 that carries scalar values. -/
def die0 (va vb : Word) : State :=
  { seq0.updDctx { die := 0, k := 0 } (fun x => { x with packet := some { Packet.empty with
      no := 1, va, xa := va, pa := va, pb := vb, ca := va, cb := vb, dieEn := 1 } })
    with onDie := some { die := 0, k := 0 }, slot := .v }

/-- The executing die owns the banks that are named. -/
def owning (s : State) (l : List Nat) : State :=
  s.updDie 0 (fun x => { x with banks := l.map (fun b => (b, .owned { lid := 0, wid := 0 } none)) })

/-- ADD s1, s2, s3, the example of the scalar chapter. -/
def addIns : Instr := .add { w := 0, sgn := true, d := 1, nw := false, a := .reg 2, b := .reg 3 }

/-! ### Decoding: words built from the field tables of the encoding chapters, with their operands written beside them -/

/-- Every word of a list decodes to the instruction beside it. -/
def decodesTo (mp : OpMap) (l : List (Word32 × Instr)) : Bool := l.all fun e => (decodeMap mp e.1 0).toOption == some e.2

/-- Words of the S map, from the encodings of its chapter. -/
theorem test_decode_integer : decodesTo .s [
    (0x0282C343, .add { w := 2, sgn := true, d := 5, nw := true, a := .reg 6, b := .latch 3 }),
    (0x0682C343, .sub { w := 2, sgn := true, d := 5, nw := true, a := .reg 6, b := .latch 3 }),
    (0x0A82C343, .mul { w := 2, sgn := true, d := 5, nw := true, a := .reg 6, b := .latch 3 }),
    (0x0E82C343, .mulh { w := 2, sgn := true, d := 5, nw := true, a := .reg 6, b := .latch 3 }),
    (0x1282C343, .div { w := 2, sgn := true, d := 5, nw := true, a := .reg 6, b := .latch 3 }),
    (0x1682C343, .rem { w := 2, sgn := true, d := 5, nw := true, a := .reg 6, b := .latch 3 }),
    (0x1A82C343, .and { w := 2, sgn := true, d := 5, nw := true, a := .reg 6, b := .latch 3 }),
    (0x1E82C343, .or { w := 2, sgn := true, d := 5, nw := true, a := .reg 6, b := .latch 3 }),
    (0x2282C343, .xor { w := 2, sgn := true, d := 5, nw := true, a := .reg 6, b := .latch 3 }),
    (0x2682C343, .andn { w := 2, sgn := true, d := 5, nw := true, a := .reg 6, b := .latch 3 }),
    (0x2A82C343, .shl { w := 2, sgn := true, d := 5, nw := true, a := .reg 6, b := .latch 3 }),
    (0x2E82C343, .shr { w := 2, sgn := true, d := 5, nw := true, a := .reg 6, b := .latch 3 }),
    (0x3282C343, .sar { w := 2, sgn := true, d := 5, nw := true, a := .reg 6, b := .latch 3 }),
    (0x3682C343, .ror { w := 2, sgn := true, d := 5, nw := true, a := .reg 6, b := .latch 3 }),
    (0x3A82C343, .min { w := 2, sgn := true, d := 5, nw := true, a := .reg 6, b := .latch 3 }),
    (0x3E82C343, .max { w := 2, sgn := true, d := 5, nw := true, a := .reg 6, b := .latch 3 })] = true := by decide +kernel

/-- Words of the S map, from the encodings of its chapter. -/
theorem test_decode_scalar_fields : decodesTo .s [
    (0x421479A5, .addi { d := 33, nw := false, a := .latch 7, imm := 2469 }),
    (0x461479A5, .andi { d := 33, nw := false, a := .latch 7, imm := 2469 }),
    (0x4A1479A5, .ori { d := 33, nw := false, a := .latch 7, imm := 2469 }),
    (0x4E1479A5, .xori { d := 33, nw := false, a := .latch 7, imm := 2469 }),
    (0x52147029, .shli { d := 33, nw := false, a := .latch 7, sh := 41 }),
    (0x56147029, .shri { d := 33, nw := false, a := .latch 7, sh := 41 }),
    (0x5A147029, .sari { d := 33, nw := false, a := .latch 7, sh := 41 }),
    (0x62A58307, .cmp { cond := 5, w := 1, q := 11, nw := false, a := .reg 6, b := .reg 7 }),
    (0x64B06DF3, .cmpi { cond := 6, q := 11, nw := false, a := .reg 6, imm := 499 }),
    (0x68C5E041, .plog { tt := 6, q := 11, nw := true, a := .latch 0, b := .latch 1 }),
    (0x6F22C343, .sel { neg := true, q := 9, d := 5, nw := true, a := .reg 6, b := .latch 3 }),
    (0x70586A17, .bext { pos := 40, n1 := 23, d := 5, nw := true, a := .reg 6 }),
    (0x74586A17, .bins { pos := 40, n1 := 23, d := 5, nw := true, a := .reg 6 }),
    (0x7B42C300, .bcnt { w := 3, kind := .ctz, d := 5, nw := true, a := .reg 6 }),
    (0x7C62C343, .lea { sc := 3, d := 5, nw := true, a := .reg 6, b := .latch 3 })] = true := by decide +kernel

/-- Words of the S map, from the encodings of its chapter. -/
theorem test_decode_floating_point : decodesTo .s [
    (0x8022C343, .fadd { dbl := true, d := 5, nw := true, a := .reg 6, b := .latch 3 }),
    (0x8422C343, .fsub { dbl := true, d := 5, nw := true, a := .reg 6, b := .latch 3 }),
    (0x8822C343, .fmul { dbl := true, d := 5, nw := true, a := .reg 6, b := .latch 3 }),
    (0x8CA2C343, .fma { var := 2, dbl := true, d := 5, nw := true, a := .reg 6, b := .latch 3 }),
    (0x9022C343, .fdiv { dbl := true, d := 5, nw := true, a := .reg 6, b := .latch 3 }),
    (0x9422C300, .fsqrt { dbl := true, d := 5, nw := true, a := .reg 6 }),
    (0x9822C343, .fmin { dbl := true, d := 5, nw := true, a := .reg 6, b := .latch 3 }),
    (0x9C22C343, .fmax { dbl := true, d := 5, nw := true, a := .reg 6, b := .latch 3 }),
    (0xA1258307, .fcmp { cond := .ne, dbl := true, q := 11, nw := false, a := .reg 6, b := .reg 7 }),
    (0xA422C300, .fclass { dbl := true, d := 5, nw := true, a := .reg 6 }),
    (0xA8A2C343, .fsgn { kind := .jx, dbl := true, d := 5, nw := true, a := .reg 6, b := .latch 3 }),
    (0xADA2C300, .cvtif { sgn := true, w := 2, dbl := true, d := 5, nw := true, a := .reg 6 }),
    (0xB2A2C300, .cvtfi { rtz := true, sgn := false, w := 2, dbl := true, d := 5, nw := true, a := .reg 6 }),
    (0xB422C300, .cvtff { dbl := true, d := 5, nw := true, a := .reg 6 })] = true := by decide +kernel

/-- Words of the M map, from the encodings of its chapter. -/
theorem test_decode_memory : decodesTo .m [
    (0x01850DF0, .ld { ty := .s32, d := 5, a := .reg 6, imm := 496 }),
    (0x04450DF0, .st { z := 1, d := 5, a := .reg 6, imm := 496 }),
    (0x09850DF0, .lds { ty := .s32, d := 5, a := .reg 6, imm := 496 }),
    (0x0C450DF0, .sts { z := 1, d := 5, a := .reg 6, imm := 496 }),
    (0x20C50C1C, .aadd { big := true, sgn := false, d := 5, a := .reg 6, b := .reg 7 }),
    (0x24C50C1C, .aand { big := true, sgn := false, d := 5, a := .reg 6, b := .reg 7 }),
    (0x28C50C1C, .aor { big := true, sgn := false, d := 5, a := .reg 6, b := .reg 7 }),
    (0x2CC50C1C, .axor { big := true, sgn := false, d := 5, a := .reg 6, b := .reg 7 }),
    (0x31C50C1C, .amin { big := true, sgn := true, d := 5, a := .reg 6, b := .reg 7 }),
    (0x35C50C1C, .amax { big := true, sgn := true, d := 5, a := .reg 6, b := .reg 7 }),
    (0x38C50C1C, .axch { big := true, sgn := false, d := 5, a := .reg 6, b := .reg 7 }),
    (0x3CC50C1C, .acas { big := true, sgn := false, d := 5, a := .reg 6, b := .reg 7 }),
    (0x42C50C1C, .afadd { dbl := true, d := 5, a := .reg 6, b := .reg 7 }),
    (0x46C50C1C, .afmax { dbl := true, d := 5, a := .reg 6, b := .reg 7 })] = true := by decide +kernel

/-- Words of the M map, from the encodings of its chapter. -/
theorem test_decode_flags_and_registers : decodesTo .m [
    (0x61400000, .fenceSc .sys),
    (0x65400000, .release .sys),
    (0x69400000, .acquire .sys),
    (0x6C000000, .drain),
    (0x70850D49, .fset { remote := true, rel := true, off := 9, d := 5, a := .reg 6 }),
    (0x75850D89, .ftest { sgn := true, remote := true, acq := true, off := 9, d := 5, a := .reg 6 }),
    (0x79850DA9, .fwait { sgn := true, remote := true, acq := true, eq := true, off := 9, d := 5, a := .reg 6 }),
    (0x7C850D49, .finc { remote := true, rel := true, off := 9, d := 5, a := .reg 6 }),
    (0x80C50028, .csrr 5 0x28),
    (0x84C00C18, .csrw 0x18 (.reg 6)),
    (0x88C00C18, .csrs 0x18 (.reg 6)),
    (0x8CC00C18, .csrc 0x18 (.reg 6)),
    (0x90C50C1C, .dstchk 5 (.reg 6) (.reg 7)),
    (0x94050C00, .drdchk true 5 (.reg 6)),
    (0x98C08104, .cmpt true (.latch 0) (.latch 1))] = true := by decide +kernel

/-- Words of the B map, from the encodings of its chapter. -/
theorem test_decode_control : decodesTo .b [
    (0x027FFFFB, .br 9 true true 0xFFFFB),
    (0x07000001, .jmp 0x3000001),
    (0x0B000001, .jmpl 0x3000001),
    (0x0C000300, .jr (.reg 6)),
    (0x1002C300, .jrl 5 true (.reg 6)),
    (0x16AF0307, .jt 0xABC (.reg 6) (.reg 7)),
    (0x1AFBBC30, .callf 0xBEEF (.reg 6)),
    (0x1C000300, .ret (.reg 6)),
    (0x22868300, .loop 2 33 5 (.reg 6)),
    (0x2686C321, .loopi 2 33 5 0x4321),
    (0x28400000, .lexit 2),
    (0x2C000300, .rep (.reg 6)),
    (0x30000ABC, .repi 0xABC),
    (0x40000ABC, .trap 0xABC),
    (0x44000000, .eret),
    (0x48000000, .yieldCore),
    (0x48200000, .yieldSched),
    (0x4C02C300, .launch 5 true (.reg 6)),
    (0x50000000, .halt),
    (0x54000ABC, .bkpt 0xABC)] = true := by decide +kernel

/-- Words of the V map, from the encodings of its chapter. -/
theorem test_decode_vector_arithmetic : decodesTo .v [
    (0x002996E8, .vadd { sat := true, o := { vd := 9, va := 18, vb := 27, m := 5, t := .i32 } }),
    (0x042996E8, .vsub { sat := true, o := { vd := 9, va := 18, vb := 27, m := 5, t := .i32 } }),
    (0x082996E8, .vmul { sat := true, o := { vd := 9, va := 18, vb := 27, m := 5, t := .i32 } }),
    (0x0C0996EC, .vmulh { vd := 9, va := 18, vb := 27, m := 5, t := .i16x2 }),
    (0x106996EA, .vfma { var := 3, o := { vd := 9, va := 18, vb := 27, m := 5, t := .f32 } }),
    (0x140996EB, .vdiv { vd := 9, va := 18, vb := 27, m := 5, t := .bf16x2 }),
    (0x180996E9, .vmin { vd := 9, va := 18, vb := 27, m := 5, t := .z32 }),
    (0x1C0996E9, .vmax { vd := 9, va := 18, vb := 27, m := 5, t := .z32 }),
    (0x200996E9, .vand { vd := 9, va := 18, vb := 27, m := 5, t := .z32 }),
    (0x240996E9, .vor { vd := 9, va := 18, vb := 27, m := 5, t := .z32 }),
    (0x280996E9, .vxor { vd := 9, va := 18, vb := 27, m := 5, t := .z32 }),
    (0x2C0996EC, .vshl { vd := 9, va := 18, vb := 27, m := 5, t := .i16x2 }),
    (0x300996EC, .vshr { vd := 9, va := 18, vb := 27, m := 5, t := .i16x2 }),
    (0x340996EC, .vsar { vd := 9, va := 18, vb := 27, m := 5, t := .i16x2 }),
    (0x38A9902D, .vuna { kind := .clz, vd := 9, va := 18, m := 5, t := .i8x4 }),
    (0x3C2996ED, .vqadd { sat := true, o := { vd := 9, va := 18, vb := 27, m := 5, t := .i8x4 } })] = true := by decide +kernel

/-- Words of the V map, from the encodings of its chapter. -/
theorem test_decode_vector_forms : decodesTo .v [
    (0x4229906A, .vadds { sat := true, o := { t := .i16x2, vd := 9, va := 18, a := .reg 6, m := 5 } }),
    (0x4669906A, .vsubs { rev := true, sat := true, o := { t := .i16x2, vd := 9, va := 18, a := .reg 6, m := 5 } }),
    (0x4A29906A, .vmuls { sat := true, o := { t := .i16x2, vd := 9, va := 18, a := .reg 6, m := 5 } }),
    (0x4F49906A, .vfmas { var := 2, o := { t := .f16x2, vd := 9, va := 18, a := .reg 6, m := 5 } }),
    (0x5189906A, .vmins { t := .bf16x2, vd := 9, va := 18, a := .reg 6, m := 5 }),
    (0x5589906A, .vmaxs { t := .bf16x2, vd := 9, va := 18, a := .reg 6, m := 5 }),
    (0x5A49906A, .vshls { kind := .a, o := { t := .i16x2, vd := 9, va := 18, a := .reg 6, m := 5 } }),
    (0x5C29906A, .vbcast { lane := true, vd := 9, va := 18, a := .reg 6, m := 5 }),
    (0x608396EA, .vcmp { cond := .un, md := 3, va := 18, vb := 27, m := 5, t := .f32 }),
    (0x6563906A, .vcmps { t := .f32, cond := .gt, md := 3, va := 18, a := .reg 6, m := 5 }),
    (0x686996EE, .vsel { sel := 3, vd := 9, va := 18, vb := 27, m := 5, t := .f16x2 }),
    (0x6D2330A8, .vmlog { tt := 9, md := 3, ma := 6, mb := 2, m := 5 }),
    (0x7349902D, .vcvt { dt := .f32, e := 3, vd := 9, va := 18, vb := 0, m := 5, t := .i8x4 }),
    (0x7489902A, .vspec { kind := .log2, vd := 9, va := 18, m := 5 }),
    (0x78439029, .vred { kind := .min, kd := 3, va := 18, m := 5, t := .z32 }),
    (0x7C639060, .vkset (.lane 3 18 (.reg 6)))] = true := by decide +kernel

/-- Words of the V map, from the encodings of its chapter. -/
theorem test_decode_vector_memory : decodesTo .v [
    (0x8009006A, .vld { vd := 9, a := .reg 6, m := 5 }),
    (0x8409006A, .vst { vd := 9, a := .reg 6, m := 5 }),
    (0x8829948A, .vldl { x := true, vd := 9, va := 18, a := .held, m := 5 }),
    (0x8C29948A, .vstl { x := true, vd := 9, va := 18, a := .held, m := 5 }),
    (0x9069906A, .vgath { sc := 3, vd := 9, va := 18, a := .reg 6, m := 5 }),
    (0x9469906A, .vscat { sc := 3, vd := 9, va := 18, a := .reg 6, m := 5 }),
    (0x9809006A, .vldc { vd := 9, a := .reg 6, m := 5 }),
    (0x9C09006A, .vstc { vd := 9, a := .reg 6, m := 5 }),
    (0xA2C9006A, .vard { mode := .mhi, tile := 6, vd := 9, a := .reg 6, m := 5 }),
    (0xA6C9006A, .vawr { mode := .mhi, tile := 6, vd := 9, a := .reg 6, m := 5 }),
    (0xA8E39060, .vqnt { fmt := .n4x, t32 := true, kd := 3, va := 18, a := .reg 6 }),
    (0xAC292860, .vdqnt { base := some 5, t32 := false, vd := 9, a := .reg 6 }),
    (0xB0E39060, .vbscl { fmt := .n4x, t32 := true, kd := 3, va := 18, a := .reg 6 }),
    (0xB4400060, .vflg (.sat (.reg 6))),
    (0xB8200060, .vsig (.set (.reg 6))),
    (0xBC690028, .vlane { kind := .glob, vd := 9, m := 5 }),
    (0xC029948A, .vldf { x := true, vd := 9, va := 18, a := .held, m := 5 }),
    (0xC429948A, .vstf { x := true, vd := 9, va := 18, a := .held, m := 5 }),
    (0xCB69906A, .vamo { kind := .max, sgn := true, o := { x := true, vd := 9, va := 18, a := .reg 6, m := 5 } })] = true := by decide +kernel

/-- Words of the X map, from the encodings of its chapter. -/
theorem test_decode_matrix : decodesTo .x [
    (0x0430A800, .ntrd { act := true, n := 2, w := 16, kd := 5 }),
    (0x08100000, .mgo 2),
    (0x0C100000, .mwait (some 2)),
    (0x13700000, .mprec { n := 2, fa := .n4x, fb := .b16, t32 := true }),
    (0x20060000, .azero 6),
    (0x24260006, .aload { f32 := true, tile := 6, a := .reg 6 }),
    (0x2946A006, .astore { fmt := .bf16, base := some 5, tile := 6, a := .reg 6 }),
    (0x2C260986, .aexp { row := some 19, tile := 6, a := .reg 6 }),
    (0x30260006, .arenorm { h := true, tile := 6, a := .reg 6 }),
    (0x3406A980, .ahead { row := some 19, kd := 5, tile := 6 }),
    (0x3806A980, .aevt { row := some 19, kd := 5, tile := 6 }),
    (0x3C00A180, .ares { kd := some 5, q := 3 })] = true := by decide +kernel

/-- Words of the P map, from the encodings of its chapter. -/
theorem test_decode_barrier : decodesTo .p [
    (0x00C00300, .ptld 6 (.reg 6)),
    (0x04C08300, .perm 6 2 (.reg 6)),
    (0x08008307, .pshr { sz := 2, a := .reg 6, b := .reg 7 }),
    (0x0C008307, .pxch { sz := 2, a := .reg 6, b := .reg 7 }),
    (0x10008307, .pbcd { sz := 2, a := .reg 6, b := .reg 7 }),
    (0x15174000, .rred { kind := .min, cls := .s, big := true, k := 5, rt := 3 }),
    (0x18030000, .rsync 3),
    (0x1C630000, .sigchk { t := true, clr := true, rt := 3 })] = true := by decide +kernel

/-- Words of the C map, from the encodings of its chapter. -/
theorem test_decode_copies : decodesTo .c [
    (0x0355E06D, .xlate { x := 6, tid := 0xABC, a := .reg 6, cnt := 13 }),
    (0x043A0307, .tcin true { x := 6, e := true, a := .reg 6, b := .reg 7 }),
    (0x081A0307, .tcout { x := 6, e := true, a := .reg 6, b := .reg 7 }),
    (0x0D620307, .hcopy { out := true, z := 5, e := true, a := .reg 6, b := .reg 7 }),
    (0x11620307, .lcopy { out := true, z := 5, e := true, a := .reg 6, b := .reg 7 }),
    (0x14420000, .cwait { all := false, s := true, e := true }),
    (0x18000300, .townP (.reg 6)),
    (0x18200300, .townE (.reg 6)),
    (0x22C00307, .cbinit { cb := 6, wp := false, rp := true, a := .reg 6, b := .reg 7 }),
    (0x25D60007, .cbwr true { cb := 6, x := 5, e := true, b := .reg 7 }),
    (0x28D60007, .cbrd { cb := 6, x := 5, e := true, b := .reg 7 }),
    (0x2DC00000, .cbtake { cb := 6, r := true }),
    (0x31C00000, .cbgive { cb := 6, r := true }),
    (0x34000348, .bankacq { a := .reg 6, b := .held }),
    (0x38000348, .bankrel { a := .reg 6, b := .held })] = true := by decide +kernel

/-- Words of the CV map, from the encodings of its chapter. -/
theorem test_decode_cellar_vector : decodesTo .cv [
    (0x002996E8, .wadd { sat := true, o := { vd := 9, va := 18, vb := 27, m := 5, t := .i32 } }),
    (0x042996E8, .wsub { sat := true, o := { vd := 9, va := 18, vb := 27, m := 5, t := .i32 } }),
    (0x082996E8, .wmul { sat := true, o := { vd := 9, va := 18, vb := 27, m := 5, t := .i32 } }),
    (0x0C6996EA, .wfma { var := 3, o := { vd := 9, va := 18, vb := 27, m := 5, t := .f32 } }),
    (0x100996E9, .wmin { vd := 9, va := 18, vb := 27, m := 5, t := .z32 }),
    (0x140996E9, .wmax { vd := 9, va := 18, vb := 27, m := 5, t := .z32 }),
    (0x180996E9, .wand { vd := 9, va := 18, vb := 27, m := 5, t := .z32 }),
    (0x1C0996E9, .wor { vd := 9, va := 18, vb := 27, m := 5, t := .z32 }),
    (0x200996E9, .wxor { vd := 9, va := 18, vb := 27, m := 5, t := .z32 }),
    (0x248396EA, .wcmp { cond := .un, md := 3, va := 18, vb := 27, m := 5, t := .f32 }),
    (0x286996EE, .wsel { sel := 3, vd := 9, va := 18, vb := 27, m := 5, t := .f16x2 }),
    (0x2F49902D, .wcvt { dt := .f32, e := 3, vd := 9, va := 18, vb := 0, m := 5, t := .i8x4 }),
    (0x3069906A, .wld { flat := true, x := true, vd := 9, va := 18, a := .reg 6, m := 5 }),
    (0x3469906A, .wst { flat := true, x := true, vd := 9, va := 18, a := .reg 6, m := 5 }),
    (0x38A99029, .wred { kind := .xor, vd := 9, va := 18, m := 5, t := .z32 }),
    (0x3C29906A, .wbcast { lane := true, vd := 9, va := 18, a := .reg 6, m := 5 })] = true := by decide +kernel

/-- Words of the NM map, from the encodings of its chapter. -/
theorem test_decode_near_memory : decodesTo .nm [
    (0x0022C300, .nired { v := true, d := 5, nw := true, a := .reg 6 }),
    (0x0402C300, .ngath { v := false, d := 5, nw := true, a := .reg 6 }),
    (0x0822C300, .nscat { v := true, d := 5, nw := true, a := .reg 6 }),
    (0x0C22C300, .nmrow { v := true, d := 5, nw := true, a := .reg 6 }),
    (0x1002C300, .nstrm { v := false, d := 5, nw := true, a := .reg 6 }),
    (0x1422C000, .nqst { acq := true, d := 5, nw := true }),
    (0x1822C300, .nwait { v := true, d := 5, nw := true, a := .reg 6 })] = true := by decide +kernel

/-- LIH and NTW take 16 bits of the bundle's head (R199, R263): the examples of their chapters. -/
theorem test_decode_head_immediates :
    decodeMap .s 0x5C505000 0x4567 = .ok (.lih { d := 5, nw := false, a := .reg 5, himm := 0x4567 })
    ∧ decodeMap .x 0x00200A00 0x1234 = .ok (.ntw (.imm 0 4 1 4660)) := by decide +kernel

/-- Reserved bits, unassigned functions and codes are refused by name (R164, R181). -/
theorem test_decode_refuses :
    decodeMap .s 0xFC000000 0 = .error .opcode ∧ decodeMap .s 0x78600000 0 = .error .function
    ∧ decodeMap .s 0x78000001 0 = .error .reserved ∧ decodeTableWord 32 0x00808103 = some addIns := by decide +kernel

/-! ### Well-formedness: one ill-formed term for each check -/

def illFormed : List Instr :=
  [.add { w := 0, sgn := true, d := 1, nw := false, a := .held, b := .reg 1 },
   .addi { d := 1, nw := false, a := .held, imm := 0 },
   .cmp { cond := 0, w := 0, q := 1, nw := false, a := .reg 1, b := .held },
   .bext { pos := 63, n1 := 1, d := 1, nw := false, a := .reg 1 },
   .bins { pos := 1, n1 := 63, d := 1, nw := false, a := .reg 1 },
   .ld { ty := .s8, d := 1, a := .held, imm := 0 }, .csrw 0 .held, .launch 1 false .held, .rep .held,
   .vadd { o := { vd := 0, va := 0, vb := 0, m := 0, t := .f32 }, sat := true },
   .vmulh { vd := 0, va := 0, vb := 0, m := 0, t := .f32 },
   .vfma { o := { vd := 0, va := 0, vb := 0, m := 0, t := .i32 }, var := 0 },
   .vdiv { vd := 0, va := 0, vb := 0, m := 0, t := .z32 },
   .vshl { vd := 0, va := 0, vb := 0, m := 0, t := .bf16x2 },
   .vcmp { cond := .gt, md := 1, va := 0, vb := 0, m := 0, t := .i32 },
   .vcmp { cond := .un, md := 1, va := 0, vb := 0, m := 0, t := .i32 },
   .vcmp { cond := .eq, md := 1, va := 0, vb := 0, m := 0, t := .i8x4 },
   .vcmps { cond := .ne, md := 1, va := 0, a := .reg 1, m := 0, t := .i32 },
   .vcvt { t := .f32, dt := .i32, e := 1, vd := 0, va := 0, vb := 0, m := 0 },
   .vcvt { t := .bf16x2, dt := .f32, e := 2, vd := 0, va := 0, vb := 0, m := 0 },
   .vred { kind := .and, kd := 0, va := 0, m := 0, t := .f32 },
   .wred { kind := .or, t := .f32, vd := 0, va := 0, m := 0 },
   .vbcast { lane := false, vd := 0, va := 1, a := .reg 1, m := 0 },
   .vldl { x := false, vd := 0, va := 1, a := .reg 1, m := 0 },
   .wld { flat := false, x := false, vd := 0, va := 1, a := .reg 1, m := 0 },
   .vqnt { fmt := .b8, t32 := true, kd := 0, va := 25, a := .reg 1 },
   .mprec { n := 0, fa := .b8, fb := .n4x, t32 := false },
   .rred { kind := .and, cls := .f, big := false, k := 0, rt := 0 },
   .lcopy { out := false, z := 7, e := false, a := .reg 1, b := .reg 2 },
   .cwait { s := false, all := true, e := true },
   .ngath { v := true, d := 1, nw := false, a := .reg 1 }]

theorem test_ill_formed_refused : illFormed.all (fun i => !i.wf) = true := by decide +kernel

/-! ### Claims on scalar instructions -/

/-- An integer operation at 8 bits, signed, on s1 and s2. -/
def i8 : IntRR := { w := 3, sgn := true, d := 3, nw := false, a := .reg 1, b := .reg 2 }

theorem witness_ScalarSourceReads : (63 : BitVec 6) ≠ 0 ∧ (0 : BitVec 6) ≠ 63 ∧ (15 : BitVec 4) ≠ 0 := by decide

theorem witness_IntegerOperations :
    (let s := withRegs seq0 [(1, 0x80), (2, 0xFF)]
     s.phase ≠ .probe ∧ operand true 3 (s.src (.reg 1)) = -(2 ^ (width 3 - 1)) ∧ operand true 3 (s.src (.reg 2)) = -1
      ∧ operand true 3 (s.src (.reg 2)) ≠ 0 ∧ i8.sgn = true)
    ∧ (let s := withRegs seq0 [(1, 0x80), (2, 0x100)]
       s.phase ≠ .probe ∧ operand true 3 (s.src (.reg 2)) = 0) := by decide +kernel

theorem witness_effective : seq0.effective ∧ (die0 0 0).effective ∧ cel0.effective := by
  unfold State.effective; decide +kernel

theorem witness_FloatingPoint :
    (let s := withRegs seq0 [(1, 0x3FF0000000000000), (2, 0x0000000000000001), (3, 0x8000000000000000),
        (4, 0x7FF0000000000000), (5, 0xFFF0000000000000), (6, 0x7FF8000000000000), (7, 0x7FF0000000000001),
        (8, 0xBFF0000000000000)]
     let v (n : BitVec 6) : Nat := fpBits true (s.src (.reg n))
     -- finite operands, the least subnormal among them, and a divisor that is not zero
     fpFinite true (v 1) = true ∧ fpFinite true (v 2) = true ∧ fpZero true (v 2) = false
     -- NaNs, quiet and signalling
     ∧ fpNan true (v 6) = true ∧ fpSig true (v 6) = false ∧ fpSig true (v 7) = true ∧ fpNan true (v 4) = false
     -- infinities of both signs, zeros of both signs
     ∧ fpInf true (v 4) = true ∧ fpInf true (v 5) = true ∧ fpNeg true (v 4) ≠ fpNeg true (v 5)
     ∧ fpZero true (v 3) = true ∧ fpZero true (v 0) = true ∧ fpNeg true (v 3) = true ∧ fpNeg true (v 0) = false
     -- a root of a negative number, and of one that is not
     ∧ fpNeg true (v 8) = true ∧ fpZero true (v 8) = false ∧ fpNeg true (v 2) = false) := by decide +kernel

theorem witness_FloatingPointOrder :
    (let s := withRegs seq0 [(1, 0x3FF0000000000000), (3, 0x8000000000000000), (5, 0xFFF0000000000000)]
     let v (n : BitVec 6) : Nat := fpBits true (s.src (.reg n))
     fpLess true (v 5) (v 1)) ∧ ¬fpLess true (0x8000000000000000) 0 := by
  refine ⟨⟨by decide +kernel, by decide +kernel, .inl ⟨by decide +kernel, by decide +kernel, by decide +kernel⟩⟩, ?_⟩
  simp [fpLess, fpNan, fpInf, fpFinite, fpNeg, fpVal, form, nanOf, infOf, finiteOf, negOf, valOf, expOf, fracOf]

theorem witness_ScalarOperationsFrame : (Instr.add i8).opMap = some .s ∧ seq0.phase ≠ .probe
    ∧ ∃ t, exec (.add i8) seq0 = .next t := ⟨rfl, by decide, _, rfl⟩

/-! ### Claims on memory accesses of cores -/

def ldOp : LoadOp := { ty := .s8, d := 3, a := .reg 1, imm := 0 }
def stOp : StoreOp := { z := 3, d := 2, a := .reg 1, imm := 0 }
def at_ (a : Word) : State := mapped (withRegs seq0 [(1, a), (2, 0x0102030405060708)])

theorem witness_LoadDeliversBytes :
    (let s := at_ 0x200007
     s.phase = .whole ∧ s.loadVerdict (effective (s.src (.reg 1)) 0 1) 1 = .ok
      ∧ s.corePlace s.core (effective (s.src (.reg 1)) 0 1) 1 .load = .ok (.hbm 0x200007))
    ∧ (let s := at_ 0x800000000000FF
       s.loadVerdict (effective (s.src (.reg 1)) 0 1) 1 = .ok ∧ s.hostError 0xFF 1 = none
      ∧ s.corePlace s.core (effective (s.src (.reg 1)) 0 1) 1 .load = .ok (.host 0xFF)) := by decide +kernel

theorem witness_LoadOfRegistersAndFlags :
    (let s := at_ 0xCFC000000003FC
     s.loadVerdict (effective (s.src (.reg 1)) 0 4) 4 = .ok
      ∧ s.corePlace s.core (effective (s.src (.reg 1)) 0 4) 4 .load = .ok (.flag 255))
    ∧ (let s := at_ 0xE0000000000010
       s.loadVerdict (effective (s.src (.reg 1)) 0 8) 8 = .ok
      ∧ s.corePlace s.core (effective (s.src (.reg 1)) 0 8) 8 .load = .ok (.csr 2))
    ∧ (let s := { at_ 0x80000000000000 with hostBad := [(0, 1, 1)] }
       s.loadVerdict (effective (s.src (.reg 1)) 0 8) 8 = .ok ∧ s.hostError 0 8 = some 1
      ∧ s.corePlace s.core (effective (s.src (.reg 1)) 0 8) 8 .load = .ok (.host 0)) := by decide +kernel

theorem witness_StoreToHbm : ∀ s ∈ [at_ 0x3FFFF8, nonidem (at_ 0x3FFFF8)],
    s.phase = .whole ∧ s.storeVerdict (effective (s.src (.reg 1)) 0 8) 8 = .ok
      ∧ s.corePlace s.core (effective (s.src (.reg 1)) 0 8) 8 .store = .ok (.hbm 0x3FFFF8)
      ∧ 0x3FFFF8 + 8 ≤ 2 ^ 40 ∧ taskNonidem s = (s.task { lid := 0, wid := 0 }).nonidem := by decide +kernel

theorem witness_StoreToStorage :
    (let s := nonidem (at_ 0x90000007FFFFF8)
     s.storeVerdict (effective (s.src (.reg 1)) 0 8) 8 = .ok ∧ taskNonidem s = true
      ∧ s.corePlace s.core (effective (s.src (.reg 1)) 0 8) 8 .store = .ok (.land 0x7FFFFF8))
    ∧ (let s := at_ 0x90000007FFFFF8
       s.storeVerdict (effective (s.src (.reg 1)) 0 8) 8 = .ok ∧ taskNonidem s = false ∧ s.phase = .whole
      ∧ s.corePlace s.core (effective (s.src (.reg 1)) 0 8) 8 .store = .ok (.land 0x7FFFFF8))
    ∧ (let s := at_ 0x80000000000000
       s.storeVerdict (effective (s.src (.reg 1)) 0 8) 8 = .ok ∧ taskNonidem s = false
      ∧ s.corePlace s.core (effective (s.src (.reg 1)) 0 8) 8 .store = .ok (.host 0) ∧ (Place.host 0).endsIdem = true
      ∧ storagePlace (.host 0) = true) := by decide +kernel

theorem witness_ScratchpadAndFlatAddresses :
    (let s := at_ 0x3FFF8
     s.padVerdict (effective (s.src (.reg 1)) 0 8) 8 false = .ok ∧ s.padVerdict (effective (s.src (.reg 1)) 0 8) 8 true = .ok
      ∧ s.ecc = [] ∧ (s.ctx s.core).cbs = [] ∧ s.phase = .whole)
    ∧ (let s := at_ 0x40000
       (effective (s.src (.reg 1)) 0 8).toNat % 8 = 0 ∧ 2 ^ 18 ≤ (effective (s.src (.reg 1)) 0 8).toNat)
    ∧ (let s := at_ 0x3FFFC
       (effective (s.src (.reg 1)) 0 8).toNat % 8 ≠ 0)
    ∧ (let s := at_ 0x100000000000000
       (effective (s.src (.reg 1)) 0 8).toNat % 8 = 0 ∧ 2 ^ 56 ≤ (effective (s.src (.reg 1)) 0 8).toNat) := by decide +kernel

def atomOp : AtomOp := { big := true, sgn := true, d := 3, a := .reg 1, b := .reg 2 }

theorem witness_AtomicsOnStorage :
    (let s := nonidem (at_ 0xBF00000003FFF8)
     s.corePlace s.core (s.src (.reg 1)) 8 .atomic = .ok (.pad 192 0x3FFF8) ∧ s.phase = .whole
      ∧ s.atomVerdict (s.src (.reg 1)) 8 .refused = .ok ∧ storagePlace (.pad 192 0x3FFF8) = true ∧ s.ecc = []
      ∧ taskNonidem s = true)
    ∧ (let s := nonidem (at_ 0x80000000000000)
       s.corePlace s.core (s.src (.reg 1)) 8 .atomic = .ok (.host 0) ∧ s.atomVerdict (s.src (.reg 1)) 8 .served = .ok
      ∧ s.hostError 0 8 = none ∧ taskNonidem s = true)
    ∧ (let s := at_ 0x80000000000000
       let u := (s.noteWalk (s.launchOf s.core).func (s.src (.reg 1))).endIdem (s.taskId s.core) (some s.core)
       s.atomVerdict (s.src (.reg 1)) 8 .served = .ok ∧ taskNonidem s = false ∧ u.ecc = [] ∧ u.hostError 0 8 = none)
    ∧ (let s := at_ 0x200000
       let u := (s.noteWalk (s.launchOf s.core).func (s.src (.reg 1))).endIdem (s.taskId s.core) (some s.core)
       s.core = .seq 0 ∧ s.corePlace s.core (s.src (.reg 1)) 8 .atomic = .ok (.hbm 0x200000)
      ∧ s.atomVerdict (s.src (.reg 1)) 8 .refused = .ok ∧ taskNonidem s = false ∧ u.ecc = []
      ∧ u.l1Seq = State.reset.l1Seq ∧ u.l1Cel = State.reset.l1Cel ∧ u.l2 = State.reset.l2)
    ∧ (let s := at_ 0xC0000000000000
       (s.src (.reg 1)).toNat / 2 ^ 52 ∈ [0xC, 0xD, 0xE] ∧ (s.src (.reg 1)).toNat % 8 = 0 ∧ s.core.isCellar = false)
    ∧ (let s := withRegs cel0 [(1, 0x7FFFFFFFFFFFF8)]
       (s.src (.reg 1)).toNat / 2 ^ 52 < 8 ∧ (s.src (.reg 1)).toNat % 8 = 0 ∧ s.core.isCellar = true) := by decide +kernel

theorem witness_AtomicsOnHbm :
    (let s := nonidem (at_ 0x200000)
     s.core = .seq 0 ∧ s.corePlace s.core (s.src (.reg 1)) 8 .atomic = .ok (.hbm 0x200000) ∧ s.phase = .whole
      ∧ s.atomVerdict (s.src (.reg 1)) 8 .refused = .ok ∧ s.ecc = [] ∧ taskNonidem s = true) ∧ State.reset.cachesCanonical := by
  refine ⟨by decide +kernel, ?_⟩
  unfold State.cachesCanonical; decide +kernel

theorem witness_ReleaseAndAcquire :
    (let s := nonidem seq0
     s.core = .seq 0 ∧ taskNonidem s = true ∧ (s.ctx s.core).peerErr = false ∧ s.phase ≠ .probe ∧ s.ecc = [])
    ∧ (let s := nonidem cel0
       s.core = .cel 0 ∧ taskNonidem s = true ∧ (s.ctx s.core).peerErr = false ∧ s.phase ≠ .probe ∧ s.l1 s.core = [])
    ∧ (seq0.onDie = none ∧ (seq0.ctx seq0.core).nmq = [] ∧ (seq0.ctx seq0.core).engine = [])
    ∧ (nonidem seq0).cachesCanonical ∧ (nonidem cel0).cachesCanonical := by
  refine ⟨by decide +kernel, ?_⟩
  unfold State.cachesCanonical; decide +kernel

theorem witness_FlagInstructions :
    (let s := withRegs seq0 [(1, 224)]
     s.flagPlace false (s.src (.reg 1)) 31 = .ok 255 ∧ s.phase = .whole ∧ s.onDie = none)
    ∧ (let s := withRegs seq0 [(1, 0xCFC00000000380)]
       s.flagPlace true (s.src (.reg 1)) 31 = .ok 255) := by decide +kernel

theorem witness_ControlRegisterInstructions :
    (let s := seq0
     (s.ctx s.core).csrCheck s.core.isCellar 0x50 = none ∧ (s.ctx s.core).rtPending 0x50 = none
      ∧ (s.ctx s.core).csrCheck s.core.isCellar 0x40 = some .priv ∧ (s.ctx s.core).csrCheck s.core.isCellar 0x51 = some .csrBad
      ∧ s.phase = .whole ∧ s.onDie = none)
    ∧ (let s := seq0.updCtx (.seq 0) (fun x => { x with rtWait := [(3, 1)] })
       (s.ctx s.core).csrCheck s.core.isCellar 0x2B = none ∧ (s.ctx s.core).rtPending 0x2B = some 3)
    ∧ (let s := seq0.updCtx (.seq 0) (fun x => { x with handler := true })
       ∀ n ∈ [0x18, 0x19, 0x21, 0x40, 0x41, 0x42], (s.ctx s.core).csrCheck s.core.isCellar n = none) := by decide +kernel

theorem witness_CheckedWordsAndCompare :
    (let s := (at_ 0x3FFFF8).updCtx (.seq 0) (fun x => { x with diag := true })
     s.checkPlace (s.src (.reg 1)) true = .ok (.hbm 0x3FFFF8) ∧ s.checkPlace (s.src (.reg 1)) false = .ok (.hbm 0x3FFFF8)
      ∧ (Place.hbm 0x3FFFF8).key % 8 = 0 ∧ s.phase ≠ .probe ∧ taskNonidem (nonidem s) = true ∧ s.ecc = [] ∧ s.flaws = []
      ∧ (nonidem s).checkPlace ((nonidem s).src (.reg 1)) true = .ok (.hbm 0x3FFFF8) ∧ 0x3FFFF8 + 8 ≤ 2 ^ 40
      ∧ Table.find? (s.l1 s.core) 0x3FFFF8 = none ∧ Table.find? s.l2 0x3FFFFF = none)
    ∧ (let s := (at_ 0x90000000000000).updCtx (.seq 0) (fun x => { x with diag := true })
       s.checkPlace (s.src (.reg 1)) false = .ok (.land 0))
    ∧ (seq0.phase = .whole ∧ (seq0.ctx seq0.core).diag = false ∧ (seq0.ctx seq0.core).handler = false)
    ∧ (let s := withRegs seq0 [(1, 0x100000001), (2, 1)]
       (s.src (.reg 1)).setWidth 32 = (s.src (.reg 2)).setWidth 32 ∧ (s.src (.reg 1)).setWidth 64 ≠ (s.src (.reg 2)).setWidth 64) := by
  decide +kernel

/-- A word of HBM that is read with its check bits, with the caches that stand before it. -/
theorem witness_CheckedWordOfHbm : ((at_ 0x3FFFF8).updCtx (.seq 0) (fun x => { x with diag := true })).cachesCanonical := by
  unfold State.cachesCanonical; decide +kernel

theorem witness_ControlRegisterValues :
    (seq0.diesOn ≤ 48 ∧ seq0.timeLost = false ∧ ({ seq0 with timeLost := true } : State).timeLost = true ∧ (31 : Nat) < 32
      ∧ (seq0.taskOf (.seq 0)).shadows.length ≤ 16384 ∧ (seq0.taskOf (.seq 0)).granules.length ≤ 65536
      ∧ (seq0.ctx (.seq 0)).snap = none)
    ∧ (let x := (seq0.enter (.seq 0) 0 15 .soft 1 2 0 0).ctx (.seq 0)
       x.snap.any (fun sn => decide (sn.pending.length < 128)) = true) := by decide +kernel

/-! ### Claims on sequencing and exceptions -/

theorem witness_BranchesAndJumps :
    (let x := (seq0.updCtx (.seq 0) (fun x => { x with preds := [(3, true)] })).ctx (.seq 0)
     (x.qreg 3 ^^ false) = true ∧ (x.qreg 3 ^^ true) = false ∧ (x.qreg 15 ^^ false) = false) := by decide +kernel

theorem witness_TableJumpsAndCalls :
    (let s := mapped (withRegs seq0 [(1, 0x200000), (2, 4095)])
     (4095 : BitVec 12).toNat ≤ (s.src (.reg 2)).toNat ∧ s.phase = .whole)
    ∧ (let s := mapped (withRegs seq0 [(1, 0x200000), (2, 4094)])
       (s.src (.reg 2)).toNat < (4095 : BitVec 12).toNat
      ∧ s.loadVerdict (s.src (.reg 1) + 4 * s.src (.reg 2)) 4 = .ok)
    ∧ (let s := withRegs seq0 [(1, 0x200000), (2, 4094)]
       s.loadVerdict (s.src (.reg 1) + 4 * s.src (.reg 2)) 4 = .trap .pageNone (0x200000 + 4 * 4094) 0)
    ∧ (let s := mapped ((withRegs seq0 [(58, 0x200000), (2, 3)]).updCtx (.seq 0) (fun x => { x with ftabLen := 4 }))
       (s.src (.reg 2)).toNat < (s.ctx s.core).ftabLen.toNat ∧ (s.dreg 58).toNat % 16 = 0
      ∧ s.loadVerdict (s.dreg 58 + 16 * s.src (.reg 2)) 8 = .ok ∧ s.loadVerdict (s.dreg 58 + 16 * s.src (.reg 2) + 8) 8 = .ok
      ∧ s.loadValue (s.dreg 58 + 16 * s.src (.reg 2) + 8) 8 % 2 ^ 16 = (0 : BitVec 16).toNat
      ∧ s.loadValue (s.dreg 58 + 16 * s.src (.reg 2) + 8) 8 % 2 ^ 16 ≠ (1 : BitVec 16).toNat)
    ∧ (let s := (withRegs seq0 [(58, 0x200000), (2, 3)]).updCtx (.seq 0) (fun x => { x with ftabLen := 4 })
       (s.src (.reg 2)).toNat < (s.ctx s.core).ftabLen.toNat ∧ s.phase = .whole
      ∧ s.loadVerdict (s.dreg 58 + 16 * s.src (.reg 2)) 8 = .trap .pageNone 0x200030 0)
    ∧ (let s := { mapped ((withRegs seq0 [(1, 0x200030), (58, 0x200000), (2, 3)]).updCtx (.seq 0) (fun x => { x with ftabLen := 4 }))
         with ecc := [(0x40007, 3)] }
       s.loadVerdict (s.dreg 58 + 16 * s.src (.reg 2)) 8 = .ok
      ∧ s.loadVerdict (s.dreg 58 + 16 * s.src (.reg 2) + 8) 8 = .ue 0x200038 8 0x200038
      ∧ s.loadVerdict (s.src (.reg 1) + 4 * s.src (.reg 2)) 4 = .ue 0x20003C 4 0x20003C)
    ∧ (let s := (withRegs seq0 [(58, 0x200008), (2, 3)]).updCtx (.seq 0) (fun x => { x with ftabLen := 4 })
       (s.dreg 58).toNat % 16 ≠ 0)
    ∧ (let s := (withRegs seq0 [(2, 3)]).updCtx (.seq 0) (fun x => { x with ftabLen := 3 })
       (s.ctx s.core).ftabLen.toNat ≤ (s.src (.reg 2)).toNat) := by decide +kernel

/-- A loop that encloses the bundles from address 4 to 0x100. -/
def outer : Loop := { start := 4, stop := 0x100, st := 7, exitPending := false }
/-- Four bundles of two words each, and three that follow. -/
def eightBundles : State := { seq0 with code := [{ addr := 0, ver := 0, line := BitVec.ofNat 512 0xAA } ] }

theorem witness_LoopInstructions :
    (let x := eightBundles.ctx (.seq 0)
     eightBundles.phase = .whole ∧ x.handler = false ∧ x.delay = 0 ∧ Table.find? x.loops 3 = none ∧ x.loops = []
      ∧ (eightBundles.src (.reg 0)).toNat = 0 ∧ (5 : BitVec 15).toNat ≠ 0)
    ∧ (let x := (eightBundles.updCtx (.seq 0) (fun x => { x with loops := [(1, outer)], order := [1] })).ctx (.seq 0)
       Table.find? x.loops 1 ≠ none ∧ (1 : BitVec 2).toNat ∈ x.order
      ∧ (∀ e ∈ x.loops, e.2.start.toNat ≤ (eightBundles.nextOf 0 x.n0).toNat
          ∧ (eightBundles.nextN 0 (eightBundles.nextOf 0 x.n0) 1).toNat ≤ e.2.stop.toNat))
    ∧ (let x := (seq0.updCtx (.seq 0) (fun x => { x with loops := [(1, { outer with stop := 4 })] })).ctx (.seq 0)
       ¬∀ e ∈ x.loops, e.2.start.toNat ≤ (eightBundles.nextOf 0 x.n0).toNat
          ∧ (eightBundles.nextN 0 (eightBundles.nextOf 0 x.n0) 1).toNat ≤ e.2.stop.toNat) := by decide +kernel

/-- A context at the END bundle of one loop, whose successors follow at every 4 bytes. -/
def atEnd (l : Loop) (c : Word) : Ctx :=
  { seq0.ctx (.seq 0) with loops := [(2, l)], order := [2], lc := [(2, c)], n0 := 0x100, n1 := 0x104, n2 := 0x108 }

theorem witness_ChainAndLoopBoundary :
    (∀ x ∈ [atEnd outer 0, atEnd { outer with st := 0 } 1, atEnd { outer with st := 0 } 0, atEnd { outer with exitPending := true } 5],
      x.rep = none ∧ x.transfer = .none ∧ x.drain = none ∧ x.order = [2] ∧ (Table.find? x.loops 2).map (·.stop) = some x.n0
      ∧ x.n1 = x.n0 + 4 ∧ x.n2 = x.n1 + 4)
    ∧ (seq0.ctx (.seq 0)).loops = [] ∧ (seq0.ctx (.seq 0)).rep = none ∧ (seq0.ctx (.seq 0)).transfer = .none := by decide +kernel

theorem witness_SystemInstructions :
    (let h := (seq0.updCtx (.seq 0) (fun x => { x with handler := true })).ctx (.seq 0)
     h.handler = true ∧ (seq0.ctx (.seq 0)).handler = false ∧ (seq0.ctx (.seq 0)).delay = 0 ∧ seq0.phase = .whole
      ∧ seq0.onDie = none ∧ (seq0.ctx (.seq 0)).dbgEn.getLsbD 0 = false)
    ∧ (let x := (seq0.updCtx (.seq 0) (fun x => { x with dbgEn := 1, drain := some .record, delay := 2 })).ctx (.seq 0)
       x.dbgEn.getLsbD 0 = true ∧ x.drain ≠ none ∧ x.delay ≠ 0 ∧ x.frozenAt = none)
    ∧ (let x := (seq0.updCtx (.seq 0) (fun x => { x with yieldDl := 0 })).ctx (.seq 0)
       x.yieldDl ≠ BitVec.allOnes 64 ∧ x.yieldDl.toNat ≤ seq0.timeCnt.toNat
      ∧ x.handler = false ∧ x.frozenAt = none ∧ x.replayTo = 0)
    ∧ (let x := (seq0.updCtx (.seq 0) (fun x => { x with yieldDl := 1 })).ctx (.seq 0)
       x.drain = none ∧ seq0.timeCnt.toNat < x.yieldDl.toNat)
    ∧ (let x := (seq0.updCtx (.seq 0) (fun x => { x with handler := true, frozenAt := some 1, drain := some .record })).ctx (.seq 0)
       x.handler = true ∧ x.frozenAt ≠ none ∧ x.drain ≠ none) := by decide +kernel

/-- A pending-launch store whose entries are all in use. -/
def allPending : PMap PendEntry :=
  (List.range 1024).map (fun n => (n, { record := 0, task := { lid := 0, wid := 0 }, name := 0, eligible := false }))

theorem witness_allPending : ({ seq0 with pend := allPending } : State).freePending = none := by
  have h : Table.freshKey allPending 0 1024 = 0 + 1024 := Table.freshKey_full _ _ _ (fun k _ hk =>
    Table.find?_isSome_of_mem _ _ (by simp [allPending]; omega))
  simp [State.freePending, h]

theorem witness_DeviceSideLaunch :
    (let s := at_ 0x3FFFC0
     s.recordVerdict (s.src (.reg 1)) = .ok ∧ s.phase = .whole ∧ s.freePending = some 0 ∧ taskNonidem s = false
      ∧ ∀ e ∈ s.pend, e.2.eligible = false)
    ∧ onSeq seq0 0
    ∧ (let s := nonidem (at_ 0x3FFFC0)
       s.recordVerdict (s.src (.reg 1)) = .ok ∧ s.freePending = some 0 ∧ taskNonidem s = true
      ∧ recQueue (s.recordAt (s.src (.reg 1))) < 64
      ∧ (s.queue (recQueue (s.recordAt (s.src (.reg 1))))).func = (s.launch (s.taskId s.core).lid).func
      ∧ (s.queue (recQueue (s.recordAt (s.src (.reg 1))))).recs.length < 256)
    ∧ (let s := at_ 0x3FFFE0
       (s.src (.reg 1)).toNat % 64 ≠ 0) :=
  ⟨by decide +kernel, ⟨rfl, by decide⟩, by decide +kernel, by decide +kernel⟩

theorem witness_TrapsAndHandlers :
    (let s := seq0.updCtx (.seq 0) (fun x => { x with trap := { x.trap with tvec := 0x40 } })
     let x := s.ctx (.seq 0)
     Cause.soft.fate = .h ∧ x.handler = false ∧ x.trap.tvec ≠ 0 ∧ (15 : Nat) < 16 ∧ x.n0.toNat % 4 = 0 ∧ x.n1.toNat % 4 = 0
      ∧ x.n2.toNat % 4 = 0)
    ∧ (let s := (seq0.updCtx (.seq 0) (fun x => { x with trap := { x.trap with tvec := 0x40 } })).enter (.seq 0) 0 15 .soft 1 2 0 0
       let y := s.ctx (.seq 0)
       y.epc = 4 ∧ y.handler = true ∧ y.inflight = [] ∧ ∀ f ∈ (seq0.ctx (.seq 0)).inflight, (seq0.ctx (.seq 0)).stepNo ≤ f.due)
    ∧ seq0.groupOthers (seq0.taskId (.seq 0)) = [] ∧ (seq0.ctx (.seq 0)).trap.tvec = 0 := by decide +kernel

/-- A result for s1 on its way. -/
def flight (v : Word) (due : Nat) : Flight :=
  { slot := .s0, out := .s 1 v, lv := v, due, issued := 0, flags := 1, vflags := 0, arrived := true }

theorem witness_ResultsLandWhenDue :
    (let x := { seq0.ctx (.seq 0) with inflight := [flight 5 3, flight 6 3, flight 7 4] }
     (∀ f ∈ x.inflight.filter (fun f => decide (f.due ≤ 3)), f.arrived = true) ∧ (x.landDue 3).sreg 1 = 6
      ∧ (x.landDue 4).sreg 1 = 7)
    ∧ (let x := { seq0.ctx (.seq 0) with inflight := [{ flight 5 3 with arrived := false }] }
       ∃ f ∈ x.inflight.filter (fun f => decide (f.due ≤ 3)), f.arrived = false) := by
  refine ⟨by decide +kernel, flight 5 3 |> fun f => { f with arrived := false }, ?_, rfl⟩
  decide +kernel

/-! ### Claims on dies and cellar vector slots -/

/-- Lanes of an instruction that m0 enables. -/
def allLanes : List Nat := List.range 128

theorem witness_VectorArithmetic : (die0 0 0).effective ∧ (VType.i16x2).isFloat = false ∧ (VType.bf16x2).isFloat = true
    ∧ elemBits .z32 = 32 ∧ ((die0 0 0).dctx (die0 0 0).dieId).folds = [] ∧ (die0 0 0).unit = .die (die0 0 0).dieId
    ∧ ((die0 0 0).dctx (die0 0 0).dieId).rank < 48 ∧ ((die0 0 0).dctx (die0 0 0).dieId).count ≤ 48 :=
  ⟨by unfold State.effective; decide, rfl, rfl, rfl, rfl, rfl, by decide +kernel, by decide +kernel⟩

/-- Special operands of VSPEC: a quiet NaN, both zeros, a negative number, a power of two, and the ends of EXP2's range. -/
theorem witness_VectorConversionsAndReductions :
    fpNan false 0x7FC00000 = true ∧ fpZero false 0x80000000 = true ∧ fpNeg false 0x80000001 = true
    ∧ fpFinite false 0x40000000 = true ∧ fpVal false 0x40000000 = 2 ^ (1 : Int) ∧ fpVal false 0xC2FC0000 = ((-126 : Int) : Rat)
    ∧ fpVal false 0x42FE0000 = ((127 : Int) : Rat) ∧ enabledLanes (die0 0 0) 3 0 ≠ [] := by
  refine ⟨by decide, by decide, by decide, by decide, ?_, ?_, ?_, by decide +kernel⟩ <;>
    norm_num [fpVal, valOf, form, expOf, fracOf, negOf, biasOf]

theorem witness_VectorLoads :
    (let s := owning (die0 0xBFFFE00 0) [191]
     s.onDie = some { die := 0, k := 0 } ∧ s.ecc = [] ∧ s.flaws = [] ∧ s.layers = [] ∧ s.phase = .whole
      ∧ lanesVerdict allLanes (fun n => s.padLane false (lanePlus s (.reg 1) n)) = .ok
      ∧ lanesVerdict allLanes (fun n => s.padLane false (laneScaled s (.reg 1) 3 8 n)) = .ok)
    ∧ (let s := die0 0x3FFFE00 0
       lanesVerdict allLanes (fun n => s.winLane false (lanePlus s (.reg 1) n)) = .ok)
    ∧ (let s := die0 2044 0
       lanesVerdict allLanes (fun n => s.sliceLane n (s.scalar false (.reg 1))) = .ok)
    ∧ (let s := mapped (die0 0x3FFE00 0)
       lanesVerdict allLanes (s.flatLane { x := false, vd := 1, va := 0, a := .reg 1, m := 0 } .load) = .ok) := by
  decide +kernel

theorem witness_VectorStores :
    (let s := owning (die0 0xBFFFE00 0) [191]
     s.suppressHere = false ∧ s.flaws = [] ∧ lanesVerdict allLanes (fun n => s.padLane true (lanePlus s (.reg 1) n)) = .ok
      ∧ lanesVerdict allLanes (fun n => s.padLane true (laneScaled s (.reg 1) 3 8 n)) = .ok
      ∧ (s.dies.all (fun d => d.2.banks.all (fun b => !b.2.handed (s.dieTask { die := 0, k := 0 })))) = true
      ∧ (Table.get .free (s.die 0).banks 191).handed (s.dieTask { die := 0, k := 0 }) = false
      ∧ (Table.get .free (s.die 0).banks 0).handed (s.dieTask { die := 0, k := 0 }) = false)
    ∧ (let s := die0 0x3FFFE00 0
       lanesVerdict allLanes (fun n => s.winLane true (lanePlus s (.reg 1) n)) = .ok) := by decide +kernel

/-- Lane 127 alone. -/
def lastOnly (s : State) : State := s.updDctx { die := 0, k := 0 } (fun x => { x with m := [(1, 2 ^ 127)] })

theorem witness_VectorFlatStoresAndAtomics :
    (let s := lastOnly (mapped (die0 0x3FFE00 0))
     let o : VIdxOp := { x := false, vd := 2, va := 0, a := .reg 1, m := 1 }
     s.onDie = some { die := 0, k := 0 } ∧ s.ecc = [] ∧ s.phase = .whole
      ∧ (List.range 128).filter (fun n => ((s.dctx s.dieId).mask 1).getLsbD n) = [127]
      ∧ lanesVerdict [127] (s.flatLane o .store) = .ok ∧ lanesVerdict [127] (s.flatLane o .atomic) = .ok
      ∧ s.lanePlace o .store 127 = .hbm 0x3FFFFC ∧ s.lanePlace o .atomic 127 = .hbm 0x3FFFFC ∧ 0x3FFFFC + 4 ≤ 2 ^ 40
      ∧ s.nonidem (s.dieTask { die := 0, k := 0 }) = false ∧ (nonidem s).nonidem (s.dieTask { die := 0, k := 0 }) = true
      ∧ s.suppressHere = false) := by decide +kernel

/-- A number with a fraction, positive or negative, and an infinity, for the special functions. -/
theorem witness_SpecialFunctionsRoundOnce :
    fpFinite false 0x3FC00000 = true ∧ fpZero false 0x3FC00000 = false ∧ fpNeg false 0x3FC00000 = false
    ∧ fpFinite false 0xBFC00001 = true ∧ fpNeg false 0xBFC00001 = true ∧ fpInf false 0xFF800000 = true := by decide

theorem witness_FlatStoresAndAtomics :
    (let s := lastOnly (die0 0x900000000000000 0)
     let t := lastOnly (die0 0x90000007FFFE00 0)
     let o : VIdxOp := { x := false, vd := 2, va := 0, a := .reg 1, m := 1 }
     s.onDie = some { die := 0, k := 0 } ∧ s.phase ≠ .probe ∧ s.suppressed { die := 0, k := 0 } = false
      ∧ lanesVerdict [127] (t.flatLane o .store) = .ok ∧ lanesVerdict [127] (t.flatLane o .atomic) = .ok
      ∧ t.lanePlace o .store 127 = .land 0x7FFFFFC
      ∧ (lanePlus t (.reg 1) 127).toNat % 4 = 0 ∧ (lanePlus t (.reg 1) 127).toNat / 2 ^ 52 = 9
      ∧ (lanePlus t (.reg 1) 127).toNat % 2 ^ 52 < 2 ^ 27)
    ∧ (let s := lastOnly (owning (die0 (0xA0000000000000 + 0xBFFFE00) 0) [191])
       let o : VIdxOp := { x := false, vd := 2, va := 0, a := .reg 1, m := 1 }
       lanesVerdict [127] (s.flatLane o .store) = .ok ∧ isDirect (s.lanePlace o .store 127) = true)
    ∧ (let s := (lastOnly (die0 0x90000007FFFE00 0)).updDctx { die := 0, k := 0 } (fun x => { x with rank := 1 })
       let s : State := { s with launches := s.launches.map (fun e => (e.1, { e.2 with twin := true })) }
       s.suppressed { die := 0, k := 0 } = true) := by decide +kernel

/-- Nest table 3 with one array, B8 operands and tiles of side 16. -/
def tabled : State := (die0 0 0).updDctx { die := 0, k := 0 } (fun x => { x with shadow := [(96, 1), (112, 5)] })

theorem witness_NestInstructions :
    (tabled.onDie = some { die := 0, k := 0 } ∧ tabled.phase = .whole ∧ tabled.mgoVerdict 3 = .ok
      ∧ Table.risingFrom 0 (tabled.dctx { die := 0, k := 0 }).shadow = true
      ∧ nestOk (tabled.dctx { die := 0, k := 0 }).shadow 3 none = true
      ∧ nestOk (tabled.dctx { die := 0, k := 0 }).shadow 0 none = false
      ∧ nestBsrc (nestWord (tabled.dctx { die := 0, k := 0 }).shadow 3 0) = false
      ∧ (tabled.dctx { die := 0, k := 0 }).nests = [] ∧ (tabled.dctx { die := 0, k := 1 }).nests = []
      ∧ (tabled.die 0).asks = [])
    ∧ (match exec (.mgo 3) tabled with
       | .next t => (t.dctx { die := 0, k := 0 }).nests.any (fun n => n.table == 3)
       | _ => false) = true := by decide +kernel

theorem witness_AccumulatorInstructions :
    (let s := owning (die0 0 0) [0]
     s.phase = .whole ∧ s.waitFor (.tiles [7]) = .ok ∧ s.onDie = some { die := 0, k := 0 } ∧ s.ecc = [] ∧ s.layers = []
      ∧ (Table.get .free (s.die 0).banks 0).handed (s.dieTask { die := 0, k := 0 }) = false
      ∧ (s.waitFor (.tiles [7])).andThen (s.imageLoadVerdict (s.scalar false (.reg 1)) 8448) = .ok
      ∧ (s.waitFor (.tiles [7])).andThen (s.imageStoreVerdict (s.scalar false (.reg 1)) 8448) = .ok) := by decide +kernel

theorem witness_BlockFormats :
    (let s := owning (die0 0 0) [0]
     s.imageStoreVerdict (s.scalar false (.reg 1)) (imageSize .b8 16) = .ok ∧ s.phase = .whole)
    ∧ (let s := { owning (die0 0 0) [0] with mem := [(2 ^ 41 + 1, 1), (2 ^ 41 + 2, 16)] }
       s.vdqntVerdict { base := none, t32 := false, vd := 0, a := .reg 1 } = .ok) := by decide +kernel

theorem witness_CellarVectorInstructions :
    (let s := withRegs cel0 [(1, 0x7FFC0)]
     s.core = .cel 0 ∧ s.ecc = [] ∧ s.phase = .whole ∧ celEnabled s 0 = List.range 16
      ∧ lanesVerdict (List.range 16) (fun n => s.padVerdict (s.scalar false (.reg 1) + BitVec.ofNat 64 (4 * n)) 4 false) = .ok
      ∧ lanesVerdict (List.range 16) (fun n => s.padVerdict (s.scalar false (.reg 1) + BitVec.ofNat 64 (4 * n)) 4 true) = .ok)
    ∧ (let s := mapped (withRegs (cel0.updCtx (.cel 0) (fun x => { x with m := [(1, 0x8000)] })) [(1, 0x200000)])
       let o : WMemOp := { flat := true, x := false, vd := 2, va := 0, a := .reg 1, m := 1 }
       celEnabled s 1 = [15] ∧ lanesVerdict [15] (s.wldLane o) = .ok ∧ lanesVerdict [15] (s.wstLane o) = .ok
      ∧ s.corePlace s.core (celAddr s o 15) 4 .load = .ok (.hbm 0x20003C)
      ∧ s.corePlace s.core (celAddr s o 15) 4 .store = .ok (.hbm 0x20003C) ∧ taskNonidem s = false
      ∧ taskNonidem (nonidem s) = true) := by decide +kernel

/-- Die 0 stands at the barrier of a packet whose P slot holds a word. -/
def standing (w : Word32) : State :=
  let p : Packet := { Packet.empty with no := 1, p := some w, dieEn := 1 }
  (seq0.updCtx (.seq 0) (fun x => { x with sent := [p], instNo := 2 })).updDctx { die := 0, k := 0 }
    (fun x => { x with packet := some p, atBarrier := true })

/-- The engines own the first blocks of die 0. -/
def engines (s : State) (n : Nat) : State :=
  s.updDie 0 (fun x => { x with eng := (List.range n).map (fun k => (k, ())) })

theorem witness_BarrierOperations :
    (let s := { engines (owning (die0 (2 ^ 32 * 0x10000) 0) [0]) 32 with slot := .p }
     s.phase = .whole ∧ s.waitFor .fold = .ok
      ∧ s.permVerdict (.pshr { sz := 3, a := .reg 1, b := .reg 2 }) 3 (s.scalar false (.reg 1)) (s.scalar true (.reg 2)) = .ok
      ∧ s.permVerdict (.perm 0 3 (.reg 1)) 3 (s.scalar false (.reg 1)) 0 = .ok)
    ∧ (let s := owning (die0 0 0) [0]
       (s.dieRange s.dieId 0 64 64 false .prog 0).andThen (s.ueVerdict (dieMemKey 0 0) 64 0) = .ok)
    ∧ (let s := { die0 0 1 with slot := .p }
       (s.dctx s.dieId).count ≤ (s.scalar true (.reg 2)).toNat)
    ∧ (let x : DieCtx := { DieCtx.unbound with count := 1, pt := [(2, 0x81)] }
       permFrom x (.perm 2 0 (.reg 1)) 0 = some 1 ∧ x.count ≤ 1) := by decide +kernel

theorem witness_BarrierCompletes : ∀ e ∈ [((0x18000000 : Word32), Instr.rsync 0), (0x1C220000, .sigchk { t := true, clr := false, rt := 2 }),
      (0x15AE4000, .rred { kind := .and, cls := .z, big := true, k := 3, rt := 2 }), (0x00400400, .ptld 2 (.reg 8)),
      (0x08004409, .pshr { sz := 1, a := .reg 8, b := .reg 9 })],
    BarrierAt (standing e.1) 0 { Packet.empty with no := 1, p := some e.1, dieEn := 1 } e.2 [{ die := 0, k := 0 }]
      ∧ (standing e.1).ecc = [] ∧ (standing e.1).owes (.core (.seq 0)) = false := by
  unfold BarrierAt; decide +kernel

/-! ### Claims on copies, buffers, banks and engines -/

/-- A tensor of four tiles of B8 in one frame, its tile table at HBM address 0x40000. -/
def tensor0 : BitVec 512 :=
  BitVec.ofNat 512 (2 ^ 32 + 2 * 2 ^ 40 + 16 * 2 ^ 128 + 64 * 2 ^ 160 + 2 ^ 192 + 2 ^ 224 + 2 ^ 256 + 0x40000 * 2 ^ 320)

/-- Die 0 with the tensor at entry 0 of its launch; the program's bank 0, whose first blocks the engines own; the frame's bytes
are those of unlisted memory, its entry has V = 1, and the stack of the frame has room in its pool. -/
def copying (va vb : Word) (x : List (Nat × XReg)) : State :=
  let s := engines (owning (die0 va vb) [0]) 16
  let s : State := { s with
    mem := [(hbmKey 0x40002, 3), (hbmKey 0x40007, 0x80), (2 ^ 41 + 1, 1), (2 ^ 41 + 2, 16), (2 ^ 41 + 8193, 1),
            (2 ^ 41 + 8194, 16)],
    slots := [(0, { gen := 0, used := true, freed := false, stack := 0, table := 0x40000, size := 1 })], slot := .c,
    launches := s.launches.map (fun e => (e.1, { e.2 with tensors := [tensor0] })) }
  s.updDctx { die := 0, k := 0 } (fun y => { y with xregs := x })

/-- Register x2 names two tiles of the tensor from tile 1 on. -/
def run2 : XReg :=
  { filled := true, tid := 0, handle := 0, first := 1,
    tiles := [{ entry := 0x40000, slot := 1, v := true, frame := 3, ver := 0 },
              { entry := 0x40000, slot := 2, v := true, frame := 3, ver := 0 }] }

def xlateOp : XlateOp := { x := 2, tid := 0, a := .reg 1, cnt := 3 }
def tcopyOp : TcopyOp := { x := 2, e := true, a := .reg 1, b := .reg 2 }
def fcopyOp (out : Bool) : FcopyOp := { out, z := 6, e := false, a := .reg 1, b := .reg 2 }

theorem witness_CopyInstructions :
    (let s := copying 0 0 []
     s.phase = .whole ∧ s.xlateVerdict xlateOp = .ok ∧ (copying 1 0 []).xlateVerdict xlateOp = .trap .coordRange 0 0
      ∧ Table.find? (s.xregs s.unit) 2 = none ∧ s.waitMet s.unit (.engineFull 1) = true
      ∧ s.stallWait (.copies none s.curNo) = .ok)
    ∧ (let s : State := { copying 0 0 [] with ecc := [(hbmKey 0x40000 / 8, BitVec.ofNat 8 (eccByte 0x8000000000030000 ^^^ 3))] }
       (match s.xlateVerdict xlateOp with | .ue _ _ _ => true | _ => false) = true)
    ∧ (let s := copying 64 0x11 [(2, { run2 with first := 1 })]
       Table.find? (s.xregs s.unit) 2 ≠ none ∧ s.tcinVerdict false tcopyOp = .trap .coordRange 0 0)
    ∧ (let s := copying 64 0x10 [(2, run2)]
       s.tcinVerdict false tcopyOp = .ok ∧ s.tcinVerdict true tcopyOp = .ok)
    ∧ (let s := nonidem (copying 0 0 [(2, run2)])
       s.tcoutVerdict tcopyOp = .ok ∧ s.nonidem (s.unitTask s.unit) = true)
    ∧ (let s := copying 0xF000 0x3FF000 [(2, run2)]
       (mapped s).flatPlace false (s.scalar true (.reg 2)) 4096 false = .ok (.hbm 0x3FF000)
      ∧ (mapped s).fcopyVerdict false (fcopyOp false) = .ok ∧ (mapped s).fcopyVerdict false (fcopyOp true) = .ok
      ∧ s.suppressHere = false)
    ∧ (let s := mapped (copying 0 0x80000000000000 [])
       s.flatPlace true (s.scalar true (.reg 2)) 4096 true = .ok (.host 0) ∧ s.fcopyVerdict true (fcopyOp true) = .ok
      ∧ (Place.host 0).endsIdem = true) := by decide +kernel

/-- A buffer of three slots of one block, its writer side the engines', its reader side the program's. -/
def cb0 : Cb :=
  { base := 0, n := 3, blocks := 1, free := 2, filled := 1, wpos := 0, rpos := 2, wheld := 0, rheld := 1, wp := false, rp := true }
def buffered (c : Cb) : State :=
  let s := owning (copying 0 0x10 [(2, run2)]) [0]
  (s.updDie 0 (fun x => { x with eng := [] })).updDctx { die := 0, k := 0 } (fun x => { x with cbs := [(1, c)] })
def cbinitOp (wp rp : Bool) : CbinitOp := { cb := 0, wp, rp, a := .reg 1, b := .reg 2 }

theorem witness_CircularBuffers :
    (let s := (buffered cb0).updDctx { die := 0, k := 0 }
       (fun x => { x with cbs := [], packet := x.packet.map (fun p => { p with ca := 0xFD000, cb := 0x003 }) })
     s.phase = .whole ∧ s.scalar true (.reg 2) = 3 ∧ s.cbinitVerdict (cbinitOp true false) = .ok)
    ∧ (let s := (buffered cb0).updDctx { die := 0, k := 0 }
         (fun x => { x with packet := x.packet.map (fun p => { p with cb := 0x100 }) })
       (s.scalar true (.reg 2)).toNat % 256 = 0 ∧ s.cbinitVerdict (cbinitOp true false) = .ok)
    ∧ (let s := buffered cb0
       Table.find? (s.cbTable s.unit) 1 = some cb0 ∧ Table.find? (s.cbTable s.unit) 0 = none
      ∧ (s.scalar true (.reg 2)).toNat % 256 ≠ 0 ∧ cb0.wp = false
      ∧ (s.stallWait (.counter 1 true)).andThen (need cb0.rp .cbBad 0) = .ok
      ∧ (s.stallWait (.slotUse 1 true)).andThen (need (cb0.rp && decide (0 < cb0.rheld)) .cbBad 0) = .ok
      ∧ s.waitMet s.unit (.counter 1 false) = true ∧ s.waitMet s.unit (.slotUse 1 false) = true
      ∧ Table.find? (s.xregs s.unit) 2 = some run2
      ∧ s.cbCopyVerdict 1 2 false (s.scalar true (.reg 2)) false false = .ok)
    ∧ (let s := nonidem (buffered { cb0 with wp := true, rp := false })
       (s.cbCopyVerdict 1 2 false (s.scalar true (.reg 2)) false true).andThen
         (s.stageVerdict (s.unitTask s.unit) ((s.runReg 2).picked (s.scalar true (.reg 2)))) = .ok
      ∧ s.nonidem (s.unitTask s.unit) = true) := by decide +kernel

/-- Die 0 with one bank in a state. -/
def bankIs (m : Nat) (st : BankState) : State :=
  (die0 (BitVec.ofNat 64 m) 5).updDie 0 (fun x => { x with banks := [(m, st)] })

theorem witness_BanksAndOwnerBits :
    (let s := owning (die0 0xBFFF000 0) [191]
     s.onDie = some { die := 0, k := 0 } ∧ s.phase = .whole ∧ s.townVerdict (s.scalar false (.reg 1)) = .ok
      ∧ (s.waitFor (.block 0xBFFF000)).andThen (s.townVerdict (s.scalar false (.reg 1))) = .ok
      ∧ s.waitMet (.die { die := 0, k := 0 }) (.block 0xBFFF000) = true)
    ∧ (die0 4095 0).ca (.reg 1) = 4095 ∧ 192 * 2 ^ 20 ≤ ((die0 0xC000000 0).scalar false (.reg 1)).toNat
    ∧ (die0 0xBFFF000 0).ownsBank { lid := 0, wid := 0 } 0 191 = false
    ∧ 192 ≤ ((die0 192 0).scalar false (.reg 1)).toNat ∧ Table.get .free ((die0 191 0).die 0).banks 191 = .free
    ∧ (let s := { bankIs 191 (.released { lid := 7, wid := 0 } 5) with slot := .p }
       Table.get .free (s.die 0).banks 191 = .released { lid := 7, wid := 0 } ((s.scalar true (.reg 2)).setWidth 32))
    ∧ (let s := { bankIs 0 (.released { lid := 7, wid := 0 } 6) with slot := .p }
       Table.get .free (s.die 0).banks 0 = .released { lid := 7, wid := 0 } 6 ∧ (6 : BitVec 32) ≠ (s.scalar true (.reg 2)).setWidth 32)
    ∧ (let s := bankIs 0 (.owned { lid := 7, wid := 0 } none)
       Table.get .free (s.die 0).banks 0 = .owned { lid := 7, wid := 0 } none ∧ s.diagTask { lid := 7, wid := 0 } = false
      ∧ s.dieTask { die := 0, k := 0 } ≠ { lid := 7, wid := 0 })
    ∧ (bankIs 191 (.owned { lid := 0, wid := 0 } none)).bankrelVerdict 191 = .ok := by decide +kernel

def tile1 : Tile := { entry := 0x40000, slot := 1, v := true, frame := 3, ver := 0 }
/-- An operation of copy engine 1 of die 0. -/
def copyOp (kind : CopyKind) : CopyOp :=
  { no := 1, kind, off := 0, len := 320, tid := 0, entry := tensor0, first := 1, tiles := [tile1],
    flat := 2 ^ 40 - 320, addr := 0, cb := 1, host := false, started := false, ue := false,
    task := { lid := 0, wid := 0 } }
def engine (o : CopyOp) : State :=
  (nonidem (buffered { cb0 with wp := false, rp := false })).setEngineQ (.die { die := 0, k := 0 }) 1 [o]

theorem witness_EngineEvents :
    (∀ o ∈ [copyOp .flatIn, copyOp .flatOut, copyOp (.tcin false), copyOp (.cbwr false), copyOp .cbrd],
      let s := engine o
      s.ecc = [] ∧ s.flaws = [] ∧ s.owes (.die { die := 0, k := 0 }) = false
      ∧ (s.engineQ (.die { die := 0, k := 0 }) 1).head? = some o ∧ o.started = false ∧ o.ue = false
      ∧ s.canStart (.die { die := 0, k := 0 }) o = true ∧ s.nonidem o.task = true
      ∧ s.unitSuppressed (.die { die := 0, k := 0 }) = false ∧ placeOfKey o.flat = .hbm (2 ^ 40 - 320)
      ∧ (s.copyRead (.die { die := 0, k := 0 }) o.task (placeOfKey o.flat) o.len).length = o.len
      ∧ Table.find? (s.cbTable (.die { die := 0, k := 0 })) o.cb = some { cb0 with wp := false, rp := false })
    ∧ plainUnit (engine (copyOp .flatIn)) (.core (.cel 0))
    ∧ (let s := engine (copyOp .cbrd)
       s.goodImages (.die { die := 0, k := 0 }) (copyOp .cbrd) 8192 = 1)
    ∧ (let s := engine { copyOp .flatIn with started := true }
       (s.engineQ (.die { die := 0, k := 0 }) 1).head? = some { copyOp .flatIn with started := true })
    ∧ (let s := copying 0 0 [(2, { run2 with filled := false })]
       Table.find? (s.xregs s.unit) 2 = some { run2 with filled := false })
    ∧ (∀ o ∈ [copyOp (.tcin true), copyOp .tcout],
       let s := engine o
       s.canStart (.die { die := 0, k := 0 }) o = true ∧ s.unitSuppressed (.die { die := 0, k := 0 }) = false
      ∧ o.tiles = [tile1] ∧ (tFmt o.entry = 1 ∨ tFmt o.entry = 2 ∨ tFmt o.entry = 3)
      ∧ (tile1.slot + 1) * tileBytes (tFmt o.entry) (tSide o.entry) ≤ 64512) := by
  refine ⟨by decide +kernel, ⟨by decide +kernel, trivial⟩, by decide +kernel, by decide +kernel, by decide +kernel, by decide +kernel⟩

/-- A nest of table 3 runs on die 0; every header it meets is that of an image of B8 of side 16. -/
def nesting : State :=
  let s := (copying 0 0 []).updDctx { die := 0, k := 0 } (fun x => { x with shadow := [(96, 1), (112, 5)] })
  let s : State := { s with mem := [(2 ^ 41 + 1, 1), (2 ^ 41 + 2, 16), (2 ^ 41 + 321, 1), (2 ^ 41 + 322, 16)] }
  match exec (.mgo 3) s with
  | .next t => t
  | _ => s

theorem witness_EngineEventsOfNests :
    (nesting.nestNo { die := 0, k := 0 } 3).all (fun x => let o := staged nesting { die := 0, k := 0 } x
      !x.bsrc && (nestWord x.words x.table 16).toNat == 5 && o.outs.all (fun w => w.1 < o.side)
        && (List.range 32).any (fun j => o.codeA != 255 && o.codeB j != 255)) = true ∧
    ((nesting.nestNo { die := 0, k := 0 } 3).all (fun x => nesting.nestVerdict { die := 0, k := 0 } x == .ok && !x.finished)
      && (nesting.nestNo { die := 0, k := 0 } 3).isSome && nesting.allOps (.die { die := 0, k := 0 }) == []
      && nesting.layers == [] && nesting.flaws == [] && nesting.ecc == [] && !nesting.owes (.die { die := 0, k := 0 })) = true
    ∧ (let s := nesting.updDctx { die := 0, k := 0 } (fun y => { y with nests := y.nests.map (fun n => { n with finished := true }) })
       (s.nestNo { die := 0, k := 0 } 3).map (·.finished) = some true) := by decide +kernel

/-! ### Claims on near-memory commands -/

/-- A CTL word: rows of 64 bytes of F32 after one another, two of them, list numbers below 5, DATA in the scratchpad or flat. -/
def ctl (dsp : Nat) : Nat := 5 * 2 ^ 32 + 2 ^ 16 + 256 + 2 * dsp
/-- Bytes of a scratchpad's word, little-endian. -/
def padWord (c off v : Nat) : List Host.Cell :=
  (List.range 8).filterMap (fun i => if v / 256 ^ i % 256 = 0 then none
    else some (padKey (CoreId.cel c).padIdx (off + i), BitVec.ofNat 8 (v / 256 ^ i)))
/-- Cellar context 0, pages mapped, a descriptor at 0x100 and a list at 0x400 in its scratchpad. -/
def near (base data aux ctl : Nat) : State :=
  { withRegs cel0 [(1, 0x100)] with
    roots := [(0, 0x10000)],
    mem := pageTables ++ padWord 0 0x100 base ++ padWord 0 0x108 data ++ padWord 0 0x110 aux ++ padWord 0 0x118 ctl
      ++ padWord 0 0x400 (2 ^ 32 * 7 + 4) }
def nmOp : NmOp := { v := false, d := 3, nw := false, a := .reg 1 }
def nmGood (s : State) (k : NmKind) (v : Bool) : Prop :=
  ¬nmBadFields k (nmWord s 0x100 2) (nmWord s 0x100 3)
    ∧ (nmAddressChecks k v (nmWord s 0x100 0) (nmWord s 0x100 1) (nmWord s 0x100 2) (nmWord s 0x100 3)).find? (·.1) = none

theorem witness_NearMemoryInstructions :
    (∀ e ∈ [(NmKind.nired, near 0x200000 0x1000 0x400 (ctl 1)), (.ngath, near 0x200000 0x1000 0x400 (ctl 1)),
        (.nstrm, near 0x200000 0x1000 0 (ctl 1 - 5 * 2 ^ 32)), (.nmrow, nonidem (near 0x200000 0x201000 0x202000 (ctl 0 - 5 * 2 ^ 32))),
        (.nscat, nonidem (near 0x200000 0x201000 0x400 (ctl 0)))],
      e.2.onDie = none ∧ e.2.ecc = [] ∧ e.2.phase = .whole ∧ e.2.src (.reg 1) = 0x100
      ∧ nmGood e.2 e.1 false ∧ (e.2.ctx e.2.core).nmq.length < 16 ∧ (e.2.ctx e.2.core).ticket + 1 < 2 ^ 48
      ∧ (nmStoresFlat e.1 (nmWord e.2 0x100 3) = false ∨ taskNonidem e.2 = true))
    ∧ nmBadFields .nired 0x400 (nmWord (near 0x200000 0x1000 0x400 (ctl 1 + 1)) 0x100 3)
    ∧ (nmAddressChecks .nired false 0x200001 0x1000 0x400 (nmWord (near 0x200000 0x1000 0x400 (ctl 1)) 0x100 3)).find? (·.1)
        = some (true, .addrAlign, 0x200001)
    ∧ (∀ l ∈ [[(1, 0x7FFE0)], [(1, 0x80000)], [(1, 0x101)]], (withRegs cel0 l).onDie = none)
    ∧ (let s := cel0.updCtx (.cel 0) (fun x => { x with regs := [(1, 5)], ticket := 70, nmDone := 69, skips := [(5, 2)] })
       (s.src (.reg 1)).toNat ≤ (s.ctx s.core).ticket ∧ (s.src (.reg 1)).toNat ≤ (s.ctx s.core).nmDone)
    ∧ (let s := cel0.updCtx (.cel 0) (fun x => { x with regs := [(1, 70)], ticket := 70, nmDone := 69 })
       (s.ctx s.core).nmDone < (s.src (.reg 1)).toNat) := by
  unfold nmGood nmBadFields; decide +kernel

theorem witness_NearMemoryCaches : (near 0x200000 0x1000 0x400 (ctl 1)).cachesCanonical := by
  unfold State.cachesCanonical; decide +kernel

/-- A command at the head of cellar context 0's queue. -/
def cmd (kind : NmKind) (data aux dsp pos : Nat) : NmCmd :=
  { kind, v := false, ticket := 1, base := 0x200000, data := BitVec.ofNat 64 data, aux := BitVec.ofNat 64 aux,
    ctl := BitVec.ofNat 64 (ctl dsp), idx := [4, 7], pos, sum := none, skip := 0 }
def queued (m : NmCmd) : State :=
  let s := near 0 0 0 0
  s.updCtx (.cel 0) (fun x => { x with nmq := [m], ticket := 1 })

theorem witness_NearMemoryEvents :
    (let m := cmd .nired 0x1000 0x400 1 0
     (queued m).ecc = [] ∧ (queued m).flaws = [] ∧ (queued m).layers = [] ∧ ((queued m).ctx (.cel 0)).nmq.head? = some m ∧ nmRow m.ctl ≤ 256 ∧ nmCount m.ctl = 2
      ∧ m.idx.getD 0 0 < nmLim m.ctl ∧ nmLim m.ctl ≤ m.idx.getD 1 0
      ∧ (queued m).nmKey (.cel 0) (0x200000 + BitVec.ofNat 64 (64 * 1 * 4)) false = some (hbmKey 0x200100))
    ∧ (queued (cmd .nmrow 0x201000 0x202000 0 1)).nmKey (.cel 0) 0x201040 true = some (hbmKey 0x201040)
    ∧ (queued (cmd .nmrow 0x201000 0x202000 0 1)).nmKey (.cel 0) 0x400000 false = none
    ∧ Table.find? (queued (cmd .nired 0x1000 0x400 1 0)).refresh (channelOf (hbmKey 0x200100)) = none
    ∧ (let s := { queued (cmd .nired 0x1000 0x400 1 0) with refresh := [(channelOf (hbmKey 0x200100), ())] }
       Table.find? s.refresh (channelOf (hbmKey 0x200100)) = some ())
    ∧ ((cmd .nired 0 0 1 3).kind = .nired ∧ nmCount (cmd .nired 0 0 1 3).ctl < (cmd .nired 0 0 1 3).pos)
    ∧ (nmCount (cmd .ngath 0 0 1 2).ctl ≤ (cmd .ngath 0 0 1 2).pos) := by decide +kernel

/-! ### Claims on contexts and their tasks -/

def seqIs (f : Ctx → Ctx) : State := seq0.updCtx (.seq 0) f
def flightAt (due : Nat) : Flight := { due, out := .s 3 7, slot := .s0, flags := 1, vflags := 0, lv := 3, issued := 1, arrived := false }

theorem witness_ContextEvents :
    (let s := seqIs (fun x => { x with run := .blocked (.nmTicket 0) })
     (s.ctx (.seq 0)).run = .blocked (.nmTicket 0) ∧ s.waitMet (.core (.seq 0)) (.nmTicket 0) = true
      ∧ s.waitMet (.core (.seq 0)) (.nmTicket 1) = false)
    ∧ (let x := (seqIs (fun x => { x with inflight := [flightAt 4], stepNo := 4 })).ctx (.seq 0)
       x.late = 0 ∧ x.inflight = [] ++ flightAt 4 :: [] ∧ (flightAt 4).arrived = false)
    ∧ ((seqIs (fun x => { x with late := 2 })).ctx (.seq 0)).late ≠ 0 ∧ (CoreId.seq 31).real = true ∧ (CoreId.cel 767).real = true
    ∧ (let x := (seqIs (fun x => { x with interlocked := [.s 3 7] })).ctx (.seq 0)
       x.late = 0 ∧ (∀ f ∈ x.inflight, f.arrived = true) ∧ x.interlocked = [.s 3 7])
    ∧ (let x := seq0.ctx (.seq 0)
       x.task ≠ none ∧ x.run ≠ .halted ∧ ((seqIs (fun x => { x with stepStop := true })).ctx (.seq 0)).stepStop = true)
    ∧ (let s := (State.reset.withFetchWord 32 0x00808103).setCoreRec (.seq 0) { Core.idle with curLim := 0 }
       coreFirst 192 = .seq 0 ∧ 199 < 200 ∧ (CoreId.mates (.seq 0)).find? s.limitHolds = some (.seq 0)
      ∧ (CoreId.mates (.seq 0)).find? seq0.limitHolds = none) := by decide +kernel

def drainRec : BindRec := { wid := 0, lnch := 0, last := true, ctx := 0, mask := 0, dctx := 0 }

theorem witness_PreemptionEvents :
    (let s := seqIs (fun x => { x with yieldDl := 0 })
     let x := s.ctx (.seq 0)
     s.gangOf (.seq 0) = [.seq 0] ∧ x.task ≠ none ∧ x.drain = none ∧ x.yieldDl ≠ BitVec.allOnes 64
      ∧ x.yieldDl.toNat ≤ s.timeCnt.toNat ∧ x.loops = [] ∧ x.handler = false ∧ x.notice = none ∧ x.frozenAt = none ∧ x.replayTo = 0
      ∧ x.irq = false ∧ x.stopped = false ∧ x.stepStop = false ∧ x.run = .ready)
    ∧ ((seqIs (fun x => { x with yieldDl := 0, handler := true })).ctx (.seq 0)).handler = true
    ∧ (let x := (seqIs (fun x => { x with yieldDl := 0, run := .service .pageNone 2 0 0 })).ctx (.seq 0)
       x.drain = none ∧ x.loops = [] ∧ x.run = .service .pageNone 2 0 0)
    ∧ (seq0.ctx (.seq 0)).yieldDl = BitVec.allOnes 64
    ∧ (seq0.batch = [] ∧ seq0.recTask drainRec = some { lid := 0, wid := 0 } ∧ seq0.recCtx drainRec = .seq 0
      ∧ seq0.batchOk [(.drain, drainRec)] = true ∧ State.reset.batchOk [(.drain, drainRec)] = false)
    ∧ (let s := seqIs (fun x => { x with run := .drained false, drain := some .expiry })
       s.still (.seq 0) = true ∧ s.gangOf (.seq 0) = [.seq 0] ∧ s.saveRoom [.seq 0] = true ∧ s.ecc = []
      ∧ s.flaws = [] ∧ (s.ctx (.seq 0)).task ≠ none) := by decide +kernel

theorem witness_SwitchOutCaches : (seqIs (fun x => { x with run := .drained false, drain := some .expiry })).cachesCanonical := by
  unfold State.cachesCanonical; decide +kernel

/-- Die 0 has faulted at number 1 with a cause, and the stream of its partition is frozen there. -/
def frozen (cause : Cause) (slot : Nat) (run : Run) : State :=
  (seq0.updCtx (.seq 0) (fun x => { x with frozenAt := some 1, run, instNo := 2, sent := [{ Packet.empty with no := 1, dieEn := 1 }] })).updDctx
    { die := 0, k := 0 } (fun x => { x with fault := some { no := 1, slot, cause, tval := 7 } })

theorem witness_DecidingFault : ∀ cause ∈ [Cause.addrBad, .bankOwn, .pageNone, .ue, .sigMismatch, .stageFull],
    DecidingFault (frozen cause 4 .ready) (.seq 0) 1 { no := 1, slot := 4, cause, tval := 7 } := by
  have h : ∀ cause ∈ [Cause.addrBad, .bankOwn, .pageNone, .ue, .sigMismatch, .stageFull],
      ((frozen cause 4 .ready).ctx (.seq 0)).dieIds[0]? = some { die := 0, k := 0 }
      ∧ ((frozen cause 4 .ready).dctx { die := 0, k := 0 }).fault = some { no := 1, slot := 4, cause, tval := 7 } := by
    decide +kernel
  exact fun c m => ⟨rfl, 0, { die := 0, k := 0 }, (h c m).1, .inl (h c m).2, fun _ _ l => absurd l (Nat.not_lt_zero _)⟩

theorem witness_FaultEvents :
    (∀ e ∈ [(Cause.addrBad, Fate.h), (.bankOwn, .h), (.pageNone, .s), (.ue, .a), (.sigMismatch, .a), (.stageFull, .f)],
      ∃ g ∈ [({ no := 1, slot := 4, cause := e.1, tval := 7 } : DieFault)],
        let s := frozen e.1 4 .ready
        g.fate = e.2 ∧ FrozenAt s (.seq 0) 1 ∧ (s.ctx (.seq 0)).run = .ready ∧ s.ecc = []
        ∧ (s.dctx { die := 0, k := 0 }).engFault = none)
    ∧ (let s := (frozen .pageNone 4 .ready).updCtx (.seq 0) (fun x => { x with freezeOver := true })
       (s.ctx (.seq 0)).freezeOver = true ∧ (s.ctx (.seq 0)).run = .ready ∧ FrozenAt s (.seq 0) 1 ∧ s.flaws = []
      ∧ (s.ctx (.seq 0)).sent.getLast?.map (·.no) = some 1)
    ∧ (frozen .addrBad 4 .halted |>.ctx (.seq 0)).run = .halted
    ∧ ((frozen .addrBad 4 (.service .pageNone 2 0 0)).ctx (.seq 0)).run = .service .pageNone 2 0 0 := by
  unfold FrozenAt; decide +kernel

theorem witness_TaskEnds : (let s := seq0
    s.groupOthers { lid := 0, wid := 0 } = [] ∧ (s.task { lid := 0, wid := 0 }).ctx = some (.seq 0)
      ∧ s.nonidem { lid := 0, wid := 0 } = false ∧ (s.task { lid := 0, wid := 0 }).rb + 1 ≤ s.rbLimit
      ∧ (s.task { lid := 0, wid := 0 }).saved = none ∧ (nonidem s).nonidem { lid := 0, wid := 0 } = true
      ∧ (s.objOf (s.launch 0)).tlsSize = 0 ∧ (s.objOf (s.launch 0)).stackSize = 0 ∧ s.l1 (.seq 0) = [])
    ∧ (let s := seq0.updTask { lid := 0, wid := 0 } (fun x => { x with rb := 3 })
       s.rbLimit < (s.task { lid := 0, wid := 0 }).rb + 1) := by decide +kernel

/-! ### Claims on records, binds and commits -/

/-- A record from its fields: TYPE with FLAGS, SIGNAL, WAIT0, the words at 16, 24 and 32, and the reserved byte 3. -/
def recOf (type signal wait a b c : Nat) : BitVec 512 :=
  BitVec.ofNat 512 (type + signal * 2 ^ 64 + wait * 2 ^ 80 + a * 2 ^ 128 + b * 2 ^ 192 + c * 2 ^ 256)
def qrec (r : BitVec 512) : QRec := { record := r, device := false, name := 0, admitted := false, waits := [], failed := false }
/-- Queue 63 of the physical function holds a record. -/
def withRec (s : State) (r : QRec) : State := s.setQueue 63 { Queue.empty with recs := [r] }

def kernel0 : Func :=
  { obj := 0, addr := 0x4000000C0, stub := 0, xbase := 0, kind := 2, sig := 0, ftIdx := 0, handler := 0, merlet := [],
    cellar := false, portable := false }
def newDesc : Nat := 2 ^ 32 + 2 * 2 ^ 40 + 2 ^ 48 + 16 * 2 ^ 128 + 64 * 2 ^ 160 + 2 ^ 192 + 2 ^ 224 + 2 ^ 256
/-- Page tables, a tensor descriptor at 0x200000, an object with one function, one line of code. -/
def served : State :=
  { State.reset with
    roots := [(0, 0x10000)], funcs := [kernel0], code := [{ addr := 0x400000080, ver := 0, line := 0 }],
    objs := [(0, { func := 0, ftBase := [], ftLen := 0, dataBase := [], stackSize := 0, tlsSize := 0, codeSize := 0x100 })],
    mem := pageTables ++ (bytesOfNat newDesc 64).zipIdx.filterMap (fun e =>
      if e.1 = 0 then none else some (hbmKey (0x200000 + e.2), e.1)) }
def launchRec (wait : Nat) : BitVec 512 := recOf (1 + 2 ^ 32) 5 wait (2 ^ 48 + 1) 0 0x4000000C0
def late (r : BitVec 512) : QRec := { qrec r with admitted := true }

theorem witness_LaunchWindow :
    (let s := State.reset
     ((s.queue 63).func = 0 ∧ (s.queue 63).recs.length < 256 ∧ (s.queue 63).func ≠ 1 ∧ s.hasFunc 0 = true
      ∧ ({ s with vfs := 15 } : State).hasFunc 15 = true))
    ∧ (let s := State.reset.setQueue 63 { Queue.empty with recs := List.replicate 256 (qrec 0) }
       256 ≤ (s.queue 63).recs.length)
    ∧ (let l := placedLaunch false Task.fresh
       l.complete = false ∧ ({ l with started := false }).started = false ∧ l.failed = false ∧ l.waits = []) := by decide +kernel

theorem witness_RecordsAdmitted :
    (let s := withRec served (qrec (launchRec 0))
     let u : State := { s with admitQ := 63 }
     s.ecc = [] ∧ s.layers = [] ∧ HeadServed s (fun ty => decide (ty < 2) || decide (5 < ty)) 63 (qrec (launchRec 0)) []
      ∧ u.admissionStatus 63 (launchRec 0) false = none ∧ u.kernelAt 0x4000000C0 = some kernel0
      ∧ (u.translateAll (u.funcs.filter (fun g => g.obj = kernel0.obj))).2 = none
      ∧ ((u.translateAll (u.funcs.filter (fun g => g.obj = kernel0.obj))).1.queue 63).recs = [qrec (launchRec 0)])
    ∧ (let s := withRec served (qrec (recOf 1 5 0 0 0 0))
       ({ s with admitQ := 63 } : State).admissionStatus 63 (recOf 1 5 0 0 0 0) false ≠ none)
    ∧ (∀ r ∈ [qrec (recOf 0 5 0 0 0 0), qrec (recOf 6 5 0 0 0 0)],
        HeadServed (withRec served r) (fun ty => decide (ty < 2) || decide (5 < ty)) 63 r []) := by
  unfold HeadServed; decide +kernel

theorem witness_RecordsPerformed :
    (∀ e ∈ [(3, recOf 3 5 0 0 0 0), (2, recOf 2 5 0 0x200000 0x400000080 64), (4, recOf 4 5 0 0x200000 0x201000 0),
            (5, recOf 5 5 0 0 0 0)],
      let s := withRec served (qrec e.2)
      let u : State := { s with admitQ := 63 }
      s.ecc = [] ∧ s.layers = [] ∧ HeadServed s (fun ty => decide (ty = e.1)) 63 (qrec e.2) [] ∧ u.admissionStatus 63 e.2 false = none
      ∧ u.openWaits 0 e.2 = [] ∧ HeadServed (withRec served (late e.2)) (fun ty => decide (ty = e.1)) 63 (late e.2) []
      ∧ HeadServed (withRec served { late e.2 with failed := true }) (fun ty => decide (ty = e.1)) 63
          { late e.2 with failed := true } [])
    ∧ (let u : State := withRec served (qrec (recOf 3 5 9 0 0 0))
       u.openWaits 0 (recOf 3 5 9 0 0 0) = [9] ∧ u.admissionStatus 63 (recOf 3 5 9 0 0 0) false = none)
    ∧ ({ withRec served (qrec 0) with admitQ := 63 } : State).admissionStatus 63 (recOf 3 0 0 0 0 1) false ≠ none
    ∧ (served.fwRead 0 0x200000 64).map List.length = some 64
    ∧ (served.tslot 0).gen.toNat = (BitVec.ofNat 32 0).toNat / 2 ^ 20 ∧ (served.tslot 1).gen.toNat ≠ (2 ^ 20 + 1) / 2 ^ 20
    ∧ served.fwRead64 0 0x200000 = some (BitVec.ofNat 512 newDesc) ∧ tensorOk (BitVec.ofNat 512 newDesc) true = true
    ∧ served.freeSlot (2 ^ 20) 0 = some 0 ∧ 1 ≤ ((stacksOf 1).map served.poolFree).foldl (· + ·) 0
    ∧ (served.tableGap 0 1).isSome = true ∧ (∀ g ∈ served.funcs, g.portable = false)
    ∧ ({ served with framesOut := [(0, framesOfStack)] } : State).poolFree 0 < 1 := by
  unfold HeadServed; decide +kernel

/-- The new entry of TNEW can be written to a landing buffer, whatever the memory holds. -/
theorem witness_TnewEntryWritten (v : State) (n : Nat) : v.fwWrite 0 0x90000000000000 (bytesOfNat n 64) ≠ none := by
  have h : ((List.range 64).mapM (fun i => v.fwPlace 0 (0x90000000000000 + i) true)).isSome = true := rfl
  have l : (bytesOfNat n 64).length = 64 := by simp [bytesOfNat]
  unfold State.fwWrite
  rw [l]
  cases e : (List.range 64).mapM (fun i => v.fwPlace 0 (0x90000000000000 + i) true) with
  | none => rw [e] at h; cases h
  | some x => simp

theorem witness_RecordsFreed :
    (let s := { State.reset with slots := [(3, { TensorSlot.unused with freed := true, used := true, table := 0x40000, size := 1 })] }
     (s.tslot 3).freed = true ∧ s.inFlight 3 = false)
    ∧ (let s := { copying 0 0 [(2, run2)] with slots := [(0, { TensorSlot.unused with freed := true, table := 0x40000, size := 1 })] }
       (s.tslot 0).freed = true ∧ s.inFlight 0 = true) := by decide +kernel

/-- A launch of one task on a partition of one die, its task READY, PREEMPTED or COMMITTING. -/
def launched (x : Task) : State :=
  { State.reset with launches := [(0, { placedLaunch false x with record := launchRec 0, entry := 64, args := [1, 2, 3, 4, 5, 6, 7, 8] })], nextLid := 1 }
def bindRec : BindRec := { wid := 0, lnch := 0, last := true, ctx := 0, mask := 1, dctx := 0 }
def savedTask : Saved :=
  { frame := 0, ctx := { Ctx.unbound with run := .drained false, dieMask := 1, dieEn := 1 }, count := 1, dies := [], hwctx := 0,
    stack := 0, scratch := [], mates := [] }
def ending : State :=
  (seq0.updCtx (.seq 0) (fun x => { x with run := .halted })).updTask { lid := 0, wid := 0 } (fun x => { x with
    state := .committing, staged := [(5, 7)] })

theorem witness_BindAndCommit :
    (let s := launched { Task.fresh with state := .ready }
     s.batch = [] ∧ NoKiln s [(.bind, bindRec)] ∧ s.batchOk [(.bind, bindRec)] = true
      ∧ s.recTask bindRec = some { lid := 0, wid := 0 } ∧ (s.launch 0).args.length ≤ 8
      ∧ ({ s with roots := [(0, 0x10000)] } : State).batchOk [(.bind, bindRec)] = true)
    ∧ (let r := { bindRec with lnch := 9 }
       NoKiln State.reset [(.bind, r)] ∧ State.reset.batchOk [(.bind, r)] = false)
    ∧ (let s := launched { Task.fresh with state := .preempted, saved := some savedTask, mask := 1, everBound := true }
       NoKiln s [(.resume, bindRec)] ∧ s.batchOk [(.resume, bindRec)] = true ∧ (s.task { lid := 0, wid := 0 }).saved = some savedTask
      ∧ (s.recCtx bindRec).isCellar = false ∧ s.ecc = [] ∧ savedTask.ctx.run = .drained false)
    ∧ ((ending.task { lid := 0, wid := 0 }).ctx = some (.seq 0) ∧ ending.committable { lid := 0, wid := 0 } = true
      ∧ ending.commitUE { lid := 0, wid := 0 } = false
      ∧ (ending.ctx (.seq 0)).peerErr = false ∧ (ending.launch 0).kind ≠ .cellar ∧ (ending.task { lid := 0, wid := 0 }).shadows = []
      ∧ Table.risingFrom 0 (ending.task { lid := 0, wid := 0 }).staged = true ∧ seq0.committable { lid := 0, wid := 0 } = false
      ∧ (ending.objOf (ending.launch 0)).tlsSize = 0 ∧ (ending.objOf (ending.launch 0)).stackSize = 0)
    ∧ (let s := { bankIs 191 (.released { lid := 0, wid := 0 } 5) with launches := [(0, { placedLaunch false Task.fresh with complete := true })] }
       Table.risingFrom 0 s.dies = true ∧ Table.get .free (s.die 0).banks 191 = .released { lid := 0, wid := 0 } 5
      ∧ (s.launch 0).complete = true ∧ ∀ e ∈ s.launches, s.successorOf 0 e = true → e.2.complete = true)
    ∧ ((bankIs 191 (.released { lid := 0, wid := 0 } 5)).launch 0).complete = false := by
  unfold NoKiln; decide +kernel

/-! ### Claims on the package -/

def syncOp (pod : Bool) (slave : Nat) : SyncOp := { pod, slave, ok := true, t1 := 10, t2 := 13, t3 := 14, t4 := 19, bound := 4 }

theorem witness_TimeAndPods :
    (let s := { State.reset with timeCnt := 16384 }
     s.syncOk (syncOp false 59) = true ∧ s.boundHolds 4 = true
      ∧ s.syncOk { syncOp false 59 with ok := false } = true ∧ 16383 / 16384 ≤ TimeCopy.same.last)
    ∧ (let s := { State.reset with pod := some 1, podMaster := 2, timeCnt := 1048576 }
       s.pod ≠ none ∧ s.syncOk (syncOp true 0) = true ∧ s.pod ≠ some s.podMaster)
    ∧ (let s := { State.reset with copies := [(59, { TimeCopy.same with fail := 16 })] }
       s.timeLost = false ∧ ∃ e ∈ s.copies, 16 ≤ e.2.fail)
    ∧ (let s := { State.reset with timeLost := true, copies := [(59, { TimeCopy.same with ok := 16 })] }
       s.copies ≠ [] ∧ (∀ e ∈ s.copies, 16 ≤ e.2.ok) ∧ s.boundHolds s.pkgBound = true)
    ∧ (let s := { State.reset with copies := [(0, { TimeCopy.same with off := 3 }), (59, { TimeCopy.same with off := -2 })] }
       s.boundHolds 5 = true ∧ s.boundHolds 4 = false)
    ∧ (let s := { State.reset with timeLost := true, copies := [(59, { TimeCopy.same with ok := 15 })] }
       s.copies = [] ∨ ∃ e ∈ s.copies, e.2.ok < 16)
    ∧ (State.reset.pod = none ∧ State.reset.launches = [] ∧ 4095 < 4096
      ∧ ∀ k ∈ [({ id := 4095, port := 7 } : PodMember)], k.id < 4096 ∧ k.port < 8)
    ∧ (let s := { State.reset with pod := some 1, podBound := 4, copies := [(60, { TimeCopy.same with ok := 16 })] }
       s.podValid = false ∧ 16 ≤ (Table.get TimeCopy.same s.copies 60 : TimeCopy).ok ∧ s.podBound ≠ 0xFFFF
      ∧ (Table.get TimeCopy.same s.copies 60 : TimeCopy).slew.natAbs ≤ s.podBound.toNat)
    ∧ (let s := { State.reset with timeCnt := 1 }
       0 < s.timeCnt.toNat ∧ s.timeCnt.toNat + s.pace + 1 < 2 ^ 64) := by decide +kernel

theorem witness_UnitsAndStorage :
    (let s := { State.reset with ecc := [(5, 0x01)], rewrites := [5] }
     s.rewrites = [5] ∧ (s.nextUnclean s.scrubPos).isSome = true)
    ∧ (State.reset.unitIdle 0x10000000 = true ∧ State.reset.kilnPlace (.seq 31) (2 ^ 47) 0 = true
      ∧ State.reset.kilnPlace (.cel 767) 0 0 = true)
    ∧ (let s := seq0.updCtx (.seq 0) (fun x => { x with diag := true })
       (s.ctx (.seq 0)).diag = true)
    ∧ (let u : UnitCode := unitCode 0x21 0 0
       let s := State.reset.setHealth u { HealthEntry.good with st := .retired }
       (s.healthOf u).st = .retired ∧ (s.healthOf u).spare = false ∧ s.unitIdle u = true)
    ∧ (let u : UnitCode := unitCode 0x01 0 191
       State.reset.unitIdle u = true ∧ unitClass u ≤ 5)
    ∧ State.reset.layerInUse 11 15 = false
    ∧ (7 < 8 ∧ 11 < 12 ∧ 15 < 16 ∧ Table.find? ({ State.reset with peers := [(3, true)] }).peers 3 = some true) := by
  decide +kernel

theorem witness_ResetsAndHostPort :
    ((State.reset.dctx { die := 47, k := 0 }).part = none ∧ (State.reset.dctx { die := 47, k := 1 }).part = none)
    ∧ (seq0.dctx { die := 0, k := 0 }).part ≠ none
    ∧ (State.reset.hasFunc 0 = true ∧ State.reset.hasFunc 16 = false ∧ State.reset.ecc = [] ∧ State.reset.layers = [])
    ∧ (0 < 4095 ∧ 4095 < 4096) ∧ 40 + 8 ≤ 48 ∧ (8 ≤ 12 ∧ 12 + 4 ≤ 16)
    ∧ (let v := BitVec.ofNat 512 (0x1000 + 0x40 * 2 ^ 64 + 4095 * 2 ^ 192)
       recField v 26 6 = 0 ∧ recField v 40 24 = 0 ∧ 0 < recField v 24 2 ∧ recField v 24 2 < 4096
      ∧ ({ State.reset with bootStage := 3, loads := [(0, v)] }).loads = [(0, v)])
    ∧ recField (2 ^ 511) 40 24 ≠ 0 := by decide +kernel

/-- The mailbox with a debugger command that has been started. -/
def asking (s : State) (cmd kind ctx arg : Nat) : State :=
  { s with mailbox := ([(1024, cmd), (1025, kind), (1026, ctx % 256), (1027, ctx / 256), (1028, 1), (1032, arg % 256),
      (1033, arg / 256)].filter (fun e => e.2 != 0)).map (fun e => (e.1, BitVec.ofNat 8 e.2)) }

theorem witness_DebuggerCommands :
    (∀ cmd ∈ [1, 2, 3, 4, 5, 6], DbgAsks (asking seq0 cmd 0 31 0) cmd (.seq 31) ∧ DbgAsks (asking seq0 cmd 1 767 0) cmd (.cel 767))
    ∧ (∀ arg ∈ [0, 504, 512, 720, 4], mailNum (asking seq0 3 0 0 arg) 1032 8 = arg)
    ∧ (let s := nonidem (seqIs (fun x => { x with stopped := true }))
       (s.ctx (.seq 0)).stopped = true ∧ (s.ctx (.seq 0)).task ≠ none ∧ s.nonidem (s.taskId (.seq 0)) = true)
    ∧ (let s := asking (seqIs (fun x => { x with stopped := true })) 4 0 0 504
       (s.ctx (.seq 0)).stopped = true ∧ (s.ctx (.seq 0)).task ≠ none ∧ s.nonidem (s.taskId (.seq 0)) = false
      ∧ mailNum s 1032 8 = 8 * 63)
    ∧ (seq0.ctx (.seq 0)).stopped = false
    ∧ (let s := mapped (seqIs (fun x => { x with stopped := true }))
       s.corePlace (.seq 0) 0x3FFFF8 8 .load = .ok (.hbm 0x3FFFF8) ∧ s.layers = []
      ∧ (match s.corePlace (.seq 0) 0x400000 8 .load with | .error _ => true | _ => false) = true) := by
  simp only [DbgAsks]; decide +kernel

/-- The layer of an address, which is the part's own, can be powered off. -/
theorem witness_LayerOff (k : Nat) : Table.get LayerPower.active ({ State.reset with layers := [(k, .powerGated)] }).layers k = .powerGated := by
  simp [Table.get, Table.find?]

/-- The layer of a tile table in use is in use, whichever of the sixteen the part makes it. -/
theorem witness_LayerInUse : ∃ layer, layer < 16 ∧ ({ State.reset with slots :=
    [(0, { gen := 0, used := true, freed := false, stack := 0, table := 0x40000, size := 1 })] } : State).layerInUse 0 layer = true := by
  refine ⟨Config.dramLayer (hbmKey 0x40000) % 16, Nat.mod_lt _ (by decide), ?_⟩
  unfold State.layerInUse
  rw [List.any_eq_true]
  refine ⟨(0x40000, 8), ?_, ?_⟩
  · simp [State.allocated]
  · simp only [Bool.and_eq_true]
    refine ⟨by decide, List.any_eq_true.2 ⟨0, by decide, ?_⟩⟩
    simp [layerOf, layerKey, hbmKey]

/-! ### Claims on steps -/

def coreStep : State := State.reset.withFetchWord 32 0x00808103
def coreRow : State := rowState coreStep []

theorem witness_StepRunsDecodedInstruction :
    coreStep.agenda = [.bundleIssue (.seq 0)] ∧ IssuesOne coreRow (.seq 0) 0x80000000 0x00808103 .s0 addIns
    ∧ isWide .s0 = false := by
  unfold IssuesOne; decide +kernel

/-- Context 0 is about to send a packet. -/
def sendState (w : Word32) (en : BitVec 48) : State :=
  let s : State := { State.reset with code := [{ addr := 0, ver := 0, line := oneBundleLine .v w }] }
  (s.placeTask (.seq 0) 4).updCtx (.seq 0) (fun x => { x with dieEn := en })

theorem witness_PacketsLeave :
    (let s := sendState 0 1
     IssuesOne s (.seq 0) (BitVec.ofNat 32 (2 ^ (31 - slotNum .v))) 0 .v
        (.vadd { o := { va := 0, vb := 0, vd := 0, m := 0, t := .i32 }, sat := false }) ∧ isWide .v = true
      ∧ (s.ctx (.seq 0)).dieMask ≠ 0 ∧ (s.ctx (.seq 0)).handler = false ∧ (s.ctx (.seq 0)).instNo < 2 ^ 48
      ∧ (s.ctx (.seq 0)).frozenAt = none ∧ (s.ctx (.seq 0)).replayTo = 0 ∧ s.sendBlocked (.seq 0) = false
      ∧ (s.task (s.taskId (.seq 0))).state = .running)
    ∧ (let p : Packet := { Packet.empty with no := 1 }
       let s := seq0.updCtx (.seq 0) (fun x => { x with sent := [p], instNo := 2 })
       s.packetTurn { die := 0, k := 0 } = true ∧ s.nextPacket { die := 0, k := 0 } = some p
      ∧ (s.dctx { die := 0, k := 0 }).part = some 0 ∧ p.dieEn.getLsbD 0 = false)
    ∧ State.reset.mayIssue (.seq 0) = false ∧ State.reset.packetTurn { die := 0, k := 0 } = false := by
  unfold IssuesOne; decide +kernel

theorem witness_PacketRow :
    (let s := State.reset.withFetchWord 32 0x600342CA
     let u := rowState s []
     let i : Instr := .vcmp { cond := .eq, md := 3, va := 8, vb := 11, m := 1, t := .f32 }
     ∃ p ∈ (u.nextPacket { die := 0, k := 0 }).toList, s.agenda = [.packetExecute { die := 0, k := 0 }]
      ∧ u.packetTurn { die := 0, k := 0 } = true ∧ u.nextPacket { die := 0, k := 0 } = some p ∧ p.dieEn.getLsbD 0 = true
      ∧ u.flaws = [] ∧ p.barrier = false ∧ (u.dctx { die := 0, k := 0 }).atBarrier = false ∧ (u.dctx { die := 0, k := 0 }).half = false
      ∧ packetWork p = [(.v, i)]
      ∧ (match exec (.packetExecute { die := 0, k := 0 }) u with
         | .next v => State.heldBack { v with work := [], phase := .commit } .v i == false
         | _ => false) = true) := by decide +kernel

theorem witness_EncodeDecode : addIns.opMap = some .s ∧ addIns.wf = true ∧ encode addIns = 0x00808103
    ∧ decodeMap .s 0x00808103 0 = .ok addIns := by decide +kernel

theorem witness_StepKeepsForms : State.reset.Inv ∧ ∃ t, step coreStep = .next t := by
  refine ⟨by unfold State.Inv State.memCanonical State.cachesCanonical; decide +kernel, ?_⟩
  have h : (match step coreStep with | .next _ => true | _ => false) = true := by decide +kernel
  cases e : step coreStep with
  | next t => exact ⟨t, rfl⟩
  | fault f => rw [e] at h; cases h
  | refused r => rw [e] at h; cases h

/-! ### Single steps: results worked by hand from the rules -/

/-- What the last result that an instruction sends on its way delivers, with its flags. -/
def gives (i : Instr) (s : State) : Option (Deliver × BitVec 5) := match exec i s with
  | .next t => (t.ctx s.core).inflight.getLast?.map (fun f => (f.out, f.flags))
  | _ => none

/-- A fact about the state that an instruction gives. -/
def after (i : Instr) (s : State) (p : State → Bool) : Bool := match exec i s with
  | .next t => p t
  | _ => false

/-- R197 at 8 bits: 127 + 1 is −128, and its sign fills the register. -/
theorem test_add_wraps : gives (.add { i8 with b := .reg 2 }) (withRegs seq0 [(1, 0x7F), (2, 1)])
    = some (.s 3 0xFFFFFFFFFFFFFF80, 0) := by decide +kernel
/-- R198: a quotient by 0 is all ones, its remainder the dividend. -/
theorem test_division_by_zero : gives (.div { i8 with w := 0 }) (withRegs seq0 [(1, 9)]) = some (.s 3 0xFFFFFFFFFFFFFFFF, 0)
    ∧ gives (.rem { i8 with w := 0 }) (withRegs seq0 [(1, 9)]) = some (.s 3 9, 0) := by decide +kernel
/-- R203: bits 58 to 56 of 0x0700_0000_0000_0000. -/
theorem test_bext : gives (.bext { pos := 56, n1 := 2, d := 21, nw := false, a := .reg 1 })
    (withRegs seq0 [(1, 0x0700000000000000)]) = some (.s 21 7, 0) := by decide +kernel
/-- R74: 1/3 to nearest in single precision is 0x3EAA_AAAB, and inexact. -/
theorem test_fdiv_rounds : gives (.fdiv { dbl := false, d := 3, nw := false, a := .reg 1, b := .reg 2 })
    (withRegs seq0 [(1, 0x3F800000), (2, 0x40400000)]) = some (.s 3 0x3EAAAAAB, 1) := by decide +kernel
/-- R72: an invalid operation gives the canonical NaN and sets NV. -/
theorem test_fsub_infinities : gives (.fsub { dbl := true, d := 3, nw := false, a := .reg 1, b := .reg 1 })
    (withRegs seq0 [(1, 0x7FF0000000000000)]) = some (.s 3 0x7FF8000000000000, 16) := by decide +kernel
/-- R215: LD.s8 of 0x80 has its sign; the least significant byte lies at the lowest address. -/
theorem test_load_sign : gives (.ld { ldOp with imm := 0 })
      { at_ 0x200000 with mem := pageTables ++ [(hbmKey 0x200000, 0x80), (hbmKey 0x200001, 1)] }
    = some (.s 3 0xFFFFFFFFFFFFFF80, 0) := by decide +kernel
/-- R154, R216: a store of an idempotent task is staged, byte 0 the least significant. -/
theorem test_store_is_staged : after (.st stOp) (at_ 0x200000) (fun t =>
    t.stagedByte { lid := 0, wid := 0 } (hbmKey 0x200000) == some 8 && t.stagedByte { lid := 0, wid := 0 } (hbmKey 0x200007) == some 1
      && Memory.readByte t.mem (hbmKey 0x200000) == 0) = true := by decide +kernel
/-- R107: a misaligned store traps before its page is looked up; without a handler the task is FAULTED (R390). -/
theorem test_store_misaligned : after (.st stOp) (at_ 0x400001) (fun t =>
    (t.task { lid := 0, wid := 0 }).state == .faulted) = true := by decide +kernel
/-- R237, R78: two 16-bit elements of a lane, added with saturation: 0x7FFF + 1 stays, −1 + −1 is −2. -/
theorem test_vadd_saturates : after (.vadd { o := { vd := 3, va := 1, vb := 2, m := 0, t := .i16x2 }, sat := true })
    ((die0 0 0).updDctx { die := 0, k := 0 } (fun x => { x with v := [(1, 0xFFFF7FFF), (2, 0xFFFF0001)] }))
    (fun t => laneOf (Table.get 0 (t.dctx { die := 0, k := 0 }).v 3 : BitVec 4096) 0 == 0xFFFE7FFF) = true := by decide +kernel

/-- The worked segment of the chapter on number formats, staged as planes (R82, R83, R85). -/
def segment : List Byte := [0x82, 0x85, 0xD8, 0x83] ++ List.replicate 124 0

theorem test_segment_staged : (let im := planeImage 3 16 0x7F segment
    im.length = 448 ∧ im.take 4 = [0x7F, 0x03, 0x10, 0x01] ∧ (im.drop 96).take 2 = [1, 0]
      ∧ (im.drop 192).take 4 = [0x58, 0x81, 0xD3, 0x84] ∧ (im.filter (· != 0)).length = 9) := by decide +kernel

/-- The worked row with infinities and a NaN: scale 2^0, no saturation (R286). -/
def row0 : List FVal :=
  [.fin false 5 (-1), .inf false, .fin false 0 0, .fin false 0 0, .fin true 13 (-1), .nan false, .fin false 0 0, .fin false 0 0,
   .fin false 7 0, .fin false 7 (-1), .fin true 0xB33333 (-23)] ++ List.replicate 245 (.fin false 0 0)

theorem test_row_quantised : (quantTile .n4x 16 0x7F row0).1.take 8 = [0x82, 0x87, 0x8A, 0xF7, 0x47, 0x0F, 0x00, 0x00]
    ∧ (quantTile .n4x 16 0x7F row0).2 = (0, false) ∧ scaleCode .n4x 0 row0 = 0x7F
    ∧ (quantTile .n4x 16 0x7F (row0.set 3 (.inf true))).2.2 = true := by decide +kernel

/-- The worked renormalisation event: three batches of one row (R90, R91). -/
def batches : AccRow × AccRow × AccRow :=
  let a := AccRow.zero.apply [.fin 48, .fin (-80), .fin 16] (-40)
  let b := a.apply [.fin 5, .fin (-3), .fin 1] 12
  (a, b, b.apply [.fin 100, .fin (-100), .fin 0] (-40))

theorem test_renormalisation :
    (let a := batches.1
     a.e = BitVec.ofInt 16 (-40) ∧ a.h = 47 ∧ (a.elem 1).m = 0xFFFFFFFFFFFFB0)
    ∧ (let b := batches.2.1
       b.e = BitVec.ofInt 16 (-35) ∧ b.h = 4 ∧ b.c = 1 ∧ (b.elem 0).m = 0x02800000000002 ∧ (b.elem 1).m = 0xFE7FFFFFFFFFFE
      ∧ (b.elem 2).m = 0x00800000000000)
    ∧ (let c := batches.2.2
       c.h = 3 ∧ c.c = 1 ∧ (c.elem 0).m = 0x02800000000005 ∧ (c.elem 1).m = 0xFE7FFFFFFFFFFA) := by decide +kernel

/-- R425: SHA-384 of "abc", the example of FIPS 180-4. -/
theorem test_sha384_abc : sha384 [0x61, 0x62, 0x63] =
    0xcb00753f45a35e8bb5a03d699ac65007272c32ab0eded1631a8b605a43ff5bed8086072ba1e7cc2358baeca134c825a7 := by decide +kernel

/-- The first step after reset runs a placed word and advances past its bundle (R217). -/
theorem test_first_step : (match step (State.reset.withFetchWord 32 0x00808103) with
    | .next t => (t.ctx (.seq 0)).stepNo == 1 && (t.ctx (.seq 0)).run == .ready
    | _ => false) = true := by decide +kernel

end Sys2Proof.Tests
end

section
/-! PROOF. What stays of a state: entries of a table that is filtered or mapped, words read and written, and the fields that reads
and writes of storage leave alone. -/

namespace Sys2Proof.Machine

/-! ### Tables filtered and mapped -/

section
variable {α β : Type}

theorem Table.find?_filter_key (p : Nat → Bool) (m : PMap α) (k : Nat) :
    Table.find? (m.filter (fun e => p e.1)) k = if p k then Table.find? m k else none := by
  induction m with
  | nil => simp [Table.find?]
  | cons e rest ih =>
    by_cases he : e.1 = k
    · subst he
      by_cases hp : p e.1 = true <;> simp [Table.find?, hp, ih]
    · by_cases hp : p e.1 = true <;> simp [Table.find?, hp, ih, he]

theorem Table.find?_map_val (f : Nat → α → β) (m : PMap α) (k : Nat) :
    Table.find? (m.map (fun e => (e.1, f e.1 e.2))) k = (Table.find? m k).map (f k) := by
  induction m with
  | nil => rfl
  | cons e rest ih =>
    by_cases he : e.1 = k
    · subst he; simp [Table.find?]
    · simp [Table.find?, he, ih]

/-- A key below the first of a rising table is not found. -/
theorem Table.find?_of_lt_rising (m : PMap α) (k : Nat) : ∀ lo, k < lo → Table.risingFrom lo m = true → Table.find? m k = none := by
  induction m with
  | nil => intros; rfl
  | cons e rest ih =>
    intro lo hk h
    simp only [Table.risingFrom, Bool.and_eq_true, decide_eq_true_eq] at h
    obtain ⟨hlo, hr⟩ := h
    rw [Table.find?, if_neg (by omega)]
    exact ih _ (by omega) hr

/-- In a rising table each key stands once, so leaving entries out leaves the others as they were. -/
theorem Table.find?_filter_rising (p : Nat × α → Bool) (m : PMap α) (k : Nat) : ∀ lo, Table.risingFrom lo m = true →
    Table.find? (m.filter p) k = (Table.find? m k).filter (fun v => p (k, v)) := by
  induction m with
  | nil => intros; rfl
  | cons e rest ih =>
    intro lo h
    simp only [Table.risingFrom, Bool.and_eq_true, decide_eq_true_eq] at h
    obtain ⟨_, hr⟩ := h
    by_cases he : e.1 = k
    · subst he
      have hn : Table.find? (rest.filter p) e.1 = none := by
        rw [ih _ hr, Table.find?_of_lt_rising rest e.1 _ (Nat.lt_succ_self _) hr]; rfl
      by_cases hp : p e = true
      · simp [Table.find?, hp, Option.filter]
      · simp [Table.find?, hp, hn, Option.filter]
    · have : Table.find? (e :: rest) k = Table.find? rest k := by simp [Table.find?, he]
      rw [this, ← ih _ hr]
      by_cases hp : p e = true <;> simp [Table.find?, hp, he]

theorem Table.risingFrom_map_val (f : Nat → α → β) (m : PMap α) : ∀ lo,
    Table.risingFrom lo (m.map (fun e => (e.1, f e.1 e.2))) = Table.risingFrom lo m := by
  induction m with
  | nil => intro lo; rfl
  | cons e rest ih => intro lo; simp [Table.risingFrom, ih]

theorem Table.mem_of_find? (m : PMap α) (k : Nat) (v : α) (h : Table.find? m k = some v) : (k, v) ∈ m := by
  induction m with
  | nil => cases h
  | cons e rest ih =>
    by_cases he : e.1 = k
    · subst he
      simp only [Table.find?, ↓reduceIte, Option.some.injEq] at h
      subst h
      exact List.mem_cons_self
    · simp only [Table.find?, he, ↓reduceIte] at h
      exact List.mem_cons_of_mem _ (ih h)

end

/-! ### Words read and written -/

theorem Memory.readByte_filter (p : Nat → Bool) (m : List Host.Cell) (k : Nat) :
    Memory.readByte (m.filter (fun e => p e.1)) k = if p k then Memory.readByte m k else 0 := by
  unfold Memory.readByte Table.get
  rw [Table.find?_filter_key]
  split <;> rfl

/-- The bytes of a number stored at a key. -/
theorem Memory.readByte_writeNat : ∀ (n : Nat) (m : List Host.Cell) (k v i : Nat), i < n →
    Memory.readByte (Memory.writeNat m k v n) (k + i) = BitVec.ofNat 8 (v / 256 ^ i) := by
  intro n
  induction n with
  | zero => intro m k v i hi; omega
  | succ n ih =>
    intro m k v i hi
    rw [Memory.writeNat]
    cases i with
    | zero =>
      rw [Memory.readByte_writeNat_other n _ _ _ _ (.inl (by omega)), Memory.readByte_writeByte, if_pos (by omega)]
      simp
    | succ i =>
      have hk : k + (i + 1) = (k + 1) + i := by omega
      rw [hk, ih _ _ _ _ (by omega), Nat.div_div_eq_div_mul, pow_succ']

theorem Memory.readNat_congr (m m' : List Host.Cell) : ∀ (n k : Nat),
    (∀ j, k ≤ j → j < k + n → Memory.readByte m' j = Memory.readByte m j) → Memory.readNat m' k n = Memory.readNat m k n := by
  intro n
  induction n with
  | zero => intros; rfl
  | succ n ih =>
    intro k h
    rw [Memory.readNat, Memory.readNat, h k (by omega) (by omega), ih (k + 1) (fun j h1 h2 => h j (by omega) (by omega))]

theorem wordsOf_word (wk : Nat) : wordsOf (8 * wk) 8 = [wk] := by
  have h1 : (8 * wk + 8 - 1) / 8 - 8 * wk / 8 + 1 = 1 := by omega
  have h2 : 8 * wk / 8 = wk := by omega
  rw [wordsOf, if_neg (by omega), h1, h2]
  rfl

/-! ### Fields that reads leave alone -/

/-- Two states that differ at most in what a read of storage may log: the log and its count, the HEALTH table, rewrites, cells that
a read corrects, and layers that it raises. -/
def SameButLog (s t : State) : Prop :=
  ({ t with rewrites := s.rewrites, flaws := s.flaws, errLog := s.errLog, errCount := s.errCount, health := s.health,
            layers := s.layers } : State) = s

namespace SameButLog
variable {s t u : State}

theorem refl (s : State) : SameButLog s s := rfl

theorem trans (h : SameButLog s t) (k : SameButLog t u) : SameButLog s u := by
  unfold SameButLog at *
  exact (congrArg (fun v : State =>
    { v with rewrites := s.rewrites, flaws := s.flaws, errLog := s.errLog, errCount := s.errCount, health := s.health,
             layers := s.layers }) k).trans h

theorem mem (h : SameButLog s t) : t.mem = s.mem := (congrArg State.mem h :)
theorem ecc (h : SameButLog s t) : t.ecc = s.ecc := (congrArg State.ecc h :)
theorem seq (h : SameButLog s t) : t.seq = s.seq := (congrArg State.seq h :)
theorem cel (h : SameButLog s t) : t.cel = s.cel := (congrArg State.cel h :)

theorem foldl {α : Type} (f : State → α → State) (hf : ∀ v a, SameButLog v (f v a)) (l : List α) (s : State) :
    SameButLog s (l.foldl f s) :=
  foldl_keeps (fun v => SameButLog s v) f (fun v a h => h.trans (hf v a)) l s (refl s)

end SameButLog

theorem State.logError_sameButLog (s : State) (r : ErrRec) : SameButLog s (s.logError r) := rfl

theorem State.suspectUnit_health (s : State) (u : UnitCode) : ∃ h, s.suspectUnit u = { s with health := h } := by
  unfold State.suspectUnit
  dsimp only
  split
  · exact ⟨_, rfl⟩
  · exact ⟨s.health, rfl⟩

theorem State.countCorrected_health (s : State) (u : UnitCode) : ∃ h, s.countCorrected u = { s with health := h } := by
  unfold State.countCorrected
  dsimp only
  split
  · obtain ⟨h, e⟩ := State.suspectUnit_health (s.setHealth u _) u
    exact ⟨h, e⟩
  · exact ⟨_, rfl⟩

theorem State.wakeLayers_layers (s : State) (p : LayerPower → Bool) (k n : Nat) : ∃ l, s.wakeLayers p k n = { s with layers := l } := by
  unfold State.wakeLayers
  split
  · exact ⟨s.layers, rfl⟩
  · exact ⟨_, rfl⟩

theorem State.mend_flaws (s : State) (p : Cell → Bool) : ∃ l, s.mend p = { s with flaws := l } := by
  unfold State.mend
  split
  · exact ⟨s.flaws, rfl⟩
  · exact ⟨_, rfl⟩

theorem State.suspectUnit_sameButLog (s : State) (u : UnitCode) : SameButLog s (s.suspectUnit u) := by
  obtain ⟨h, e⟩ := State.suspectUnit_health s u; rw [e]; rfl

theorem State.countCorrected_sameButLog (s : State) (u : UnitCode) : SameButLog s (s.countCorrected u) := by
  obtain ⟨h, e⟩ := State.countCorrected_health s u; rw [e]; rfl

theorem State.wakeLayers_sameButLog (s : State) (p : LayerPower → Bool) (k n : Nat) : SameButLog s (s.wakeLayers p k n) := by
  obtain ⟨l, e⟩ := State.wakeLayers_layers s p k n; rw [e]; rfl

theorem State.mend_sameButLog (s : State) (p : Cell → Bool) : SameButLog s (s.mend p) := by
  obtain ⟨l, e⟩ := State.mend_flaws s p; rw [e]; rfl

theorem State.noteWord_sameButLog (s : State) (b : ReadBy) (wk : Nat) : SameButLog s (s.noteWord b wk) := by
  unfold State.noteWord
  dsimp only
  cases s.eccWord wk with
  | clean => exact .refl s
  | bad syn => exact State.logError_sameButLog s _
  | corrected d syn =>
    have h : ∀ r u, SameButLog s ((s.logError r).countCorrected u) := fun r u =>
      (State.logError_sameButLog s r).trans (State.countCorrected_sameButLog _ u)
    have k : ∀ v : State, SameButLog v (if v.rewrites.contains wk then v else { v with rewrites := v.rewrites ++ [wk] }) :=
      fun v => by split <;> rfl
    exact (h _ _).trans (k _)

theorem State.noteRead_sameButLog (s : State) (b : ReadBy) (k n : Nat) : SameButLog s (s.noteRead b k n) := by
  have h : SameButLog s (s.raiseLayer k n) := State.wakeLayers_sameButLog s _ k n
  unfold State.noteRead
  dsimp only
  split
  · exact h
  · exact h.trans (SameButLog.foldl _ (fun v wk => State.noteWord_sameButLog v b wk) _ _)

theorem State.noteCell_sameButLog (s : State) (b : ReadBy) (e : Cell × Byte) : SameButLog s (s.noteCell b e) := by
  unfold State.noteCell
  dsimp only
  split
  · exact (State.logError_sameButLog s _).trans (State.suspectUnit_sameButLog _ _)
  · split
    · exact State.logError_sameButLog s _
    · exact ((State.logError_sameButLog s _).trans (State.countCorrected_sameButLog _ _)).trans (State.mend_sameButLog _ _)

theorem State.noteCells_sameButLog (s : State) (b : ReadBy) (p : Cell → Bool) : SameButLog s (s.noteCells b p) :=
  SameButLog.foldl _ (fun v e => State.noteCell_sameButLog v b e) _ s

/-! ### Fields that stores leave alone -/

/-- Two states that differ at most in storage (memory, its codes, the caches) and in what accesses to it log. -/
def SameButStorage (s t : State) : Prop :=
  ({ t with mem := s.mem, l1Seq := s.l1Seq, l1Cel := s.l1Cel, l2 := s.l2, ecc := s.ecc, rewrites := s.rewrites,
            flaws := s.flaws, errLog := s.errLog, errCount := s.errCount, health := s.health, layers := s.layers } : State) = s

theorem SameButLog.storage {s t : State} (h : SameButLog s t) : SameButStorage s t := by
  unfold SameButLog at h
  exact congrArg (fun v : State =>
    { v with mem := s.mem, l1Seq := s.l1Seq, l1Cel := s.l1Cel, l2 := s.l2, ecc := s.ecc }) h

namespace SameButStorage
variable {s t u : State}

theorem refl (s : State) : SameButStorage s s := rfl

theorem trans (h : SameButStorage s t) (k : SameButStorage t u) : SameButStorage s u := by
  unfold SameButStorage at *
  exact (congrArg (fun v : State =>
    { v with mem := s.mem, l1Seq := s.l1Seq, l1Cel := s.l1Cel, l2 := s.l2, ecc := s.ecc, rewrites := s.rewrites,
             flaws := s.flaws, errLog := s.errLog, errCount := s.errCount, health := s.health, layers := s.layers }) k).trans h

/-- An operation done on behalf of another unit. -/
theorem acting (s : State) (c : CoreId) (d : Option DieId) (f : State → State) (hf : ∀ v, SameButStorage v (f v)) :
    SameButStorage s (s.acting c d f) :=
  (congrArg (fun v : State => { v with core := s.core, onDie := s.onDie }) (hf { s with core := c, onDie := d }) :)

theorem seq (h : SameButStorage s t) : t.seq = s.seq := (congrArg State.seq h :)
theorem cel (h : SameButStorage s t) : t.cel = s.cel := (congrArg State.cel h :)
theorem events (h : SameButStorage s t) : t.events = s.events := (congrArg State.events h :)
theorem loads (h : SameButStorage s t) : t.loads = s.loads := (congrArg State.loads h :)
theorem funcs (h : SameButStorage s t) : t.funcs = s.funcs := (congrArg State.funcs h :)
theorem objs (h : SameButStorage s t) : t.objs = s.objs := (congrArg State.objs h :)
theorem code (h : SameButStorage s t) : t.code = s.code := (congrArg State.code h :)

theorem foldl {α : Type} (f : State → α → State) (hf : ∀ v a, SameButStorage v (f v a)) (l : List α) (s : State) :
    SameButStorage s (l.foldl f s) :=
  foldl_keeps (fun v => SameButStorage s v) f (fun v a h => h.trans (hf v a)) l s (refl s)

end SameButStorage

theorem State.mend_storage (s : State) (p : Cell → Bool) : SameButStorage s (s.mend p) := (s.mend_sameButLog p).storage

theorem State.raiseLayer_storage (s : State) (k n : Nat) : SameButStorage s (s.raiseLayer k n) :=
  (s.wakeLayers_sameButLog _ k n).storage

theorem State.mend_caches_storage (s : State) (p : Cell → Bool) (a b : PMap (PMap CacheByte)) (c : PMap Byte) :
    SameButStorage s { s.mend p with l1Seq := a, l1Cel := b, l2 := c } := by
  obtain ⟨l, e⟩ := s.mend_flaws p
  rw [e]
  rfl

theorem State.setL1_storage (s : State) (c : CoreId) (m : PMap CacheByte) : SameButStorage s (s.setL1 c m) := by
  cases c <;> exact s.mend_caches_storage _ _ _ _

theorem State.setL2_storage (s : State) (m : PMap Byte) : SameButStorage s (s.setL2 m) := s.mend_caches_storage _ _ _ _

theorem State.leaveCells_storage (s : State) (p : Cell → Bool) : SameButStorage s (s.leaveCells p).1 := by
  unfold State.leaveCells
  split
  · exact .refl s
  · exact (s.noteCells_sameButLog .walk p).storage.trans (State.mend_storage _ p)

theorem State.cleanWord_storage (s : State) (b : ReadBy) (whole : Bool) (wk : Nat) : SameButStorage s (s.cleanWord b whole wk) := by
  unfold State.cleanWord
  split
  · rfl
  · dsimp only
    cases whole
    · exact (s.noteWord_sameButLog b wk).storage.trans rfl
    · rfl
  · cases whole <;> rfl

theorem State.storeBytes_storage (s : State) (k : Nat) (bs : List Byte) : SameButStorage s (s.storeBytes k bs) := by
  have h := s.raiseLayer_storage k bs.length
  unfold State.storeBytes
  dsimp only
  refine SameButStorage.trans (t := if (s.raiseLayer k bs.length).ecc.isEmpty then _ else _) ?_ rfl
  split
  · exact h.trans rfl
  · exact h.trans (SameButStorage.foldl _ (fun v wk => v.cleanWord_storage .data _ wk) _ _)

theorem State.storeSparse_storage (s : State) (m : PMap Byte) : SameButStorage s (s.storeSparse m) := by
  unfold State.storeSparse
  refine SameButStorage.foldl _ (fun v e => ?_) m s
  have h := v.raiseLayer_storage e.1 1
  dsimp only
  refine SameButStorage.trans (t := if (v.raiseLayer e.1 1).ecc.isEmpty then _ else _) ?_ rfl
  split
  · exact h
  · exact h.trans (State.cleanWord_storage _ .walk _ _)

theorem State.dramWrite_storage (s : State) (p : Nat) (bs : List Byte) : SameButStorage s (s.dramWrite p bs) :=
  (s.storeBytes_storage _ bs).trans (State.setL2_storage _ _)

theorem State.dramSparse_storage (s : State) (m : PMap Byte) : SameButStorage s (s.dramSparse m) :=
  (s.storeSparse_storage _).trans (State.setL2_storage _ _)

theorem State.l2Sparse_storage (s : State) (m : PMap Byte) : SameButStorage s (s.l2Sparse m) := by
  unfold State.l2Sparse
  dsimp only
  refine SameButStorage.trans ?_ (State.setL2_storage _ _)
  split
  · exact .refl s
  · exact (s.noteCells_sameButLog .walk _).storage.trans (State.mend_storage _ _)

theorem State.l2Write_storage (s : State) (p : Nat) (bs : List Byte) : SameButStorage s (s.l2Write p bs) := by
  refine SameButStorage.trans ?_ (State.setL2_storage _ _)
  unfold State.writeCells
  split
  · exact .refl s
  · exact (s.noteCells_sameButLog .data _).storage.trans (State.mend_storage _ _)

theorem State.sendDown_storage (s : State) (c : CoreId) (m : PMap Byte) (bad : List (Nat × Byte)) :
    SameButStorage s (s.sendDown c m bad) := by
  unfold State.sendDown
  split
  · refine (s.dramSparse_storage m).trans (SameButStorage.foldl _ (fun v e => ?_) bad _)
    rfl
  · exact (s.l2Sparse_storage m).trans rfl

theorem State.cleanSome_storage (s : State) (c : CoreId) (p : Nat → Bool) : SameButStorage s (s.cleanSome c p) := by
  refine SameButStorage.acting s c none _ (fun v => ?_)
  exact ((v.leaveCells_storage _).trans (State.setL1_storage _ c _)).trans (State.sendDown_storage _ c _ _)

theorem State.cleanL1_storage (s : State) (c : CoreId) : SameButStorage s (s.cleanL1 c) := s.cleanSome_storage c _

/-! ### Storage without errors -/

/-- No word of storage has a code that is not clean, and no cell is in error. -/
def State.ErrorFree (s : State) : Prop := s.ecc = [] ∧ s.flaws = []

/-- Without errors, none comes up and no unit's entry of the HEALTH table changes. -/
def Quiet (s t : State) : Prop := s.ErrorFree → t.ErrorFree ∧ t.health = s.health

theorem Quiet.refl (s : State) : Quiet s s := fun h => ⟨h, rfl⟩

theorem Quiet.trans {s t u : State} (h : Quiet s t) (k : Quiet t u) : Quiet s u := fun hs =>
  have ht := h hs
  have hu := k ht.1
  ⟨hu.1, hu.2.trans ht.2⟩

theorem Quiet.foldl {α : Type} (f : State → α → State) (hf : ∀ v a, Quiet v (f v a)) (l : List α) (s : State) :
    Quiet s (l.foldl f s) :=
  foldl_keeps (fun v => Quiet s v) f (fun v a h => h.trans (hf v a)) l s (.refl s)

theorem Quiet.acting (s : State) (c : CoreId) (d : Option DieId) (f : State → State) (hf : ∀ v, Quiet v (f v)) :
    Quiet s (s.acting c d f) := hf { s with core := c, onDie := d }

theorem State.mend_caches_quiet (s : State) (p : Cell → Bool) (a b : PMap (PMap CacheByte)) (c : PMap Byte) :
    Quiet s { s.mend p with l1Seq := a, l1Cel := b, l2 := c } := by
  rintro ⟨he, hf⟩
  have e : s.mend p = s := by simp [State.mend, hf]
  rw [e]
  exact ⟨⟨he, hf⟩, rfl⟩

theorem State.setL1_quiet (s : State) (c : CoreId) (m : PMap CacheByte) : Quiet s (s.setL1 c m) := by
  cases c <;> exact s.mend_caches_quiet _ _ _ _

theorem State.setL2_quiet (s : State) (m : PMap Byte) : Quiet s (s.setL2 m) := s.mend_caches_quiet _ _ _ _

theorem State.raiseLayer_quiet (s : State) (k n : Nat) : Quiet s (s.raiseLayer k n) := by
  obtain ⟨l, e⟩ := s.wakeLayers_layers (· != .powerGated) k n
  rw [State.raiseLayer, e]
  exact fun h => ⟨h, rfl⟩

theorem State.storeSparse_quiet (s : State) (m : PMap Byte) : Quiet s (s.storeSparse m) := by
  unfold State.storeSparse
  refine Quiet.foldl _ (fun v e => ?_) m s
  refine (v.raiseLayer_quiet e.1 1).trans ?_
  rintro ⟨he, hf⟩
  simp only [he, List.isEmpty_nil, ↓reduceIte, and_true]
  exact ⟨rfl, hf⟩

theorem State.sendDown_quiet (s : State) (c : CoreId) (m : PMap Byte) : Quiet s (s.sendDown c m []) := by
  unfold State.sendDown
  split
  · exact (s.storeSparse_quiet _).trans (State.setL2_quiet _ _)
  · rintro ⟨he, hf⟩
    simp only [State.l2Sparse, hf, List.isEmpty_nil, ↓reduceIte, List.map_nil, List.append_nil]
    exact s.setL2_quiet _ ⟨he, hf⟩

theorem State.leaveCells_of_no_flaws (s : State) (p : Cell → Bool) (h : s.flaws = []) : s.leaveCells p = (s, []) := by
  simp [State.leaveCells, h]

theorem State.cleanL1_quiet (s : State) (c : CoreId) : Quiet s (s.cleanL1 c) := by
  refine Quiet.acting s c none _ (fun v hv => ?_)
  dsimp only
  rw [v.leaveCells_of_no_flaws _ hv.2]
  exact ((v.setL1_quiet c _).trans (State.sendDown_quiet _ c _)) hv

end Sys2Proof.Machine
end

section
/-! PROOF. Time and pods: what an exchange leaves of the copies and the bounds, when bounds are suspended and hold again, how a
package joins a pod, and the pace of TIME_CNT (R30 to R32, R440, R442). -/

namespace Sys2Proof.Machine

/-! ### Exchanges -/

theorem State.timeCopy_setTimeCopy (s : State) (i : Nat) (c : TimeCopy) (j : Nat) :
    (s.setTimeCopy i c).timeCopy j = if i = j then c else s.timeCopy j := Table.get_set _ _ _ _ _

/-- The copy that an exchange is about. -/
def syncSlave (o : SyncOp) : Nat := if o.pod then podCopy else o.slave

theorem State.syncCore_failed (s : State) (o : SyncOp) (h : o.ok = false) :
    s.syncCore o = s.setTimeCopy (syncSlave o)
      { s.timeCopy (syncSlave o) with
        ok := 0, fail := (s.timeCopy (syncSlave o)).fail + 1, last := s.timeCnt.toNat / syncPeriod o.pod } := by
  simp only [State.syncCore, h, Bool.not_false, ↓reduceIte]; rfl

/-- A completed exchange sets one copy, and the bounds when it is one of the package. -/
theorem State.syncCore_completed (s : State) (o : SyncOp) (h : o.ok = true) :
    s.syncCore o =
      let u := s.setTimeCopy (syncSlave o)
        { s.timeCopy (syncSlave o) with
          slew := if o.pod && s.pod = some s.podMaster then (s.timeCopy (syncSlave o)).slew else - syncOffset o,
          ok := (s.timeCopy (syncSlave o)).ok + 1, fail := 0, last := s.timeCnt.toNat / syncPeriod o.pod }
      if o.pod then u else { u with pkgBound := o.bound, podBound := s.podBoundOver o.bound } := by
  simp only [State.syncCore, h, Bool.not_true, Bool.false_eq_true, ↓reduceIte]; rfl

theorem State.syncCore_frame (s : State) (o : SyncOp) :
    ({ s.syncCore o with copies := s.copies, pkgBound := s.pkgBound, podBound := s.podBound } : State) = s := by
  cases ho : o.ok with
  | false => rw [State.syncCore_failed s o ho]; rfl
  | true => rw [State.syncCore_completed s o ho]; dsimp only; split <;> rfl

theorem State.syncCore_podValid (s : State) (o : SyncOp) : (s.syncCore o).podValid = s.podValid :=
  (congrArg State.podValid (State.syncCore_frame s o) :)

theorem State.syncCore_timeCopy_other (s : State) (o : SyncOp) (j : Nat) (h : j ≠ syncSlave o) :
    (s.syncCore o).timeCopy j = s.timeCopy j := by
  cases ho : o.ok with
  | false => rw [State.syncCore_failed s o ho, State.timeCopy_setTimeCopy, if_neg (Ne.symm h)]
  | true =>
    rw [State.syncCore_completed s o ho]
    dsimp only
    split <;> exact (State.timeCopy_setTimeCopy s _ _ j).trans (if_neg (Ne.symm h))

theorem State.syncCore_timeCopy_completed (s : State) (o : SyncOp) (h : o.ok = true) :
    (s.syncCore o).timeCopy (syncSlave o) =
      { s.timeCopy (syncSlave o) with
        slew := if o.pod && s.pod = some s.podMaster then (s.timeCopy (syncSlave o)).slew else - syncOffset o,
        ok := (s.timeCopy (syncSlave o)).ok + 1, fail := 0, last := s.timeCnt.toNat / syncPeriod o.pod } := by
  rw [State.syncCore_completed s o h]
  dsimp only
  split <;> exact (State.timeCopy_setTimeCopy s _ _ _).trans (if_pos rfl)

theorem State.syncCore_timeCopy_failed (s : State) (o : SyncOp) (h : o.ok = false) :
    (s.syncCore o).timeCopy (syncSlave o) =
      { s.timeCopy (syncSlave o) with
        ok := 0, fail := (s.timeCopy (syncSlave o)).fail + 1, last := s.timeCnt.toNat / syncPeriod o.pod } := by
  rw [State.syncCore_failed s o h, State.timeCopy_setTimeCopy, if_pos rfl]

/-- A failed exchange and one of a pod leave the bounds alone. -/
theorem State.syncCore_bounds_kept (s : State) (o : SyncOp) (h : o.ok = false ∨ o.pod = true) :
    (s.syncCore o).pkgBound = s.pkgBound ∧ (s.syncCore o).podBound = s.podBound := by
  cases ho : o.ok with
  | false => rw [State.syncCore_failed s o ho]; exact ⟨rfl, rfl⟩
  | true => simp [State.syncCore_completed s o ho, h.resolve_left (by simp [ho]), State.setTimeCopy]

/-- A completed exchange of the package brings its bounds. -/
theorem State.syncCore_bounds_set (s : State) (o : SyncOp) (ho : o.ok = true) (hp : o.pod = false) :
    (s.syncCore o).pkgBound = o.bound ∧ (s.syncCore o).podBound = s.podBoundOver o.bound := by
  simp [State.syncCore_completed s o ho, hp]

theorem State.podBoundOver_alone (s : State) (b : BitVec 16) (h : s.pod = none) : s.podBoundOver b = s.podBound := by
  simp [State.podBoundOver, h]

theorem toNat_boundSum (a b : BitVec 16) :
    (BitVec.ofNat 16 (min 0xFFFF (a.toNat + b.toNat))).toNat = min 0xFFFF (a.toNat + b.toNat) := by
  rw [BitVec.toNat_ofNat, Nat.mod_eq_of_lt (by omega)]

theorem State.podBoundOver_member (s : State) (b : BitVec 16) (h : s.pod ≠ none) :
    (s.podBoundOver b).toNat = min 0xFFFF (b.toNat + s.podHops.toNat) := by
  rw [State.podBoundOver, if_pos (Option.isSome_iff_ne_none.mpr h), toNat_boundSum]

theorem State.podBoundHolds_iff (s : State) : s.podBoundHolds = true ↔
    s.podBound = 0xFFFF ∨ (s.timeCopy podCopy).slew.natAbs ≤ s.podBound.toNat := by
  simp [State.podBoundHolds]

theorem State.recheckPod_podValid (s : State) : s.recheckPod.podValid = true ↔
    s.podValid = true ∧ s.podBound ≠ 0xFFFF ∧ (s.timeCopy podCopy).slew.natAbs ≤ s.podBound.toNat := by
  simp only [State.recheckPod, Bool.and_eq_true, bne_iff_ne, State.podBoundHolds_iff]
  tauto

/-- After an exchange POD_VALID reads 1 only where it did and the pod's bound holds (R32). -/
theorem State.syncExchange_podValid (s : State) (o : SyncOp) : (s.syncExchange o).podValid = true ↔
    s.podValid = true ∧ (s.syncExchange o).podBound ≠ 0xFFFF
      ∧ ((s.syncExchange o).timeCopy podCopy).slew.natAbs ≤ (s.syncExchange o).podBound.toNat := by
  rw [← State.syncCore_podValid s o]
  exact State.recheckPod_podValid (s.syncCore o)

theorem State.syncExchange_frame (s : State) (o : SyncOp) :
    ({ s.syncExchange o with copies := s.copies, pkgBound := s.pkgBound, podBound := s.podBound, podValid := s.podValid } : State)
      = s := congrArg (fun t : State => { t with podValid := s.podValid }) (State.syncCore_frame s o)

/-- The bound that a completed exchange of the package brings holds from then on (R32). -/
theorem State.syncOk_boundHolds (s : State) (o : SyncOp) (h : s.syncOk o = true) (ho : o.ok = true) (hp : o.pod = false) :
    (s.syncExchange o).boundHolds o.bound = true := by
  simp only [State.syncOk, ho, hp, Bool.false_eq_true, ↓reduceIte, Bool.and_eq_true, Bool.not_true, Bool.false_or] at h
  exact h.1.2

theorem State.syncOk_early (s : State) (o : SyncOp)
    (h : s.timeCnt.toNat / syncPeriod o.pod ≤ (s.timeCopy (syncSlave o)).last) : s.syncOk o = false := by
  have : s.syncFits o = false := by
    simp only [State.syncFits, Bool.and_eq_false_iff, decide_eq_false_iff_not, Nat.not_lt]
    exact .inl h
  simp [State.syncOk, this]

/-! ### Bounds suspended, and back -/

theorem State.timeBack_iff (s : State) : s.timeBack = true ↔
    s.timeLost = true ∧ s.copies ≠ [] ∧ (∀ e ∈ s.copies, 16 ≤ e.2.ok) ∧ s.boundHolds s.pkgBound = true
      ∧ (s.pod = none ∨ s.podBound = 0xFFFF ∨ (s.timeCopy podCopy).slew.natAbs ≤ s.podBound.toNat) := by
  simp only [State.timeBack, Bool.and_eq_true, Bool.or_eq_true, List.all_eq_true, List.any_eq_true, decide_eq_true_eq,
    Option.isNone_iff_eq_none, State.podBoundHolds_iff]
  constructor
  · rintro ⟨⟨⟨⟨hl, hall⟩, e, he, _⟩, hb⟩, hp⟩
    exact ⟨hl, List.ne_nil_of_mem he, hall, hb, hp⟩
  · rintro ⟨hl, hne, hall, hb, hp⟩
    obtain ⟨e, he⟩ := List.exists_mem_of_ne_nil _ hne
    exact ⟨⟨⟨⟨hl, hall⟩, e, he, hall e he⟩, hb⟩, hp⟩

theorem le_foldl_max (l : List Int) : ∀ a : Int, a ≤ l.foldl max a ∧ ∀ x ∈ l, x ≤ l.foldl max a := by
  induction l with
  | nil => intro a; simp
  | cons y rest ih =>
    intro a
    obtain ⟨h1, h2⟩ := ih (max a y)
    refine ⟨(le_max_left a y).trans h1, ?_⟩
    intro x hx
    rcases List.mem_cons.mp hx with rfl | hx
    · exact (le_max_right a x).trans h1
    · exact h2 x hx

theorem foldl_min_le (l : List Int) : ∀ a : Int, l.foldl min a ≤ a ∧ ∀ x ∈ l, l.foldl min a ≤ x := by
  induction l with
  | nil => intro a; simp
  | cons y rest ih =>
    intro a
    obtain ⟨h1, h2⟩ := ih (min a y)
    refine ⟨h1.trans (min_le_left a y), ?_⟩
    intro x hx
    rcases List.mem_cons.mp hx with rfl | hx
    · exact h1.trans (min_le_right a x)
    · exact h2 x hx

/-- Two offsets of copies of the package, as they stand or once they have slewed, are no further apart than the spread. -/
theorem State.sub_le_timeSpread (s : State) (i j : Nat) (x y : TimeCopy) (a b : Int) (hi : i < 60) (hj : j < 60)
    (hx : (i, x) ∈ s.copies) (hy : (j, y) ∈ s.copies) (ha : a = x.off ∨ a = x.off + x.slew)
    (hb : b = y.off ∨ b = y.off + y.slew) : a - b ≤ s.timeSpread := by
  have listed : ∀ (n : Nat) (z : TimeCopy) (c : Int), n < 60 → (n, z) ∈ s.copies → (c = z.off ∨ c = z.off + z.slew) →
      c ∈ (s.copies.filter (fun e => decide (e.1 < 60))).flatMap (fun e => [e.2.off, e.2.off + e.2.slew]) :=
    fun n z c hn hz hc => List.mem_flatMap.mpr ⟨(n, z), by simp [hz, hn], by simpa using hc⟩
  have h1 := (le_foldl_max _ 0).2 a (listed i x a hi hx ha)
  have h2 := (foldl_min_le _ 0).2 b (listed j y b hj hy hb)
  have := Int.self_le_toNat
    ((((s.copies.filter (fun e => decide (e.1 < 60))).flatMap (fun e => [e.2.off, e.2.off + e.2.slew])).foldl max 0)
      - (((s.copies.filter (fun e => decide (e.1 < 60))).flatMap (fun e => [e.2.off, e.2.off + e.2.slew])).foldl min 0))
  simp only [State.timeSpread]
  omega

theorem State.timeSpread_le_of_boundHolds (s : State) (b : BitVec 16) (hb : b ≠ 0xFFFF) (h : s.boundHolds b = true) :
    s.timeSpread ≤ b.toNat := by
  simp only [State.boundHolds, Bool.or_eq_true, beq_iff_eq, decide_eq_true_eq] at h
  exact h.resolve_left hb

/-! ### Pods -/

/-- The table of the members of a list but one: each has the value of its last entry. -/
theorem find?_foldl_members {β : Type} (f : PodMember → β) (self : Nat) (members : List PodMember) (p : Nat) : ∀ m : PMap β,
    Table.find? (members.foldl (fun (t : PMap β) k => if k.id = self then t else Table.insert t k.id (f k)) m) p
      = if p = self then Table.find? m p
        else (((members.filter (fun k => k.id == p)).getLast?).map f).or (Table.find? m p) := by
  induction members with
  | nil => intro m; simp
  | cons k rest ih =>
    intro m
    rw [List.foldl_cons, ih]
    by_cases hp : p = self
    · simp only [hp, ↓reduceIte]
      split
      · rfl
      · rename_i hk; rw [Table.find?_insert, if_neg hk]
    · by_cases hk : k.id = p
      · simp only [hp, hk, ↓reduceIte, Table.find?_insert, List.filter_cons, beq_self_eq_true, List.getLast?_cons]
        cases (rest.filter (fun k => k.id == p)).getLast? <;> rfl
      · have hm : Table.find? (if k.id = self then m else Table.insert m k.id (f k)) p = Table.find? m p := by
          split
          · rfl
          · rw [Table.find?_insert, if_neg hk]
        simp [hp, hm, hk]

theorem State.joinPod_routes (s : State) (self : Nat) (m : PodMaster) (x : BitVec 16) (members : List PodMember)
    (pages : List PeerPage) (p : Nat) : Table.find? (s.joinPod self m x members pages).routes p
      = if p = self then none else ((members.filter (fun k => k.id == p)).getLast?).map (·.port) := by
  have h := find?_foldl_members (·.port) self members p []
  simp only [Table.find?, Option.or_none] at h
  exact h

theorem State.joinPod_peers (s : State) (self : Nat) (m : PodMaster) (x : BitVec 16) (members : List PodMember)
    (pages : List PeerPage) (p : Nat) : Table.find? (s.joinPod self m x members pages).peers p
      = if p ≠ self ∧ ∃ k ∈ members, k.id = p then some true else none := by
  have h := find?_foldl_members (fun _ => true) self members p []
  simp only [Table.find?, Option.or_none] at h
  refine h.trans ?_
  by_cases hp : p = self
  · simp [hp]
  · by_cases hm : ∃ k ∈ members, k.id = p
    · have hne : members.filter (fun k => k.id == p) ≠ [] := by
        obtain ⟨k, hk, rfl⟩ := hm
        exact List.ne_nil_of_mem (List.mem_filter.mpr ⟨hk, by simp⟩)
      rw [if_neg hp, if_pos ⟨hp, hm⟩, List.getLast?_eq_some_getLast hne]; rfl
    · have he : members.filter (fun k => k.id == p) = [] :=
        List.filter_eq_nil_iff.mpr fun k hk hkp => hm ⟨k, hk, by simpa using hkp⟩
      rw [if_neg hp, if_neg (fun hh => hm hh.2), he]; rfl

/-- TIME_CNT steps forward to the master's value, never back (R30). -/
theorem State.joinPod_timeCnt (s : State) (self : Nat) (m : PodMaster) (x : BitVec 16) (members : List PodMember)
    (pages : List PeerPage) : (s.joinPod self m x members pages).timeCnt.toNat
      = if self = m.id then s.timeCnt.toNat else max s.timeCnt.toNat m.time.toNat := by
  by_cases h : self = m.id
  · simp [State.joinPod, h]
  · by_cases ht : s.timeCnt.toNat ≤ m.time.toNat <;>
      simp only [State.joinPod, ne_eq, h, ht, not_false_eq_true, decide_true, decide_false, Bool.and_true, Bool.and_false,
        Bool.false_eq_true, ↓reduceIte] <;> omega

theorem State.podMet_iff (s : State) : s.podMet = true ↔
    s.pod ≠ none ∧ s.podValid = false ∧ s.timeLost = false ∧ 16 ≤ (s.timeCopy podCopy).ok ∧ s.podBound ≠ 0xFFFF
      ∧ (s.timeCopy podCopy).slew.natAbs ≤ s.podBound.toNat := by
  simp only [State.podMet, Bool.and_eq_true, Bool.not_eq_true', bne_iff_ne, decide_eq_true_eq,
    Option.isSome_iff_ne_none, State.podBoundHolds_iff]
  tauto

/-! ### The pace of TIME_CNT -/

theorem State.endIntervals_copies (s : State) (a b : Nat) : ∃ l, s.endIntervals a b = { s with copies := l } := by
  unfold State.endIntervals
  dsimp only
  split
  · exact ⟨s.copies, rfl⟩
  · refine foldl_keeps (fun t : State => ∃ l, t = { s with copies := l }) _ ?_ _ s ⟨s.copies, rfl⟩
    rintro t i ⟨l, rfl⟩
    exact ⟨_, rfl⟩

/-- A tick changes nothing but TIME_CNT and the copies, and slews the package within its pod by at most one tick (R30). -/
theorem State.tick_cases (s : State) : ∃ (d : Int) (l : PMap TimeCopy), -1 ≤ d ∧ d ≤ 1
    ∧ s.tick = { s with timeCnt := BitVec.ofInt 64 (((s.timeCnt + BitVec.ofNat 64 s.pace).toNat : Int) + d), copies := l } := by
  obtain ⟨m, hm⟩ := State.endIntervals_copies s s.timeCnt.toNat (s.timeCnt + BitVec.ofNat 64 s.pace).toNat
  unfold State.tick
  dsimp only
  rw [hm]
  split
  · exact ⟨0, m, by omega, by omega, by rw [Int.add_zero, BitVec.ofInt_natCast, BitVec.ofNat_toNat, BitVec.setWidth_eq]⟩
  · refine ⟨_, _, ?_, ?_, rfl⟩
    all_goals split_ifs <;> omega

theorem State.tick_frame (s : State) : ({ s.tick with timeCnt := s.timeCnt, copies := s.copies } : State) = s := by
  obtain ⟨d, l, _, _, h⟩ := State.tick_cases s
  rw [h]

/-- TIME_CNT is at most one tick off its pace while it does not wrap. -/
theorem State.tick_pace (s : State) (h0 : 0 < s.timeCnt.toNat) (h1 : s.timeCnt.toNat + s.pace + 1 < 2 ^ 64) :
    s.timeCnt.toNat + s.pace ≤ s.tick.timeCnt.toNat + 1 ∧ s.tick.timeCnt.toNat ≤ s.timeCnt.toNat + s.pace + 1 := by
  obtain ⟨d, l, hd0, hd1, h⟩ := State.tick_cases s
  have hn : (s.timeCnt + BitVec.ofNat 64 s.pace).toNat = s.timeCnt.toNat + s.pace := by
    rw [BitVec.toNat_add, BitVec.toNat_ofNat]; omega
  have ht : s.tick.timeCnt.toNat = ((s.timeCnt.toNat : Int) + s.pace + d).toNat := by
    rw [h]
    simp only [hn, BitVec.toNat_ofInt]
    rw [Int.emod_eq_of_lt (by omega) (by push_cast; omega)]
    push_cast
    rfl
  rw [ht]
  omega

end Sys2Proof.Machine

namespace Sys2Proof.Claims

open Sys2Proof Sys2Proof.Machine

/-! ### The events of time and pods -/

theorem exec_timeSyncExchange (o : SyncOp) (s : State) :
    exec (.timeSyncExchange o) s = eventOp (·.syncOk o) (·.syncExchange o) s := rfl

theorem exec_timeSyncLost (s : State) : exec .timeSyncLost s
    = eventOp (fun s => !s.timeLost && s.copies.any (fun e => 16 ≤ e.2.fail))
        (fun s => { s with timeLost := true, copies := s.copies.map (fun e => (e.1, { e.2 with ok := 0 })) }) s := rfl

theorem exec_timeSyncRecover (s : State) :
    exec .timeSyncRecover s = eventOp State.timeBack (fun s => { s with timeLost := false }) s := rfl

theorem exec_podValidSet (s : State) : exec .podValidSet s = eventOp State.podMet (fun s => { s with podValid := true }) s := rfl

theorem exec_podJoin (self : Nat) (m : PodMaster) (x : BitVec 16) (members : List PodMember) (pages : List PeerPage) (s : State) :
    exec (.podJoin self m x members pages) s
      = eventOp (fun s => s.pod.isNone && s.launches.isEmpty && self < 4096 && m.id < 4096
          && members.all (fun m => m.id < 4096 && m.port < 8)) (·.joinPod self m x members pages) s := rfl

theorem exec_timeSyncLost_met (s : State) (hl : s.timeLost = false) (h : ∃ e ∈ s.copies, 16 ≤ e.2.fail) :
    exec .timeSyncLost s
      = .next { s with timeLost := true, copies := s.copies.map (fun e => (e.1, { e.2 with ok := 0 })) } := by
  rw [exec_timeSyncLost]
  exact eventOp_met _ _ s (by simpa [hl] using h)

theorem exec_timeSyncLost_unmet (s : State) (h : ∀ e ∈ s.copies, e.2.fail < 16) : exec .timeSyncLost s = .next s := by
  rw [exec_timeSyncLost]
  exact eventOp_unmet _ _ s (by simpa using fun _ => h)

theorem exec_podJoin_met (s : State) (self : Nat) (m : PodMaster) (x : BitVec 16) (members : List PodMember)
    (pages : List PeerPage) (hp : s.pod = none) (hl : s.launches = []) (hs : self < 4096) (hm : m.id < 4096)
    (hk : ∀ k ∈ members, k.id < 4096 ∧ k.port < 8) :
    exec (.podJoin self m x members pages) s = .next (s.joinPod self m x members pages) := by
  rw [exec_podJoin]
  exact eventOp_met _ _ s (by simpa [hp, hl, hs, hm] using hk)

theorem exec_podJoin_unmet (s : State) (self : Nat) (m : PodMaster) (x : BitVec 16) (members : List PodMember)
    (pages : List PeerPage) (h : s.pod ≠ none ∨ s.launches ≠ [] ∨ 4096 ≤ self ∨ 4096 ≤ m.id
      ∨ ∃ k ∈ members, 4096 ≤ k.id ∨ 8 ≤ k.port) :
    exec (.podJoin self m x members pages) s = .next s := by
  rw [exec_podJoin]
  refine eventOp_unmet _ _ s ?_
  rw [Bool.eq_false_iff]
  intro hc
  simp only [Bool.and_eq_true, Option.isNone_iff_eq_none, List.isEmpty_iff, decide_eq_true_eq, List.all_eq_true] at hc
  obtain ⟨⟨⟨⟨hp, hl⟩, hs⟩, hm⟩, hk⟩ := hc
  rcases h with h | h | h | h | ⟨k, hkm, h⟩
  · exact h hp
  · exact h hl
  · omega
  · omega
  · have := hk k hkm; omega

/-- Settles O49, exchange by exchange and event by event. -/
theorem timeAndPods : Obligations.TimeAndPods := by
  unfold Obligations.TimeAndPods
  intro s
  dsimp only
  refine ⟨?_, ?_, ?_, ?_, ?_, ?_, ?_, ?_, ?_, ?_, ?_, ?_⟩
  · -- an exchange that can happen
    intro o ho
    refine ⟨s.syncExchange o, (exec_timeSyncExchange o s).trans (eventOp_met _ _ s ho), s.syncExchange_frame o, s.syncExchange_podValid o,
      s.syncCore_timeCopy_other o, fun hf => ?_, fun hk => ?_⟩
    · exact ⟨s.syncCore_timeCopy_failed o hf, s.syncCore_bounds_kept o (.inl hf)⟩
    · refine ⟨?_, fun hp => ?_, fun hp => s.syncCore_bounds_kept o (.inr hp)⟩
      · refine (s.syncCore_timeCopy_completed o hk).trans ?_
        simp only [Bool.and_eq_true, decide_eq_true_eq]
        rfl
      · obtain ⟨hpkg, hpod⟩ := s.syncCore_bounds_set o hk hp
        refine ⟨hpkg, s.syncOk_boundHolds o ho hk hp, fun h => ?_, fun h => ?_⟩
        · exact hpod.trans (s.podBoundOver_alone o.bound h)
        · exact (congrArg BitVec.toNat hpod).trans (s.podBoundOver_member o.bound h)
  · -- an exchange before its interval has begun
    exact fun o h => (exec_timeSyncExchange o s).trans (eventOp_unmet _ _ s (s.syncOk_early o h))
  · -- the time is lost after 16 failed intervals of a copy
    intro hl h
    refine ⟨_, exec_timeSyncLost_met s hl h, rfl, rfl, fun e he => ?_⟩
    obtain ⟨e', _, rfl⟩ := List.mem_map.mp he
    rfl
  · -- it is not lost before
    exact fun _ h => exec_timeSyncLost_unmet s h
  · -- bounds hold again after 16 exchanges of each copy
    exact fun hl hne hall hb hp =>
      (exec_timeSyncRecover s).trans (eventOp_met _ _ s (s.timeBack_iff.mpr ⟨hl, hne, hall, hb, hp⟩))
  · -- they stay suspended before
    intro _ h
    rw [exec_timeSyncRecover]
    refine eventOp_unmet _ _ s (Bool.eq_false_iff.mpr fun hc => ?_)
    obtain ⟨_, hne, hall, hb, hp⟩ := s.timeBack_iff.mp hc
    rcases h with h | ⟨e, he, h⟩ | h | h
    · exact hne h
    · have := hall e he; omega
    · rw [hb] at h; cases h
    · exact h hp
  · -- a bound that holds bounds every two copies
    intro b hb h i j hi hj x y hx hy
    have hs := s.timeSpread_le_of_boundHolds b hb h
    have h1 := s.sub_le_timeSpread i j x y _ _ hi hj hx hy (.inl rfl) (.inl rfl)
    have h2 := s.sub_le_timeSpread i j x y _ _ hi hj hx hy (.inr rfl) (.inr rfl)
    omega
  · -- a package joins a pod
    intro self m x members pages hp hl hs hm hk
    exact ⟨_, exec_podJoin_met s self m x members pages hp hl hs hm hk, rfl, rfl, rfl,
      s.joinPod_timeCnt self m x members pages, rfl, toNat_boundSum _ _, s.joinPod_peers self m x members pages,
      s.joinPod_routes self m x members pages, rfl⟩
  · -- a package that cannot join
    exact fun self m x members pages h => exec_podJoin_unmet s self m x members pages h
  · -- POD_VALID is set
    exact fun hp hv hl hk hb hs =>
      (exec_podValidSet s).trans (eventOp_met _ _ s (s.podMet_iff.mpr ⟨hp, hv, hl, hk, hb, hs⟩))
  · -- POD_VALID is not set
    intro h
    rw [exec_podValidSet]
    refine eventOp_unmet _ _ s (Bool.eq_false_iff.mpr fun hc => ?_)
    obtain ⟨_, _, _, hk, hb, _⟩ := s.podMet_iff.mp hc
    rcases h with h | h
    · exact absurd h (Nat.not_lt.mpr hk)
    · exact hb h
  · -- the pace of TIME_CNT
    intro h0 h1
    obtain ⟨hlo, hhi⟩ := s.tick_pace h0 h1
    exact ⟨hlo, hhi, s.tick_frame⟩

end Sys2Proof.Claims
end
section
/-! PROOF. The state right after package reset (R18, R30, R32, R363, R365, R435). -/

namespace Sys2Proof.Machine

theorem State.reset_ctx (c : CoreId) : State.reset.ctx c = Ctx.unbound := by cases c <;> rfl

theorem State.reset_coreRec (c : CoreId) : State.reset.coreRec c = Core.idle := by cases c <;> rfl

theorem Ctx.unbound_sreg (n : BitVec 6) : Ctx.unbound.sreg n = 0 := ite_self _

theorem Ctx.unbound_qreg (q : BitVec 4) : Ctx.unbound.qreg q = (q == 0) := Bool.or_false _

/-- Memory and caches stand in their forms right after reset. -/
theorem State.reset_inv : State.reset.Inv :=
  ⟨State.reset_mem_wf, rfl, fun _ h => absurd h List.not_mem_nil, fun _ h => absurd h List.not_mem_nil⟩

end Sys2Proof.Machine

namespace Sys2Proof.Claims

open Sys2Proof Sys2Proof.Machine

/-- Settles O58: each table of the reset state is empty, so every record reads as its default. -/
theorem resetState : Obligations.ResetState := by
  unfold Obligations.ResetState
  refine ⟨State.reset_inv, fun c => ?_, fun d => ⟨rfl, rfl⟩, fun n b => rfl, rfl, rfl, rfl, rfl, rfl, rfl, rfl, fun q => rfl,
    fun f e => rfl, fun f => rfl, fun c => ?_, fun k => rfl, rfl, rfl⟩
  · rw [State.reset_ctx]
    exact ⟨rfl, rfl, rfl, rfl, rfl, rfl, rfl, Ctx.unbound_sreg, fun q hq => (Ctx.unbound_qreg q).trans (beq_false_of_ne hq),
      Ctx.unbound_qreg 0⟩
  · rw [State.reset_coreRec]
    exact ⟨rfl, rfl⟩

end Sys2Proof.Claims
end

section
/-! PROOF. Units and storage: scrubs and rewrites, kiln runs and spares, clocks, layers, links, routes and host errors, and
invalidations of translations (R22, R115, R401 to R403, R413 to R416, R440, R441, R448, R449, R453). -/

namespace Sys2Proof.Machine

/-! ### Scrubs (R401 to R403) -/

theorem State.logError_getLast? (s : State) (r : ErrRec) : (s.logError r).errLog.getLast? = some r := by
  unfold State.logError
  dsimp only
  split
  · cases hl : s.errLog with
    | nil => simp [hl] at *
    | cons a rest => simp
  · simp

/-- The record of a word that firmware meets (R412). -/
def idleRecord (s : State) (wk : Nat) (ty : BitVec 8) (syn : Nat) : ErrRec :=
  { time := s.timeCnt, unit := (unitOf (8 * wk)).1, ty, syn := BitVec.ofNat 8 syn,
    addr := BitVec.ofNat 64 (unitOf (8 * wk)).2, lnch := 0xFFFF, ctx := 0xFFFF }

theorem State.noteWord_idle_bad (s : State) (wk syn : Nat) (h : s.eccWord wk = .bad syn) :
    s.noteWord .idle wk = s.logError (idleRecord s wk 2 syn) := by
  simp only [State.noteWord, h]; rfl

/-- A word scheduled to be rewritten, once (R401). -/
def State.addRewrite (s : State) (wk : Nat) : State :=
  if s.rewrites.contains wk then s else { s with rewrites := s.rewrites ++ [wk] }

theorem State.addRewrite_lists (s : State) (wk : Nat) : ∃ rw, s.addRewrite wk = { s with rewrites := rw } ∧ wk ∈ rw := by
  unfold State.addRewrite
  split
  · exact ⟨s.rewrites, rfl, List.contains_iff_mem.mp ‹_›⟩
  · exact ⟨_, rfl, by simp⟩

/-- A correctable word that firmware meets is logged, counted, and scheduled to be rewritten (R401). -/
theorem State.noteWord_idle_corrected (s : State) (wk d syn : Nat) (h : s.eccWord wk = .corrected d syn) : ∃ hl rw,
    s.noteWord .idle wk = { s.logError (idleRecord s wk 1 syn) with health := hl, rewrites := rw } ∧ wk ∈ rw := by
  have e : s.noteWord .idle wk
      = ((s.logError (idleRecord s wk 1 syn)).countCorrected (unitOf (8 * wk)).1).addRewrite wk := by
    simp only [State.noteWord, h]; rfl
  obtain ⟨hl, hh⟩ := State.countCorrected_health (s.logError (idleRecord s wk 1 syn)) (unitOf (8 * wk)).1
  obtain ⟨rw', hr, hm⟩ := State.addRewrite_lists { s.logError (idleRecord s wk 1 syn) with health := hl } wk
  exact ⟨hl, rw', by rw [e, hh, hr], hm⟩

/-- A word whose code is not clean is logged at its unit (R402, R412). -/
theorem State.noteWord_idle_logs (s : State) (wk : Nat) (h : s.eccWord wk ≠ .clean) :
    (s.noteWord .idle wk).errCount = s.errCount + 1 ∧ ∃ r, (s.noteWord .idle wk).errLog.getLast? = some r
      ∧ r.unit = (unitOf (8 * wk)).1 ∧ r.addr = BitVec.ofNat 64 (unitOf (8 * wk)).2 ∧ r.time = s.timeCnt
      ∧ r.ty = (match s.eccWord wk with | .bad _ => 2 | _ => 1) := by
  cases hw : s.eccWord wk with
  | clean => exact absurd hw h
  | bad syn =>
    rw [State.noteWord_idle_bad s wk syn hw]
    exact ⟨rfl, _, State.logError_getLast? s _, rfl, rfl, rfl, rfl⟩
  | corrected d syn =>
    obtain ⟨hl, rw', e, _⟩ := State.noteWord_idle_corrected s wk d syn hw
    rw [e]
    exact ⟨rfl, _, State.logError_getLast? s _, rfl, rfl, rfl, rfl⟩

theorem State.ecc_ne_nil_of_nextUnclean (s : State) (pos wk : Nat) (h : s.nextUnclean pos = some wk) : s.ecc ≠ [] := by
  intro he
  rw [State.nextUnclean, he] at h
  cases h

/-- What a scrub does at the next word whose code is not clean: it meets that word alone, its layer raised. -/
theorem State.scrub_word (s : State) (wk : Nat) (h : s.nextUnclean s.scrubPos = some wk) : ∃ l,
    s.scrub = { State.noteWord { s with layers := l } .idle wk with scrubPos := wk + 1 } := by
  obtain ⟨l, hl⟩ := State.wakeLayers_layers s (· != .powerGated) (8 * wk) 8
  refine ⟨l, ?_⟩
  have he : (s.raiseLayer (8 * wk) 8).ecc.isEmpty = false := by
    have e : (s.raiseLayer (8 * wk) 8).ecc = s.ecc := (congrArg State.ecc hl :)
    rw [e, List.isEmpty_eq_false_iff]
    exact s.ecc_ne_nil_of_nextUnclean _ wk h
  rw [← hl]
  simp only [State.scrub, h, State.noteRead, he, wordsOf_word]
  rfl

theorem State.scrub_keeps (s : State) :
    s.scrub.mem = s.mem ∧ s.scrub.ecc = s.ecc ∧ s.scrub.seq = s.seq ∧ s.scrub.cel = s.cel := by
  unfold State.scrub
  split
  · rename_i wk _
    have h := State.noteRead_sameButLog s .idle (8 * wk) 8
    exact ⟨h.mem, h.ecc, h.seq, h.cel⟩
  · have h := State.noteCells_sameButLog s .idle (fun e => match e with | .code _ => true | _ => false)
    exact ⟨h.mem, h.ecc, h.seq, h.cel⟩

/-! ### Rewrites (R401) -/

theorem State.memByte_corrected (s : State) (k d syn : Nat) (h : s.eccWord (k / 8) = .corrected d syn) :
    s.memByte k = BitVec.ofNat 8 (d >>> (8 * (k % 8))) := by simp only [State.memByte, h]

theorem State.eccWord_unlisted (s : State) (wk : Nat) (h : Table.find? s.ecc wk = none) : s.eccWord wk = .clean := by
  simp only [State.eccWord, h]

theorem State.memByte_unlisted (s : State) (k : Nat) (h : Table.find? s.ecc (k / 8) = none) :
    s.memByte k = Memory.readByte s.mem k := by
  simp only [State.memByte, s.eccWord_unlisted _ h]

/-- A word reads by its bytes and its check byte alone. -/
theorem State.eccWord_congr (s t : State) (wk : Nat) (he : Table.find? t.ecc wk = Table.find? s.ecc wk)
    (hm : ∀ j, 8 * wk ≤ j → j < 8 * wk + 8 → Memory.readByte t.mem j = Memory.readByte s.mem j) : t.eccWord wk = s.eccWord wk := by
  unfold State.eccWord
  rw [he, Memory.readNat_congr s.mem t.mem 8 (8 * wk) hm]

theorem State.memByte_congr (s t : State) (k : Nat) (he : Table.find? t.ecc (k / 8) = Table.find? s.ecc (k / 8))
    (hm : ∀ j, 8 * (k / 8) ≤ j → j < 8 * (k / 8) + 8 → Memory.readByte t.mem j = Memory.readByte s.mem j) :
    t.memByte k = s.memByte k := by
  unfold State.memByte
  rw [State.eccWord_congr s t (k / 8) he hm, hm k (by omega) (by omega)]

/-- A correctable word with its corrected value stored, and clean check bits. -/
def State.rewriteWord (s : State) (wk d : Nat) : State :=
  { s with mem := Memory.writeNat s.mem (8 * wk) d 8, ecc := Table.erase s.ecc wk }

theorem State.eccWord_rewriteWord (s : State) (wk d : Nat) : (s.rewriteWord wk d).eccWord wk = .clean :=
  State.eccWord_unlisted _ wk (by simp [State.rewriteWord, Table.find?_erase])

/-- Rewriting a correctable word changes no value that is read. -/
theorem State.memByte_rewriteWord (s : State) (wk d syn k : Nat) (h : s.eccWord wk = .corrected d syn) :
    (s.rewriteWord wk d).memByte k = s.memByte k := by
  by_cases hk : k / 8 = wk
  · subst hk
    rw [State.memByte_corrected s k d syn h, State.memByte_unlisted _ k (by simp [State.rewriteWord, Table.find?_erase])]
    have hb := Memory.readByte_writeNat 8 s.mem (8 * (k / 8)) d (k % 8) (by omega)
    rw [Nat.div_add_mod] at hb
    refine hb.trans ?_
    rw [Nat.shiftRight_eq_div_pow, pow_mul]
    rfl
  · refine State.memByte_congr s _ k ?_ fun j h1 h2 => ?_
    · simp [State.rewriteWord, Table.find?_erase, Ne.symm hk]
    · exact Memory.readByte_writeNat_other _ _ _ _ _ (by omega)

/-- What ECC_REWRITE does: the oldest scheduled word, its layer raised, is rewritten where it is still correctable. -/
theorem State.rewriteNext_cases (s : State) (wk : Nat) (rest : List Nat) (h : s.rewrites = wk :: rest) : ∃ l,
    let u : State := { s with rewrites := rest, layers := l }
    (∃ d syn, s.eccWord wk = .corrected d syn ∧ s.rewriteNext = u.rewriteWord wk d)
    ∨ ((∀ d syn, s.eccWord wk ≠ .corrected d syn) ∧ s.rewriteNext = u) := by
  obtain ⟨l, hl⟩ := State.wakeLayers_layers { s with rewrites := rest } (· != .powerGated) (8 * wk) 8
  refine ⟨l, ?_⟩
  have e : s.rewriteNext = match s.eccWord wk with
      | .corrected d _ => State.rewriteWord { s with rewrites := rest, layers := l } wk d
      | _ => { s with rewrites := rest, layers := l } := by
    simp only [State.rewriteNext, h, State.raiseLayer, hl]
    rfl
  rw [e]
  cases hw : s.eccWord wk with
  | corrected d syn => exact .inl ⟨d, syn, rfl, rfl⟩
  | clean => exact .inr ⟨fun _ _ hc => (by cases hc), rfl⟩
  | bad syn => exact .inr ⟨fun _ _ hc => (by cases hc), rfl⟩

/-! ### The HEALTH table and kiln runs (R413 to R415) -/

theorem State.healthOf_setHealth (s : State) (u v : UnitCode) (h : HealthEntry) :
    (s.setHealth u h).healthOf v = if u = v then h else s.healthOf v := by
  have e : (u.toNat = v.toNat) = (u = v) := propext ⟨BitVec.eq_of_toNat_eq, congrArg _⟩
  simp [State.setHealth, State.healthOf, Table.get_set, e]

/-- The entry of a unit after a kiln run (R413, R414). -/
theorem HealthEntry.kiln_eq (h : HealthEntry) (now : Word) (pass : Bool) : h.kiln now pass = Claims.afterKiln h now pass := by
  cases pass with
  | true =>
    by_cases hs : h.st = .suspect
    · by_cases hp : 2 ≤ h.passes + 1 <;> simp [HealthEntry.kiln, Claims.afterKiln, sat16, hs, hp]
    · simp [HealthEntry.kiln, Claims.afterKiln, sat16, hs]
  | false => cases hs : h.st <;> simp [HealthEntry.kiln, Claims.afterKiln, sat16, hs]

/-- A retirement recorded in the repair map, once (R418). -/
def State.recordRepair (s : State) (u : UnitCode) : State :=
  if (s.healthOf u).st = .retired && !s.repairs.contains u.toNat then { s with repairs := s.repairs ++ [u.toNat] } else s

theorem State.recordRepair_repairs (s : State) (u : UnitCode) : ∃ rp, s.recordRepair u = { s with repairs := rp } := by
  unfold State.recordRepair
  split
  · exact ⟨_, rfl⟩
  · exact ⟨s.repairs, rfl⟩

/-- What the result of a kiln run changes: the unit's entry, the repair map, and the log of a failure. -/
theorem State.kilnResult_cases (s : State) (u : UnitCode) (pass : Bool) : ∃ (rp : List Nat) (r : ErrRec),
    let v : State := { s.setHealth u ((s.healthOf u).kiln s.timeCnt pass) with repairs := rp }
    s.kilnResult u pass = if pass then v else v.logError r := by
  obtain ⟨rp, e⟩ := State.recordRepair_repairs (s.setHealth u ((s.healthOf u).kiln s.timeCnt pass)) u
  exact ⟨rp, _, by rw [← e]; rfl⟩

theorem State.kilnResult_healthOf (s : State) (u v : UnitCode) (pass : Bool) :
    (s.kilnResult u pass).healthOf v = if u = v then (s.healthOf u).kiln s.timeCnt pass else s.healthOf v := by
  obtain ⟨rp, r, e⟩ := s.kilnResult_cases u pass
  rw [e, ← State.healthOf_setHealth]
  split <;> rfl

theorem State.kilnResult_errCount (s : State) (u : UnitCode) (pass : Bool) :
    (s.kilnResult u pass).errCount = s.errCount + (if pass then 0 else 1) := by
  obtain ⟨rp, r, e⟩ := s.kilnResult_cases u pass
  rw [e]
  cases pass <;> rfl

theorem State.kilnResult_mem (s : State) (u : UnitCode) (pass : Bool) : (s.kilnResult u pass).mem = s.mem := by
  obtain ⟨rp, r, e⟩ := s.kilnResult_cases u pass
  rw [e]
  cases pass <;> rfl

/-- Die contexts set one after another leave everything but the die contexts alone. -/
theorem State.foldl_setDctx {α : Type} (g : α → DieId) (f : α → DieCtx) (l : List α) (s : State) :
    ∃ dc, l.foldl (fun (t : State) e => t.setDctx (g e) (f e)) s = { s with dieCtx := dc } := by
  refine foldl_keeps (fun t : State => ∃ dc, t = { s with dieCtx := dc }) _ ?_ l s ⟨s.dieCtx, rfl⟩
  rintro t e ⟨dc, rfl⟩
  exact ⟨_, rfl⟩

theorem State.ctx_dieCtx (s : State) (dc : PMap DieCtx) (c : CoreId) : ({ s with dieCtx := dc } : State).ctx c = s.ctx c := by
  cases c <;> rfl

/-- A kiln run starts as a new launch on its context, its die contexts bound and the cells of all of them clean. -/
theorem State.startKiln_cases (s : State) (c : CoreId) (mask dctx : BitVec 48) (entry : Word) (u : UnitCode) : ∃ x fl dc,
    (x.task = some { lid := s.nextLid, wid := 0 } ∧ x.diag = true ∧ x.run = .ready ∧ x.testUnit = some u ∧ x.n0 = entry
      ∧ x.dieMask = mask)
    ∧ s.startKiln c mask dctx entry u
      = { State.setCtx { State.setLaunch { s with nextLid := s.nextLid + 1 } s.nextLid
            (kilnLaunch s.codeVer c mask dctx entry) with flaws := fl } c x with dieCtx := dc } := by
  unfold State.startKiln State.mendUnits
  dsimp only
  obtain ⟨fl, hf⟩ := State.mend_flaws (State.setLaunch { s with nextLid := s.nextLid + 1 } s.nextLid
    (kilnLaunch s.codeVer c mask dctx entry)) (fun e => unitCells (.core c) e
      || (maskDies mask dctx).any (fun d => unitCells (.die d) e))
  rw [hf]
  obtain ⟨dc, hd⟩ := State.foldl_setDctx Prod.fst _ (maskDies mask dctx).zipIdx _
  exact ⟨_, fl, dc, ⟨rfl, rfl, rfl, rfl, rfl, rfl⟩, hd⟩

theorem kilnLaunch_nonidem (ver : Nat) (c : CoreId) (mask dctx : BitVec 48) (entry : Word) :
    recNonidem (kilnLaunch ver c mask dctx entry).record = true := by
  unfold kilnLaunch
  dsimp only
  split
  · decide +kernel
  · split <;> decide +kernel

theorem State.startKiln_nonidem (s : State) (c : CoreId) (mask dctx : BitVec 48) (entry : Word) (u : UnitCode) :
    (s.startKiln c mask dctx entry u).nonidem { lid := s.nextLid, wid := 0 } = true := by
  obtain ⟨x, fl, dc, _, e⟩ := s.startKiln_cases c mask dctx entry u
  have hl : (s.startKiln c mask dctx entry u).launch s.nextLid = kilnLaunch s.codeVer c mask dctx entry := by
    rw [e]
    refine (congrArg (fun m => Table.get Launch.absent m s.nextLid) (State.setCtx_launches _ c x)).trans ?_
    exact (Table.get_insert _ _ _ _ _).trans (if_pos rfl)
  unfold State.nonidem
  rw [hl, kilnLaunch_nonidem, Bool.or_true]

theorem State.startKiln_ctx (s : State) (c : CoreId) (mask dctx : BitVec 48) (entry : Word) (u : UnitCode) :
    let y := (s.startKiln c mask dctx entry u).ctx c
    y.task = some { lid := s.nextLid, wid := 0 } ∧ y.diag = true ∧ y.run = .ready ∧ y.testUnit = some u ∧ y.n0 = entry
      ∧ y.dieMask = mask := by
  obtain ⟨x, fl, dc, hx, e⟩ := s.startKiln_cases c mask dctx entry u
  have hc : (s.startKiln c mask dctx entry u).ctx c = x := by
    rw [e, State.ctx_dieCtx, State.ctx_setCtx_same]
  rw [hc]
  exact hx

theorem State.startKiln_nextLid (s : State) (c : CoreId) (mask dctx : BitVec 48) (entry : Word) (u : UnitCode) :
    (s.startKiln c mask dctx entry u).nextLid = s.nextLid + 1 := by
  obtain ⟨x, fl, dc, _, e⟩ := s.startKiln_cases c mask dctx entry u
  rw [e]
  exact State.setCtx_nextLid _ c x

theorem State.startKiln_mem (s : State) (c : CoreId) (mask dctx : BitVec 48) (entry : Word) (u : UnitCode) :
    (s.startKiln c mask dctx entry u).mem = s.mem := by
  obtain ⟨x, fl, dc, _, e⟩ := s.startKiln_cases c mask dctx entry u
  rw [e]
  exact State.setCtx_mem _ c x

/-! ### A context let go (R415) -/

/-- The record of a context stands among the sequencer's or the cellar's. -/
theorem State.ctx_congr (s t : State) (hs : t.seq = s.seq) (hc : t.cel = s.cel) (c : CoreId) : t.ctx c = s.ctx c := by
  cases c <;> simp only [State.ctx, hs, hc]

theorem State.dctx_congr (s t : State) (h : t.dieCtx = s.dieCtx) (d : DieId) : t.dctx d = s.dctx d := by
  simp only [State.dctx, h]

theorem State.dropAsk_dies (s : State) (d : DieId) : ∃ l, s.dropAsk d = { s with dies := l } := by
  unfold State.dropAsk
  split
  · exact ⟨s.dies, rfl⟩
  · exact ⟨_, rfl⟩

theorem DieId.eq_of_key (d e : DieId) (h : d.key = e.key) : d = e := by
  obtain ⟨a, k⟩ := d
  obtain ⟨b, j⟩ := e
  simp only [DieId.key] at h
  have hk := k.isLt
  have hj := j.isLt
  have h1 : a = b := by omega
  have h2 : k = j := Fin.ext (by omega)
  rw [h1, h2]

/-- One die context let go: it serves no partition, and no MGO of it waits for arrays. -/
def State.freeDctx (s : State) (d : DieId) : State := (s.setDctx d DieCtx.unbound).dropAsk d

theorem State.dctx_freeDctx (s : State) (d e : DieId) :
    (s.freeDctx d).dctx e = if e = d then DieCtx.unbound else s.dctx e := by
  obtain ⟨l, h⟩ := State.dropAsk_dies (s.setDctx d DieCtx.unbound) d
  have hd : (s.freeDctx d).dctx e = (s.setDctx d DieCtx.unbound).dctx e := State.dctx_congr _ _ (congrArg State.dieCtx h) e
  rw [hd]
  split
  · rename_i he; rw [he, State.dctx_setDctx_same]
  · rename_i he; exact State.dctx_setDctx_other s d e _ (fun hk => he (DieId.eq_of_key e d hk))

theorem State.dctx_foldl_freeDctx (l : List DieId) : ∀ (s : State) (e : DieId),
    (l.foldl State.freeDctx s).dctx e = if e ∈ l then DieCtx.unbound else s.dctx e := by
  induction l with
  | nil => intro s e; simp
  | cons d rest ih =>
    intro s e
    rw [List.foldl_cons, ih, State.dctx_freeDctx]
    by_cases h1 : e ∈ rest <;> by_cases h2 : e = d <;> simp [h1, h2]

theorem State.setCoreRec_cores (s : State) (c : CoreId) (x : Core) :
    ∃ a b, s.setCoreRec c x = { s with seqCore := a, celCore := b } := by
  cases c
  · exact ⟨_, s.celCore, rfl⟩
  · exact ⟨s.seqCore, _, rfl⟩

/-- The die contexts of a sequencer context let go; a cellar context has none. -/
def State.freeDies (s : State) (c : CoreId) : State := if c.isCellar then s else (s.ctx c).dieIds.foldl State.freeDctx s

/-- DIE_PRES of a context that leaves kept with its address space (R115). -/
def State.keepPres (s : State) (c : CoreId) (x : Ctx) : State :=
  match c with
  | .seq n => if x.task.isSome then { s with dieSeen := Table.set 0 s.dieSeen (32 * (s.launchOf (.seq n)).func + n) x.diePres } else s
  | .cel _ => s

theorem State.keepPres_dieSeen (s : State) (c : CoreId) (x : Ctx) : ∃ m, s.keepPres c x = { s with dieSeen := m } := by
  unfold State.keepPres
  split
  · split
    · exact ⟨_, rfl⟩
    · exact ⟨s.dieSeen, rfl⟩
  · exact ⟨s.dieSeen, rfl⟩

/-- The core of a context that leaves does not run it. -/
def State.stopRunning (s : State) (c : CoreId) : State :=
  if (s.coreRec c).running = some c.num then s.setCoreRec c { s.coreRec c with running := none } else s

theorem State.stopRunning_cores (s : State) (c : CoreId) : ∃ a b, s.stopRunning c = { s with seqCore := a, celCore := b } := by
  unfold State.stopRunning
  split
  · exact State.setCoreRec_cores s c _
  · exact ⟨s.seqCore, s.celCore, rfl⟩

theorem State.unbind_eq (s : State) (c : CoreId) : s.unbind c
    = ((((s.freeDies c).keepPres c (s.ctx c)).mendUnits c (s.ctx c).dieIds).setCtx c Ctx.unbound).stopRunning c := by
  cases c <;> rfl

/-- What letting a context go does to a state: its die contexts, DIE_PRES, the cells of its units, its record, its core. -/
theorem State.unbind_cases (s : State) (c : CoreId) : ∃ m fl a b,
    s.unbind c = { State.setCtx { s.freeDies c with dieSeen := m, flaws := fl } c Ctx.unbound with seqCore := a, celCore := b } := by
  obtain ⟨m, hm⟩ := (s.freeDies c).keepPres_dieSeen c (s.ctx c)
  obtain ⟨fl, hf⟩ := State.mend_flaws { s.freeDies c with dieSeen := m }
    (fun e => unitCells (.core c) e || (s.ctx c).dieIds.any (fun d => unitCells (.die d) e))
  obtain ⟨a, b, hab⟩ := State.stopRunning_cores
    (State.setCtx { s.freeDies c with dieSeen := m, flaws := fl } c Ctx.unbound) c
  exact ⟨m, fl, a, b, by rw [s.unbind_eq c, hm, State.mendUnits, hf, hab]⟩

theorem State.ctx_unbind (s : State) (c : CoreId) : (s.unbind c).ctx c = Ctx.unbound := by
  obtain ⟨m, fl, a, b, e⟩ := s.unbind_cases c
  have h := State.ctx_congr (State.setCtx { s.freeDies c with dieSeen := m, flaws := fl } c Ctx.unbound) (s.unbind c)
    (by rw [e]) (by rw [e]) c
  rw [h, State.ctx_setCtx_same]

/-- The die contexts of a sequencer context serve no partition once it is let go. -/
theorem State.dctx_unbind (s : State) (c : CoreId) (hc : c.isCellar = false) (d : DieId) (hd : d ∈ (s.ctx c).dieIds) :
    (s.unbind c).dctx d = DieCtx.unbound := by
  obtain ⟨m, fl, a, b, e⟩ := s.unbind_cases c
  have h : (s.unbind c).dieCtx = (s.freeDies c).dieCtx := by
    rw [e]
    exact State.setCtx_dieCtx _ c _
  rw [State.dctx_congr _ _ h, State.freeDies, if_neg (by simp [hc]), State.dctx_foldl_freeDctx, if_pos hd]

theorem State.freeDies_health (s : State) (c : CoreId) : (s.freeDies c).health = s.health := by
  unfold State.freeDies
  split
  · rfl
  · refine foldl_keeps (fun t : State => t.health = s.health) _ (fun t d h => ?_) _ s rfl
    obtain ⟨l, e⟩ := State.dropAsk_dies (t.setDctx d DieCtx.unbound) d
    rw [State.freeDctx, e]
    exact h

theorem State.unbind_health (s : State) (c : CoreId) : (s.unbind c).health = s.health := by
  obtain ⟨m, fl, a, b, e⟩ := s.unbind_cases c
  rw [e]
  exact (State.setCtx_health _ c _).trans (s.freeDies_health c)

/-! ### Banks of a task that ends (R63, R390) -/

/-- No bank of a die is a task's. -/
def Die.Disowned (u : TaskId) (x : Die) : Prop := ∀ b ∈ x.banks, ∀ h, b.2 ≠ .owned u h

/-- No bank of any die is a task's. -/
def State.Disowned (u : TaskId) (s : State) : Prop := ∀ e ∈ s.dies, Die.Disowned u e.2

theorem State.Disowned.die {u : TaskId} {s : State} (h : s.Disowned u) (m : Nat) : Die.Disowned u (s.die m) := by
  unfold State.die Table.get
  cases hm : Table.find? s.dies m with
  | none => exact fun b hb => absurd hb List.not_mem_nil
  | some x => exact h _ (Table.mem_of_find? _ _ _ hm)

theorem Die.Disowned.bank {u : TaskId} {x : Die} (h : x.Disowned u) (b : Nat) (w : Option (BitVec 32 × TaskId)) :
    Table.get .free x.banks b ≠ .owned u w := by
  unfold Table.get
  cases hb : Table.find? x.banks b with
  | none => exact fun hc => by cases hc
  | some y => exact h _ (Table.mem_of_find? _ _ _ hb) w

theorem State.Disowned.of_dies {u : TaskId} {s t : State} (h : s.Disowned u) (hd : t.dies = s.dies) : t.Disowned u := by
  unfold State.Disowned
  rw [hd]
  exact h

theorem BankState.revert_ne_owned (b : BankState) (u : TaskId) (h : Option (BitVec 32 × TaskId)) : b.revert ≠ .owned u h := by
  unfold BankState.revert
  split <;> exact fun hc => by cases hc

theorem State.endBanks_disowned (s : State) (u : TaskId) (commit : Bool) : (s.endBanks u commit).Disowned u := by
  intro e he b hb h
  obtain ⟨d, _, rfl⟩ := List.mem_map.mp he
  obtain ⟨⟨k, y⟩, _, hy⟩ := List.mem_filterMap.mp hb
  cases y with
  | free => cases hy; exact fun hc => by cases hc
  | released v tag => cases hy; exact fun hc => by cases hc
  | owned v w =>
    by_cases hv : v = u
    · simp only [hv, beq_self_eq_true, ↓reduceIte] at hy
      cases commit
      · simp only [Bool.false_eq_true, ↓reduceIte] at hy
        split at hy
        · cases hy
        · cases hy; exact BankState.revert_ne_owned _ u h
      · cases hy
    · simp only [beq_false_of_ne hv, Bool.false_eq_true, ↓reduceIte] at hy
      cases hy
      exact fun hc => by cases hc; exact hv rfl

theorem State.tidyDies_disowned (s : State) (u : TaskId) (h : s.Disowned u) : s.tidyDies.Disowned u :=
  fun e he => h e (List.mem_filter.mp he).1

theorem Table.mem_insert {α : Type} (m : PMap α) (k : Nat) (v : α) (e : Nat × α) (h : e ∈ Table.insert m k v) :
    e = (k, v) ∨ e ∈ m := by
  induction m with
  | nil => exact .inl (List.mem_singleton.mp h)
  | cons f rest ih =>
    simp only [Table.insert] at h
    split at h
    · exact List.mem_cons.mp h
    · split at h
      · exact (List.mem_cons.mp h).imp_right (List.mem_cons_of_mem _)
      · rcases List.mem_cons.mp h with h | h
        · exact .inr (h ▸ List.mem_cons_self)
        · exact (ih h).imp_right (List.mem_cons_of_mem _)

theorem Table.mem_set {α : Type} [DecidableEq α] (d : α) (m : PMap α) (k : Nat) (v : α) (e : Nat × α)
    (h : e ∈ Table.set d m k v) : e = (k, v) ∨ e ∈ m := by
  unfold Table.set at h
  split at h
  · exact .inr (List.mem_filter.mp h).1
  · exact Table.mem_insert m k v e h

theorem State.dropAsk_disowned (s : State) (u : TaskId) (d : DieId) (h : s.Disowned u) : (s.dropAsk d).Disowned u := by
  unfold State.dropAsk
  split
  · exact h
  · intro e he
    rcases Table.mem_set _ _ _ _ _ he with rfl | he
    · exact h.die d.die
    · exact h e he

theorem State.freeDies_disowned (s : State) (u : TaskId) (c : CoreId) (h : s.Disowned u) : (s.freeDies c).Disowned u := by
  unfold State.freeDies
  split
  · exact h
  · exact foldl_keeps (State.Disowned u) State.freeDctx (fun t d ht => State.dropAsk_disowned _ u d (ht.of_dies rfl)) _ s h

theorem State.unbind_disowned (s : State) (u : TaskId) (c : CoreId) (h : s.Disowned u) : (s.unbind c).Disowned u := by
  obtain ⟨m, fl, a, b, e⟩ := s.unbind_cases c
  rw [e]
  exact (s.freeDies_disowned u c h).of_dies (State.setCtx_dies _ c _)

/-! ### A kiln run dropped (R415) -/

/-- A diagnostic launch's context just before it is let go: its bytes written back, its banks returned. -/
def State.endKiln (s : State) (c : CoreId) : State :=
  ((((s.cleanL1 c).dropStaged (s.taskId c)).endBanks (s.taskId c) false).tidyDies).dropPending (s.taskId c)

theorem State.dropKiln_eq (s : State) (c : CoreId) (h : (s.ctx c).diag = true) :
    s.dropKiln c = { (s.endKiln c).unbind c with launches := Table.erase ((s.endKiln c).unbind c).launches (s.taskId c).lid } := by
  rw [State.dropKiln, if_pos h]
  rfl

theorem State.poolAdd_pool (s : State) (l : PMap Shadow) : ∃ p,
    l.foldl (fun (t : State) e => t.poolAdd e.2.frame) s = { s with pool := p } := by
  refine foldl_keeps (fun t : State => ∃ p, t = { s with pool := p }) _ ?_ l s ⟨s.pool, rfl⟩
  rintro t e ⟨p, rfl⟩
  exact ⟨_, rfl⟩

theorem State.dropStaged_cases (s : State) (u : TaskId) : ∃ p l, s.dropStaged u = { s with pool := p, launches := l } := by
  obtain ⟨p, e⟩ := State.poolAdd_pool s (s.task u).shadows
  unfold State.dropStaged
  dsimp only
  rw [e]
  exact ⟨p, _, rfl⟩

theorem State.endKiln_cases (s : State) (c : CoreId) : ∃ p l d q,
    s.endKiln c = { s.cleanL1 c with pool := p, launches := l, dies := d, pend := q } := by
  obtain ⟨p, l, e⟩ := (s.cleanL1 c).dropStaged_cases (s.taskId c)
  unfold State.endKiln
  rw [e]
  generalize s.cleanL1 c = v
  exact ⟨p, l, _, _, rfl⟩

theorem State.endKiln_ctx (s : State) (c : CoreId) : (s.endKiln c).ctx c = s.ctx c := by
  obtain ⟨p, l, d, q, e⟩ := s.endKiln_cases c
  have h := s.cleanL1_storage c
  exact State.ctx_congr s _ (by rw [e]; exact h.seq) (by rw [e]; exact h.cel) c

theorem State.endKiln_disowned (s : State) (c : CoreId) : (s.endKiln c).Disowned (s.taskId c) :=
  (State.tidyDies_disowned _ _ (State.endBanks_disowned _ _ false)).of_dies rfl

/-- A kiln run that is dropped lets its context, its die contexts and its banks go. -/
theorem State.dropKiln_leaves (s : State) (c : CoreId) (h : (s.ctx c).diag = true) :
    Claims.LeavesContext s (s.dropKiln c) (s.taskId c) c := by
  rw [s.dropKiln_eq c h]
  have hx : State.ctx { (s.endKiln c).unbind c with launches := Table.erase ((s.endKiln c).unbind c).launches (s.taskId c).lid } c
      = Ctx.unbound := (State.ctx_congr _ _ rfl rfl c).trans ((s.endKiln c).ctx_unbind c)
  refine ⟨by rw [hx]; rfl, by rw [hx]; rfl, fun d hd hc => ?_, fun m b w => ?_⟩
  · exact (s.endKiln c).dctx_unbind c hc d (by rw [s.endKiln_ctx c]; exact hd)
  · exact ((State.unbind_disowned _ _ c (s.endKiln_disowned c)).die m).bank b w

theorem State.dropKiln_launch (s : State) (c : CoreId) (h : (s.ctx c).diag = true) :
    Table.find? (s.dropKiln c).launches (s.taskId c).lid = none := by
  rw [s.dropKiln_eq c h]
  exact (Table.find?_erase _ _ _).trans (if_pos rfl)

/-- Without errors in storage the result of a dropped run is recorded nowhere. -/
theorem State.dropKiln_health (s : State) (c : CoreId) (h : (s.ctx c).diag = true) (he : s.ErrorFree) :
    (s.dropKiln c).health = s.health := by
  obtain ⟨p, l, d, q, e⟩ := s.endKiln_cases c
  have hk : (s.endKiln c).health = s.health := by
    rw [e]
    exact (s.cleanL1_quiet c he).2
  rw [s.dropKiln_eq c h]
  exact ((s.endKiln c).unbind_health c).trans hk

/-! ### Spares (R22, R416) -/

theorem State.bindSpare_healthOf (s : State) (u : UnitCode) : (s.bindSpare u).healthOf u = { s.healthOf u with spare := true } :=
  (State.healthOf_setHealth s u u _).trans (if_pos rfl)

theorem State.bindSpare_spareLeft (s : State) (u : UnitCode) (h : 0 < s.spareLeft u) :
    (s.bindSpare u).spareLeft u + 1 = s.spareLeft u := by
  have e : Table.get 0 (s.bindSpare u).spares (spareKey u) = Table.get 0 s.spares (spareKey u) + 1 := by
    simp only [State.bindSpare, State.setHealth, Table.get_insert, ↓reduceIte]
  unfold State.spareLeft at *
  rw [e]
  omega

theorem State.bindSpare_frame (s : State) (u : UnitCode) :
    ({ s.bindSpare u with health := s.health, spares := s.spares } : State) = s := by
  unfold State.bindSpare State.setHealth
  rfl

/-! ### Layers (R449) -/

theorem State.setLayer_layers (s : State) (st layer : Nat) (p : LayerPower) :
    Table.get .active (s.setLayer st layer p).layers (layerKey st layer) = p := by
  unfold State.setLayer
  dsimp only
  split <;> exact Table.get_set_same _ _ _ _

theorem State.setLayer_frame (s : State) (st layer : Nat) (p : LayerPower) :
    ({ s.setLayer st layer p with layers := s.layers, mem := s.mem, ecc := s.ecc } : State) = s := by
  unfold State.setLayer
  dsimp only
  split <;> rfl

theorem State.setLayer_on (s : State) (st layer : Nat) (p : LayerPower) (h : p ≠ .powerGated) :
    ({ s.setLayer st layer p with layers := s.layers } : State) = s := by
  unfold State.setLayer
  rw [if_neg h]

/-- Bytes outside the layer are kept. -/
theorem State.setLayer_readByte (s : State) (st layer : Nat) (p : LayerPower) (k : Nat)
    (h : 2 ^ 40 ≤ k ∨ layerOf k ≠ layerKey st layer) :
    Memory.readByte (s.setLayer st layer p).mem k = Memory.readByte s.mem k := by
  unfold State.setLayer
  dsimp only
  split
  · refine (Memory.readByte_filter (fun key => !(isHbm key && layerOf key == layerKey st layer)) s.mem k).trans (if_pos ?_)
    rcases h with h | h
    · have : isHbm k = false := decide_eq_false (by omega)
      simp [this]
    · simp [h]
  · rfl

/-! ### Host and peer traffic (R440, R441, R453) -/

/-- A range of host memory that completes reads with an error is found by every read that meets it. -/
theorem hostError_of_listed (s : State) (base len a n : Nat) (cpl : BitVec 3) (h : (base, len, cpl) ∈ s.hostBad)
    (h1 : base < a + n) (h2 : a < base + len) : s.hostError a n ≠ none := by
  unfold State.hostError
  rw [ne_eq, Option.map_eq_none_iff, List.find?_eq_none]
  exact fun hc => hc _ h (by simp [h1, h2])

theorem State.portWidth_failed (s : State) (port : Nat) (h : s.failedLanes port ≠ 0) :
    s.portWidth port = if s.failedLanes port = 255 then 0 else 4 := if_neg h

theorem or_two_pow_ne_zero (a b : Nat) : a ||| 2 ^ b ≠ 0 := by
  intro h
  have := congrArg (fun n => n.testBit b) h
  simp at this

/-! ### Translations (R115) -/

theorem getLsbD_foldl_or {α : Type} {w : Nat} (c : α → Bool) (g : α → BitVec w) (i : Nat) (l : List α) : ∀ a : BitVec w,
    (l.foldl (fun a e => if c e then a ||| g e else a) a).getLsbD i
      = (a.getLsbD i || l.any (fun e => c e && (g e).getLsbD i)) := by
  induction l with
  | nil => intro a; simp
  | cons e rest ih =>
    intro a
    rw [List.foldl_cons, ih]
    by_cases h : c e = true <;> simp [h, Bool.or_assoc]

theorem State.presentDies_getLsbD (s : State) (func i : Nat) : (s.presentDies func).getLsbD i = true ↔
    ∃ n x, (n, x) ∈ s.seq ∧ x.task ≠ none ∧ (s.launchOf (.seq n)).func = func ∧ x.diePres.getLsbD i = true := by
  have h := getLsbD_foldl_or (fun e : Nat × Ctx => e.2.task.isSome && (s.launchOf (.seq e.1)).func = func)
    (fun e => e.2.diePres) i s.seq 0
  rw [State.presentDies, h]
  simp only [BitVec.ofNat_eq_ofNat, BitVec.getLsbD_zero, Bool.false_or, List.any_eq_true, Bool.and_eq_true, decide_eq_true_eq,
    Prod.exists, Option.isSome_iff_ne_none, and_assoc]

/-- The targets of an invalidation: the control die, the dies in DIE_PRES of the contexts that run the address space, and the
cellar cores that run it. -/
theorem State.invalidates_iff (s : State) (func k : Nat) : s.invalidates func k = true ↔
    (192 ≤ k ∧ k < 256)
      ∨ (∃ die n x, k = 256 + die ∧ die < 48 ∧ (n, x) ∈ s.seq ∧ x.task ≠ none ∧ (s.launchOf (.seq n)).func = func
          ∧ x.diePres.getLsbD die = true)
      ∨ ∃ n x, (n, x) ∈ s.cel ∧ x.task ≠ none ∧ k = n / 4 ∧ (s.launchOf (.cel n)).func = func := by
  have hdie : (256 ≤ k ∧ (s.presentDies func).getLsbD (k - 256) = true) ↔
      ∃ die n x, k = 256 + die ∧ die < 48 ∧ (n, x) ∈ s.seq ∧ x.task ≠ none ∧ (s.launchOf (.seq n)).func = func
        ∧ x.diePres.getLsbD die = true := by
    rw [State.presentDies_getLsbD]
    constructor
    · rintro ⟨hk, n, x, hm, ht, hf, hb⟩
      exact ⟨k - 256, n, x, by omega, BitVec.lt_of_getLsbD hb, hm, ht, hf, hb⟩
    · rintro ⟨die, n, x, rfl, _, hm, ht, hf, hb⟩
      exact ⟨by omega, n, x, hm, ht, hf, by rw [Nat.add_sub_cancel_left]; exact hb⟩
  simp only [State.invalidates, Bool.or_eq_true, Bool.and_eq_true, decide_eq_true_eq, List.any_eq_true, beq_iff_eq,
    Option.isSome_iff_ne_none, Prod.exists, hdie, or_assoc, and_assoc]
  simp only [CoreId.padIdx, eq_comm]

theorem CopyOp.translated_iff (o : CopyOp) : o.translated = true ↔ o.kind = .flatIn ∨ o.kind = .flatOut := by
  unfold CopyOp.translated
  cases o.kind <;> simp

theorem State.accessesDone_iff (s : State) (func : Nat) : s.accessesDone func = true ↔
    ¬((∃ e ∈ s.dieCtx, s.invalidates func (256 + e.1 / 2) = true ∧ ∃ q ∈ e.2.engines, ∃ o ∈ q.2,
          (o.kind = .flatIn ∨ o.kind = .flatOut) ∧ (s.launch o.task.lid).func = func)
      ∨ ∃ e ∈ s.cel, s.invalidates func (e.1 / 4) = true ∧ ∃ o ∈ e.2.engine,
          (o.kind = .flatIn ∨ o.kind = .flatOut) ∧ (s.launch o.task.lid).func = func) := by
  rw [← Bool.not_eq_false, not_iff_not]
  simp only [State.accessesDone, Bool.and_eq_false_iff, List.all_eq_false, Bool.not_eq_true, Bool.or_eq_false_iff,
    Bool.not_eq_false', List.any_eq_true, Bool.and_eq_true, CopyOp.translated_iff, beq_iff_eq, CoreId.padIdx]

theorem tlbPage_div (func a : Nat) : tlbPage func a / 2 ^ 44 = func := by
  unfold tlbPage
  omega

/-- The entries that a target keeps when those that two predicates pick are discarded. -/
def keptEntries (at_ page : Nat → Bool) (k : Nat) (m : PMap TlbEntry) : PMap TlbEntry :=
  if at_ k then m.filter (fun x => !page x.1) else m

theorem find?_keptEntries (at_ page : Nat → Bool) (k : Nat) (m : PMap TlbEntry) (p : Nat) :
    Table.find? (keptEntries at_ page k m) p = if at_ k && page p then none else Table.find? m p := by
  unfold keptEntries
  by_cases hk : at_ k = true
  · rw [if_pos hk, Table.find?_filter_key (fun p => !page p)]
    by_cases hp : page p = true <;> simp [hk, hp]
  · simp [hk]

theorem State.get_dropTlb (s : State) (at_ page : Nat → Bool) (hr : Table.risingFrom 0 s.tlb = true) (k : Nat) :
    Table.get [] (s.dropTlb at_ page).tlb k = keptEntries at_ page k (Table.get [] s.tlb k) := by
  have hm : (s.dropTlb at_ page).tlb
      = (s.tlb.map (fun e => (e.1, keptEntries at_ page e.1 e.2))).filter (fun e => !e.2.isEmpty) := rfl
  have hn : keptEntries at_ page k [] = [] := by unfold keptEntries; split <;> rfl
  unfold Table.get
  rw [hm, Table.find?_filter_rising _ _ _ 0 (by rw [Table.risingFrom_map_val (keptEntries at_ page)]; exact hr),
    Table.find?_map_val (keptEntries at_ page)]
  cases Table.find? s.tlb k with
  | none => exact hn.symm
  | some m =>
    cases he : keptEntries at_ page k m with
    | nil => simp [Option.filter, he]
    | cons x rest => simp [Option.filter, he]

/-- What a target holds once the entries that two predicates pick are discarded. -/
theorem State.tlbEntry_dropTlb (s : State) (at_ page : Nat → Bool) (hr : Table.risingFrom 0 s.tlb = true) (k f a : Nat) :
    (s.dropTlb at_ page).tlbEntry k f a = if at_ k && page (tlbPage f a) then none else s.tlbEntry k f a := by
  unfold State.tlbEntry
  rw [s.get_dropTlb at_ page hr k, find?_keptEntries]

end Sys2Proof.Machine

namespace Sys2Proof.Claims

open Sys2Proof Sys2Proof.Machine

/-! ### The events of units, storage and links -/

theorem exec_scrub (s : State) : exec .scrub s = .next s.scrub := rfl

theorem exec_eccRewrite (s : State) : exec .eccRewrite s = eventOp (fun s => !s.rewrites.isEmpty) State.rewriteNext s := rfl

theorem exec_kilnRun_start (c : CoreId) (mask dctx : BitVec 48) (entry : Word) (u : UnitCode) (s : State) :
    exec (.kilnRun (.start c mask dctx entry u)) s
      = eventOp (fun s => s.kilnPlace c mask dctx && s.unitIdle u) (·.startKiln c mask dctx entry u) s := rfl

theorem exec_kilnRun_finish (u : UnitCode) (pass : Bool) (s : State) :
    exec (.kilnRun (.finish u pass)) s = eventOp (·.unitIdle u) (·.kilnResult u pass) s := rfl

theorem exec_kilnRun_drop (c : CoreId) (s : State) :
    exec (.kilnRun (.drop c)) s = eventOp (fun s => (s.ctx c).diag) (·.dropKiln c) s := rfl

theorem exec_spareBind (u : UnitCode) (s : State) : exec (.spareBind u) s
    = eventOp (fun s => (s.healthOf u).st == .retired && !(s.healthOf u).spare && 0 < s.spareLeft u && s.unitIdle u)
        (·.bindSpare u) s := rfl

theorem exec_clockChange (k : Nat) (code : BitVec 2) (s : State) : exec (.clockChange k code) s
    = eventOp (fun _ => k < 12) (fun s => { s with clock := Table.set 0 s.clock k code }) s := rfl

theorem exec_layerPowerState (st layer : Nat) (p : LayerPower) (s : State) : exec (.layerPowerState st layer p) s
    = eventOp (fun s => st < 12 && layer < 16 && !(p == .powerGated && s.layerInUse st layer)) (·.setLayer st layer p) s := rfl

theorem exec_hostReadError (base len : Nat) (cpl : BitVec 3) (s : State) : exec (.hostReadError base len cpl) s
    = .next { s with hostBad := if cpl = 0 then s.hostBad.filter (fun r => r.1 != base) else s.hostBad ++ [(base, len, cpl)] } := rfl

theorem exec_flitCrcRetry (port : Nat) (s : State) : exec (.flitCrcRetry port) s
    = eventOp (fun _ => port < 8)
        (fun s => { s with flitRetries := Table.insert s.flitRetries port (Table.get 0 s.flitRetries port + 1) }) s := rfl

theorem exec_uarusLaneFail (port lane : Nat) (s : State) : exec (.uarusLaneFail port lane) s
    = eventOp (fun _ => port < 8 && lane < 8)
        (fun s => { s with ports := Table.insert s.ports port (s.failedLanes port ||| 2 ^ lane) }) s := rfl

theorem exec_peerRouteDown (p : Nat) (s : State) : exec (.peerRouteDown p) s
    = eventOp (fun s => (Table.find? s.peers p).isSome) (fun s => { s with peers := Table.insert s.peers p false }) s := rfl

theorem exec_translationInvalidation (func : Nat) (s : State) : exec (.translationInvalidation func) s
    = eventOp (·.accessesDone func) (fun s => s.dropTlb (s.invalidates func) (fun p => p / 2 ^ 44 == func)) s := rfl

/-- R401 to R403: a scrub changes no value, and logs and schedules the word that it meets. -/
theorem scrub_logs (s : State) (wk : Nat) (h : s.nextUnclean s.scrubPos = some wk) :
    s.scrub.scrubPos = wk + 1
      ∧ (s.eccWord wk ≠ .clean → s.scrub.errCount = s.errCount + 1 ∧ ∃ r, s.scrub.errLog.getLast? = some r
        ∧ r.unit = (unitOf (8 * wk)).1 ∧ r.addr = BitVec.ofNat 64 (unitOf (8 * wk)).2 ∧ r.time = s.timeCnt
        ∧ r.ty = (match s.eccWord wk with | .bad _ => 2 | _ => 1))
      ∧ (∀ d y, s.eccWord wk = .corrected d y → wk ∈ s.scrub.rewrites) := by
  obtain ⟨l, e⟩ := s.scrub_word wk h
  rw [e]
  refine ⟨rfl, fun hw => ?_, fun d y hw => ?_⟩
  · exact State.noteWord_idle_logs { s with layers := l } wk hw
  · obtain ⟨hl, rw', e', hm⟩ := State.noteWord_idle_corrected { s with layers := l } wk d y hw
    rw [e']
    exact hm

/-- R401: a rewrite changes no value that is read, and leaves a correctable word clean. -/
theorem rewriteNext_keeps (s : State) (wk : Nat) (rest : List Nat) (h : s.rewrites = wk :: rest) :
    s.rewriteNext.rewrites = rest ∧ (∀ k, s.rewriteNext.memByte k = s.memByte k)
      ∧ (∀ d y, s.eccWord wk = .corrected d y → s.rewriteNext.eccWord wk = .clean)
      ∧ ({ s.rewriteNext with mem := s.mem, ecc := s.ecc, rewrites := s.rewrites, layers := s.layers } : State) = s := by
  obtain ⟨l, ⟨d, syn, hw, e⟩ | ⟨hw, e⟩⟩ := s.rewriteNext_cases wk rest h
  · rw [e]
    exact ⟨rfl, fun k => State.memByte_rewriteWord { s with rewrites := rest, layers := l } wk d syn k hw,
      fun _ _ _ => State.eccWord_rewriteWord _ wk d, rfl⟩
  · rw [e]
    exact ⟨rfl, fun _ => rfl, fun d y hc => absurd hc (hw d y), rfl⟩

/-- R22 and R416: a spare replaces a retired unit while one is left. -/
theorem spareBind_settles (s : State) (u : UnitCode) (hr : (s.healthOf u).st = .retired) (hs : (s.healthOf u).spare = false)
    (hi : s.unitIdle u = true) :
    (0 < s.spareLeft u → ∃ t, exec (.spareBind u) s = .next t ∧ t.healthOf u = { s.healthOf u with spare := true }
        ∧ t.spareLeft u + 1 = s.spareLeft u ∧ ({ t with health := s.health, spares := s.spares } : State) = s)
      ∧ (s.spareLeft u = 0 → exec (.spareBind u) s = .next s) := by
  rw [exec_spareBind]
  refine ⟨fun h => ⟨s.bindSpare u, eventOp_met _ _ s (by simp [hr, hs, hi, h]), s.bindSpare_healthOf u, s.bindSpare_spareLeft u h,
    s.bindSpare_frame u⟩, fun h => eventOp_unmet _ _ s (by simp [h])⟩

/-- R449: a new state of a layer. -/
theorem layerPowerState_sets (s : State) (st layer : Nat) (p : LayerPower) (hst : st < 12) (hl : layer < 16)
    (hu : p = .powerGated → s.layerInUse st layer = false) :
    exec (.layerPowerState st layer p) s = .next (s.setLayer st layer p) := by
  rw [exec_layerPowerState]
  refine eventOp_met _ _ s ?_
  by_cases hp : p = .powerGated
  · simp [hst, hl, hp, hu hp]
  · simp [hst, hl, hp]

/-- R453: a range of host memory completes reads with an error from now on, or no longer does. -/
theorem hostReadError_sets (s : State) (base len : Nat) (cpl : BitVec 3) : ∃ t, exec (.hostReadError base len cpl) s = .next t
    ∧ ({ t with hostBad := s.hostBad } : State) = s
    ∧ (cpl ≠ 0 → ∀ a n, base < a + n → a < base + len → t.hostError a n ≠ none)
    ∧ (cpl = 0 → ∀ r ∈ t.hostBad, r ∈ s.hostBad ∧ r.1 ≠ base) := by
  refine ⟨_, exec_hostReadError base len cpl s, rfl, fun hc a n h1 h2 => ?_, fun hc r hr => ?_⟩
  · refine hostError_of_listed _ base len a n cpl ?_ h1 h2
    dsimp only
    rw [if_neg hc]
    exact List.mem_append_right _ (List.mem_singleton_self _)
  · simp only [hc, ↓reduceIte, List.mem_filter, bne_iff_ne] at hr
    exact hr

/-- R440: a port loses a lane, and goes on with four or none. -/
theorem uarusLaneFail_narrows (s : State) (port lane : Nat) (hp : port < 8) (hl : lane < 8) :
    ∃ t, exec (.uarusLaneFail port lane) s = .next t ∧ ({ t with ports := s.ports } : State) = s
      ∧ t.failedLanes port = s.failedLanes port ||| 2 ^ lane ∧ t.portWidth port = if t.failedLanes port = 255 then 0 else 4 := by
  have hf : State.failedLanes { s with ports := Table.insert s.ports port (s.failedLanes port ||| 2 ^ lane) } port
      = s.failedLanes port ||| 2 ^ lane := (Table.get_insert _ _ _ _ _).trans (if_pos rfl)
  refine ⟨_, (exec_uarusLaneFail port lane s).trans (eventOp_met _ _ s (by simp [hp, hl])), rfl, hf, ?_⟩
  exact State.portWidth_failed _ port (by rw [hf]; exact or_two_pow_ne_zero _ _)

/-- R441: a route that goes down. -/
theorem peerRouteDown_sets (s : State) (p : Nat) (b : Bool) (h : Table.find? s.peers p = some b) :
    ∃ t, exec (.peerRouteDown p) s = .next t ∧ ({ t with peers := s.peers } : State) = s
      ∧ ∀ q, Table.find? t.peers q = if q = p then some false else Table.find? s.peers q := by
  refine ⟨_, (exec_peerRouteDown p s).trans (eventOp_met _ _ s (by simp [h])), rfl, fun q => ?_⟩
  exact (Table.find?_insert _ _ _ _).trans (by simp only [eq_comm])

/-- Settles O50, event by event. -/
theorem unitsAndStorage : Obligations.UnitsAndStorage := by
  unfold Obligations.UnitsAndStorage
  intro s
  refine ⟨?_, ?_, ?_, ?_, ?_, ?_, ?_, ?_, ?_, ?_, ?_, ?_, ?_, ?_⟩
  · -- a scrub
    obtain ⟨hm, he, hs, hc⟩ := s.scrub_keeps
    exact ⟨s.scrub, exec_scrub s, hm, he, hs, hc, fun wk h => scrub_logs s wk h⟩
  · -- a rewrite
    intro wk rest h
    exact ⟨s.rewriteNext, (exec_eccRewrite s).trans (eventOp_met _ _ s (by simp [h])), rewriteNext_keeps s wk rest h⟩
  · -- the result of a kiln run
    intro u pass hi
    refine ⟨s.kilnResult u pass, (exec_kilnRun_finish u pass s).trans (eventOp_met _ _ s hi), ?_, fun v hv => ?_,
      s.kilnResult_errCount u pass, fun k => by rw [s.kilnResult_mem u pass]⟩
    · rw [s.kilnResult_healthOf, if_pos rfl, HealthEntry.kiln_eq]
    · rw [s.kilnResult_healthOf, if_neg (Ne.symm hv)]
  · -- the start of a kiln run
    intro c mask dctx entry u hp hi
    obtain ⟨htask, hdiag, hrun, hunit, hn0, hmask⟩ := s.startKiln_ctx c mask dctx entry u
    exact ⟨s.startKiln c mask dctx entry u, (exec_kilnRun_start c mask dctx entry u s).trans (eventOp_met _ _ s (by simp [hp, hi])),
      htask, hdiag, hrun, hunit, hn0, hmask, s.startKiln_nextLid c mask dctx entry u,
      fun k => by rw [s.startKiln_mem c mask dctx entry u], s.startKiln_nonidem c mask dctx entry u⟩
  · -- a kiln run dropped
    intro c h
    exact ⟨s.dropKiln c, (exec_kilnRun_drop c s).trans (eventOp_met _ _ s h), s.dropKiln_leaves c h, s.dropKiln_launch c h,
      fun he hf => s.dropKiln_health c h ⟨he, hf⟩⟩
  · -- a spare bound
    exact fun u hr hs hi => spareBind_settles s u hr hs hi
  · -- a clock
    intro k code hk
    exact ⟨_, (exec_clockChange k code s).trans (eventOp_met _ _ s (by simp [hk])), Table.get_set_same _ _ _ _, rfl⟩
  · -- a layer in use is not gated
    intro st layer h
    exact (exec_layerPowerState st layer .powerGated s).trans (eventOp_unmet _ _ s (by simp [h]))
  · -- a layer
    intro st layer p hst hl hu
    exact ⟨_, layerPowerState_sets s st layer p hst hl hu, s.setLayer_layers st layer p, s.setLayer_on st layer p,
      s.setLayer_frame st layer p, s.setLayer_readByte st layer p⟩
  · -- errors of the host
    exact fun base len cpl => hostReadError_sets s base len cpl
  · -- a flit that is retried
    intro port hp
    exact ⟨_, (exec_flitCrcRetry port s).trans (eventOp_met _ _ s (by simp [hp])), rfl⟩
  · -- a lane that fails
    exact fun port lane hp hl => uarusLaneFail_narrows s port lane hp hl
  · -- a route that goes down
    exact fun p b h => peerRouteDown_sets s p b h
  · -- an invalidation
    intro func
    dsimp only
    simp only [← State.invalidates_iff]
    refine ⟨fun h => ?_, fun h => ?_⟩
    · rw [exec_translationInvalidation]
      exact eventOp_unmet _ _ s (Bool.eq_false_iff.mpr fun hd => (s.accessesDone_iff func).mp hd h)
    · refine ⟨s.dropTlb (s.invalidates func) (fun p => p / 2 ^ 44 == func),
        (exec_translationInvalidation func s).trans (eventOp_met _ _ s ((s.accessesDone_iff func).mpr h)), rfl,
        fun hr _ k f a => ?_⟩
      rw [s.tlbEntry_dropTlb _ _ hr k f a, tlbPage_div]
      refine ⟨fun hf hk => if_pos (by simp [hf, hk]), fun hn => if_neg fun hc => ?_⟩
      rw [Bool.and_eq_true, beq_iff_eq] at hc
      exact hn.elim (fun hf => hf hc.2) (fun hk => hk hc.1)

end Sys2Proof.Claims
end

section
/-! PROOF. Bytes and numbers: the bytes of a number, the number that bytes hold, and tables into which a run of bytes is put. -/

namespace Sys2Proof.Machine

/-! ### Bytes of a number -/

@[simp] theorem length_bytesOfNat : ∀ (n v : Nat), (bytesOfNat v n).length = n := by
  intro n
  induction n with
  | zero => intro v; rfl
  | succ n ih => intro v; simp [bytesOfNat, ih]

theorem getElem?_bytesOfNat : ∀ (n v i : Nat), i < n → (bytesOfNat v n)[i]? = some (BitVec.ofNat 8 (v / 256 ^ i)) := by
  intro n
  induction n with
  | zero => intro v i h; omega
  | succ n ih =>
    intro v i h
    cases i with
    | zero => simp [bytesOfNat]
    | succ i => rw [bytesOfNat, List.getElem?_cons_succ, ih _ _ (by omega), Nat.div_div_eq_div_mul, pow_succ']

theorem getD_bytesOfNat (n v i : Nat) (h : i < n) : (bytesOfNat v n).getD i 0 = BitVec.ofNat 8 (v / 256 ^ i) := by
  rw [List.getD_eq_getElem?_getD, getElem?_bytesOfNat n v i h, Option.getD_some]

theorem natOfBytes_bytesOfNat : ∀ (n v : Nat), natOfBytes (bytesOfNat v n) = v % 256 ^ n := by
  intro n
  induction n with
  | zero => intro v; simp [bytesOfNat, natOfBytes, Nat.mod_one]
  | succ n ih =>
    intro v
    rw [bytesOfNat, natOfBytes, ih, BitVec.toNat_ofNat, pow_succ' 256 n, Nat.mod_mul (a := 256)]

/-- A bit of the number that bytes hold is a bit of one of them. -/
theorem testBit_natOfBytes : ∀ (l : List Byte) (i : Nat), (natOfBytes l).testBit i = (l.getD (i / 8) 0).getLsbD (i % 8) := by
  intro l
  induction l with
  | nil => intro i; simp [natOfBytes]
  | cons b rest ih =>
    intro i
    have e : natOfBytes (b :: rest) = 2 ^ 8 * natOfBytes rest + b.toNat := by rw [natOfBytes]; omega
    rw [e, Nat.testBit_two_pow_mul_add _ b.isLt]
    by_cases h : i < 8
    · have h0 : i / 8 = 0 := by omega
      have h1 : i % 8 = i := by omega
      rw [if_pos h, h0, h1]
      rfl
    · have h0 : i / 8 = (i - 8) / 8 + 1 := by omega
      have h1 : i % 8 = (i - 8) % 8 := by omega
      rw [if_neg h, ih, h0, h1]
      rfl

/-- The claims' reading of a number agrees with the model's. -/
theorem fromBytes_succ (b : Nat → Byte) : ∀ n, Claims.fromBytes b (n + 1) = (b 0).toNat + 256 * Claims.fromBytes (fun i => b (i + 1)) n := by
  intro n
  induction n with
  | zero => simp [Claims.fromBytes]
  | succ n ih =>
    rw [Claims.fromBytes, ih, Claims.fromBytes]
    ring

theorem natOfBytes_eq_fromBytes : ∀ l : List Byte, natOfBytes l = Claims.fromBytes (fun i => l.getD i 0) l.length := by
  intro l
  induction l with
  | nil => rfl
  | cons b rest ih =>
    rw [natOfBytes, ih, List.length_cons, fromBytes_succ]
    rfl

theorem fromBytes_congr (b c : Nat → Byte) : ∀ n, (∀ i, i < n → b i = c i) → Claims.fromBytes b n = Claims.fromBytes c n := by
  intro n
  induction n with
  | zero => intro _; rfl
  | succ n ih =>
    intro h
    rw [Claims.fromBytes, Claims.fromBytes, h n (by omega), ih (fun i hi => h i (by omega))]

/-! ### Runs of bytes in a list -/

/-- A list holds the low `n` bytes of a number from an offset on. -/
def BytesAt (l : List Byte) (off n v : Nat) : Prop := ∀ i, i < n → l.getD (off + i) 0 = BitVec.ofNat 8 (v / 256 ^ i)

theorem BytesAt.append_left {l : List Byte} {off n v : Nat} (h : BytesAt l off n v) (r : List Byte) (hl : off + n ≤ l.length) :
    BytesAt (l ++ r) off n v := fun i hi => by
  rw [List.getD_append _ _ _ _ (by omega)]
  exact h i hi

theorem bytesAt_append (l : List Byte) (off n v : Nat) (hl : l.length = off) : BytesAt (l ++ bytesOfNat v n) off n v := fun i hi => by
  rw [List.getD_append_right _ _ _ _ (by omega), show off + i - l.length = i by omega, getD_bytesOfNat n v i hi]

/-! ### Runs of bytes put into a table -/

/-- Bytes put at the places of a run that a predicate admits. -/
theorem get_putRun (w : Nat → Bool) (off : Nat) (bs : List Byte) : ∀ (j : Nat) (m : PMap Byte) (k : Nat),
    Table.get 0 ((bs.zipIdx j).foldl (fun (m : PMap Byte) e => if w (off + e.2) then Table.set 0 m (off + e.2) e.1 else m) m) k
      = if off + j ≤ k ∧ k < off + j + bs.length ∧ w k = true then bs.getD (k - (off + j)) 0 else Table.get 0 m k := by
  induction bs with
  | nil => intro j m k; rw [if_neg (by simp only [List.length_nil]; omega)]; rfl
  | cons b rest ih =>
    intro j m k
    rw [List.zipIdx_cons, List.foldl_cons, ih]
    by_cases hk : k = off + j
    · subst hk
      rw [if_neg (by omega)]
      by_cases hw : w (off + j) = true
      · simp [hw]
      · simp [hw]
    · have hm : Table.get 0 (if w (off + j) = true then Table.set 0 m (off + j) b else m) k = Table.get 0 m k := by
        split
        · rw [Table.get_set, if_neg (Ne.symm hk)]
        · rfl
      dsimp only
      rw [hm]
      by_cases hc : off + (j + 1) ≤ k ∧ k < off + (j + 1) + rest.length ∧ w k = true
      · obtain ⟨h1, h2, h3⟩ := hc
        rw [if_pos ⟨h1, h2, h3⟩, if_pos ⟨by omega, by rw [List.length_cons]; omega, h3⟩,
          show k - (off + j) = k - (off + (j + 1)) + 1 by omega]
        rfl
      · rw [if_neg hc, if_neg (fun h => hc ⟨by omega, by have := h.2.1; rw [List.length_cons] at this; omega, h.2.2⟩)]

theorem State.mbPut_get (s : State) (off : Nat) (bs : List Byte) (k : Nat) : Table.get 0 (s.mbPut off bs).mailbox k
    = if off ≤ k ∧ k < off + bs.length then bs.getD (k - off) 0 else Table.get 0 s.mailbox k := by
  have h := get_putRun (fun _ => true) off bs 0 s.mailbox k
  simpa only [State.mbPut, ↓reduceIte, Nat.add_zero, and_true] using h

end Sys2Proof.Machine
end

section
/-! PROOF. Resets and the host port: what a package reset and a die reset leave, writes to the register block, loads and
attestation (R18, R30, R115, R363, R418, R423, R435 to R437, R443 to R445). -/

namespace Sys2Proof.Machine

/-! ### Package reset (R18, R22, R418, R435) -/

/-- One unit of the repair map retired, with a spare while one is left (R22). -/
def State.repairUnit (s : State) (n : Nat) : State :=
  let s := s.setHealth (BitVec.ofNat 32 n) { s.healthOf (BitVec.ofNat 32 n) with st := .retired }
  if 0 < s.spareLeft (BitVec.ofNat 32 n) then s.bindSpare (BitVec.ofNat 32 n) else s

theorem State.repairUnit_cases (s : State) (n : Nat) : ∃ h sp, s.repairUnit n = { s with health := h, spares := sp } := by
  unfold State.repairUnit State.bindSpare State.setHealth
  dsimp only
  split
  · exact ⟨_, _, rfl⟩
  · exact ⟨_, s.spares, rfl⟩

theorem State.bindSpare_st (s : State) (u v : UnitCode) : ((s.bindSpare u).healthOf v).st = (s.healthOf v).st := by
  refine (congrArg HealthEntry.st (State.healthOf_setHealth s u v { s.healthOf u with spare := true })).trans ?_
  split
  · rename_i h; rw [h]
  · rfl

theorem State.repairUnit_st (s : State) (n : Nat) (v : UnitCode) :
    ((s.repairUnit n).healthOf v).st = if BitVec.ofNat 32 n = v then .retired else (s.healthOf v).st := by
  have h : ((s.setHealth (BitVec.ofNat 32 n) { s.healthOf (BitVec.ofNat 32 n) with st := .retired }).healthOf v).st
      = if BitVec.ofNat 32 n = v then .retired else (s.healthOf v).st := by
    rw [State.healthOf_setHealth]
    split <;> rfl
  rw [← h]
  unfold State.repairUnit
  dsimp only
  split
  · exact State.bindSpare_st _ _ v
  · rfl

/-- Every unit of a list is retired once all of them have been. -/
theorem State.foldl_repairUnit_st (l : List Nat) : ∀ (s : State) (v : UnitCode),
    ((∃ n ∈ l, BitVec.ofNat 32 n = v) ∨ (s.healthOf v).st = .retired) → ((l.foldl State.repairUnit s).healthOf v).st = .retired := by
  induction l with
  | nil => intro s v h; exact h.resolve_left (by simp)
  | cons n rest ih =>
    intro s v h
    rw [List.foldl_cons]
    refine ih _ v ?_
    rw [State.repairUnit_st]
    by_cases hn : BitVec.ofNat 32 n = v
    · exact .inr (if_pos hn)
    · rw [if_neg hn]
      refine h.imp_left ?_
      rintro ⟨m, hm, hv⟩
      rcases List.mem_cons.mp hm with rfl | hm
      · exact absurd hv hn
      · exact ⟨m, hm, hv⟩

theorem State.applyRepairs_cases (s : State) : ∃ h sp d, s.applyRepairs = { s with health := h, spares := sp, diesOn := d }
    ∧ (s.repairs = [] → h = s.health)
    ∧ ∀ n ∈ s.repairs, (Table.get HealthEntry.good h (BitVec.ofNat 32 n).toNat).st = .retired := by
  have hf : ∃ h sp, s.repairs.foldl State.repairUnit s = { s with health := h, spares := sp } := by
    refine foldl_keeps (fun t : State => ∃ h sp, t = { s with health := h, spares := sp }) _ ?_ _ s ⟨s.health, s.spares, rfl⟩
    rintro t n ⟨h, sp, rfl⟩
    exact State.repairUnit_cases _ n
  obtain ⟨h, sp, e⟩ := hf
  refine ⟨h, sp, (s.applyRepairs).diesOn, ?_, fun hr => ?_, fun n hn => ?_⟩
  · have ha : s.applyRepairs = { s.repairs.foldl State.repairUnit s with diesOn := s.applyRepairs.diesOn } := rfl
    rw [ha, e]
  · rw [hr] at e
    exact (congrArg State.health e :).symm
  · have hs := State.foldl_repairUnit_st s.repairs s (BitVec.ofNat 32 n) (.inl ⟨n, hn, rfl⟩)
    rw [e] at hs
    exact hs

/-- A package reset: what outlasts it, and what boot then sets (R435, R443). -/
theorem State.packageReset_cases (s : State) : ∃ h sp d st er sv,
    s.packageReset = { s.afterReset with health := h, spares := sp, diesOn := d, bootStage := st, bootErr := er, secVer := sv }
    ∧ (s.repairs = [] → h = [])
    ∧ match s.boot with
      | .ok v => st = 3 ∧ er = 0 ∧ sv = v ∧ ∀ n ∈ s.repairs, (Table.get HealthEntry.good h (BitVec.ofNat 32 n).toNat).st = .retired
      | .error e => st = 0 ∧ er = BitVec.ofNat 8 e ∧ sv = s.secVer := by
  cases hb : s.boot with
  | error e =>
    refine ⟨[], [], 48, 0, BitVec.ofNat 8 e, s.secVer, ?_, fun _ => rfl, rfl, rfl, rfl⟩
    simp only [State.packageReset, hb]
    rfl
  | ok v =>
    obtain ⟨h, sp, d, e, h0, hr⟩ := s.afterReset.applyRepairs_cases
    refine ⟨h, sp, d, 3, 0, v, ?_, h0, rfl, rfl, rfl, hr⟩
    simp only [State.packageReset, hb, e]
    rfl

theorem State.afterReset_readByte (s : State) (k : Nat) :
    Memory.readByte s.afterReset.mem k = if 2 ^ 56 ≤ k then Memory.readByte s.mem k else 0 := by
  refine (Memory.readByte_filter (fun key => decide (2 ^ 56 ≤ key)) s.mem k).trans ?_
  simp only [decide_eq_true_eq]

/-! ### Reset of a die (R18) -/

theorem State.resetDctx_cases (s : State) (d : DieId) : ∃ dc f, s.resetDctx d = { s with dieCtx := dc, free := f } := by
  unfold State.resetDctx
  dsimp only
  split
  · exact ⟨_, s.free, rfl⟩
  · exact ⟨_, _, rfl⟩

theorem State.dctx_resetDctx_other (s : State) (d e : DieId) (h : e.key ≠ d.key) : (s.resetDctx d).dctx e = s.dctx e := by
  unfold State.resetDctx
  dsimp only
  split
  · exact State.dctx_setDctx_other s d e _ h
  · exact State.dctx_setDctx_other _ d e _ h

/-- A die context in use keeps its partition and what it has retired over the reset of its die. -/
theorem State.dctx_resetDctx_same (s : State) (d : DieId) :
    ((s.dctx d).part = none → (s.resetDctx d).dctx d = DieCtx.unbound)
    ∧ ((s.dctx d).part ≠ none → ∃ f, (s.resetDctx d).dctx d = (s.dctx d).blur f) := by
  unfold State.resetDctx
  dsimp only
  refine ⟨fun h => ?_, fun h => ⟨s.free, ?_⟩⟩
  · rw [if_pos (by rw [h]; rfl), State.dctx_setDctx_same]
  · rw [if_neg (by simpa using h), State.dctx_setDctx_same]

theorem DieCtx.blur_dflags (x : DieCtx) (f : Nat) : (x.blur f).dflags &&& 0xFFFFFFFF0000FFC0 = 0 := by
  have h : (x.blur f).dflags = Config.freeWord (f + 2076) &&& 0xFFFF003F := rfl
  have hm : (0xFFFF003F : Word) &&& 0xFFFFFFFF0000FFC0 = 0 := by decide
  rw [h, BitVec.and_assoc, hm]
  exact BitVec.and_zero

theorem Memory.readByte_foldl_writeByte (lo n : Nat) (l : PMap Byte) (k : Nat) (h : k < lo ∨ lo + n ≤ k) : ∀ m : List Host.Cell,
    (∀ e ∈ l, e.1 < n) → Memory.readByte (l.foldl (fun a e => Memory.writeByte a (lo + e.1) e.2) m) k = Memory.readByte m k := by
  induction l with
  | nil => intros; rfl
  | cons e rest ih =>
    intro m hl
    have he := hl e List.mem_cons_self
    rw [List.foldl_cons, ih _ (fun x hx => hl x (List.mem_cons_of_mem _ hx)), Memory.readByte_writeByte, if_neg (by omega)]

/-- Replacing a range of bytes keeps those outside it. -/
theorem State.putCells_cases (s : State) (lo n : Nat) (l ec : PMap Byte) (hl : ∀ e ∈ l, e.1 < n) : ∃ a b,
    s.putCells lo n l ec = { s with mem := a, ecc := b }
    ∧ ∀ k, (k < lo ∨ lo + n ≤ k) → Memory.readByte a k = Memory.readByte s.mem k := by
  refine ⟨_, _, rfl, fun k h => ?_⟩
  refine (Memory.readByte_foldl_writeByte lo n l k h _ hl).trans ?_
  refine (Memory.readByte_filter (fun key => !(lo ≤ key && key < lo + n)) s.mem k).trans (if_pos ?_)
  rcases h with h | h
  · simp [show ¬ lo ≤ k by omega]
  · simp [show ¬ k < lo + n by omega]

/-- The first `n` bytes of the free words from number `f` on (log 7). -/
def unknownBytes (f n : Nat) : PMap Byte :=
  (List.range n).map (fun i => (i, (Config.freeWord (f + i / 8)).extractLsb' (8 * (i % 8)) 8))

theorem State.blurDie_eq (s : State) (d : Nat) : s.blurDie d
    = { s.putCells (dieMemKey d 0) dieBytes (unknownBytes s.free dieBytes) [] with free := s.free + dieBytes / 8 } := rfl

theorem State.blurDie_cases (s : State) (d : Nat) : ∃ m ec f, s.blurDie d = { s with mem := m, ecc := ec, free := f }
    ∧ ∀ k, (k < dieMemKey d 0 ∨ dieMemKey d 0 + dieBytes ≤ k) → Memory.readByte m k = Memory.readByte s.mem k := by
  obtain ⟨a, b, e, hk⟩ := s.putCells_cases (dieMemKey d 0) dieBytes (unknownBytes s.free dieBytes) [] (fun e he => by
    obtain ⟨i, hi, rfl⟩ := List.mem_map.mp he
    exact List.mem_range.mp hi)
  exact ⟨a, b, s.free + dieBytes / 8, by rw [State.blurDie_eq, e], hk⟩

theorem State.tlbEntry_dropTlb_all (s : State) (at_ : Nat → Bool) (k f a : Nat) (h : at_ k = true) :
    (s.dropTlb at_ (fun _ => true)).tlbEntry k f a = none := by
  have hn : Table.find? (s.dropTlb at_ (fun _ => true)).tlb k = none := by
    rw [Option.eq_none_iff_forall_ne_some]
    intro m hm
    obtain ⟨hmem, hne⟩ := List.mem_filter.mp (Table.mem_of_find? _ _ _ hm)
    obtain ⟨e, _, he⟩ := List.mem_map.mp hmem
    obtain ⟨rfl, rfl⟩ := Prod.mk.inj he
    simp [h] at hne
  rw [State.tlbEntry, Table.get, hn]
  rfl

/-- The two contexts of a die reset. -/
def State.resetContexts (s : State) (die : Nat) : State := (s.resetDctx { die, k := 0 }).resetDctx { die, k := 1 }

/-- The whole of a die reset. -/
def State.resetDie (s : State) (die : Nat) : State :=
  let s := (((s.resetContexts die).blurDie die).setDie die Die.fresh).dropTlb (· == 256 + die) (fun _ => true)
  let s := s.mend (fun e => unitCells (.die { die, k := 0 }) e || unitCells (.die { die, k := 1 }) e)
  { s with copies := Table.erase s.copies (12 + die) }

theorem State.resetContexts_cases (s : State) (die : Nat) : ∃ dc f, s.resetContexts die = { s with dieCtx := dc, free := f } := by
  obtain ⟨dc, f, e⟩ := s.resetDctx_cases { die, k := 0 }
  obtain ⟨dc', f', e'⟩ := (s.resetDctx { die, k := 0 }).resetDctx_cases { die, k := 1 }
  exact ⟨dc', f', by rw [State.resetContexts, e', e]⟩

theorem State.resetDie_cases (s : State) (die : Nat) : ∃ f m ec fl,
    s.resetDie die = { s with
      dieCtx := (s.resetContexts die).dieCtx, free := f, mem := m, ecc := ec, flaws := fl, dies := (s.setDie die Die.fresh).dies,
      tlb := (s.dropTlb (· == 256 + die) (fun _ => true)).tlb, copies := Table.erase s.copies (12 + die) }
    ∧ ∀ k, (k < dieMemKey die 0 ∨ dieMemKey die 0 + dieBytes ≤ k) → Memory.readByte m k = Memory.readByte s.mem k := by
  obtain ⟨dc, f0, e0⟩ := s.resetContexts_cases die
  obtain ⟨m, ec, f, e1, hm⟩ := (s.resetContexts die).blurDie_cases die
  have hm0 : (s.resetContexts die).mem = s.mem := by rw [e0]
  obtain ⟨fl, e2⟩ := State.mend_flaws ((({ s with dieCtx := dc, mem := m, ecc := ec, free := f } : State).setDie die Die.fresh).dropTlb
    (· == 256 + die) (fun _ => true)) (fun e => unitCells (.die { die, k := 0 }) e || unitCells (.die { die, k := 1 }) e)
  refine ⟨f, m, ec, fl, ?_, fun k hk => (hm k hk).trans (by rw [hm0])⟩
  unfold State.resetDie
  rw [e1, e0]
  dsimp only
  rw [e2]
  rfl

end Sys2Proof.Machine
end

section
/-! PROOF. The host port: bytes that a host writes to the register block, and what an attestation answers (R435 to R437, R445). -/

namespace Sys2Proof.Machine

/-! ### Bytes of a write (R10) -/

theorem wireAt_inside (off size : Nat) (v : BitVec 512) (a : Nat) (h : off ≤ a ∧ a < off + size) :
    wireAt off size v a = some (BitVec.ofNat 8 (v.toNat >>> (8 * (a - off)))) := by
  simp [wireAt, h.1, h.2]

theorem wireAt_outside (off size : Nat) (v : BitVec 512) (a : Nat) (h : ¬(off ≤ a ∧ a < off + size)) : wireAt off size v a = none := by
  simp only [wireAt, Bool.and_eq_true, decide_eq_true_eq]
  exact if_neg h

/-- A bit of the bytes that a write brings to `n` bytes at `base` which held zero. -/
theorem wireOver_zero_testBit (off size : Nat) (v : BitVec 512) (base n i : Nat) (hi : i < 8 * n) :
    (wireOver off size v base n 0).testBit i
      = (decide (off ≤ base + i / 8 ∧ base + i / 8 < off + size) && v.getLsbD (8 * (base + i / 8 - off) + i % 8)) := by
  have hn : i / 8 < n := by omega
  rw [wireOver, testBit_natOfBytes, List.getD_eq_getElem?_getD, List.getElem?_map, List.getElem?_zipIdx,
    getElem?_bytesOfNat n 0 _ hn]
  simp only [Option.map_some, Option.getD_some, Nat.zero_add, Nat.zero_div]
  by_cases h : off ≤ base + i / 8 ∧ base + i / 8 < off + size
  · rw [wireAt_inside off size v _ h, decide_eq_true h, Bool.true_and, Option.getD_some, BitVec.getLsbD_ofNat,
      Nat.testBit_shiftRight, decide_eq_true (by omega), Bool.true_and]
    rfl
  · rw [wireAt_outside off size v _ h, decide_eq_false h]
    simp

/-- A write of `n` bytes at `base` replaces them whole. -/
theorem wireOver_whole (v : BitVec 512) (base n old : Nat) : wireOver base n v base n old = v.toNat % 256 ^ n := by
  have h : (bytesOfNat old n).zipIdx.map (fun e => (wireAt base n v (base + e.2)).getD e.1) = bytesOfNat v.toNat n := by
    refine List.ext_getElem? fun i => ?_
    rw [List.getElem?_map, List.getElem?_zipIdx]
    by_cases hi : i < n
    · rw [getElem?_bytesOfNat n old i hi, getElem?_bytesOfNat n v.toNat i hi]
      simp only [Option.map_some, Nat.zero_add]
      rw [wireAt_inside base n v _ (by omega), Option.getD_some, Nat.add_sub_cancel_left, Nat.shiftRight_eq_div_pow, pow_mul]
      rfl
    · rw [List.getElem?_eq_none (by simpa using hi), List.getElem?_eq_none (by simpa using hi)]
      rfl
  rw [wireOver, h, natOfBytes_bytesOfNat]

/-! ### HOST_ERR (R435) -/

theorem hostErrCount_getLsbD (i : Nat) (h : i < 64) : (BitVec.ofNat 64 (0xFFFF * 2 ^ 48) : Word).getLsbD i = decide (48 ≤ i) := by
  revert i
  decide

/-- Ones written clear bits of COUNT, and nothing else changes. -/
theorem hostErrWrite_getLsbD (old v : Word) (i : Nat) (h : i < 64) :
    (hostErrWrite old v).getLsbD i = (old.getLsbD i && !(decide (48 ≤ i) && v.getLsbD i)) := by
  simp only [hostErrWrite, BitVec.getLsbD_and, BitVec.getLsbD_not, hostErrCount_getLsbD i h, decide_eq_true h, Bool.true_and,
    Bool.and_comm]

theorem State.barWrite_hostErr (s : State) (func off size : Nat) (v : BitVec 512) (h : off < 0x10) :
    s.barWrite func off size v =
      { s with hostErr := Table.set 0 s.hostErr func
                 (hostErrWrite (Table.get 0 s.hostErr func) (BitVec.ofNat 64 (wireOver off size v 0x08 8 0))) } := by
  rw [State.barWrite, if_neg (by omega), if_pos h]

/-! ### Event words (R437) -/

theorem Event.write_word (x : Event) (v : BitVec 512) :
    x.write (v.toNat % 256 ^ 4) = { x with vec := v.extractLsb' 16 11, ie := v.getLsbD 8 } := by
  have h1 : BitVec.ofNat 11 (v.toNat % 256 ^ 4 / 2 ^ 16) = v.extractLsb' 16 11 := by
    apply BitVec.eq_of_toNat_eq
    rw [BitVec.toNat_ofNat, BitVec.extractLsb'_toNat, Nat.shiftRight_eq_div_pow]
    omega
  have h2 : decide (v.toNat % 256 ^ 4 / 256 % 2 = 1) = v.getLsbD 8 := by
    rw [← BitVec.testBit_toNat, Nat.testBit_eq_decide_div_mod_eq]
    congr 1
    apply propext
    omega
  rw [Event.write, h1, h2]

/-- A write of one event word. -/
theorem State.eventWrite_word (s : State) (func e : Nat) (v : BitVec 512) (h0 : 0 < e) (h1 : e < 4096) :
    s.eventWrite func (0x140000 + 4 * e) 4 v
      = s.setEvent func e { s.event func e with vec := v.extractLsb' 16 11, ie := v.getLsbD 8 } := by
  have hd : (0x140000 + 4 * e - 0x140000) / 4 = e := by omega
  have hr : List.range (4 / 4 + 2) = [0, 1, 2] := rfl
  have k0 : (e + 0 = 0 || 4096 ≤ e + 0 || 0x140000 + 4 * e + 4 ≤ 0x140000 + 4 * (e + 0)
      || 0x140000 + 4 * (e + 0) + 4 ≤ 0x140000 + 4 * e) = false := by
    simp only [Bool.or_eq_false_iff, decide_eq_false_iff_not]; omega
  have k1 : (e + 1 = 0 || 4096 ≤ e + 1 || 0x140000 + 4 * e + 4 ≤ 0x140000 + 4 * (e + 1)
      || 0x140000 + 4 * (e + 1) + 4 ≤ 0x140000 + 4 * e) = true := by
    simp only [Bool.or_eq_true, decide_eq_true_eq]; omega
  have k2 : (e + 2 = 0 || 4096 ≤ e + 2 || 0x140000 + 4 * e + 4 ≤ 0x140000 + 4 * (e + 2)
      || 0x140000 + 4 * (e + 2) + 4 ≤ 0x140000 + 4 * e) = true := by
    simp only [Bool.or_eq_true, decide_eq_true_eq]; omega
  rw [State.eventWrite, hr, hd]
  simp only [List.foldl_cons, List.foldl_nil, k0, k1, k2, Bool.false_eq_true, ↓reduceIte]
  rw [Nat.add_zero, wireOver_whole, Event.write_word]

theorem State.barWrite_event (s : State) (func e : Nat) (v : BitVec 512) (h0 : 0 < e) (h1 : e < 4096) :
    s.barWrite func (0x140000 + 4 * e) 4 v
      = s.setEvent func e { s.event func e with vec := v.extractLsb' 16 11, ie := v.getLsbD 8 } := by
  rw [State.barWrite, if_neg (by omega), if_neg (by omega),
    if_pos (by rw [Bool.and_eq_true, decide_eq_true_eq, decide_eq_true_eq]; omega), State.eventWrite_word s func e v h0 h1]

/-! ### The load mailbox (R436) -/

theorem State.barWrite_load (s : State) (func size : Nat) (v : BitVec 512) : s.barWrite func 0x40 size v
    = if size = 64 ∧ loadFits v = true ∧ s.bootStage = 3 then { s with loads := s.loads ++ [(func, v)] } else s := by
  simp only [State.barWrite, ↓reduceIte, Bool.and_eq_true, decide_eq_true_eq, and_assoc]

theorem loadFits_iff (v : BitVec 512) : loadFits v = true ↔
    recField v 26 6 = 0 ∧ recField v 40 24 = 0 ∧ 0 < recField v 24 2 ∧ recField v 24 2 < 4096 := by
  simp only [loadFits, Bool.and_eq_true, decide_eq_true_eq, and_assoc]
  rfl

/-! ### The mailbox (R445, R452) -/

theorem State.barWrite_mailbox (s : State) (off size : Nat) (v : BitVec 512) (h : off < 4096) :
    s.barWrite 0 (0x1A00000 + off) size v = s.mailboxWrite off (wireBytes size v) := by
  rw [State.barWrite, if_neg (by omega), if_neg (by omega),
    if_neg (by rw [Bool.and_eq_true, decide_eq_true_eq, decide_eq_true_eq]; omega),
    if_pos (by simp only [Bool.and_eq_true, decide_eq_true_eq]; exact ⟨⟨trivial, by omega⟩, by omega⟩), Nat.add_sub_cancel_left]

/-- What a host's write leaves in the nonce: its bytes; what follows a command that is none touches GO alone. -/
theorem State.mailboxWrite_nonce (s : State) (off : Nat) (bs : List Byte) (k : Nat) (hk : k < 48) :
    Table.get 0 (s.mailboxWrite off bs).mailbox k
      = if off ≤ k ∧ k < off + bs.length then bs.getD (k - off) 0 else Table.get 0 s.mailbox k := by
  have h := get_putRun (fun a => mbWritable a && !(decide (s.mbNat mbGo 4 = 1) && decide (1024 ≤ a))) off bs 0 s.mailbox k
  have hw : (mbWritable k && !(decide (s.mbNat mbGo 4 = 1) && decide (1024 ≤ k))) = true := by
    simp [mbWritable, hk, show ¬ 1024 ≤ k by omega]
  simp only [hw, and_true, Nat.add_zero] at h
  rw [← h]
  unfold State.mailboxWrite
  dsimp only
  split
  · refine (State.mbPut_get _ mbGo [0, 0, 0, 0] k).trans (if_neg ?_)
    simp only [mbGo]; omega
  · rfl

theorem State.mbPut_frame (s : State) (off : Nat) (bs : List Byte) : ({ s.mbPut off bs with mailbox := s.mailbox } : State) = s := rfl

theorem State.mailboxWrite_frame (s : State) (off : Nat) (bs : List Byte) :
    ({ s.mailboxWrite off bs with mailbox := s.mailbox } : State) = s := by
  unfold State.mailboxWrite
  dsimp only
  split <;> rfl

/-! ### Attestation (R445) -/

/-- The signed part of a report, field by field. -/
def State.reportBody (s : State) : List Byte :=
  bytesOfNat Config.idSerial.toNat 8 ++ bytesOfNat Config.translatorVersion.toNat 4 ++ bytesOfNat 0 4
    ++ bytesOfNat (Config.imageDigest 1).toNat 48 ++ bytesOfNat (Config.imageDigest 0).toNat 48 ++ (List.range 48).map s.mbByte

theorem State.length_reportBody (s : State) : s.reportBody.length = 160 := by
  simp only [State.reportBody, List.length_append, length_bytesOfNat, List.length_map, List.length_range]

theorem State.report_eq (s : State) : s.report
    = s.reportBody ++ bytesOfNat (Config.attestSignature (BitVec.ofNat 1280 (natOfBytes s.reportBody))).toNat 96 := rfl

/-- Where each field of the signed part stands. -/
theorem State.reportBody_fields (s : State) :
    BytesAt s.reportBody 0 8 Config.idSerial.toNat ∧ BytesAt s.reportBody 8 4 Config.translatorVersion.toNat
      ∧ BytesAt s.reportBody 12 4 0 ∧ BytesAt s.reportBody 16 48 (Config.imageDigest 1).toNat
      ∧ BytesAt s.reportBody 64 48 (Config.imageDigest 0).toNat := by
  have hid := bytesAt_append [] 0 8 Config.idSerial.toNat rfl
  unfold State.reportBody
  refine ⟨((((hid.append_left _ ?_).append_left _ ?_).append_left _ ?_).append_left _ ?_).append_left _ ?_,
    ((((bytesAt_append _ 8 4 _ ?_).append_left _ ?_).append_left _ ?_).append_left _ ?_).append_left _ ?_,
    (((bytesAt_append _ 12 4 _ ?_).append_left _ ?_).append_left _ ?_).append_left _ ?_,
    ((bytesAt_append _ 16 48 _ ?_).append_left _ ?_).append_left _ ?_,
    (bytesAt_append _ 64 48 _ ?_).append_left _ ?_⟩
  all_goals simp only [List.length_append, length_bytesOfNat, List.length_nil, Nat.reduceAdd, Nat.reduceLeDiff]

/-- The nonce ends the signed part. -/
theorem State.reportBody_nonce (s : State) (i : Nat) (hi : i < 48) : s.reportBody.getD (112 + i) 0 = s.mbByte i := by
  unfold State.reportBody
  rw [List.getD_append_right _ _ _ _ (by simp only [List.length_append, length_bytesOfNat]; omega)]
  simp only [List.length_append, length_bytesOfNat, Nat.reduceAdd, Nat.add_sub_cancel_left, List.getD_eq_getElem?_getD,
    List.getElem?_map, List.getElem?_range hi, Option.map_some, Option.getD_some]

theorem State.length_report (s : State) : s.report.length = 256 := by
  rw [State.report_eq, List.length_append, State.length_reportBody, length_bytesOfNat]

/-- The mailbox once a report stands in it. -/
theorem State.attest_get (s : State) (i : Nat) (hi : i < 256) :
    Table.get 0 (s.mbPut 256 s.report).mailbox (256 + i) = s.report.getD i 0 := by
  rw [State.mbPut_get, if_pos (by rw [State.length_report]; omega), Nat.add_sub_cancel_left]

theorem State.attest_has (s : State) (o n v : Nat) (h : BytesAt s.report o n v) (hl : o + n ≤ 256) :
    Claims.MailHas (s.mbPut 256 s.report) (256 + o) n v := fun i hi => by
  rw [Nat.add_assoc, s.attest_get (o + i) (by omega)]
  exact h i hi

theorem State.attest_hasBody (s : State) (o n v : Nat) (h : BytesAt s.reportBody o n v) (hl : o + n ≤ 160) :
    Claims.MailHas (s.mbPut 256 s.report) (256 + o) n v :=
  s.attest_has o n v (by rw [State.report_eq]; exact h.append_left _ (by rw [s.length_reportBody]; exact hl)) (by omega)

/-- The signed part as the mailbox holds it. -/
theorem State.attest_mailNum (s : State) : Claims.mailNum (s.mbPut 256 s.report) 256 160 = natOfBytes s.reportBody := by
  rw [natOfBytes_eq_fromBytes, State.length_reportBody]
  refine fromBytes_congr _ _ 160 fun i hi => ?_
  rw [s.attest_get i (by omega), State.report_eq, List.getD_append _ _ _ _ (by rw [s.length_reportBody]; exact hi)]

theorem State.attest_nonce (s : State) (i : Nat) (hi : i < 48) :
    Table.get 0 (s.mbPut 256 s.report).mailbox (368 + i) = Table.get 0 s.mailbox i := by
  rw [show 368 + i = 256 + (112 + i) by omega, s.attest_get _ (by omega), State.report_eq,
    List.getD_append _ _ _ _ (by rw [s.length_reportBody]; omega), s.reportBody_nonce i hi]
  rfl

end Sys2Proof.Machine
end

section
/-! PROOF. Loads: what the loader leaves alone, and how a request served shows at its event (R423, R429, R436). -/

namespace Sys2Proof.Machine

/-! ### Writes of firmware -/

theorem State.fwPut_storage (s : State) (pl : Place) (b : Byte) : SameButStorage s (s.fwPut pl b) := by
  unfold State.fwPut
  split
  · exact s.l2Write_storage _ _
  · exact s.storeBytes_storage _ _

theorem State.tryWrite_storage (s : State) (func a : Nat) (bs : List Byte) : SameButStorage s (s.tryWrite func a bs) := by
  unfold State.tryWrite State.fwWrite
  split
  · exact .refl s
  · refine SameButStorage.foldl _ (fun v e => ?_) _ s
    exact v.fwPut_storage e.1 e.2

/-! ### What the loader leaves alone -/

/-- Two states that differ at most in what the loader changes: storage, pages and their translations, the code heap, and the objects
and functions loaded. -/
def SameButLoad (s t : State) : Prop :=
  SameButStorage s { t with
    seq := s.seq, roots := s.roots, tlb := s.tlb, pagesOut := s.pagesOut, pagesFree := s.pagesFree, dieSeen := s.dieSeen,
    code := s.code, objNext := s.objNext, objs := s.objs, funcs := s.funcs }

theorem SameButStorage.load {s t : State} (h : SameButStorage s t) : SameButLoad s t := by
  unfold SameButStorage at h
  exact congrArg (fun v : State =>
    { v with seq := s.seq, roots := s.roots, tlb := s.tlb, pagesOut := s.pagesOut, pagesFree := s.pagesFree,
             dieSeen := s.dieSeen, code := s.code, objNext := s.objNext, objs := s.objs, funcs := s.funcs }) h

namespace SameButLoad
variable {s t u : State}

theorem refl (s : State) : SameButLoad s s := rfl

theorem trans (h : SameButLoad s t) (k : SameButLoad t u) : SameButLoad s u := by
  unfold SameButLoad SameButStorage at *
  exact (congrArg (fun v : State =>
    { v with mem := s.mem, l1Seq := s.l1Seq, l1Cel := s.l1Cel, l2 := s.l2, ecc := s.ecc, rewrites := s.rewrites,
             flaws := s.flaws, errLog := s.errLog, errCount := s.errCount, health := s.health, layers := s.layers,
             seq := s.seq, roots := s.roots, tlb := s.tlb, pagesOut := s.pagesOut, pagesFree := s.pagesFree,
             dieSeen := s.dieSeen, code := s.code, objNext := s.objNext, objs := s.objs, funcs := s.funcs }) k).trans h

theorem events (h : SameButLoad s t) : t.events = s.events := (congrArg State.events h :)
theorem loads (h : SameButLoad s t) : t.loads = s.loads := (congrArg State.loads h :)

theorem setObjs (h : SameButLoad s t) (o : PMap Obj) (f : List Func) (n : Nat) :
    SameButLoad s { t with objs := o, funcs := f, objNext := n } := h

theorem ite {p : Prop} [Decidable p] (h : SameButLoad s t) : SameButLoad s (if p then t else s) := by
  split
  · exact h
  · exact refl s

theorem foldl {α : Type} (f : State → α → State) (hf : ∀ v a, SameButLoad v (f v a)) (l : List α) (s : State) :
    SameButLoad s (l.foldl f s) :=
  foldl_keeps (fun v => SameButLoad s v) f (fun v a h => h.trans (hf v a)) l s (refl s)

end SameButLoad

theorem State.powerOn_load (s : State) (p n : Nat) : SameButLoad s (s.powerOn p n) := (s.wakeLayers_sameButLog _ _ n).storage.load

theorem State.newPage_load (s : State) (stack p : Nat) (t : State) (h : s.newPage stack = some (p, t)) : SameButLoad s t := by
  unfold State.newPage at h
  dsimp only at h
  split at h
  · cases h
    refine SameButLoad.trans ?_ (State.powerOn_load _ _ _)
    rfl
  · rw [Option.map_eq_some_iff] at h
    obtain ⟨q, _, h⟩ := h
    cases h
    refine SameButLoad.trans ?_ (State.powerOn_load _ _ _)
    rfl

theorem State.tablePage_load (s : State) (p : Nat) (t : State) (h : s.tablePage = some (p, t)) : SameButLoad s t := by
  unfold State.tablePage at h
  rw [Option.map_eq_some_iff] at h
  obtain ⟨⟨q, u⟩, hq, h⟩ := h
  cases h
  exact (s.newPage_load 0 q u hq).trans (u.dramWrite_storage _ _).load

theorem State.writePte_load (s : State) (a : Nat) (e : BitVec 64) : SameButLoad s (s.writePte a e) := (s.dramWrite_storage _ _).load

theorem State.mapFrom_load (a p : Nat) : ∀ (l : Nat) (s : State) (base : Nat), SameButLoad s (s.mapFrom a p l base) := by
  intro l
  induction l with
  | zero => exact fun s base => s.writePte_load _ _
  | succ l ih =>
    intro s base
    unfold State.mapFrom
    dsimp only
    split
    · exact ih s _
    · cases ht : s.tablePage with
      | none => exact .refl s
      | some e => exact ((s.tablePage_load e.1 e.2 ht).trans (State.writePte_load _ _ _)).trans (ih _ _)

theorem State.rootOf_load (s : State) (func r : Nat) (t : State) (h : s.rootOf func = some (r, t)) : SameButLoad s t := by
  unfold State.rootOf at h
  split at h
  · cases h; exact .refl s
  · rw [Option.map_eq_some_iff] at h
    obtain ⟨⟨q, u⟩, hq, h⟩ := h
    cases h
    exact (s.tablePage_load q u hq).trans rfl

theorem State.mapPage_load (s : State) (func stack a : Nat) : SameButLoad s (s.mapPage func stack a) := by
  unfold State.mapPage
  split
  · cases hr : s.rootOf func with
    | none => exact .refl s
    | some e =>
      cases hp : e.2.newPage stack with
      | none => simp only [hp]; exact .refl s
      | some q =>
        simp only [hp]
        exact ((s.rootOf_load func e.1 e.2 hr).trans (e.2.newPage_load stack q.1 q.2 hp)).trans (State.mapFrom_load _ _ _ _ _)
  · exact .refl s

theorem State.mapRange_load (s : State) (func stack a n : Nat) : SameButLoad s (s.mapRange func stack a n) :=
  SameButLoad.foldl _ (fun v p => v.mapPage_load func stack p) _ s

theorem State.mapData_load (s : State) (func : Nat) (l : Layout) (fs : List Func) (t : State) (h : s.mapData func l fs = some t) :
    SameButLoad s t := by
  unfold State.mapData at h
  dsimp only at h
  split at h
  · cases h
    refine SameButLoad.foldl _ (fun v e => ?_) _ s
    exact v.mapRange_load _ _ _ _
  · cases h

theorem State.placeBytes_load (s : State) (func a : Nat) (bs : List Byte) : SameButLoad s (s.placeBytes func a bs) := by
  unfold State.placeBytes
  refine SameButLoad.foldl _ (fun v e => ?_) _ s
  dsimp only
  split
  · exact (v.dramWrite_storage _ _).load.trans rfl
  · exact .refl v

theorem State.mend_code_load (s : State) (p : Cell → Bool) (c : List CodeLine) : SameButLoad s { s.mend p with code := c } := by
  obtain ⟨l, e⟩ := s.mend_flaws p
  rw [e]
  rfl

theorem State.addLine_load (s : State) (a : Nat) (l : BitVec 512) : SameButLoad s (s.addLine a l) := s.mend_code_load _ _

theorem State.writeEntry_load (s : State) (f : Func) : SameButLoad s (s.writeEntry f) := by
  unfold State.writeEntry
  dsimp only
  split
  · exact .refl s
  · refine SameButLoad.foldl _ (fun v b => ?_) _ s
    exact v.placeBytes_load _ _ _

theorem State.install_load (s : State) (func k : Nat) (m : Image) (l : Layout) (cs : List (List Byte)) :
    SameButLoad s (s.install func k m l cs) := by
  unfold State.install
  dsimp only
  refine SameButLoad.trans ?_ (SameButLoad.foldl State.writeEntry State.writeEntry_load _ _)
  refine SameButLoad.setObjs ?_ _ _ _
  refine SameButLoad.trans (SameButLoad.trans ?_ (SameButLoad.foldl _ (fun v f => ?_) _ _))
    (SameButLoad.foldl _ (fun v e => ?_) _ _)
  · -- the lines of TEXT sections
    refine SameButLoad.foldl _ (fun v e => .ite ?_) _ s
    refine SameButLoad.foldl _ (fun w i => ?_) _ v
    exact w.addLine_load _ _
  · -- the stub lines
    exact .ite (v.addLine_load _ _)
  · -- a copy of the table and of the data
    refine (v.placeBytes_load _ _ _).trans (SameButLoad.foldl _ (fun w x => .ite ?_) _ _)
    exact w.placeBytes_load _ _ _

/-- A load that succeeds changes what the loader changes. -/
theorem State.loadObject_load (s : State) (func obj size : Nat) (t : State) (first : Nat) (addrs : List Nat)
    (h : s.loadObject func obj size = .ok (t, first, addrs)) : SameButLoad s t := by
  unfold State.loadObject at h
  dsimp only at h
  split at h
  · cases h
  · split at h
    · cases h
    · split at h
      · cases h
      · split at h
        · cases h
        · split at h
          · cases h
          · split at h
            · cases h
            · rename_i u hu
              cases h
              exact (s.mapData_load func _ _ u hu).trans (u.install_load _ _ _ _ _)

/-! ### What a request shows once it is served -/

theorem State.changeEvent_cases (s : State) (f e : Nat) (st : BitVec 2) (h0 : 0 < e) (h1 : e < 4096) : ∃ l q m,
    s.changeEvent f e st = { s.setEvent f e { s.event f e with st := st } with launches := l, queues := q, msix := m } := by
  have he : ¬ (e = 0 || 4096 ≤ e) = true := by simp only [Bool.or_eq_true, decide_eq_true_eq]; omega
  unfold State.changeEvent State.noteEvent
  rw [if_neg he]
  dsimp only
  split
  · exact ⟨_, _, _, rfl⟩
  · exact ⟨_, _, s.msix, rfl⟩

/-- What is loaded in `t` is what is loaded in `v`, and event `e` has become `st`. -/
def LoadShown (v t : State) (f e : Nat) (st : BitVec 2) : Prop :=
  t.event f e = { v.event f e with st := st } ∧ t.funcs = v.funcs ∧ t.objs = v.objs ∧ t.code = v.code ∧ t.loads = v.loads

/-- Bytes written before an event changes leave what is loaded. -/
theorem SameButStorage.changeEvent {v w : State} (h : SameButStorage v w) (f e : Nat) (st : BitVec 2) (h0 : 0 < e) (h1 : e < 4096) :
    LoadShown v (w.changeEvent f e st) f e st := by
  obtain ⟨l, q, m, hc⟩ := w.changeEvent_cases f e st h0 h1
  have he : w.event f e = v.event f e := by rw [State.event, h.events]; rfl
  rw [hc]
  refine ⟨?_, h.funcs, h.objs, h.code, h.loads⟩
  rw [← he]
  exact Table.get_set_same _ _ _ _

theorem State.fwNote_clean (s : State) (func a n : Nat) (he : s.ecc = []) (hl : s.layers = []) : s.fwNote func a n = s := by
  rw [State.fwNote, he, hl]
  rfl

/-- A request whose load fails changes nothing that is loaded. -/
theorem State.serveLoad_error (s : State) (func : Nat) (r : BitVec 512) (e : LoadErr) (he : s.ecc = []) (hl : s.layers = [])
    (h0 : 0 < recField r 24 2) (h1 : recField r 24 2 < 4096)
    (h : s.loadObject func (recField r 0 8) (recField r 8 8) = .error e) :
    LoadShown s (s.serveLoad func r) func (recField r 24 2) 2 := by
  rw [State.serveLoad, s.fwNote_clean _ _ _ he hl, h]
  exact (s.tryWrite_storage _ _ _).changeEvent _ _ _ h0 h1

/-- A request whose load succeeds leaves loaded what the loader loaded. -/
theorem State.serveLoad_ok (s : State) (func : Nat) (r : BitVec 512) (v : State) (first : Nat) (addrs : List Nat)
    (he : s.ecc = []) (hl : s.layers = []) (h0 : 0 < recField r 24 2) (h1 : recField r 24 2 < 4096)
    (h : s.loadObject func (recField r 0 8) (recField r 8 8) = .ok (v, first, addrs)) :
    LoadShown v (s.serveLoad func r) func (recField r 24 2) 1 := by
  rw [State.serveLoad, s.fwNote_clean _ _ _ he hl, h]
  refine SameButStorage.changeEvent ?_ _ _ _ h0 h1
  refine SameButStorage.trans ?_ (State.tryWrite_storage _ _ _ _)
  split
  · exact .refl v
  · refine SameButStorage.foldl _ (fun w e => ?_) _ v
    exact w.tryWrite_storage _ _ _

end Sys2Proof.Machine
end

section
/-! PROOF. Resets, writes to the register block, loads and attestation, event by event (R18, R30, R115, R363, R418, R423, R435 to
R437, R443 to R445). -/

namespace Sys2Proof.Claims

open Sys2Proof Sys2Proof.Machine

/-! ### The events of resets and of the host port -/

theorem exec_packageReset (s : State) : exec .packageReset s = .next s.packageReset := rfl

theorem exec_dieReset (die : Nat) (s : State) : exec (.dieReset die) s = eventOp (fun _ => die < 48) (·.resetDie die) s := rfl

theorem exec_registerWrite (func off size : Nat) (v : BitVec 512) (s : State) :
    exec (.registerWrite func off size v) s = eventOp (·.hasFunc func) (·.barWrite func off size v) s := rfl

theorem exec_attestRequest (s : State) :
    exec .attestRequest s = eventOp (fun s => s.bootStage == 3) (fun s => s.mbPut 256 s.report) s := rfl

theorem exec_loadRequest (s : State) (func : Nat) (r : BitVec 512) (rest : List (Nat × BitVec 512)) (h : s.loads = (func, r) :: rest) :
    exec .loadRequest s = .next (State.serveLoad { s with loads := rest } func r) := by
  have e : exec .loadRequest s = eventOp (fun s => !s.loads.isEmpty) (fun s =>
    match s.loads with
    | [] => s
    | r :: rest => State.serveLoad { s with loads := rest } r.1 r.2) s := rfl
  rw [e, eventOp_met _ _ s (by rw [h]; rfl)]
  simp only [h]

/-- A host's write to a function that exists. -/
theorem registerWrite_met (s : State) (func off size : Nat) (v : BitVec 512) (h : s.hasFunc func = true) :
    exec (.registerWrite func off size v) s = .next (s.barWrite func off size v) :=
  (exec_registerWrite func off size v s).trans (eventOp_met _ _ s h)

theorem registerWrite_unmet (s : State) (func off size : Nat) (v : BitVec 512) (h : s.hasFunc func = false) :
    exec (.registerWrite func off size v) s = .next s :=
  (exec_registerWrite func off size v s).trans (eventOp_unmet _ _ s h)

/-! ### Resets -/

/-- R18, R22, R418, R435 and R443: what a package reset leaves. -/
theorem packageReset_leaves (s : State) : ∃ t, exec .packageReset s = .next t
    ∧ (∀ c, t.ctx c = Ctx.unbound) ∧ (∀ d, t.dctx d = DieCtx.unbound) ∧ (∀ d, t.die d = Die.fresh)
    ∧ t.timeCnt = 0 ∧ t.podBound = 0xFFFF ∧ t.pkgBound = 0xFFFF ∧ t.timeLost = false ∧ t.podValid = false
    ∧ t.launches = [] ∧ t.queues = [] ∧ t.events = [] ∧ t.l2 = [] ∧ t.ecc = [] ∧ t.errCount = 0
    ∧ t.repairs = s.repairs ∧ t.rolian = s.rolian ∧ t.xlations = [] ∧ (s.repairs = [] → t.health = [])
    ∧ (∀ k, k < 2 ^ 56 → Memory.readByte t.mem k = 0)
    ∧ (∀ k, 2 ^ 56 ≤ k → Memory.readByte t.mem k = Memory.readByte s.mem k)
    ∧ (match s.boot with
      | .ok v => t.bootStage = 3 ∧ t.bootErr = 0 ∧ t.secVer = v
          ∧ ∀ n ∈ s.repairs, (t.healthOf (BitVec.ofNat 32 n)).st = .retired
      | .error e => t.bootStage = 0 ∧ t.bootErr = BitVec.ofNat 8 e ∧ t.secVer = s.secVer) := by
  obtain ⟨h, sp, d, st, er, sv, e, hh, hb⟩ := s.packageReset_cases
  refine ⟨s.packageReset, exec_packageReset s, ?_⟩
  rw [e]
  refine ⟨fun c => ?_, fun d => rfl, fun d => rfl, rfl, rfl, rfl, rfl, rfl, rfl, rfl, rfl, rfl, rfl, rfl, rfl, rfl, rfl, hh,
    fun k hk => ?_, fun k hk => ?_, ?_⟩
  · exact (State.ctx_congr State.reset _ rfl rfl c).trans (State.reset_ctx c)
  · exact (s.afterReset_readByte k).trans (if_neg (by omega))
  · exact (s.afterReset_readByte k).trans (if_pos hk)
  · cases hs : s.boot with
    | ok v => rw [hs] at hb; exact hb
    | error e => rw [hs] at hb; exact hb

/-- R18: what a die reset leaves of a die's contexts. -/
theorem dieReset_dctx (s t : State) (n : Nat) (ht : t.dieCtx = (s.resetContexts n).dieCtx) :
    (∀ k : Fin 2,
        let x := s.dctx { die := n, k := k }
        let y := t.dctx { die := n, k := k }
        (x.part = none → y = DieCtx.unbound) ∧ (x.part ≠ none → ∃ f, y = x.blur f))
    ∧ (∀ e : DieId, e.key ≠ ({ die := n, k := 0 } : DieId).key → e.key ≠ ({ die := n, k := 1 } : DieId).key →
        t.dctx e = s.dctx e) := by
  have hk : ({ die := n, k := 0 } : DieId).key ≠ ({ die := n, k := 1 } : DieId).key := by simp [DieId.key]
  refine ⟨fun k => ?_, fun e h0 h1 => ?_⟩
  · dsimp only
    rw [State.dctx_congr _ _ ht]
    match k with
    | 0 =>
      rw [State.resetContexts, State.dctx_resetDctx_other _ _ _ hk]
      exact s.dctx_resetDctx_same { die := n, k := 0 }
    | 1 =>
      have h := (s.resetDctx { die := n, k := 0 }).dctx_resetDctx_same { die := n, k := 1 }
      rw [State.dctx_resetDctx_other s _ _ hk.symm] at h
      exact h
  · rw [State.dctx_congr _ _ ht, State.resetContexts, State.dctx_resetDctx_other _ _ _ h1, State.dctx_resetDctx_other _ _ _ h0]

/-- No packet is next on a die context that has lost its queue. -/
theorem nextPacket_lost (s : State) (d : DieId) (h : (s.dctx d).lost = true) : s.nextPacket d = none := by
  unfold State.nextPacket
  dsimp only
  cases (s.dctx d).part with
  | none => rfl
  | some n => exact if_pos h

/-- R18 and R30: what a die reset leaves. -/
theorem dieReset_leaves (s : State) (n : Nat) (hn : n < 48) : ∃ t, exec (.dieReset n) s = .next t
    ∧ t.die n = Die.fresh ∧ (∀ m, m ≠ n → t.die m = s.die m)
    ∧ (∀ k : Fin 2,
        let x := s.dctx { die := n, k := k }
        let y := t.dctx { die := n, k := k }
        (x.part = none → y = DieCtx.unbound)
        ∧ (x.part ≠ none → y.part = x.part ∧ y.retired = x.retired ∧ y.rank = 0 ∧ y.count = 0 ∧ y.lost = true
            ∧ t.nextPacket { die := n, k := k } = none ∧ y.dflags &&& 0xFFFFFFFF0000FFC0 = 0
            ∧ y.nests = [] ∧ y.engines = [] ∧ y.xregs = [] ∧ y.cbs = [] ∧ y.fault = none ∧ y.engFault = none))
    ∧ (∀ e : DieId, e.key ≠ ({ die := n, k := 0 } : DieId).key → e.key ≠ ({ die := n, k := 1 } : DieId).key →
        t.dctx e = s.dctx e)
    ∧ Table.get TimeCopy.same t.copies (12 + n) = TimeCopy.same
    ∧ SameMemoryBut s t (dieMemKey n 0) (192 * 2 ^ 20)
    ∧ (∀ f a, t.tlbEntry (256 + n) f a = none)
    ∧ ({ t with dieCtx := s.dieCtx, dies := s.dies, mem := s.mem, ecc := s.ecc, free := s.free, copies := s.copies,
                flaws := s.flaws, tlb := s.tlb } : State) = s := by
  obtain ⟨f, m, ec, fl, e, hm⟩ := s.resetDie_cases n
  obtain ⟨hself, hother⟩ := dieReset_dctx s (s.resetDie n) n (by rw [e])
  have hdies : (s.resetDie n).dies = (s.setDie n Die.fresh).dies := by rw [e]
  have hmem : (s.resetDie n).mem = m := by rw [e]
  have htlb : (s.resetDie n).tlb = (s.dropTlb (· == 256 + n) (fun _ => true)).tlb := by rw [e]
  have hcopies : (s.resetDie n).copies = Table.erase s.copies (12 + n) := by rw [e]
  refine ⟨s.resetDie n, (exec_dieReset n s).trans (eventOp_met _ _ s (decide_eq_true hn)), ?_, fun j hj => ?_, fun k => ?_, hother,
    ?_, fun k hk => ?_, fun f a => ?_, ?_⟩
  · rw [State.die, hdies]
    exact (s.die_setDie n n Die.fresh).trans (if_pos rfl)
  · rw [State.die, hdies]
    exact (s.die_setDie n j Die.fresh).trans (if_neg (Ne.symm hj))
  · refine ⟨(hself k).1, fun hp => ?_⟩
    obtain ⟨g, hg⟩ := (hself k).2 hp
    have hlost : (DieCtx.blur (s.dctx { die := n, k := k }) g).lost = true := rfl
    refine ⟨?_, ?_, ?_, ?_, ?_, nextPacket_lost _ _ (by rw [hg]; exact hlost), ?_, ?_, ?_, ?_, ?_, ?_, ?_⟩
    case refine_6 => rw [hg]; exact DieCtx.blur_dflags _ _
    all_goals rw [hg]; rfl
  · rw [hcopies, Table.get, Table.find?_erase, if_pos rfl]
    rfl
  · rw [hmem]
    exact hm k hk
  · rw [State.tlbEntry, htlb]
    exact s.tlbEntry_dropTlb_all (· == 256 + n) (256 + n) f a (beq_self_eq_true _)
  · rw [e]

/-! ### Writes to the register block -/

/-- R435: ones written clear bits of COUNT of HOST_ERR. -/
theorem hostErr_clears (s : State) (func off size : Nat) (v : BitVec 512) (hf : s.hasFunc func = true) (h8 : 8 ≤ off)
    (h16 : off + size ≤ 16) :
    ∃ t, exec (.registerWrite func off size v) s = .next t ∧ ({ t with hostErr := s.hostErr } : State) = s
      ∧ (∀ i, i < 64 → (Table.get 0 t.hostErr func : Word).getLsbD i = ((Table.get 0 s.hostErr func : Word).getLsbD i
          && !(decide (48 ≤ i ∧ 8 * (off - 8) ≤ i ∧ i < 8 * (off - 8 + size)) && v.getLsbD (i - 8 * (off - 8))))) := by
  refine ⟨s.barWrite func off size v, registerWrite_met s func off size v hf, ?_⟩
  by_cases ho : off < 0x10
  · rw [s.barWrite_hostErr func off size v ho]
    refine ⟨rfl, fun i hi => ?_⟩
    dsimp only
    rw [Table.get_set_same, hostErrWrite_getLsbD _ _ i hi, BitVec.getLsbD_ofNat, wireOver_zero_testBit off size v 8 8 i (by omega),
      decide_eq_true hi, Bool.true_and]
    by_cases hc : 48 ≤ i ∧ 8 * (off - 8) ≤ i ∧ i < 8 * (off - 8 + size)
    · rw [decide_eq_true hc, decide_eq_true hc.1, decide_eq_true (p := off ≤ 8 + i / 8 ∧ 8 + i / 8 < off + size) (by omega),
        show 8 * (8 + i / 8 - off) + i % 8 = i - 8 * (off - 8) by omega]
      rfl
    · rw [decide_eq_false hc]
      by_cases h48 : 48 ≤ i
      · rw [decide_eq_false (p := off ≤ 8 + i / 8 ∧ 8 + i / 8 < off + size) (by omega), Bool.false_and, Bool.and_false]
        rfl
      · rw [decide_eq_false h48]
        rfl
  · -- an empty write at the end of the register
    obtain ⟨rfl, rfl⟩ : off = 16 ∧ size = 0 := by omega
    have e : s.barWrite func 16 0 v = s := by simp [State.barWrite]
    rw [e]
    refine ⟨rfl, fun i _ => ?_⟩
    rw [decide_eq_false (by omega), Bool.false_and, Bool.not_false, Bool.and_true]

/-- R436: a request that does not fit is ignored. -/
theorem load_ignored (s : State) (func size : Nat) (v : BitVec 512)
    (h : size ≠ 64 ∨ recField v 26 6 ≠ 0 ∨ recField v 40 24 ≠ 0) : exec (.registerWrite func 0x40 size v) s = .next s := by
  cases hf : s.hasFunc func with
  | false => exact registerWrite_unmet s func _ size v hf
  | true =>
    refine (registerWrite_met s func _ size v hf).trans (congrArg _ ?_)
    rw [State.barWrite_load, if_neg]
    rw [loadFits_iff]
    rintro ⟨h64, ⟨h26, h40, _⟩, _⟩
    exact h.elim (fun k => k h64) (fun h => h.elim (fun k => k h26) (fun k => k h40))

/-- R445: the nonce takes the bytes that a host writes. -/
theorem nonce_takes (s : State) (off size : Nat) (v : BitVec 512) (hl : off + size ≤ 48) :
    ∃ t, exec (.registerWrite 0 (0x1A00000 + off) size v) s = .next t
      ∧ (∀ i, i < size → Table.get 0 t.mailbox (off + i) = v.extractLsb' (8 * i) 8)
      ∧ ({ t with mailbox := s.mailbox } : State) = s := by
  refine ⟨s.mailboxWrite off (wireBytes size v), (registerWrite_met s 0 _ size v rfl).trans (congrArg _ ?_), fun i hi => ?_,
    s.mailboxWrite_frame _ _⟩
  · exact s.barWrite_mailbox off size v (by omega)
  · rw [s.mailboxWrite_nonce off _ (off + i) (by omega), if_pos (by rw [wireBytes, length_bytesOfNat]; omega), Nat.add_sub_cancel_left,
      wireBytes, getD_bytesOfNat size v.toNat i hi]
    apply BitVec.eq_of_toNat_eq
    rw [BitVec.toNat_ofNat, BitVec.extractLsb'_toNat, Nat.shiftRight_eq_div_pow, pow_mul]
    rfl

/-! ### Attestation and loads -/

/-- R445: the report that an attestation answers, and its signature. -/
theorem attest_answers (s : State) (h : s.bootStage = 3) :
    ∃ t, exec .attestRequest s = .next t ∧ ({ t with mailbox := s.mailbox } : State) = s
      ∧ MailHas t 256 8 Config.idSerial.toNat ∧ MailHas t 264 4 Config.translatorVersion.toNat ∧ MailHas t 268 4 0
      ∧ MailHas t 272 48 (Config.imageDigest 1).toNat ∧ MailHas t 320 48 (Config.imageDigest 0).toNat
      ∧ (∀ i, i < 48 → Table.get 0 t.mailbox (368 + i) = Table.get 0 s.mailbox i)
      ∧ MailHas t 416 96 (Config.attestSignature (BitVec.ofNat 1280 (mailNum t 256 160))).toNat := by
  obtain ⟨hid, hver, hzero, hfirst, hsecond⟩ := s.reportBody_fields
  refine ⟨s.mbPut 256 s.report, (exec_attestRequest s).trans (eventOp_met _ _ s (by simp [h])), s.mbPut_frame _ _,
    s.attest_hasBody 0 8 _ hid (by omega), s.attest_hasBody 8 4 _ hver (by omega), s.attest_hasBody 12 4 _ hzero (by omega),
    s.attest_hasBody 16 48 _ hfirst (by omega), s.attest_hasBody 64 48 _ hsecond (by omega), s.attest_nonce, ?_⟩
  rw [s.attest_mailNum]
  refine s.attest_has 160 96 _ ?_ (by omega)
  rw [s.report_eq]
  exact bytesAt_append _ 160 96 _ s.length_reportBody

/-- R423, R429 and R436: what a load request shows at its event. -/
theorem loadRequest_answers (s : State) (func : Nat) (r : BitVec 512) (rest : List (Nat × BitVec 512)) (he : s.ecc = [])
    (hl : s.layers = []) (hr : s.loads = (func, r) :: rest) (h0 : 0 < recField r 24 2) (h1 : recField r 24 2 < 4096) :
    let u : State := { s with loads := rest }
    let sig := recField r 24 2
    ∃ t, exec .loadRequest s = .next t ∧ t.loads = rest ∧ match u.loadObject func (recField r 0 8) (recField r 8 8) with
      | .error _ => t.event func sig = { s.event func sig with st := 2 } ∧ t.funcs = s.funcs ∧ t.objs = s.objs
          ∧ t.code = s.code
      | .ok (v, _, _) => t.event func sig = { s.event func sig with st := 1 } ∧ t.funcs = v.funcs ∧ t.objs = v.objs
          ∧ t.code = v.code := by
  intro u sig
  refine ⟨u.serveLoad func r, exec_loadRequest s func r rest hr, ?_⟩
  cases h : u.loadObject func (recField r 0 8) (recField r 8 8) with
  | error e =>
    obtain ⟨hev, hfuncs, hobjs, hcode, hloads⟩ := u.serveLoad_error func r e he hl h0 h1 h
    exact ⟨hloads, hev, hfuncs, hobjs, hcode⟩
  | ok x =>
    obtain ⟨v, first, addrs⟩ := x
    have hload := u.loadObject_load _ _ _ v first addrs h
    obtain ⟨hev, hfuncs, hobjs, hcode, hloads⟩ := u.serveLoad_ok func r v first addrs he hl h0 h1 h
    refine ⟨hloads.trans hload.loads, hev.trans ?_, hfuncs, hobjs, hcode⟩
    rw [State.event, hload.events]
    rfl

/-- Settles O51, event by event. -/
theorem resetsAndHostPort : Obligations.ResetsAndHostPort := by
  unfold Obligations.ResetsAndHostPort
  intro s
  refine ⟨packageReset_leaves s, dieReset_leaves s, ?_, hostErr_clears s, ?_, registerWrite_unmet s, ?_, load_ignored s, ?_,
    attest_answers s, loadRequest_answers s⟩
  · -- no such die
    exact fun n hn => (exec_dieReset n s).trans (eventOp_unmet _ _ s (decide_eq_false (by omega)))
  · -- an event word
    intro func e v hf h0 h1
    rw [registerWrite_met s func _ 4 v hf, s.barWrite_event func e v h0 h1]
  · -- a load request that fits
    intro func v hf hb h26 h40 h0 h1
    refine (registerWrite_met s func _ 64 v hf).trans (congrArg _ ?_)
    rw [State.barWrite_load, if_pos]
    rw [loadFits_iff]
    exact ⟨rfl, ⟨h26, h40, h0, h1⟩, hb⟩
  · -- the nonce
    exact fun off size v _ hl => nonce_takes s off size v hl

end Sys2Proof.Claims
end
